-- ==== Sys2Proof/Word.lean ====
section
/-! DEFINITION. The word types of the VA-960 (R1, R3, R4) and their plainest arithmetic. -/

namespace Sys2Proof

/-- One byte of memory (R1). -/
abbrev Byte := BitVec 8

/-- One per-lane, scalar or mask register: 32 bits (R4). -/
abbrev W32 := BitVec 32

/-- A pair of registers, a weir register, an address operand: 64 bits (R4). -/
abbrev W64 := BitVec 64

/-- A 64-byte queue packet (R311). -/
abbrev Packet := BitVec 512

/-- Bytes per scratchpad, vault or device-memory line (R41, R16). -/
abbrev lineBytes : Nat := 128

/-- Bytes of the smallest page (R22). -/
abbrev pageBytes : Nat := 32768

end Sys2Proof
end

