-- ==== Sys2Proof/Config.lean ====
section
/-! DEFINITION. What the spec leaves open and the machine goes on with: opaque constants without a body, so that no proof
sees a value of them (log 4), and the implementation's own constants. Each is applied to the counter State.free, or to
what it depends on. -/

namespace Sys2Proof.Config

/-- Free bits, by counter value (R127, R135: which value within the bound; R48: which bytes a race returns). -/
opaque freeWord : Nat → BitVec 64

/-- How far the counter of a die runs from die 0's, taken modulo 17: at most 16 clocks (R141, R398). -/
opaque dieSkew : Nat → Nat

/-- ROM version and fuse configuration (R396, R399). -/
opaque romVersion : BitVec 32
opaque fuseConfig : BitVec 256

/-- Which of the 16 banks of its channel a line of device memory lies in, by DPA: not in the spec (R386). -/
opaque bankOf : Nat → Nat

/-- Device identity public key, 64 bytes, by byte (R399). -/
opaque identityKey : Nat → BitVec 8

/-- The signature the identity key gives to a report's first 448 bytes, by byte (R399). -/
opaque signature : List (BitVec 8) → Nat → BitVec 8

/-- The SHA-256 of a patch set, its version, and whether it bears the signature of the key that the fuses name, each of the
image's bytes; how many bytes an image has; and the least version the fuses allow. The format of a patch image is not in the
spec (R400, log 26). -/
opaque patchHash : List (BitVec 8) → BitVec 256
opaque patchVersion : List (BitVec 8) → Nat
opaque patchSigned : List (BitVec 8) → Bool
opaque patchLength : Nat
opaque patchMinimum : Nat

/-- What the standard identify and log commands of the mailbox return (R395, log 26). -/
opaque identifyData : List (BitVec 8)
opaque logData : List (BitVec 8)

/-- The encoded bitstream of a frame: free counter, key frame, descriptor, and the samples of the reduced frame to bytes
(R330 to R332). -/
opaque bitstream : Nat → Bool → List (BitVec 8) → List Int → List (BitVec 8)

/-- Byte `i` of the 16 bytes QUERY writes of a weir tensor entry's counters VIOL, SATC, UFC and EMAX: their layout is not in
the spec (R319, log 27). -/
opaque weirCounterByte : Nat → Nat → Nat → Int → Nat → BitVec 8

/-- Bytes of a checkpoint header beyond its ROM version and fuse configuration (R396). -/
opaque ckptHeader : Nat → BitVec 8

end Sys2Proof.Config
end

