-- ==== Sys2Proof/Syntax.lean ====
section
/-! DEFINITION. The steps of the VA-960 as data: one constructor of Instr per row of spec/opcode_table.json.
SIMT instructions carry their instruction word, field by field as R83 to R86 lay it out; weir instructions theirs (R222);
hook words their operands (R322); commands their 64-byte packet (R311); the host's register and mailbox writes what is
written (R308, R32, R395); events the agent they happen to. -/

namespace Sys2Proof

/-- The length code of an instruction word (R82). -/
inductive Len where
  /-- LEN 0b01: 64 bits. -/
  | w64
  /-- LEN 0b10: 96 bits. -/
  | w96
  /-- LEN 0b11: 128 bits. -/
  | w128
deriving DecidableEq, Repr, Inhabited

/-- A SIMT instruction word, its fields by the names of R83 to R85. `ext` is bits [95:64] of a 96-bit word or
[127:64] of a 128-bit word, zero in a 64-bit word. -/
structure Word where
  /-- [7:4]: guard code (R83). -/
  gk : BitVec 4 := 15
  /-- [3]: guard negate. -/
  gn : Bool := false
  /-- [2]: run marker. -/
  mark : Bool := false
  /-- [1:0]: length. -/
  len : Len := .w64
  /-- [23:16]: destination. -/
  d : BitVec 8 := 0
  /-- [31:24]: operand A. -/
  a : BitVec 8 := 0
  /-- [39:32]: operand B or the 8-bit immediate. -/
  b : BitVec 8 := 0
  /-- [47:40]: operand C. -/
  c : BitVec 8 := 0
  /-- [51:48]: type code (R85). -/
  ty : BitVec 4 := 0
  /-- [55:52]: sub-operation or second type (R85). -/
  sop : BitVec 4 := 0
  /-- [58:56]: rounding (R64). -/
  rm : BitVec 3 := 0
  /-- [59]: saturate. -/
  sat : Bool := false
  /-- [60]: scope or path extension. -/
  sx : Bool := false
  /-- [62:61]: instruction-defined modifier. -/
  mx : BitVec 2 := 0
  /-- [63]: operand B is an immediate. -/
  i : Bool := false
  /-- [95:64] or [127:64]: the extension. -/
  ext : BitVec 64 := 0
deriving DecidableEq, Repr, Inhabited

/-- A weir instruction word, its fields by the names of R222. -/
structure WeirWord where
  /-- [63:32]: immediate, branch target or template number. -/
  imm : BitVec 32 := 0
  /-- [31:28]: register operand B. -/
  wb : BitVec 4 := 0
  /-- [27:24]: register operand A. -/
  wa : BitVec 4 := 0
  /-- [22:20]: descriptor. -/
  ds : BitVec 3 := 0
  /-- [19:16]: destination register, or the outgoing connection of RCFW. -/
  wd : BitVec 4 := 0
  /-- [15:12]: connection. -/
  cn : BitVec 4 := 0
  /-- [11:10]: function. -/
  fn : BitVec 2 := 0
  /-- [9]: form flag. -/
  fl : Bool := false
  /-- [8]: wait until complete. -/
  wt : Bool := false
deriving DecidableEq, Repr, Inhabited

/-- The translation a page walk is for (R22, R26, R28). -/
structure WalkReq where
  /-- Address-space number. -/
  asn : Nat
  /-- DPA of the root table (R22). -/
  root : Nat
  /-- Virtual address. -/
  va : Nat
  /-- The access writes. -/
  write : Bool
  /-- The access is an instruction fetch. -/
  fetch : Bool
deriving DecidableEq, Repr, Inhabited

/-- A squarer-parity fault of a row's block (R191), a physical event: the accumulator row, the block, and whether
the remainder is odd again after the retry. -/
structure ParityEvent where
  row : Nat
  block : Nat
  again : Bool
deriving DecidableEq, Repr, Inhabited

/-- What a patrol scrub finds in a granule (R384, R385), a physical event. -/
inductive ScrubResult where
  /-- No error. -/
  | clean
  /-- A single-bit error, corrected (R384). -/
  | corrected
  /-- A double-bit error: the granule is poisoned (R385). -/
  | uncorrectable
deriving DecidableEq, Repr, Inhabited

/-- One step of the device: an instruction, a command, a host write or an event. -/
inductive Instr where
  /-- R103: Does nothing and counts as one instruction of its run. -/
  | nop (w : Word)
  /-- R263: At commit, sets each active lane's lpc to the branch address plus a signed offset. -/
  | bra (w : Word)
  /-- R263: At commit, sets each active lane's lpc to the header address plus a per-lane offset. -/
  | brx (w : Word)
  /-- R263: Writes the return offset to D and branches relative to the CALL. -/
  | call (w : Word)
  /-- R263: Branches to the header address plus the register offset, as BRX does. -/
  | ret (w : Word)
  /-- R264: Makes each active lane Exited; a loose-warp lane decrements its join counter. -/
  | exit (w : Word)
  /-- R258: Makes each active lane Yielding and puts the warp behind others of its class. -/
  | yield (w : Word)
  /-- R266: Commits its run, then enters the user-trap cause with code C. -/
  | trap (w : Word)
  /-- R266: Commits its run, then enters the breakpoint cause with code C. -/
  | bpt (w : Word)
  /-- R267: Ends the handler and resumes the trapped run by retry, substitution or skip. -/
  | tret (w : Word)
  /-- R265: Parks each active lane until the die clock reaches commit clock plus the count. -/
  | sleep (w : Word)
  /-- R269: Sets each active lane's bit of a mask register. -/
  | mjoin (w : Word)
  /-- R269: Clears each active lane's bit of a mask register. -/
  | mleave (w : Word)
  /-- R270: Parks the active lanes whose mask bit is 1 until the join condition of the mask holds. -/
  | mwait (w : Word)
  /-- R269: Writes mask bits from operand B, per lane or for all 32 bits. -/
  | kset (w : Word)
  /-- R269: Writes each active lane's mask bit from bit 0 of its register A. -/
  | ksetLane (w : Word)
  /-- R269: Combines two mask registers bitwise into a third. -/
  | klog (w : Word)
  /-- R269: Copies a whole mask register into a general register. -/
  | kmov (w : Word)
  /-- R271: Opens a serial section, making the lowest active lane current and parking the others. -/
  | serb (w : Word)
  /-- R271: The current lane leaves the serial section and the next lane becomes current. -/
  | sere (w : Word)
  /-- R269: Sets the mask bit of the lowest active lane only. -/
  | elect (w : Word)
  /-- R149: Writes the all, any or uniform vote of a lane predicate into a mask. -/
  | vote (w : Word)
  /-- R149: Writes the ballot mask of the active lanes' predicates to D. -/
  | voteBal (w : Word)
  /-- R119: Integer add, wrapping or saturating. -/
  | iadd (w : Word)
  /-- R119: Integer subtract, wrapping or saturating. -/
  | isub (w : Word)
  /-- R120: 32-bit add with carry in from a mask and optional carry out to a mask. -/
  | iaddc (w : Word)
  /-- R119: Integer multiply, low bits or saturated. -/
  | imul (w : Word)
  /-- R119: High half of an integer product. -/
  | imulh (w : Word)
  /-- R119: Integer multiply-add. -/
  | imad (w : Word)
  /-- R119: 32 by 32 multiply added to a 64-bit value. -/
  | imadw (w : Word)
  /-- R119: Integer minimum. -/
  | imin (w : Word)
  /-- R119: Integer maximum. -/
  | imax (w : Word)
  /-- R119: Integer absolute value. -/
  | iabs (w : Word)
  /-- R119: Integer negation. -/
  | ineg (w : Word)
  /-- R122: Integer compare writing each active lane's mask bit. -/
  | icmp (w : Word)
  /-- R121: Forms a 64-bit address from a base plus a shifted extended index. -/
  | lea (w : Word)
  /-- R123: Integer division truncating toward zero, with fixed results for zero divisors. -/
  | idiv (w : Word)
  /-- R123: Integer remainder of truncating division. -/
  | irem (w : Word)
  /-- R124: Bitwise AND. -/
  | and (w : Word)
  /-- R124: Bitwise OR. -/
  | or (w : Word)
  /-- R124: Bitwise exclusive OR. -/
  | xor (w : Word)
  /-- R124: Bitwise complement. -/
  | not (w : Word)
  /-- R125: Logical shift left by an unsigned count. -/
  | shl (w : Word)
  /-- R125: Logical shift right by an unsigned count. -/
  | shr (w : Word)
  /-- R125: Arithmetic shift right by an unsigned count. -/
  | sar (w : Word)
  /-- R125: Rotate left by the count modulo the width. -/
  | rot (w : Word)
  /-- R125: Extracts a bit field, zero- or sign-extended. -/
  | bfx (w : Word)
  /-- R125: Inserts a bit field of A into C. -/
  | bfi (w : Word)
  /-- R124: Counts the one bits. -/
  | popc (w : Word)
  /-- R124: Counts leading zero bits. -/
  | clz (w : Word)
  /-- R124: Reverses the bit order. -/
  | brev (w : Word)
  /-- R124: Selects A or B per lane by a mask bit. -/
  | sel (w : Word)
  /-- R125: Applies an 8-entry truth table bitwise to three operands. -/
  | tern (w : Word)
  /-- R125: Builds each result byte by picking, reversing or zeroing a byte of A:B. -/
  | bpick (w : Word)
  /-- R127: Floating add, rounded under RM. -/
  | fadd (w : Word)
  /-- R127: Floating subtract, rounded under RM. -/
  | fsub (w : Word)
  /-- R127: Floating multiply, rounded under RM. -/
  | fmul (w : Word)
  /-- R127: Fused multiply-add with one rounding. -/
  | ffma (w : Word)
  /-- R129: IEEE minimumNumber. -/
  | fmin (w : Word)
  /-- R129: IEEE maximumNumber. -/
  | fmax (w : Word)
  /-- R127: Clears the sign bit. -/
  | fabs (w : Word)
  /-- R127: Inverts the sign bit. -/
  | fneg (w : Word)
  /-- R130: Floating compare writing each active lane's mask bit. -/
  | fcmp (w : Word)
  /-- R130: Writes a one-hot floating class. -/
  | fclass (w : Word)
  /-- R127: Correctly rounded reciprocal. -/
  | frcp (w : Word)
  /-- R127: Reciprocal square root within 1 ulp. -/
  | frsq (w : Word)
  /-- R127: Correctly rounded square root. -/
  | fsqrt (w : Word)
  /-- R127: Correctly rounded division. -/
  | fdiv (w : Word)
  /-- R127: Rounds to an integral value under RM. -/
  | frnd (w : Word)
  /-- R127: Multiplies by a power of two given as s32. -/
  | fscale (w : Word)
  /-- R131: Packed half add per element. -/
  | hadd2 (w : Word)
  /-- R131: Packed half multiply per element. -/
  | hmul2 (w : Word)
  /-- R131: Packed half fused multiply-add per element. -/
  | hfma2 (w : Word)
  /-- R131: Packed half minimum or maximum per element. -/
  | hmnx2 (w : Word)
  /-- R132: Converts one value between types under RM and SAT. -/
  | cvt (w : Word)
  /-- R133: Converts A times 2^b with one rounding. -/
  | cvts (w : Word)
  /-- R134: Converts two FP32 values into a packed or narrow register. -/
  | pack (w : Word)
  /-- R134: Converts one packed or narrow element exactly to FP32. -/
  | unpk (w : Word)
  /-- R135: Computes 2^a within the stated bound. -/
  | exp2 (w : Word)
  /-- R135: Computes log2 a within the stated bound. -/
  | log2 (w : Word)
  /-- R135: Computes sin a within the stated bound. -/
  | sin (w : Word)
  /-- R135: Computes cos a within the stated bound. -/
  | cos (w : Word)
  /-- R138: Evaluates a piecewise cubic from a polynomial table. -/
  | ppe (w : Word)
  /-- R137: Loads a whole polynomial table from memory. -/
  | ppld (w : Word)
  /-- R137: Stores a whole polynomial table to memory at commit. -/
  | ppst (w : Word)
  /-- R139: Reads sr.fpst and raises the flags given in B. -/
  | fstk (w : Word)
  /-- R146: Gives each active lane register A of a source lane. -/
  | shfl (w : Word)
  /-- R147: Reduces A over the active lanes in lane order. -/
  | redux (w : Word)
  /-- R147: Inclusive or exclusive prefix combination over the active lanes. -/
  | scanx (w : Word)
  /-- R148: Writes the mask of active lanes holding the same bits. -/
  | matchAny (w : Word)
  /-- R148: Sets a mask bit when every active lane holds the same bits. -/
  | matchAll (w : Word)
  /-- R150: Intersects two per-lane index vectors into masks and counts. -/
  | ssint (w : Word)
  /-- R140: Copies register bits unchanged. -/
  | mov (w : Word)
  /-- R140: Writes an immediate. -/
  | movi (w : Word)
  /-- R140: Writes an s register from register A of one lane. -/
  | smov (w : Word)
  /-- R142: Reads a special register. -/
  | srd (w : Word)
  /-- R143: Writes a writable special register. -/
  | swr (w : Word)
  /-- R155: Loads from global memory. -/
  | ld (w : Word)
  /-- R155: Stores to global memory at commit. -/
  | st (w : Word)
  /-- R155: Loads from scratchpad whatever the line's full bit. -/
  | lds (w : Word)
  /-- R155: Stores to scratchpad at commit. -/
  | sts (w : Word)
  /-- R155: Loads from vault memory. -/
  | ldv (w : Word)
  /-- R155: Stores to vault memory at commit. -/
  | stv (w : Word)
  /-- R157: Loads a full scratchpad line, parking lanes whose line is empty. -/
  | ldf (w : Word)
  /-- R157: Stores to scratchpad and marks the line full as a release. -/
  | stf (w : Word)
  /-- R157: Sets scratchpad lines empty or full at commit. -/
  | fest (w : Word)
  /-- R158: Reads the launch's argument block. -/
  | ldc (w : Word)
  /-- R159: Asks for lines to be brought into L1 or L2, with no observable effect. -/
  | pref (w : Word)
  /-- R161: Reads one tensor element and converts it. -/
  | ldt (w : Word)
  /-- R162: Writes one tensor element through bounds, scale and conversion at commit. -/
  | stt (w : Word)
  /-- R166: Integer atomic returning the old value. -/
  | atom (w : Word)
  /-- R167: Floating atomic returning the old value. -/
  | atomf (w : Word)
  /-- R168: Compare and swap. -/
  | cas (w : Word)
  /-- R168: 16-byte compare and swap. -/
  | cas128 (w : Word)
  /-- R166: Integer reduction without return. -/
  | red (w : Word)
  /-- R167: Floating reduction without return. -/
  | redf (w : Word)
  /-- R171: Supplies the warp's slice of consecutive lines to a collective copy. -/
  | cpy (w : Word)
  /-- R171: Supplies a gather slice of one source line per lane. -/
  | cpyg (w : Word)
  /-- R171: Supplies a scatter slice of one destination line per lane. -/
  | cpys (w : Word)
  /-- R172: Parks active lanes until any tag of the mask is ready. -/
  | twany (w : Word)
  /-- R172: Parks active lanes until every tag of the mask is ready. -/
  | twall (w : Word)
  /-- R172: Returns the lowest ready tag of a mask. -/
  | tffr (w : Word)
  /-- R172: Frees every ready tag of the mask. -/
  | tclr (w : Word)
  /-- R174: Replaces a tensor table entry from a 64-byte image at commit. -/
  | tdef (w : Word)
  /-- R175: Returns a tensor counter. -/
  | tqry (w : Word)
  /-- R175: Writes a tensor's bounds, action and NANOK at commit. -/
  | tbnd (w : Word)
  /-- R175: Reads and resets a tensor counter in one indivisible step. -/
  | tufc (w : Word)
  /-- R175: Returns the scale suggested from EMAX. -/
  | tscl (w : Word)
  /-- R200: Loads a matrix operand bank, or takes a kept bank. -/
  | mldb (w : Word)
  /-- R201: Streams A rows through a bank into accumulator rows. -/
  | mma (w : Word)
  /-- R202: Drains accumulator rows into a tensor. -/
  | mdrn (w : Word)
  /-- R202: Clears accumulator rows to +0 in a mode, with poison and marks. -/
  | mclr (w : Word)
  /-- R202: Empties a bank and ends its keeping. -/
  | mclrBank (w : Word)
  /-- R203: Reads or checks the edge correction state. -/
  | mcor (w : Word)
  /-- R204: Writes the matrix status word, optionally waiting for OUTS 0. -/
  | mstat (w : Word)
  /-- R274: Posts an arrival at a gang barrier. -/
  | bara (w : Word)
  /-- R274: Parks until the phase changes if the warp has arrived. -/
  | barw (w : Word)
  /-- R274: Posts an arrival and parks until the phase completes. -/
  | bars (w : Word)
  /-- R274: Posts a barrier expectation. -/
  | barx (w : Word)
  /-- R350: Strong acquire read of an object, optionally waiting for a value. -/
  | acq (w : Word)
  /-- R351: Release that increments an object. -/
  | relInc (w : Word)
  /-- R351: Release that stores a value to an object. -/
  | relSet (w : Word)
  /-- R352: Orders the warp's accesses as acquire, release or both. -/
  | fence (w : Word)
  /-- R352: Acquire-release fence taking a place in the total order S. -/
  | fencesc (w : Word)
  /-- R353: Makes writes of from-paths visible to reads of to-paths. -/
  | fencex (w : Word)
  /-- R354: Replaces a region descriptor after an acquire-release fence. -/
  | rbind (w : Word)
  /-- R281: Builds spawn records, counts them against join counters and places them or parks. -/
  | spawn (w : Word)
  /-- R281: Spawns like SPAWN but clears a mask bit instead of parking. -/
  | spawnt (w : Word)
  /-- R289: Adds to a join counter and returns the old value. -/
  | jinc (w : Word)
  /-- R290: Parks each active lane until its join counter reaches zero. -/
  | joinw (w : Word)
  /-- R289: Subtracts from a join counter and returns the old value. -/
  | jdec (w : Word)
  /-- R300: Enqueues a task record on the launch context's task list. -/
  | task (w : Word)
  /-- R300: Decrements a successor counter, enqueueing NEXT at zero. -/
  | taskDec (w : Word)
  /-- R355: Writes a flag as a release of the named paths. -/
  | sigf (w : Word)
  /-- R356: Parks until a flag compares true, then acquires the named paths. -/
  | waitf (w : Word)
  /-- R178: Samples an image with nearest or bilinear filtering. -/
  | tex2 (w : Word)
  /-- R178: Gathers the four texels of a bilinear footprint. -/
  | texg (w : Word)
  /-- R178: Reads one texel at integer coordinates. -/
  | texl (w : Word)
  /-- R225: Weir instruction that does nothing. -/
  | weirNop (w : WeirWord)
  /-- R225: Stops issuing and enters Halted once posted operations complete. -/
  | weirHalt (w : WeirWord)
  /-- R225: Jumps to a slot. -/
  | weirJmp (w : WeirWord)
  /-- R225: Branches if two registers are equal. -/
  | weirBeq (w : WeirWord)
  /-- R225: Branches if two registers differ. -/
  | weirBne (w : WeirWord)
  /-- R225: Decrements a register and branches while nonzero. -/
  | weirLoop (w : WeirWord)
  /-- R225: Loads a sign-extended immediate. -/
  | weirMovi (w : WeirWord)
  /-- R225: Adds two registers modulo 2^64. -/
  | weirAdd (w : WeirWord)
  /-- R225: Adds a sign-extended immediate. -/
  | weirAddi (w : WeirWord)
  /-- R225: Adds two registers modulo an immediate. -/
  | weirAddm (w : WeirWord)
  /-- R225: Subtracts two registers. -/
  | weirSub (w : WeirWord)
  /-- R225: Low 64 bits of a product. -/
  | weirMul (w : WeirWord)
  /-- R225: Shifts a register left by an immediate. -/
  | weirShl (w : WeirWord)
  /-- R225: Bitwise AND of two registers. -/
  | weirAnd (w : WeirWord)
  /-- R225: Loads a descriptor from a template and offsets its base. -/
  | dsel (w : WeirWord)
  /-- R226: Waits until a flag compares true, acquiring path W. -/
  | weirWaitf (w : WeirWord)
  /-- R227: Writes a flag after posted operations complete, releasing path W. -/
  | weirSigf (w : WeirWord)
  /-- R228: Posts the transmission of a chunk as a DATA message. -/
  | xmit (w : WeirWord)
  /-- R230: Posts a receive that stores the next DATA message of a connection. -/
  | recv (w : WeirWord)
  /-- R230: Posts a receive that combines the next DATA message into the chunk. -/
  | rcmb (w : WeirWord)
  /-- R230: Posts a receive that combines and forwards on another connection. -/
  | rcfw (w : WeirWord)
  /-- R231: Posts a one-sided PUT to a remote address. -/
  | rput (w : WeirWord)
  /-- R231: Posts a one-sided GETQ for remote bytes. -/
  | rget (w : WeirWord)
  /-- R231: Posts a remote atomic add to a flag. -/
  | ratm (w : WeirWord)
  /-- R322: Loads a packet field into a hook register. -/
  | hookLdp (d : BitVec 3) (off : BitVec 9) (wid : BitVec 7)
  /-- R322: Stores a hook register into a packet field. -/
  | hookStp (a : BitVec 3) (off : BitVec 9) (wid : BitVec 7)
  /-- R322: Loads a hook word or queue value. -/
  | hookLdq (d sel : BitVec 3)
  /-- R322: Writes a hook word. -/
  | hookStq (a sel : BitVec 3)
  /-- R322: Loads a sign-extended immediate. -/
  | hookMovi (d : BitVec 3) (imm : BitVec 22)
  /-- R322: Adds two hook registers. -/
  | hookAdd (d a b : BitVec 3)
  /-- R322: Subtracts two hook registers. -/
  | hookSub (d a b : BitVec 3)
  /-- R322: Adds a sign-extended immediate. -/
  | hookAddi (d a : BitVec 3) (imm : BitVec 22)
  /-- R322: Bitwise AND of two hook registers. -/
  | hookAnd (d a b : BitVec 3)
  /-- R322: Logical shift right by an immediate count. -/
  | hookShr (d a : BitVec 3) (cnt : BitVec 6)
  /-- R322: Unsigned minimum. -/
  | hookMin (d a b : BitVec 3)
  /-- R322: Skips n words if hA is below hB. -/
  | hookSkiplt (a b : BitVec 3) (cnt : BitVec 8)
  /-- R322: Skips n words if hA equals hB. -/
  | hookSkipeq (a b : BitVec 3) (cnt : BitVec 8)
  /-- R322: Repeats the next len words cnt times. -/
  | hookRep (cnt : BitVec 5) (len : BitVec 8)
  /-- R322: Ends the hook and lets the packet proceed with its edits. -/
  | hookAccept
  /-- R322: Ends the hook and completes the packet with status 0x0004. -/
  | hookReject (code : BitVec 16)
  /-- R316: Takes a launch packet, checks it and makes its gangs runnable. -/
  | launch (p : Packet)
  /-- R319: Enqueues a task record in a running launch's context. -/
  | taskq (p : Packet)
  /-- R319: Moves lines on a copy engine between global and vault memory. -/
  | copy (p : Packet)
  /-- R319: Writes a 64-bit pattern over lines. -/
  | fill (p : Packet)
  /-- R319: Stores or adds to a flag, releasing at system scope. -/
  | signal (p : Packet)
  /-- R319: Waits for a flag to meet a comparison, acquiring at system scope. -/
  | wait (p : Packet)
  /-- R27: Invalidates translations of a virtual range of an address space. -/
  | mapInvalidateRange (p : Packet)
  /-- R27: Invalidates translations of a whole address space. -/
  | mapInvalidateAll (p : Packet)
  /-- R37: Creates a residency handle over vault extents. -/
  | pin (p : Packet)
  /-- R40: Destroys a residency handle after its users complete and zeroes its blocks. -/
  | unpin (p : Packet)
  /-- R244: Loads a collective image into a weir context. -/
  | loadseq (p : Packet)
  /-- R245: Starts a collective by sending START to each member. -/
  | coll (p : Packet)
  /-- R323: Verifies and installs a queue's hook. -/
  | hookld (p : Packet)
  /-- R332: Queues a frame for encoding on an encode engine slot. -/
  | encframe (p : Packet)
  /-- R319: Writes the value of CLKNOW to the result buffer. -/
  | queryClknow (p : Packet)
  /-- R241: Writes a 512-byte snapshot of a weir context. -/
  | queryWeirState (p : Packet)
  /-- R240: Writes a weir context's debug register. -/
  | queryWriteWdbg (p : Packet)
  /-- R319: Writes a weir tensor entry's counters. -/
  | queryWeirCounters (p : Packet)
  /-- R319: Writes a queue control block as it stands. -/
  | queryQcb (p : Packet)
  /-- R375: Switches out every gang of a launch and holds it. -/
  | preemptSwitchOut (p : Packet)
  /-- R375: Clears a launch's hold so its gangs can be placed. -/
  | preemptResume (p : Packet)
  /-- R369: Kills a launch with status 0x0027. -/
  | preemptKill (p : Packet)
  /-- R396: Saves device and vault memory to the safe tier. -/
  | ckptSave (p : Packet)
  /-- R396: Restores device and vault memory from the safe tier. -/
  | ckptRestore (p : Packet)
  /-- R392: Starts the in-field scan of a core. -/
  | scant (p : Packet)
  /-- R393: Starts capturing a queue's packets into a buffer. -/
  | captureStart (p : Packet)
  /-- R393: Stops capturing a queue's packets. -/
  | captureStop (p : Packet)
  /-- R313: A packet with an unlisted CMD completes with status 0x0001. -/
  | unlistedCommand (p : Packet)
  /-- R308: A doorbell write with bit 63 clear sets PROD or overruns the ring. -/
  | doorbellRing (q : Nat) (val : BitVec 64)
  /-- R308: Control write that rereads the QCB and enables the queue. -/
  | queueEnable (q : Nat)
  /-- R308: Control write that disables the queue and writes the block back. -/
  | queueDisable (q : Nat)
  /-- R308: Control write that writes the QCB back. -/
  | queueWriteBack (q : Nat)
  /-- R32: Host write of FQCONS frees fault records and replays or kills their requesters. -/
  | fqconsWrite (val : BitVec 64)
  /-- R308: A write to a register with no behaviour of its own is ignored. -/
  | registerWriteIgnored (bar off : Nat) (val : BitVec 64)
  /-- R395: Mailbox command setting the package number. -/
  | setPackageNumber (num : Nat)
  /-- R211: Mailbox command writing route table entries. -/
  | writeRouteTable (first : Nat) (masks : List (BitVec 16))
  /-- R306: Mailbox command setting the segment directory base. -/
  | setSegmentDirectoryBase (dpa : Nat)
  /-- R379: Mailbox command setting the save pool. -/
  | setSavePool (base size : Nat)
  /-- R386: Mailbox command setting predictive marks and drain interval. -/
  | setPredictiveMarks (kind mark interval : Nat)
  /-- R399: Mailbox command returning the signed attestation report. -/
  | getAttestationReport (nonce : BitVec 256)
  /-- R400: Mailbox command loading a signed firmware patch set. -/
  | loadPatchSet (image : Nat)
  /-- R397: Mailbox command setting the power cap. -/
  | setPowerCap (watts : Nat)
  /-- R32: Mailbox command setting the fault queue base and zeroing its indices. -/
  | setFaultQueueBase (dpa : Nat)
  /-- R395: An unlisted vendor opcode returns unsupported with no effect. -/
  | mailboxUnsupported (opcode : BitVec 16)
  /-- R309: A missing QCB arrives in the eddy cache and the latched ring is applied. -/
  | qcbFetch (q : Nat)
  /-- R321: A hook reaching 64 steps completes the packet with status 0x0005. -/
  | hookBudgetExceeded
  /-- R319: A WAIT command's flag meets its comparison and the command completes. -/
  | waitConditionMet (cmd : Nat)
  /-- R319: A WAIT command's timeout expires and it completes with 0x003B. -/
  | waitTimeout (cmd : Nat)
  /-- R316: A waiting launch takes a free launch context and captures its arguments. -/
  | launchContextTake
  /-- R327: A dispatcher places the first fitting gang of the shared order on a core. -/
  | gangPlacement (die : Nat)
  /-- R329: A class-7 launch at risk pre-empts lower gangs to make a fit. -/
  | atRiskPreemption (die : Nat)
  /-- R261: A free issue slot chooses a Ready warp and begins its run. -/
  | runIssue (part : Nat)
  /-- R97: At the marker the run's results return and it commits or is abandoned. -/
  | runMarker (warp : Nat)
  /-- R364: A pending post-commit cause, such as an MDRN bounds cause, is entered at a run boundary. -/
  | postCommitTrapEntry (warp : Nat)
  /-- R25: A page walk completes, setting A and D or deciding a fault. -/
  | translationWalk (die : Nat) (req : WalkReq)
  /-- R105: A fetch miss fills instruction caches of the die by multicast. -/
  | instructionFill (die asn line : Nat)
  /-- R275: A barrier phase completes, flipping the phase and releasing waiters. -/
  | barrierPhaseComplete (gang bar : Nat)
  /-- R387: A rollback shadow finishes writing and the phase's lanes are released. -/
  | shadowComplete (gang : Nat)
  /-- R265: The die clock reaches a sleeping lane's wake clock. -/
  | sleepWake (warp lane : Nat)
  /-- R356: A flag or ACQ.GE wait is satisfied and the lane acquires and is released. -/
  | flagWaitRelease (warp lane : Nat)
  /-- R55: A lane parked on tags is released in the clock after they become ready. -/
  | tagWaitRelease (warp lane : Nat)
  /-- R49: A stalled gang is detected and the launch is killed. -/
  | gangStall (gang : Nat)
  /-- R55: A copy line lands at its destination and scratchpad lines are set full. -/
  | copyLineLand (copy line : Nat)
  /-- R55: Every line of a copy is performed and its tag becomes ready. -/
  | copyComplete (copy : Nat)
  /-- R184: An accepted matrix instruction completes and merges its flags. -/
  | matrixComplete (part : Nat) (odd : List ParityEvent)
  /-- R252: A gang's warps have exited and engines completed, freeing its resources. -/
  | gangEnd (gang : Nat)
  /-- R303: A launch with nothing left running completes and frees its context. -/
  | launchCompletion (launch : Nat)
  /-- R281: A spawn record enters its queue or ring slot after its increment is performed. -/
  | spawnRecordEntry (core : Nat)
  /-- R283: A gathering queue becomes due when the flush timeout passes. -/
  | flushTimeout (core queue : Nat)
  /-- R287: A core pops records from the ring into a loose warp. -/
  | ringPop (core launch : Nat)
  /-- R290: A join counter reaches zero and a JOINW lane is released. -/
  | joinRelease (warp lane : Nat)
  /-- R291: A join-blocked loose warp is converted into continuations in the hold area. -/
  | continuationConversion (warp : Nat)
  /-- R292: A released hold goes to a confluence, the ring or stays ready. -/
  | holdRelease (launch slot : Nat)
  /-- R297: Spawn exhaustion is detected and the launch is killed. -/
  | spawnExhaustion (launch : Nat)
  /-- R376: A gang is drained at run boundaries and saved to the pool. -/
  | switchOut (gang : Nat)
  /-- R380: A switched-out gang is placed and restored on a fitting core. -/
  | gangRestore (die : Nat)
  /-- R370: Firmware stops and discards a launch's work and completes it with its status. -/
  | launchKill (launch : Nat)
  /-- R389: An error in a clean interval restores the gang's shadow. -/
  | rollback (gang : Nat)
  /-- R385: The scrubber reads memory and poisons uncorrectable granules. -/
  | patrolScrub (vault : Bool) (addr : Nat) (found : ScrubResult)
  /-- R386: A drain interval subtracts 1 from each predictive counter. -/
  | predictiveDrain
  /-- R397: Power or temperature over its limit withholds issue slots and rate-limits stacks. -/
  | thermalThrottle
  /-- R397: At 105 °C every launch is killed and the device enters D3hot. -/
  | thermalShutdown
  /-- R397: No gang placed for 10 ms puts the package in D0 idle. -/
  | idleEntry
  /-- R398: Package reset restarts the counter and returns state to reset values. -/
  | packageReset
  /-- R398: D3cold stops the counter and loses vault and device memory. -/
  | powerOff
  /-- R392: The in-field scan pattern finishes and its signature is compared. -/
  | scanComplete (core : Nat) (good : Bool)
  /-- R332: An encode engine's start flag is met and it reads the frame. -/
  | encodeStart (slot : Nat)
  /-- R332: A frame's bitstream and report are written and the done flag stored. -/
  | encodeComplete (slot : Nat)
  /-- R210: A rill's link trains and the rill becomes up. -/
  | linkTrained (rill : Nat)
  /-- R210: A flit failing its CRC is sent again from the replay buffer. -/
  | flitResend (rill : Nat)
  /-- R210: After 16 consecutive failed resends the rill is declared down. -/
  | rillDown (rill : Nat)
  /-- R211: A packet for another package is forwarded through the router. -/
  | transitForward (pkt : Nat)
  /-- R230: An arriving DATA packet is held or performed into its posted receive. -/
  | data (pkt : Nat)
  /-- R231: An arriving PUT packet stores its bytes at the remote context. -/
  | put (pkt : Nat)
  /-- R231: An arriving GETQ reads bytes and sends them as GETR. -/
  | getq (pkt : Nat)
  /-- R229: An arriving GETR packet stores response bytes locally. -/
  | getr (pkt : Nat)
  /-- R231: An arriving ATM adds to a remote flag with release and sends ACK. -/
  | atm (pkt : Nat)
  /-- R229: An arriving ACK completes an RPUT or RATM. -/
  | ack (pkt : Nat)
  /-- R214: An arriving REFUSE fails the sending context. -/
  | refuse (pkt : Nat)
  /-- R245: An arriving START begins a matching member context at slot 0 or is refused. -/
  | start (pkt : Nat)
  /-- R246: An arriving DONE is counted at the root, which completes COLL at N. -/
  | done (pkt : Nat)
  /-- R246: An arriving FAIL makes the root abort the collective. -/
  | fail (pkt : Nat)
  /-- R246: An arriving ABORT puts the member context in Failed. -/
  | abort (pkt : Nat)
  /-- R215: An arriving ROOM lets a sender resume a held connection. -/
  | room (pkt : Nat)
  /-- R229: A posted weir operation completes. -/
  | weirOperationComplete (ctx op : Nat)
  /-- R226: A write to a waited flag's line wakes a weir context. -/
  | weirFlagWake (ctx : Nat)
  /-- R246: The collective timeout expires and the root aborts every member. -/
  | collTimeout (coll : Nat)
  /-- R34: A host read or write of device memory over CXL.mem is performed at the owning L2 and invalidates any launch-line cache copy. -/
  | cxlMemAccess (write : Bool) (addr : Nat) (bytes : List Byte)
  /-- R33: The host's CXL.cache coherence traffic invalidates or updates a host line held in the host-line cache and in the launch-line cache. -/
  | cxlCacheSnoop (line : Nat) (update : Option (List Byte))
  /-- R224: A weir context reaches an unlisted opcode, a word with a bad field, or a slot past the image's end, and fails with cause illegal instruction. -/
  | weirIllegalInstruction (ctx : Nat)
  /-- R246: After an abort, twice the collective timeout passes without every member answering, and the root completes the COLL with its error status. -/
  | collTwiceTimeout (coll : Nat)
  /-- R396: The save or restore of device and vault memory over CXL finishes and the CKPT command completes. -/
  | ckptTransferComplete (cmd : Nat)
  /-- R397: Power or die temperature falls back within its limit and the withheld issue slots and stack rate limits are lifted. -/
  | throttleRelease
deriving DecidableEq, Repr, Inhabited

end Sys2Proof
end

