-- ==== Sys2Proof/Decode.lean ====
section
/-! DEFINITION. Decoding: instruction words of the SIMT cores (R82 to R102), of the weirs (R222 to R224), hook words
(R322) and queue packets (R311, R319) to Instr, total on any bits, refusing what the spec calls illegal; the operand
forms that legality rests on, with the registers each form reads and writes (R96); then the encoder, from the same
encoding tables, and the word the host asks about. -/

namespace Sys2Proof

/-! ## Operand fields and forms -/

/-- How an instruction uses one 8-bit operand field (R88, R114, R144). -/
inductive Fld where
  /-- Reserved: zero (R2). -/
  | none
  /-- A register field that accepts the classes named, holding `n` consecutive registers whose first is a multiple of `n`. -/
  | reg (v s t : Bool) (n : Nat)
  /-- A mask register 0 to 11 (R88). -/
  | mask
  /-- An 8-bit immediate below the bound. -/
  | imm (bound : Nat)
  /-- A nonempty path set in bits [5:0] (R349). -/
  | paths
  /-- A special-register code (R141). -/
  | special
deriving DecidableEq, Repr

/-- The word lengths an instruction accepts (R87). -/
inductive Lens where
  /-- 64 bits only. -/
  | only64
  /-- 96 bits only, `I` = 0. -/
  | only96
  /-- R116: 64 bits; with an immediate, 96 bits, and 128 bits where operand B has a 64-bit type. -/
  | r116
  /-- R151: the memory forms. -/
  | mem
  /-- R103: NOP of each length. -/
  | nop
deriving DecidableEq, Repr

/-- What the extension holds when it is not an immediate (R86). -/
inductive Ext where
  /-- Reserved. -/
  | none
  /-- A signed displacement (R137). -/
  | disp
  /-- A branch offset, bits [1:0] reserved (R262). -/
  | branch
  /-- A code offset checked as R280. -/
  | entry
  /-- A truth table in [7:0] (R124). -/
  | table
  /-- Two distinct s codes in [7:0] and [15:8] (R150). -/
  | counts
  /-- The atomics' extension (R164); the flags say whether KM is used and whether only orders 0 and 2 are accepted. -/
  | atomic (km red : Bool)
  /-- The copies' extension (R170). -/
  | copy
  /-- count − 1 in [6:0] (R199). -/
  | count
  /-- Scope and paths of SIGF and WAITF (R349). -/
  | flag
deriving DecidableEq, Repr

/-- When a result can be read (R94, R101). -/
inductive Dist where
  /-- From the given distance on in the same run. -/
  | within (d : Nat)
  /-- From the next run only. -/
  | nextRun
deriving DecidableEq, Repr

/-- The operand form of an instruction word: what each field may hold, and what R94 to R101 say of its results. -/
structure Form where
  d : Fld := .none
  a : Fld := .none
  b : Fld := .none
  c : Fld := .none
  /-- The type of an immediate operand B where `I` = 1 is accepted (R86). -/
  immTy : Option Nat := .none
  /-- `I` = 1 is required (R140). -/
  needI : Bool := false
  tys : List Nat := [0]
  sops : List Nat := [0]
  mxs : List Nat := [0]
  sx : Bool := false
  sat : Bool := false
  /-- RM values below this are accepted: 1 where reserved, 4 where the instruction rounds (R64, R102). -/
  rms : Nat := 1
  lens : Lens := .only64
  ext : Ext := .none
  /-- C names a mask that is written (R146, R150). -/
  cOut : Bool := false
  /-- SOP names a carry-out mask, 15 for none (R118). -/
  sopOut : Bool := false
  /-- An `s` destination requires `s` or immediate sources (R115, R144). -/
  uniform : Bool := true
  dist : Dist := .within 2
  /-- Run-terminal (R99, R101). -/
  term : Bool := false
deriving DecidableEq, Repr

/-- Registers an operand of type code `ty` takes: two for the 64-bit types (R85, R118, R127). -/
def regsOf (ty : Nat) : Nat := if ty = 2 ∨ ty = 3 ∨ ty = 5 then 2 else 1

/-- Registers of an access of size code `sop` (R154). -/
def regsOfSize (sop : Nat) : Nat := if sop = 5 then 2 else if sop = 6 then 4 else 1

/-- The distance of an instruction that has an FP64 form (R94). -/
def fpDist (ty : Nat) : Dist := if ty = 5 then .within 8 else .within 4

def Fld.vst (n : Nat) : Fld := .reg true true true n
def Fld.vs (n : Nat) : Fld := .reg true true false n
def Fld.vt (n : Nat) : Fld := .reg true false true n
def Fld.vOnly (n : Nat) : Fld := .reg true false false n
def Fld.sOnly (n : Nat) : Fld := .reg false true false n

/-- Width in registers of a special register, none for a code that is no register (R141). -/
def srRegs (code : Nat) : Option Nat :=
  if code = 0x02 ∨ code = 0x08 ∨ code = 0x0B ∨ code = 0x0D ∨ code = 0x11 then some 2
  else if code ≤ 0x11 then some 1 else none

/-- The forms of the load and store instructions (R151 to R154, R159). -/
def memForm (global load : Bool) (dst : Fld) (data : Fld) (sops : List Nat) (held : Bool) : Form :=
  { d := if load then dst else .none, a := .vst (if global then 2 else 1), b := .vst 1,
    c := if load then .none else data, immTy := some 0, sops := sops, mxs := [0, 1, 2, 3], sx := true,
    lens := .mem, ext := .disp, dist := if held then .within 2 else .nextRun }

/-- A two-source integer form whose operands take the width of TY (R118). -/
def intForm (ty : Nat) (sat : Bool) : Form :=
  { d := .vst (regsOf ty), a := .vst (regsOf ty), b := .vst (regsOf ty), immTy := some ty, tys := [0, 1, 2, 3],
    sat := sat, lens := .r116 }

/-- A two-source floating form (R127). -/
def fpForm (ty : Nat) (sat : Bool) (rms : Nat) (dist : Dist) : Form :=
  { d := .vst (regsOf ty), a := .vst (regsOf ty), b := .vst (regsOf ty), immTy := some ty, tys := [4, 5],
    sat := sat, rms := rms, lens := .r116, dist := dist }

/-- A one-source floating form of 64 bits (R127). -/
def fpForm1 (ty : Nat) (sat : Bool) (rms : Nat) (dist : Dist) : Form :=
  { d := .vst (regsOf ty), a := .vst (regsOf ty), tys := [4, 5], sat := sat, rms := rms, dist := dist }

/-- Type codes CVT accepts (R132). -/
def cvtTypes : List Nat := [0, 1, 2, 3, 4, 5, 8, 9, 10, 11, 12, 13, 14]

/-- The type codes an integer atomic accepts under its SOP (R165). -/
def atomTypes (sop : Nat) : List Nat := if sop ≤ 2 then [0, 1, 2, 3] else [1, 3]

/-- The address operand of an atomic: a pair in global space, a single elsewhere (R163). -/
def atomAddr (mx : Nat) : Fld := .vst (if mx = 0 then 2 else 1)

/-- The operations REDUX and SCANX accept under a type (R145). -/
def reduxSops (ty : Nat) : List Nat := if ty = 1 then [0, 1, 2, 3, 4, 5] else [0, 1, 2]

/-- Registers of a copy address in the space code (R170). -/
def copyRegs (space : Nat) : Nat := if space = 0 then 2 else 1

/-- The operand form of opcode `op` with the other fields of `w`; none for an unassigned opcode (R101, R102). A field of MCOR
that its sub-operation does not name may hold anything (log 68). -/
def formOf (op : Nat) (w : Word) : Option Form :=
  let ty := w.ty.toNat
  let sop := w.sop.toNat
  let mx := w.mx.toNat
  let r := regsOf ty
  let x := w.ext.toNat
  match op with
  | 0x00 => some { lens := .nop }
  | 0x01 => some { lens := .only96, ext := .branch, term := true, dist := .nextRun }
  | 0x02 => some { a := .vst 1, term := true, dist := .nextRun }
  | 0x03 => some { d := .vs 1, lens := .only96, ext := .branch, term := true, dist := .nextRun }
  | 0x04 => some { a := .vst 1, term := true, dist := .nextRun }
  | 0x05 => some { term := true }
  | 0x06 => some { term := true }
  | 0x07 => some { c := .imm 256, term := true }
  | 0x08 => some { c := .imm 256, term := true }
  | 0x09 => some { sops := [0, 1, 2], term := true }
  | 0x0A => some { b := .vst 1, immTy := some 1, tys := [1], lens := .r116, term := true }
  | 0x10 => some { d := .mask }
  | 0x11 => some { d := .mask }
  | 0x12 => some { a := .mask, term := true }
  | 0x13 => if sop = 1 then some { d := .mask, a := .vst 1, tys := [1], sops := [1] }
            else some { d := .mask, b := .sOnly 1, immTy := some 1, tys := [1], sx := true, lens := .r116 }
  | 0x14 => some { d := .mask, a := .mask, b := if sop = 4 then .none else .mask, sops := [0, 1, 2, 3, 4], sx := true }
  | 0x15 => some { d := .vst 1, a := .mask }
  | 0x16 => if sop = 3 then some { d := .vst 1, a := .mask, tys := [1], sops := [3], dist := .within 8 }
            else some { d := .mask, a := .mask, tys := [1], sops := [0, 1, 2], dist := .within 8 }
  | 0x17 => some { term := true }
  | 0x18 => some { term := true }
  | 0x19 => some { d := .mask, sx := true }
  | 0x20 => some (intForm ty true)
  | 0x21 => some (intForm ty true)
  | 0x22 => some { intForm 1 false with tys := [1], c := .mask, sops := [0, 1, 2, 3, 4, 5, 6, 7, 8, 9, 10, 11, 15], sopOut := true }
  | 0x23 => some (intForm ty true)
  | 0x24 => some (intForm ty false)
  | 0x25 => some { intForm ty true with c := .vst r }
  | 0x26 => some { intForm ty true with d := .vst 2, a := .vst 1, b := .vst 1, c := .vst 2, tys := [0, 1] }
  | 0x27 => some (intForm ty false)
  | 0x28 => some (intForm ty false)
  | 0x29 => some { d := .vst r, a := .vst r, tys := [0, 2], sat := true }
  | 0x2A => some { d := .vst r, a := .vst r, tys := [0, 2], sat := true }
  | 0x2B => some { intForm ty false with d := .mask, sops := [0, 1, 2, 3, 4, 5], dist := .within 4 }
  | 0x2C => some { intForm ty false with d := .vst 2, a := .vst 2, c := .imm 8 }
  | 0x2D => some { intForm ty true with dist := .within 8 }
  | 0x2E => some { intForm ty false with dist := .within 8 }
  | 0x30 => some { intForm ty false with tys := [1, 3] }
  | 0x31 => some { intForm ty false with tys := [1, 3] }
  | 0x32 => some { intForm ty false with tys := [1, 3] }
  | 0x33 => some { d := .vst r, a := .vst r, tys := [1, 3] }
  | 0x34 => some { intForm ty false with b := .vst 1, immTy := some 1, tys := [1, 3] }
  | 0x35 => some { intForm ty false with b := .vst 1, immTy := some 1, tys := [1, 3] }
  | 0x36 => some { intForm ty false with b := .vst 1, immTy := some 1, tys := [0, 2] }
  | 0x37 => some { intForm ty false with b := .vst 1, immTy := some 1, tys := [1, 3] }
  | 0x38 => some { intForm ty false with b := .vst 1, immTy := some 1 }
  | 0x39 => some { intForm ty false with b := .vst 1, c := .vst r, immTy := some 1, tys := [1, 3] }
  | 0x3A => some { d := .vst 1, a := .vst r, tys := [1, 3] }
  | 0x3B => some { d := .vst 1, a := .vst r, tys := [1, 3] }
  | 0x3C => some { d := .vst r, a := .vst r, tys := [1, 3] }
  | 0x3D => some { intForm ty false with c := .mask, tys := [1, 3] }
  | 0x3E => some { d := .vst r, a := .vst r, b := .vst r, c := .vst r, tys := [1, 3], lens := .only96, ext := .table }
  | 0x3F => some { intForm 1 false with c := .vst 1, tys := [1] }
  | 0x40 => some (fpForm ty true 4 (fpDist ty))
  | 0x41 => some (fpForm ty true 4 (fpDist ty))
  | 0x42 => some (fpForm ty true 4 (fpDist ty))
  | 0x43 => some { fpForm ty true 4 (fpDist ty) with c := .vst r }
  | 0x44 => some (fpForm ty false 1 (fpDist ty))
  | 0x45 => some (fpForm ty false 1 (fpDist ty))
  | 0x46 => some (fpForm1 ty false 1 (fpDist ty))
  | 0x47 => some (fpForm1 ty false 1 (fpDist ty))
  | 0x48 => some { fpForm ty false 1 (fpDist ty) with d := .mask, sops := [0, 1, 2, 3, 4, 5, 6, 7] }
  | 0x49 => some { fpForm1 ty false 1 (fpDist ty) with d := .vst 1 }
  | 0x4A => some (fpForm1 ty true 4 (.within 8))
  | 0x4B => some (fpForm1 ty false 1 (.within 8))
  | 0x4C => some (fpForm1 ty false 4 (.within 8))
  | 0x4D => some (fpForm ty true 4 (.within 8))
  | 0x4E => some (fpForm1 ty false 4 (fpDist ty))
  | 0x4F => some { fpForm ty true 4 (fpDist ty) with b := .vst 1, immTy := some 0 }
  | 0x50 => some { fpForm ty true 4 (.within 4) with tys := [6, 7] }
  | 0x51 => some { fpForm ty true 4 (.within 4) with tys := [6, 7] }
  | 0x52 => some { fpForm ty true 4 (.within 4) with tys := [6, 7], c := .vst 1 }
  | 0x53 => some { fpForm ty false 1 (.within 4) with tys := [6, 7], sops := [0, 1] }
  | 0x54 => some { d := .vst r, a := .vst (regsOf sop), tys := cvtTypes, sops := cvtTypes, sat := true, rms := 4,
                   dist := if ty = 5 ∨ sop = 5 then .within 8 else .within 4 }
  | 0x55 => some { d := .vst r, a := .vst (regsOf sop), b := .vst 1, immTy := some 0, tys := cvtTypes, sops := [4, 5],
                   sat := true, rms := 4, lens := .r116, dist := if ty = 5 ∨ sop = 5 then .within 8 else .within 4 }
  | 0x56 => some { d := .vst 1, a := .vst 1, b := .vst 1, c := if ty = 6 ∨ ty = 7 then .none else .vst 1,
                   tys := [6, 7, 10, 11, 12], sops := [4],
                   mxs := if ty = 6 ∨ ty = 7 then [0] else if ty = 12 then [0, 1, 2, 3] else [0, 1],
                   sat := true, rms := 4, dist := .within 4 }
  | 0x57 => some { d := .vst 1, a := .vst 1,
                   c := .imm (if sop = 6 ∨ sop = 7 then 2 else if sop = 12 then 8 else 4),
                   tys := [4], sops := [6, 7, 10, 11, 12], dist := .within 4 }
  | 0x58 => some { d := .vst 1, a := .vst 1, tys := [4], dist := .within 8 }
  | 0x59 => some { d := .vst 1, a := .vst 1, tys := [4], dist := .within 8 }
  | 0x5A => some { d := .vst 1, a := .vst 1, tys := [4], dist := .within 8 }
  | 0x5B => some { d := .vst 1, a := .vst 1, tys := [4], dist := .within 8 }
  | 0x5C => some { d := .vst 1, a := .vst 1, tys := [4], sops := [0, 1, 2, 3], dist := .within 8 }
  | 0x5D => some { a := .sOnly 2, sops := [0, 1, 2, 3], lens := .only96, ext := .disp, dist := .nextRun }
  | 0x5E => some { a := .sOnly 2, sops := [0, 1, 2, 3], lens := .only96, ext := .disp }
  | 0x5F => some { d := .vst 1, b := .vst 1, immTy := some 1, tys := [1], lens := .r116 }
  | 0x60 => some { d := .vt r, a := .vst r, b := .vst 1, c := if w.sx then .mask else .none, immTy := some 1,
                   tys := [1, 3], sops := [0, 1, 2, 3], sx := true, lens := .r116, cOut := true, dist := .within 8 }
  | 0x61 => some { d := .vst 1, a := .vst 1, tys := [0, 1, 4], sops := reduxSops ty,
                   rms := if ty = 4 ∧ sop = 0 then 4 else 1, uniform := false, dist := .within 8 }
  | 0x62 => some { d := .vt 1, a := .vst 1, tys := [0, 1, 4], sops := reduxSops ty, mxs := [0, 1],
                   rms := if ty = 4 ∧ sop = 0 then 4 else 1, dist := .within 8 }
  | 0x63 => if sop = 1 then some { d := .mask, a := .vst r, tys := [1, 3], sops := [1], dist := .within 8 }
            else some { d := .vt 1, a := .vst r, tys := [1, 3], dist := .within 8 }
  | 0x64 => some { d := .mask, a := .vst 1, b := .vst 1, c := .mask, tys := [1], lens := .only96, ext := .counts,
                   cOut := true, dist := .within 8 }
  | 0x65 => some { d := .vst r, a := .vst r, tys := [1, 3] }
  | 0x66 => some { d := .vst r, b := .vst r, immTy := some ty, needI := true, tys := [0, 1, 2, 3, 4, 5, 6, 7], lens := .r116 }
  | 0x67 => some { d := .sOnly r, a := .vt r, b := .sOnly 1, immTy := some 1, tys := [1, 3], lens := .r116, uniform := false }
  | 0x68 => match srRegs w.a.toNat with
            | none => none
            | some n => some { d := if w.a = 0 ∨ w.a = 0x0B then .vt n else .vst n, a := .special,
                               dist := if w.a = 0x08 then .nextRun else .within 2 }
  | 0x69 => if w.d = 0x09 ∨ w.d = 0x0A then
              some { d := .special, b := .vst 1, immTy := some 1, tys := [1], lens := .r116 }
            else if w.d = 0x11 then some { d := .special, b := .vst 2, immTy := some 3, tys := [3], lens := .r116 }
            else none
  | 0x70 => some (memForm true true (.vs (regsOfSize sop)) .none [0, 1, 2, 3, 4, 5, 6] false)
  | 0x71 => some (memForm true false .none (.vst (regsOfSize sop)) [0, 2, 4, 5, 6] true)
  | 0x72 => some (memForm false true (.vs (regsOfSize sop)) .none [0, 1, 2, 3, 4, 5, 6] false)
  | 0x73 => some (memForm false false .none (.vst (regsOfSize sop)) [0, 2, 4, 5, 6] true)
  | 0x74 => some (memForm false true (.vs (regsOfSize sop)) .none [0, 1, 2, 3, 4, 5, 6] false)
  | 0x75 => some (memForm false false .none (.vst (regsOfSize sop)) [0, 2, 4, 5, 6] true)
  | 0x76 => some (memForm false true (.vOnly (regsOfSize sop)) .none [0, 1, 2, 3, 4, 5, 6] false)
  | 0x77 => some (memForm false false .none (.vst (regsOfSize sop)) [0, 2, 4, 5, 6] true)
  | 0x78 => some (memForm false false .none .none [0, 1] true)
  | 0x79 => some (memForm false true (.vs (regsOfSize sop)) .none [0, 1, 2, 3, 4, 5, 6] false)
  | 0x7A => some (memForm true false .none .none [0, 1] true)
  | 0x7B => some { d := .vs r, a := .vst 4, c := .imm 256, tys := [0, 1, 4, 5], sat := true, rms := 4, dist := .nextRun }
  | 0x7C => some { a := .vst 4, b := .vst r, c := .imm 256, tys := [0, 1, 4, 5] }
  | 0x80 => some { d := .vs r, a := atomAddr mx, b := .vst r, c := if 7 ≤ sop ∧ sop ≤ 9 then .vst r else .none,
                   tys := atomTypes sop, sops := [0, 1, 2, 3, 4, 5, 6, 7, 8, 9], mxs := [0, 1, 2], lens := .only96,
                   ext := .atomic (sop = 9) false, dist := .nextRun, term := true }
  | 0x81 => some { d := .vs r, a := atomAddr mx, b := .vst r, tys := [4, 5, 6, 7], sops := [0, 1, 2], mxs := [0, 1, 2],
                   lens := .only96, ext := .atomic false false, dist := .nextRun, term := true }
  | 0x82 => some { d := .vs r, a := atomAddr mx, b := .vst r, c := .vst r, tys := [1, 3], mxs := [0, 1, 2],
                   lens := .only96, ext := .atomic false false, dist := .nextRun, term := true }
  | 0x83 => some { d := .vs 4, a := atomAddr mx, b := .vst 4, c := .vst 4, tys := [3], mxs := [0, 1, 2],
                   lens := .only96, ext := .atomic false false, dist := .nextRun, term := true }
  | 0x84 => some { a := atomAddr mx, b := .vst r, c := if 7 ≤ sop ∧ sop ≤ 8 then .vst r else .none,
                   tys := atomTypes sop, sops := [0, 1, 2, 3, 4, 5, 7, 8], mxs := [0, 1, 2], lens := .only96,
                   ext := .atomic false true, dist := .nextRun, term := true }
  | 0x85 => some { a := atomAddr mx, b := .vst r, tys := [4, 5, 6, 7], sops := [0, 1, 2], mxs := [0, 1, 2],
                   lens := .only96, ext := .atomic false true, dist := .nextRun, term := true }
  | 0x90 => some { a := .sOnly (copyRegs (x / 64 % 4)), b := .sOnly (copyRegs (x / 256 % 4)), c := .sOnly 1,
                   lens := .only96, ext := .copy, term := true }
  | 0x91 => some { a := .vt (copyRegs (x / 64 % 4)), b := .sOnly (copyRegs (x / 256 % 4)),
                   lens := .only96, ext := .copy, term := true }
  | 0x92 => some { a := .sOnly (copyRegs (x / 64 % 4)), b := .vt (copyRegs (x / 256 % 4)),
                   lens := .only96, ext := .copy, term := true }
  | 0x93 => some { b := .sOnly 2, immTy := some 3, tys := [3], lens := .r116, term := true }
  | 0x94 => some { b := .sOnly 2, immTy := some 3, tys := [3], lens := .r116, term := true }
  | 0x95 => some { d := .vs 1, b := .sOnly 2, immTy := some 3, tys := [3], lens := .r116, dist := .nextRun }
  | 0x96 => some { b := .sOnly 2, immTy := some 3, tys := [3], lens := .r116, term := true }
  | 0x98 => some { a := .sOnly 2, c := .imm 256 }
  | 0x99 => some { d := .vs 1, c := .imm 256, sops := [0, 1, 2, 3], dist := .nextRun }
  | 0x9A => some { a := .sOnly 1, b := .sOnly 1, c := .imm 256, sops := [0, 1, 2, 3], sx := true }
  | 0x9B => some { d := .vs 1, c := .imm 256, sops := [0, 1, 2, 3], dist := .nextRun, term := true }
  | 0x9C => some { d := .vs 1, c := .imm 256, dist := .nextRun }
  | 0xA0 => some { d := .imm 4, a := .sOnly 4, c := .imm 256, sops := [0, 1, 2], mxs := [0, 1], sx := true, term := true }
  | 0xA1 => some { d := .imm 128, a := .sOnly 4, c := .imm 256, sops := [0, 1, 2, 3], mxs := [0, 1], sx := true,
                   lens := .only96, ext := .count, term := true }
  | 0xA2 => some { d := .imm 128, a := .sOnly 4, c := .imm 256, mxs := [0, 1], lens := .only96, ext := .count, term := true }
  | 0xA3 => if sop = 2 then some { d := .imm 4, sops := [2], term := true }
            else some { d := .imm 128, c := .imm 128, sops := [0, 1], term := true }
  | 0xA4 => some { d := .vs 2, a := .imm 16, c := .imm 128, sops := [0, 1, 2, 3], mxs := [0, 1, 2, 3],
                   dist := .nextRun, term := true }
  | 0xA5 => some { d := .vs 1, mxs := [0, 1], dist := .nextRun, term := true }
  | 0xB0 => some { c := .imm 16, term := true }
  | 0xB1 => some { c := .imm 16, term := true }
  | 0xB2 => some { c := .imm 16, term := true }
  | 0xB3 => some { b := .sOnly 1, c := .imm 16, immTy := some 1, tys := [1], lens := .r116, term := true }
  | 0xB4 => some { d := if w.sx then .vs 2 else .none, a := .vst 2, b := if mx = 1 then .vst 2 else .none,
                   immTy := if mx = 1 then some 3 else none, tys := [3], sops := [0, 1, 2, 3, 4, 5], mxs := [0, 1],
                   sx := true, lens := .r116, dist := .nextRun, term := true }
  | 0xB5 => some { a := .vst 2, b := if mx = 1 then .vst 2 else .none, immTy := if mx = 1 then some 3 else none,
                   tys := [3], sops := [0, 1, 2, 3, 4, 5], mxs := [0, 1], lens := .r116, term := true }
  | 0xB6 => some { sops := [0, 1, 2, 3, 4, 5], mxs := [0, 1, 2], term := true }
  | 0xB7 => some { sops := [0, 1, 2, 3, 4, 5], term := true }
  | 0xB8 => some { b := .paths, c := .paths, sops := [0, 1, 2, 3, 4, 5], term := true }
  | 0xB9 => some { a := .sOnly 2, c := .imm 64, term := true }
  | 0xC0 => some { a := .vst 2, b := .vst 4, lens := .only96, ext := .entry, dist := .nextRun, term := true }
  | 0xC1 => some { d := .mask, a := .vst 2, b := .vst 4, lens := .only96, ext := .entry, dist := .nextRun, term := true }
  | 0xC2 => some { d := .vs 2, a := .vst 2, b := .vst 1, immTy := some 1, tys := [1], lens := .r116, dist := .nextRun, term := true }
  | 0xC3 => some { a := .vst 2, b := .vst 2, lens := .only96, ext := .entry, dist := .nextRun, term := true }
  | 0xC4 => some { d := .vs 2, a := .vst 2, b := .vst 1, immTy := some 1, tys := [1], lens := .r116, dist := .nextRun, term := true }
  | 0xC5 => some { a := .vst 2, sops := [0, 1], dist := .nextRun, term := true }
  | 0xC6 => some { a := .vst 2, b := .vst 2, tys := [3], sops := [0, 1], lens := .only96, ext := .flag, term := true }
  | 0xC7 => some { a := .vst 2, b := .vst 2, tys := [3], sops := [0, 1, 2], lens := .only96, ext := .flag, term := true }
  | 0xD0 => some { d := .vOnly 1, a := .vst 4, c := .imm 256, tys := [4], dist := .nextRun }
  | 0xD1 => some { d := .vOnly 4, a := .vst 4, c := .imm 256, tys := [4], dist := .nextRun }
  | 0xD2 => some { d := .vOnly 1, a := .vst 4, c := .imm 256, tys := [4], dist := .nextRun }
  | _ => none

/-! ## Registers named by a field -/

/-- A register as a field names it: per-lane, scalar, temporary or mask (R88). -/
inductive RegId where
  | v (n : Nat)
  | s (n : Nat)
  | t (n : Nat)
  | k (n : Nat)
deriving DecidableEq, Repr, Inhabited

/-- The register of a code (R88). -/
def regOf (code : BitVec 8) : RegId :=
  if code.toNat < 0xC0 then .v code.toNat
  else if code.toNat < 0xF8 then .s (code.toNat - 0xC0)
  else .t (code.toNat - 0xF8)

/-- The register `i` places above `r` in its class. -/
def RegId.plus : RegId → Nat → RegId
  | .v n, i => .v (n + i)
  | .s n, i => .s (n + i)
  | .t n, i => .t (n + i)
  | .k n, i => .k (n + i)

/-- The number of a register within its class. -/
def RegId.num : RegId → Nat
  | .v n => n
  | .s n => n
  | .t n => n
  | .k n => n

def RegId.isS : RegId → Bool
  | .s _ => true
  | _ => false

def RegId.isT : RegId → Bool
  | .t _ => true
  | _ => false

/-- The registers a field names. -/
def Fld.regs : Fld → BitVec 8 → List RegId
  | .reg _ _ _ n, code => (List.range n).map (regOf code).plus
  | .mask, code => [.k code.toNat]
  | _, _ => []

/-- The value lies within what the field accepts (R2, R88). -/
def Fld.ok : Fld → BitVec 8 → Bool
  | .none, code => code = 0
  | .reg v s t n, code =>
    (match regOf code with
     | .v _ => v
     | .s _ => s
     | .t _ => t
     | .k _ => false) && (regOf code).num % n = 0
  | .mask, code => code.toNat < 12
  | .imm bound, code => code.toNat < bound
  | .paths, code => code ≠ 0 ∧ code.toNat < 64
  | .special, code => (srRegs code.toNat).isSome

/-- The field names only `s` registers, or no register. -/
def Fld.scalar (f : Fld) (code : BitVec 8) : Bool :=
  match f with
  | .reg _ _ _ _ => (regOf code).isS
  | _ => true

/-! ## Legality (R100, R102) -/

/-- The extension lies within what its instruction accepts. -/
def Ext.ok : Ext → Nat → Bool
  | .none, x => x = 0
  | .disp, _ => true
  | .branch, x => x % 4 = 0
  | .entry, x => x % 4 = 0 ∧ 64 ≤ x ∧ x % 32 ≠ 28
  | .table, x => x < 256
  | .counts, x => x / 65536 = 0 ∧ 0xC0 ≤ x % 256 ∧ x % 256 < 0xF8 ∧ 0xC0 ≤ x / 256 ∧ x / 256 < 0xF8 ∧ x % 256 ≠ x / 256
  | .atomic km red, x =>
    x % 8 ≤ 5 ∧ x / 32 % 8 = 0 ∧ (red = false ∨ x / 8 % 4 % 2 = 0) ∧
      (if km then x / 256 % 16 ≤ 11 else x / 256 % 16 = 0)
  | .copy, x => x / 1024 = 0 ∧ x / 64 % 4 ≠ 3 ∧ x / 256 % 4 ≠ 3
  | .count, x => x < 128
  | .flag, x => x / 2048 = 0 ∧ x / 64 % 4 = 0 ∧ x % 64 ≠ 0 ∧ x / 256 % 8 ≤ 5

/-- The word's length, immediate and extension agree with the form (R86, R87, R116, R151). -/
def Form.lenOk (f : Form) (w : Word) : Bool :=
  let x := w.ext.toNat
  match f.lens with
  | .only64 => w.len = .w64 ∧ w.i = false
  | .only96 => w.len = .w96 ∧ w.i = false ∧ f.ext.ok x
  | .nop => w.i = false ∧ x = 0
  | .r116 =>
    match w.i with
    | false => w.len = .w64
    | true =>
      match f.immTy with
      | none => false
      | some ty =>
        match w.len with
        | .w64 => true
        | .w96 => w.b = 0
        | .w128 => w.b = 0 ∧ regsOf ty = 2
  | .mem =>
    w.len ≠ .w128 ∧ (w.i = false ∨ (w.mx = 0 ∧ w.sx = false ∧ (w.len = .w64 ∨ w.b = 0)))

/-- Operand B is a register field of this word. -/
def Form.bIsReg (_ : Form) (w : Word) : Bool := !w.i

/-- Limits that one instruction's own description adds (R132, R139, R140, R150, R199). -/
def extraOk (op : Nat) (w : Word) : Bool :=
  match op with
  | 0x54 => w.ty ≠ w.sop
  | 0x5F => w.i = false ∨ (if w.len = .w64 then w.b.toNat < 128 else w.ext.toNat < 128)
  | 0x64 => w.d ≠ w.c
  | 0x67 => w.i = false ∨ (if w.len = .w64 then w.b.toNat < 32 else w.ext.toNat < 32)
  | 0xA1 => w.d.toNat + w.ext.toNat < 128
  | 0xA2 => w.d.toNat + w.ext.toNat < 128
  | 0xA3 => w.sop = 2 ∨ w.d.toNat + w.c.toNat < 128
  | _ => true

/-- The word carries the extension its length gives it (R82). -/
def Word.extOk (w : Word) : Bool :=
  match w.len with
  | .w64 => w.ext = 0
  | .w96 => w.ext.toNat < 2 ^ 32
  | .w128 => true

/-- The word is legal for its opcode under R82 to R88 and R102. -/
def legalWord (op : Nat) (w : Word) : Bool :=
  match formOf op w with
  | none => false
  | some f =>
    w.extOk && (w.gk.toNat < 12 || w.gk = 15) &&
    f.d.ok w.d && f.a.ok w.a && (w.i || f.b.ok w.b) && f.c.ok w.c &&
    f.tys.contains w.ty.toNat && f.sops.contains w.sop.toNat && f.mxs.contains w.mx.toNat &&
    (f.sx || !w.sx) && (f.sat || !w.sat) && w.rm.toNat < f.rms && (!f.needI || w.i) &&
    f.lenOk w && extraOk op w &&
    -- uniform form (R115, R144)
    (!f.uniform || f.d.regs w.d == [] || !(match f.d with | .reg _ _ _ _ => (regOf w.d).isS | _ => false) ||
      (f.a.scalar w.a && (w.i || f.b.scalar w.b) && f.c.scalar w.c)) &&
    -- a temporary as a next-run destination (R88)
    (f.dist ≠ .nextRun || !(match f.d with | .reg _ _ _ _ => (regOf w.d).isT | _ => false))

/-! ## Registers read and written (R96) -/

/-- The registers the word reads, its guard's mask included (R96), that of a NOP too (R103, log 67). -/
def readsOf (op : Nat) (w : Word) : List RegId :=
  match formOf op w with
  | none => []
  | some f =>
    (if w.gk.toNat < 12 then [.k w.gk.toNat] else []) ++ f.a.regs w.a ++
    (if w.i then [] else f.b.regs w.b) ++ (if f.cOut then [] else f.c.regs w.c)

/-- The registers the word writes (R96, R120, R146, R150, R166). -/
def writesOf (op : Nat) (w : Word) : List RegId :=
  match formOf op w with
  | none => []
  | some f =>
    f.d.regs w.d ++ (if f.cOut then f.c.regs w.c else []) ++
    (if f.sopOut && w.sop ≠ 15 then [.k w.sop.toNat] else []) ++
    (match f.ext with
     | .counts => [regOf (BitVec.ofNat 8 w.ext.toNat), regOf (BitVec.ofNat 8 (w.ext.toNat / 256))]
     | .atomic true _ => [.k (w.ext.toNat / 256 % 16)]
     | _ => [])

/-- The highest `v` register the word names, plus one; 0 for none (R89). -/
def vBound (op : Nat) (w : Word) : Nat :=
  (readsOf op w ++ writesOf op w).foldl (fun m r => match r with | .v n => max m (n + 1) | _ => m) 0

/-- The visibility distance of the word's results (R94). -/
def distOf (op : Nat) (w : Word) : Dist :=
  match formOf op w with
  | none => .within 2
  | some f => f.dist

/-- The word is run-terminal (R99). -/
def isTerm (op : Nat) (w : Word) : Bool :=
  match formOf op w with
  | none => false
  | some f => f.term

/-! ## Immediates (R86) -/

/-- Sign-extension of the low `n` bits of `x`, as an integer. -/
def sextInt (n x : Nat) : Int :=
  if x % 2 ^ n < 2 ^ (n - 1) then (x % 2 ^ n : Int) else (x % 2 ^ n : Int) - 2 ^ n

/-- A small integer as a binary floating pattern of `eb` exponent and `mb` fraction bits, exactly (R86). -/
def smallFloat (eb mb : Nat) (n : Int) : Nat :=
  if n = 0 then 0
  else
    let m := n.natAbs
    let e := Nat.log2 m
    (if n < 0 then 2 ^ (eb + mb) else 0) + (e + (2 ^ (eb - 1) - 1)) * 2 ^ mb + (m * 2 ^ mb / 2 ^ e - 2 ^ mb)

/-- An FP32 pattern widened to FP64; a NaN keeps its sign and fraction (log 5). -/
def widenImm (x : Nat) : Nat :=
  let sgn := x / 2 ^ 31 % 2 * 2 ^ 63
  let e := x / 2 ^ 23 % 256
  let m := x % 2 ^ 23
  if e = 255 then sgn + 2047 * 2 ^ 52 + m * 2 ^ 29
  else if e = 0 then
    if m = 0 then sgn
    else sgn + (Nat.log2 m + 874) * 2 ^ 52 + (m * 2 ^ (52 - Nat.log2 m) - 2 ^ 52)
  else sgn + (e + 896) * 2 ^ 52 + m * 2 ^ 29

/-- The immediate operand B of a word with `I` = 1, as a bit pattern of the type `ty` (R86). -/
def immBits (w : Word) (ty : Nat) : BitVec 64 :=
  let s8 := sextInt 8 w.b.toNat
  match w.len with
  | .w64 =>
    match ty with
    | 0 => BitVec.ofNat 64 (BitVec.ofInt 32 s8).toNat
    | 2 => BitVec.ofInt 64 s8
    | 4 => BitVec.ofNat 64 (smallFloat 8 23 s8)
    | 5 => BitVec.ofNat 64 (smallFloat 11 52 s8)
    | 6 => BitVec.ofNat 64 (smallFloat 5 10 s8 * 65537)
    | 7 => BitVec.ofNat 64 (smallFloat 8 7 s8 * 65537)
    | _ => BitVec.ofNat 64 w.b.toNat
  | .w96 =>
    match ty with
    | 2 => BitVec.ofInt 64 (sextInt 32 w.ext.toNat)
    | 5 => BitVec.ofNat 64 (widenImm w.ext.toNat)
    | _ => w.ext
  | .w128 => w.ext

/-! ## The SIMT opcode map (R101) -/

/-- One row of the opcode map: the opcode, the words of that opcode the row stands for, and the instruction. -/
structure SimtRow where
  op : Nat
  pick : Word → Bool
  build : Word → Instr

/-- The opcode map, in the order of spec/opcode_table.json (R101). -/
def simtRows : List SimtRow :=
  [ ⟨0x00, fun _ => true, .nop⟩,
    ⟨0x01, fun _ => true, .bra⟩,
    ⟨0x02, fun _ => true, .brx⟩,
    ⟨0x03, fun _ => true, .call⟩,
    ⟨0x04, fun _ => true, .ret⟩,
    ⟨0x05, fun _ => true, .exit⟩,
    ⟨0x06, fun _ => true, .yield⟩,
    ⟨0x07, fun _ => true, .trap⟩,
    ⟨0x08, fun _ => true, .bpt⟩,
    ⟨0x09, fun _ => true, .tret⟩,
    ⟨0x0A, fun _ => true, .sleep⟩,
    ⟨0x10, fun _ => true, .mjoin⟩,
    ⟨0x11, fun _ => true, .mleave⟩,
    ⟨0x12, fun _ => true, .mwait⟩,
    ⟨0x13, fun w => w.sop = 0, .kset⟩,
    ⟨0x13, fun w => w.sop = 1, .ksetLane⟩,
    ⟨0x14, fun _ => true, .klog⟩,
    ⟨0x15, fun _ => true, .kmov⟩,
    ⟨0x17, fun _ => true, .serb⟩,
    ⟨0x18, fun _ => true, .sere⟩ ] ++
  [ ⟨0x19, fun _ => true, .elect⟩,
    ⟨0x16, fun w => w.sop.toNat < 3, .vote⟩,
    ⟨0x16, fun w => w.sop = 3, .voteBal⟩,
    ⟨0x20, fun _ => true, .iadd⟩,
    ⟨0x21, fun _ => true, .isub⟩,
    ⟨0x22, fun _ => true, .iaddc⟩,
    ⟨0x23, fun _ => true, .imul⟩,
    ⟨0x24, fun _ => true, .imulh⟩,
    ⟨0x25, fun _ => true, .imad⟩,
    ⟨0x26, fun _ => true, .imadw⟩,
    ⟨0x27, fun _ => true, .imin⟩,
    ⟨0x28, fun _ => true, .imax⟩,
    ⟨0x29, fun _ => true, .iabs⟩,
    ⟨0x2A, fun _ => true, .ineg⟩,
    ⟨0x2B, fun _ => true, .icmp⟩,
    ⟨0x2C, fun _ => true, .lea⟩,
    ⟨0x2D, fun _ => true, .idiv⟩,
    ⟨0x2E, fun _ => true, .irem⟩,
    ⟨0x30, fun _ => true, .and⟩,
    ⟨0x31, fun _ => true, .or⟩ ] ++
  [ ⟨0x32, fun _ => true, .xor⟩,
    ⟨0x33, fun _ => true, .not⟩,
    ⟨0x34, fun _ => true, .shl⟩,
    ⟨0x35, fun _ => true, .shr⟩,
    ⟨0x36, fun _ => true, .sar⟩,
    ⟨0x37, fun _ => true, .rot⟩,
    ⟨0x38, fun _ => true, .bfx⟩,
    ⟨0x39, fun _ => true, .bfi⟩,
    ⟨0x3A, fun _ => true, .popc⟩,
    ⟨0x3B, fun _ => true, .clz⟩,
    ⟨0x3C, fun _ => true, .brev⟩,
    ⟨0x3D, fun _ => true, .sel⟩,
    ⟨0x3E, fun _ => true, .tern⟩,
    ⟨0x3F, fun _ => true, .bpick⟩,
    ⟨0x40, fun _ => true, .fadd⟩,
    ⟨0x41, fun _ => true, .fsub⟩,
    ⟨0x42, fun _ => true, .fmul⟩,
    ⟨0x43, fun _ => true, .ffma⟩,
    ⟨0x44, fun _ => true, .fmin⟩,
    ⟨0x45, fun _ => true, .fmax⟩ ] ++
  [ ⟨0x46, fun _ => true, .fabs⟩,
    ⟨0x47, fun _ => true, .fneg⟩,
    ⟨0x48, fun _ => true, .fcmp⟩,
    ⟨0x49, fun _ => true, .fclass⟩,
    ⟨0x4A, fun _ => true, .frcp⟩,
    ⟨0x4B, fun _ => true, .frsq⟩,
    ⟨0x4C, fun _ => true, .fsqrt⟩,
    ⟨0x4D, fun _ => true, .fdiv⟩,
    ⟨0x4E, fun _ => true, .frnd⟩,
    ⟨0x4F, fun _ => true, .fscale⟩,
    ⟨0x50, fun _ => true, .hadd2⟩,
    ⟨0x51, fun _ => true, .hmul2⟩,
    ⟨0x52, fun _ => true, .hfma2⟩,
    ⟨0x53, fun _ => true, .hmnx2⟩,
    ⟨0x54, fun _ => true, .cvt⟩,
    ⟨0x55, fun _ => true, .cvts⟩,
    ⟨0x56, fun _ => true, .pack⟩,
    ⟨0x57, fun _ => true, .unpk⟩,
    ⟨0x58, fun _ => true, .exp2⟩,
    ⟨0x59, fun _ => true, .log2⟩ ] ++
  [ ⟨0x5A, fun _ => true, .sin⟩,
    ⟨0x5B, fun _ => true, .cos⟩,
    ⟨0x5C, fun _ => true, .ppe⟩,
    ⟨0x5D, fun _ => true, .ppld⟩,
    ⟨0x5E, fun _ => true, .ppst⟩,
    ⟨0x5F, fun _ => true, .fstk⟩,
    ⟨0x60, fun _ => true, .shfl⟩,
    ⟨0x61, fun _ => true, .redux⟩,
    ⟨0x62, fun _ => true, .scanx⟩,
    ⟨0x63, fun w => w.sop = 0, .matchAny⟩,
    ⟨0x63, fun w => w.sop = 1, .matchAll⟩,
    ⟨0x64, fun _ => true, .ssint⟩,
    ⟨0x65, fun _ => true, .mov⟩,
    ⟨0x66, fun _ => true, .movi⟩,
    ⟨0x67, fun _ => true, .smov⟩,
    ⟨0x68, fun _ => true, .srd⟩,
    ⟨0x69, fun _ => true, .swr⟩,
    ⟨0x70, fun _ => true, .ld⟩,
    ⟨0x71, fun _ => true, .st⟩,
    ⟨0x72, fun _ => true, .lds⟩ ] ++
  [ ⟨0x73, fun _ => true, .sts⟩,
    ⟨0x74, fun _ => true, .ldv⟩,
    ⟨0x75, fun _ => true, .stv⟩,
    ⟨0x76, fun _ => true, .ldf⟩,
    ⟨0x77, fun _ => true, .stf⟩,
    ⟨0x78, fun _ => true, .fest⟩,
    ⟨0x79, fun _ => true, .ldc⟩,
    ⟨0x7A, fun _ => true, .pref⟩,
    ⟨0x7B, fun _ => true, .ldt⟩,
    ⟨0x7C, fun _ => true, .stt⟩,
    ⟨0x80, fun _ => true, .atom⟩,
    ⟨0x81, fun _ => true, .atomf⟩,
    ⟨0x82, fun _ => true, .cas⟩,
    ⟨0x83, fun _ => true, .cas128⟩,
    ⟨0x84, fun _ => true, .red⟩,
    ⟨0x85, fun _ => true, .redf⟩,
    ⟨0x90, fun _ => true, .cpy⟩,
    ⟨0x91, fun _ => true, .cpyg⟩,
    ⟨0x92, fun _ => true, .cpys⟩,
    ⟨0x93, fun _ => true, .twany⟩ ] ++
  [ ⟨0x94, fun _ => true, .twall⟩,
    ⟨0x95, fun _ => true, .tffr⟩,
    ⟨0x96, fun _ => true, .tclr⟩,
    ⟨0x98, fun _ => true, .tdef⟩,
    ⟨0x99, fun _ => true, .tqry⟩,
    ⟨0x9A, fun _ => true, .tbnd⟩,
    ⟨0x9B, fun _ => true, .tufc⟩,
    ⟨0x9C, fun _ => true, .tscl⟩,
    ⟨0xA0, fun _ => true, .mldb⟩,
    ⟨0xA1, fun _ => true, .mma⟩,
    ⟨0xA2, fun _ => true, .mdrn⟩,
    ⟨0xA3, fun w => w.sop.toNat < 2, .mclr⟩,
    ⟨0xA3, fun w => w.sop = 2, .mclrBank⟩,
    ⟨0xA4, fun _ => true, .mcor⟩,
    ⟨0xA5, fun _ => true, .mstat⟩,
    ⟨0xB0, fun _ => true, .bara⟩,
    ⟨0xB1, fun _ => true, .barw⟩,
    ⟨0xB2, fun _ => true, .bars⟩,
    ⟨0xB3, fun _ => true, .barx⟩,
    ⟨0xB4, fun _ => true, .acq⟩ ] ++
  [ ⟨0xB5, fun w => w.mx = 0, .relInc⟩,
    ⟨0xB5, fun w => w.mx = 1, .relSet⟩,
    ⟨0xB6, fun _ => true, .fence⟩,
    ⟨0xB7, fun _ => true, .fencesc⟩,
    ⟨0xB8, fun _ => true, .fencex⟩,
    ⟨0xB9, fun _ => true, .rbind⟩,
    ⟨0xC0, fun _ => true, .spawn⟩,
    ⟨0xC1, fun _ => true, .spawnt⟩,
    ⟨0xC2, fun _ => true, .jinc⟩,
    ⟨0xC3, fun _ => true, .joinw⟩,
    ⟨0xC4, fun _ => true, .jdec⟩,
    ⟨0xC5, fun w => w.sop = 0, .task⟩,
    ⟨0xC5, fun w => w.sop = 1, .taskDec⟩,
    ⟨0xC6, fun _ => true, .sigf⟩,
    ⟨0xC7, fun _ => true, .waitf⟩,
    ⟨0xD0, fun _ => true, .tex2⟩,
    ⟨0xD1, fun _ => true, .texg⟩,
    ⟨0xD2, fun _ => true, .texl⟩ ]

/-- The instruction of opcode `op` whose fields are `w`, before legality. -/
def candidate (op : Nat) (w : Word) : Option Instr :=
  (simtRows.find? (fun r => r.op == op && r.pick w)).map (·.build w)

/-- The word of an instruction that has one (R83). -/
def Instr.simt? : Instr → Option (Nat × Word)
  | .nop w => some (0x00, w)
  | .bra w => some (0x01, w)
  | .brx w => some (0x02, w)
  | .call w => some (0x03, w)
  | .ret w => some (0x04, w)
  | .exit w => some (0x05, w)
  | .yield w => some (0x06, w)
  | .trap w => some (0x07, w)
  | .bpt w => some (0x08, w)
  | .tret w => some (0x09, w)
  | .sleep w => some (0x0A, w)
  | .mjoin w => some (0x10, w)
  | .mleave w => some (0x11, w)
  | .mwait w => some (0x12, w)
  | .kset w => some (0x13, w)
  | .ksetLane w => some (0x13, w)
  | .klog w => some (0x14, w)
  | .kmov w => some (0x15, w)
  | .serb w => some (0x17, w)
  | .sere w => some (0x18, w)
  | .elect w => some (0x19, w)
  | .vote w => some (0x16, w)
  | .voteBal w => some (0x16, w)
  | .iadd w => some (0x20, w)
  | .isub w => some (0x21, w)
  | .iaddc w => some (0x22, w)
  | .imul w => some (0x23, w)
  | .imulh w => some (0x24, w)
  | .imad w => some (0x25, w)
  | .imadw w => some (0x26, w)
  | .imin w => some (0x27, w)
  | .imax w => some (0x28, w)
  | .iabs w => some (0x29, w)
  | .ineg w => some (0x2A, w)
  | .icmp w => some (0x2B, w)
  | .lea w => some (0x2C, w)
  | .idiv w => some (0x2D, w)
  | .irem w => some (0x2E, w)
  | .and w => some (0x30, w)
  | .or w => some (0x31, w)
  | .xor w => some (0x32, w)
  | .not w => some (0x33, w)
  | .shl w => some (0x34, w)
  | .shr w => some (0x35, w)
  | .sar w => some (0x36, w)
  | .rot w => some (0x37, w)
  | .bfx w => some (0x38, w)
  | .bfi w => some (0x39, w)
  | .popc w => some (0x3A, w)
  | .clz w => some (0x3B, w)
  | .brev w => some (0x3C, w)
  | .sel w => some (0x3D, w)
  | .tern w => some (0x3E, w)
  | .bpick w => some (0x3F, w)
  | .fadd w => some (0x40, w)
  | .fsub w => some (0x41, w)
  | .fmul w => some (0x42, w)
  | .ffma w => some (0x43, w)
  | .fmin w => some (0x44, w)
  | .fmax w => some (0x45, w)
  | .fabs w => some (0x46, w)
  | .fneg w => some (0x47, w)
  | .fcmp w => some (0x48, w)
  | .fclass w => some (0x49, w)
  | .frcp w => some (0x4A, w)
  | .frsq w => some (0x4B, w)
  | .fsqrt w => some (0x4C, w)
  | .fdiv w => some (0x4D, w)
  | .frnd w => some (0x4E, w)
  | .fscale w => some (0x4F, w)
  | .hadd2 w => some (0x50, w)
  | .hmul2 w => some (0x51, w)
  | .hfma2 w => some (0x52, w)
  | .hmnx2 w => some (0x53, w)
  | .cvt w => some (0x54, w)
  | .cvts w => some (0x55, w)
  | .pack w => some (0x56, w)
  | .unpk w => some (0x57, w)
  | .exp2 w => some (0x58, w)
  | .log2 w => some (0x59, w)
  | .sin w => some (0x5A, w)
  | .cos w => some (0x5B, w)
  | .ppe w => some (0x5C, w)
  | .ppld w => some (0x5D, w)
  | .ppst w => some (0x5E, w)
  | .fstk w => some (0x5F, w)
  | .shfl w => some (0x60, w)
  | .redux w => some (0x61, w)
  | .scanx w => some (0x62, w)
  | .matchAny w => some (0x63, w)
  | .matchAll w => some (0x63, w)
  | .ssint w => some (0x64, w)
  | .mov w => some (0x65, w)
  | .movi w => some (0x66, w)
  | .smov w => some (0x67, w)
  | .srd w => some (0x68, w)
  | .swr w => some (0x69, w)
  | .ld w => some (0x70, w)
  | .st w => some (0x71, w)
  | .lds w => some (0x72, w)
  | .sts w => some (0x73, w)
  | .ldv w => some (0x74, w)
  | .stv w => some (0x75, w)
  | .ldf w => some (0x76, w)
  | .stf w => some (0x77, w)
  | .fest w => some (0x78, w)
  | .ldc w => some (0x79, w)
  | .pref w => some (0x7A, w)
  | .ldt w => some (0x7B, w)
  | .stt w => some (0x7C, w)
  | .atom w => some (0x80, w)
  | .atomf w => some (0x81, w)
  | .cas w => some (0x82, w)
  | .cas128 w => some (0x83, w)
  | .red w => some (0x84, w)
  | .redf w => some (0x85, w)
  | .cpy w => some (0x90, w)
  | .cpyg w => some (0x91, w)
  | .cpys w => some (0x92, w)
  | .twany w => some (0x93, w)
  | .twall w => some (0x94, w)
  | .tffr w => some (0x95, w)
  | .tclr w => some (0x96, w)
  | .tdef w => some (0x98, w)
  | .tqry w => some (0x99, w)
  | .tbnd w => some (0x9A, w)
  | .tufc w => some (0x9B, w)
  | .tscl w => some (0x9C, w)
  | .mldb w => some (0xA0, w)
  | .mma w => some (0xA1, w)
  | .mdrn w => some (0xA2, w)
  | .mclr w => some (0xA3, w)
  | .mclrBank w => some (0xA3, w)
  | .mcor w => some (0xA4, w)
  | .mstat w => some (0xA5, w)
  | .bara w => some (0xB0, w)
  | .barw w => some (0xB1, w)
  | .bars w => some (0xB2, w)
  | .barx w => some (0xB3, w)
  | .acq w => some (0xB4, w)
  | .relInc w => some (0xB5, w)
  | .relSet w => some (0xB5, w)
  | .fence w => some (0xB6, w)
  | .fencesc w => some (0xB7, w)
  | .fencex w => some (0xB8, w)
  | .rbind w => some (0xB9, w)
  | .spawn w => some (0xC0, w)
  | .spawnt w => some (0xC1, w)
  | .jinc w => some (0xC2, w)
  | .joinw w => some (0xC3, w)
  | .jdec w => some (0xC4, w)
  | .task w => some (0xC5, w)
  | .taskDec w => some (0xC5, w)
  | .sigf w => some (0xC6, w)
  | .waitf w => some (0xC7, w)
  | .tex2 w => some (0xD0, w)
  | .texg w => some (0xD1, w)
  | .texl w => some (0xD2, w)
  | _ => none

/-- Bits `[hi:lo]` of a word as a number of `n` bits. -/
def bitsAt (n lo : Nat) {m : Nat} (x : BitVec m) : BitVec n := x.extractLsb' lo n

/-- The length code (R82). -/
def lenOf (code : BitVec 2) : Option Len :=
  if code = 1 then some .w64 else if code = 2 then some .w96 else if code = 3 then some .w128 else none

/-- Bytes of a word of the length (R82). -/
def Len.bytes : Len → Nat
  | .w64 => 8
  | .w96 => 12
  | .w128 => 16

def Len.code : Len → BitVec 2
  | .w64 => 1
  | .w96 => 2
  | .w128 => 3

/-- The fields of a word whose length is `len` (R83 to R85); what lies beyond the length is not read. -/
def fieldsOf (len : Len) (x : BitVec 128) : Nat × Word :=
  ((bitsAt 8 8 x).toNat,
   { gk := bitsAt 4 4 x, gn := x.getLsbD 3, mark := x.getLsbD 2, len := len,
     d := bitsAt 8 16 x, a := bitsAt 8 24 x, b := bitsAt 8 32 x, c := bitsAt 8 40 x,
     ty := bitsAt 4 48 x, sop := bitsAt 4 52 x, rm := bitsAt 3 56 x, sat := x.getLsbD 59, sx := x.getLsbD 60,
     mx := bitsAt 2 61 x, i := x.getLsbD 63,
     ext := match len with
       | .w64 => 0
       | .w96 => BitVec.setWidth 64 (bitsAt 32 64 x)
       | .w128 => bitsAt 64 64 x })

/-- The opcode and fields at the head of 128 bits of code; none where LEN is 0b00 (R82). -/
def splitWord (x : BitVec 128) : Option (Nat × Word) :=
  (lenOf (bitsAt 2 0 x)).map (fun len => fieldsOf len x)

/-- The instruction at the head of 128 bits of code, its first bytes in the low bits; none where the word gives the
illegal-instruction trap (R82, R100, R102). -/
def decodeSimt (x : BitVec 128) : Option Instr :=
  match splitWord x with
  | none => none
  | some (op, w) => if legalWord op w then candidate op w else none

/-! ## Weir words (R222 to R224) -/

/-- What a weir instruction's IMM holds (R223). -/
inductive WImm where
  | reserved
  | target
  | value
  | modulus
  | count
deriving DecidableEq, Repr

/-- The fields a weir instruction uses (R223). -/
structure WForm where
  wa : Bool := false
  wb : Bool := false
  ds : Bool := false
  wd : Bool := false
  cn : Bool := false
  fns : Nat := 1
  fl : Bool := false
  wt : Bool := false
  imm : WImm := .reserved
deriving DecidableEq, Repr

/-- The word keeps to its form: reserved fields zero, FN listed, IMM within its limits (R223, R224). -/
def WForm.ok (f : WForm) (w : WeirWord) : Bool :=
  (f.wa || w.wa == 0) && (f.wb || w.wb == 0) && (f.ds || w.ds == 0) && (f.wd || w.wd == 0) &&
  (f.cn || w.cn == 0) && w.fn.toNat < f.fns && (f.fl || !w.fl) && (f.wt || !w.wt) &&
  (match f.imm with
   | .reserved => w.imm == 0
   | .target => w.imm.toNat < 2048
   | .value => true
   | .modulus => w.imm != 0
   | .count => w.imm.toNat < 64)

/-- One row of the weir opcode table (R223). -/
structure WeirRow where
  op : Nat
  form : WeirWord → WForm
  build : WeirWord → Instr

/-- The weir opcodes (R223). CN of SIGF is used only when FL is 1. -/
def weirRows : List WeirRow :=
  [ ⟨0x01, fun _ => {}, .weirNop⟩,
    ⟨0x02, fun _ => {}, .weirHalt⟩,
    ⟨0x03, fun _ => { imm := .target }, .weirJmp⟩,
    ⟨0x04, fun _ => { wa := true, wb := true, imm := .target }, .weirBeq⟩,
    ⟨0x05, fun _ => { wa := true, wb := true, imm := .target }, .weirBne⟩,
    ⟨0x06, fun _ => { wd := true, imm := .target }, .weirLoop⟩,
    ⟨0x08, fun _ => { wd := true, imm := .value }, .weirMovi⟩,
    ⟨0x09, fun _ => { wd := true, wa := true, wb := true }, .weirAdd⟩,
    ⟨0x0A, fun _ => { wd := true, wa := true, imm := .value }, .weirAddi⟩,
    ⟨0x0B, fun _ => { wd := true, wa := true, wb := true, imm := .modulus }, .weirAddm⟩,
    ⟨0x0C, fun _ => { wd := true, wa := true, wb := true }, .weirSub⟩,
    ⟨0x0D, fun _ => { wd := true, wa := true, wb := true }, .weirMul⟩ ] ++
  [ ⟨0x0E, fun _ => { wd := true, wa := true, imm := .count }, .weirShl⟩,
    ⟨0x0F, fun _ => { wd := true, wa := true, wb := true }, .weirAnd⟩,
    ⟨0x10, fun _ => { ds := true, wa := true, imm := .value }, .dsel⟩,
    ⟨0x18, fun _ => { wa := true, wb := true, fns := 3 }, .weirWaitf⟩,
    ⟨0x19, fun w => { wa := true, wb := true, fns := 2, fl := true, cn := w.fl }, .weirSigf⟩,
    ⟨0x20, fun _ => { wt := true, cn := true, ds := true, wa := true }, .xmit⟩,
    ⟨0x21, fun _ => { wt := true, cn := true, ds := true, wa := true }, .recv⟩,
    ⟨0x22, fun _ => { fns := 3, wt := true, cn := true, ds := true, wa := true }, .rcmb⟩,
    ⟨0x23, fun _ => { fns := 3, fl := true, wt := true, cn := true, wd := true, ds := true, wa := true }, .rcfw⟩,
    ⟨0x24, fun _ => { wt := true, cn := true, ds := true, wa := true, wb := true }, .rput⟩,
    ⟨0x25, fun _ => { wt := true, cn := true, ds := true, wa := true, wb := true }, .rget⟩,
    ⟨0x26, fun _ => { wt := true, cn := true, wa := true, wb := true }, .ratm⟩ ]

/-- The weir word of an instruction that has one. -/
def Instr.weir? : Instr → Option (Nat × WeirWord)
  | .weirNop w => some (0x01, w)
  | .weirHalt w => some (0x02, w)
  | .weirJmp w => some (0x03, w)
  | .weirBeq w => some (0x04, w)
  | .weirBne w => some (0x05, w)
  | .weirLoop w => some (0x06, w)
  | .weirMovi w => some (0x08, w)
  | .weirAdd w => some (0x09, w)
  | .weirAddi w => some (0x0A, w)
  | .weirAddm w => some (0x0B, w)
  | .weirSub w => some (0x0C, w)
  | .weirMul w => some (0x0D, w)
  | .weirShl w => some (0x0E, w)
  | .weirAnd w => some (0x0F, w)
  | .dsel w => some (0x10, w)
  | .weirWaitf w => some (0x18, w)
  | .weirSigf w => some (0x19, w)
  | .xmit w => some (0x20, w)
  | .recv w => some (0x21, w)
  | .rcmb w => some (0x22, w)
  | .rcfw w => some (0x23, w)
  | .rput w => some (0x24, w)
  | .rget w => some (0x25, w)
  | .ratm w => some (0x26, w)
  | _ => none

/-- The row of a weir opcode. -/
def weirRow (op : Nat) : Option WeirRow := weirRows.find? (fun r => r.op == op)

/-- The fields of a weir word (R222). -/
def weirFields (x : BitVec 64) : WeirWord :=
  { imm := bitsAt 32 32 x, wb := bitsAt 4 28 x, wa := bitsAt 4 24 x, ds := bitsAt 3 20 x, wd := bitsAt 4 16 x,
    cn := bitsAt 4 12 x, fn := bitsAt 2 10 x, fl := x.getLsbD 9, wt := x.getLsbD 8 }

/-- The instruction of a weir slot; none where the context fails with cause illegal instruction (R224). -/
def decodeWeir (x : BitVec 64) : Option Instr :=
  match weirRow (bitsAt 8 0 x).toNat with
  | none => none
  | some r => if x.getLsbD 23 = false ∧ (r.form (weirFields x)).ok (weirFields x) then some (r.build (weirFields x)) else none

/-! ## Hook words (R322) -/

/-- The instruction of a hook word; none where a reserved field is nonzero. Limits on field values are HOOKLD's
checks (R323). -/
def decodeHook (x : BitVec 32) : Option Instr :=
  let hd := bitsAt 3 4 x
  let ha := bitsAt 3 7 x
  let im := bitsAt 22 10 x
  let hb := bitsAt 3 0 im
  let n := bitsAt 8 3 im
  let noD := hd = 0
  let noA := ha = 0
  match (bitsAt 4 0 x).toNat with
  | 0 => if noA ∧ bitsAt 6 16 im = 0 then some (.hookLdp hd (bitsAt 9 0 im) (bitsAt 7 9 im)) else none
  | 1 => if noD ∧ bitsAt 6 16 im = 0 then some (.hookStp ha (bitsAt 9 0 im) (bitsAt 7 9 im)) else none
  | 2 => if noA ∧ bitsAt 19 3 im = 0 then some (.hookLdq hd hb) else none
  | 3 => if noD ∧ bitsAt 19 3 im = 0 then some (.hookStq ha hb) else none
  | 4 => if noA then some (.hookMovi hd im) else none
  | 5 => if bitsAt 19 3 im = 0 then some (.hookAdd hd ha hb) else none
  | 6 => if bitsAt 19 3 im = 0 then some (.hookSub hd ha hb) else none
  | 7 => some (.hookAddi hd ha im)
  | 8 => if bitsAt 19 3 im = 0 then some (.hookAnd hd ha hb) else none
  | 9 => if bitsAt 16 6 im = 0 then some (.hookShr hd ha (bitsAt 6 0 im)) else none
  | 10 => if bitsAt 19 3 im = 0 then some (.hookMin hd ha hb) else none
  | 11 => if noD ∧ bitsAt 11 11 im = 0 then some (.hookSkiplt ha hb n) else none
  | 12 => if noD ∧ bitsAt 11 11 im = 0 then some (.hookSkipeq ha hb n) else none
  | 13 => if noD ∧ noA ∧ bitsAt 9 13 im = 0 then some (.hookRep (bitsAt 5 0 im) (bitsAt 8 5 im)) else none
  | 14 => if noD ∧ noA ∧ im = 0 then some .hookAccept else none
  | 15 => if noD ∧ noA ∧ bitsAt 6 16 im = 0 then some (.hookReject (bitsAt 16 0 im)) else none
  | _ => none

/-! ## Packets (R311, R318, R319) -/

/-- The command of a packet. A selector value that R318 rejects decodes to the command's first form, which completes
with status 0x0002. -/
def decodePacket (p : Packet) : Instr :=
  match (bitsAt 8 0 p).toNat with
  | 0x01 => .launch p
  | 0x02 => .taskq p
  | 0x03 => .copy p
  | 0x04 => .fill p
  | 0x05 => .signal p
  | 0x06 => .wait p
  | 0x07 => if bitsAt 2 64 p = 1 then .mapInvalidateAll p else .mapInvalidateRange p
  | 0x08 => .pin p
  | 0x09 => .unpin p
  | 0x0A => .loadseq p
  | 0x0B => .coll p
  | 0x0C => .hookld p
  | 0x0D => .encframe p
  | 0x0E =>
    match (bitsAt 4 64 p).toNat with
    | 1 => .queryWeirState p
    | 2 => .queryWriteWdbg p
    | 3 => .queryWeirCounters p
    | 4 => .queryQcb p
    | _ => .queryClknow p
  | 0x0F =>
    if bitsAt 2 84 p = 1 then .preemptResume p
    else if bitsAt 2 84 p = 2 then .preemptKill p else .preemptSwitchOut p
  | 0x10 => if p.getLsbD 64 then .ckptRestore p else .ckptSave p
  | 0x11 => .scant p
  | 0x12 => if bitsAt 2 84 p = 0 then .captureStop p else .captureStart p
  | _ => .unlistedCommand p

/-- The packet of a command. -/
def Instr.packet? : Instr → Option Packet
  | .launch p => some p
  | .taskq p => some p
  | .copy p => some p
  | .fill p => some p
  | .signal p => some p
  | .wait p => some p
  | .mapInvalidateRange p => some p
  | .mapInvalidateAll p => some p
  | .pin p => some p
  | .unpin p => some p
  | .loadseq p => some p
  | .coll p => some p
  | .hookld p => some p
  | .encframe p => some p
  | .queryClknow p => some p
  | .queryWeirState p => some p
  | .queryWriteWdbg p => some p
  | .queryWeirCounters p => some p
  | .queryQcb p => some p
  | .preemptSwitchOut p => some p
  | .preemptResume p => some p
  | .preemptKill p => some p
  | .ckptSave p => some p
  | .ckptRestore p => some p
  | .scant p => some p
  | .captureStart p => some p
  | .captureStop p => some p
  | .unlistedCommand p => some p
  | _ => none

/-! ## The encoder -/

/-- The 64-bit base layout of R83. -/
def packBase (op : BitVec 8) (w : Word) : BitVec 64 :=
  BitVec.ofBool w.i ++ w.mx ++ BitVec.ofBool w.sx ++ BitVec.ofBool w.sat ++ w.rm ++ w.sop ++ w.ty ++ w.c ++ w.b ++
    w.a ++ w.d ++ op ++ w.gk ++ BitVec.ofBool w.gn ++ BitVec.ofBool w.mark ++ w.len.code

/-- A SIMT word in 128 bits, its extension above the base (R83, R86). -/
def packWord (op : BitVec 8) (w : Word) : BitVec 128 := w.ext ++ packBase op w

/-- A weir word (R222). -/
def packWeir (op : BitVec 8) (w : WeirWord) : BitVec 64 :=
  w.imm ++ w.wb ++ w.wa ++ (0 : BitVec 1) ++ w.ds ++ w.wd ++ w.cn ++ w.fn ++ BitVec.ofBool w.fl ++ BitVec.ofBool w.wt ++ op

/-- A hook word (R322). -/
def packHook (op : BitVec 4) (hd ha : BitVec 3) (im : BitVec 22) : BitVec 32 := im ++ ha ++ hd ++ op

/-- IMM of a form that names hB (R322). -/
def hookB (hb : BitVec 3) : BitVec 22 := (0 : BitVec 19) ++ hb

/-- IMM of a packet-field form (R322). -/
def hookField (off : BitVec 9) (wid : BitVec 7) : BitVec 22 := (0 : BitVec 6) ++ wid ++ off

/-- IMM of a skip (R322). -/
def hookSkip (hb : BitVec 3) (n : BitVec 8) : BitVec 22 := (0 : BitVec 11) ++ n ++ hb

/-- The hook word of an instruction that has one (R322). -/
def Instr.hook? : Instr → Option (BitVec 32)
  | .hookLdp d off wid => some (packHook 0 d 0 (hookField off wid))
  | .hookStp a off wid => some (packHook 1 0 a (hookField off wid))
  | .hookLdq d q => some (packHook 2 d 0 (hookB q))
  | .hookStq a q => some (packHook 3 0 a (hookB q))
  | .hookMovi d imm => some (packHook 4 d 0 imm)
  | .hookAdd d a b => some (packHook 5 d a (hookB b))
  | .hookSub d a b => some (packHook 6 d a (hookB b))
  | .hookAddi d a imm => some (packHook 7 d a imm)
  | .hookAnd d a b => some (packHook 8 d a (hookB b))
  | .hookShr d a cnt => some (packHook 9 d a ((0 : BitVec 16) ++ cnt))
  | .hookMin d a b => some (packHook 10 d a (hookB b))
  | .hookSkiplt a b cnt => some (packHook 11 0 a (hookSkip b cnt))
  | .hookSkipeq a b cnt => some (packHook 12 0 a (hookSkip b cnt))
  | .hookRep cnt len => some (packHook 13 0 0 ((0 : BitVec 9) ++ len ++ cnt))
  | .hookAccept => some (packHook 14 0 0 0)
  | .hookReject code => some (packHook 15 0 0 ((0 : BitVec 6) ++ code))
  | _ => none

/-- The length in bits and the bits of an instruction that has an encoding; none for host writes and events. -/
def encode (i : Instr) : Option (Nat × BitVec 512) :=
  match i.simt?, i.weir?, i.hook?, i.packet? with
  | some (op, w), _, _, _ => some (8 * w.len.bytes, BitVec.setWidth 512 (packWord (BitVec.ofNat 8 op) w))
  | none, some (op, w), _, _ => some (64, BitVec.setWidth 512 (packWeir (BitVec.ofNat 8 op) w))
  | none, none, some x, _ => some (32, BitVec.setWidth 512 x)
  | none, none, none, some p => some (512, p)
  | none, none, none, none => none

/-- What the decoder reads from an instruction of `nbits` bits numbered as spec/opcode_table.json numbers them: hook
words have 32 bits, SIMT words 64, 96 or 128, weir words 64, packets 512. A 64-bit pattern that is no SIMT word is read
as a weir word; the two languages are never fetched by one agent, so the order here is only the host's question. -/
def decodeTableWord (nbits w : Nat) : Option Instr :=
  if nbits = 32 then decodeHook (BitVec.ofNat 32 w)
  else if nbits = 512 then some (decodePacket (BitVec.ofNat 512 w))
  else if nbits = 64 ∨ nbits = 96 ∨ nbits = 128 then
    match decodeSimt (BitVec.ofNat 128 w) with
    | some i => some i
    | none => if nbits = 64 then decodeWeir (BitVec.ofNat 64 w) else none
  else none

end Sys2Proof
end

