-- ==== Sys2Proof/Machine/Types.lean ====
section
/-! DEFINITION. The records State is made of: places and memories, lanes, runs, warps, gangs, translation, the matrix
unit, the confluence, launches and commands, weirs, and the model's agenda. Plain data only. Structures the spec lays
out bit by bit (descriptors, headers, packets, records) stay bit vectors; Machine/Ops.lean names their fields. -/

namespace Sys2Proof.Machine

/-- A memory: (address, byte) pairs, addresses strictly rising, no entry 0; an unlisted address reads as 0 (log 2). -/
abbrev Mem := List Host.Cell

/-- Where an access is performed (R17, R155, R166). -/
inductive Place where
  /-- Device memory, by DPA (R15). -/
  | dev (dpa : Nat)
  /-- Host memory, by host physical address (R33). -/
  | host (hpa : Nat)
  /-- Vault memory, by 30-bit offset (R18). -/
  | vault (off : Nat)
  /-- Scratchpad: core × 512 KiB + byte (R41). -/
  | scr (byte : Nat)
deriving DecidableEq, Repr, Inhabited

/-- One operation on a scratchpad line in the clock in hand (R44): its place in the order (0 a landing, 1 the bytes of a
store, 2 a bit change), the warp, the line, bytes with those that stood there before, and the bit it leaves; `stf` for the
bytes of an STF, with which no read races (R48). -/
structure ScrOp where
  rank : Nat
  warp : Nat := 0
  line : Nat
  at_ : Nat := 0
  data : List (BitVec 8) := []
  old : List (BitVec 8) := []
  full : Option Bool := none
  stf : Bool := false
deriving DecidableEq, Repr, Inhabited

/-- A lane's LDS or LDF of the clock in hand, which the bank answers as the clock leaves the line (R44): the byte in the
package's numbering and in the warp's own, the size code and the destination. -/
structure ScrRead where
  ldf : Bool
  lane : Nat
  byte : Nat
  own : Nat
  size : Nat
  dst : Nat
deriving DecidableEq, Repr, Inhabited

/-- The access paths (R13, R31). -/
inductive Path where
  | L
  | C
  | M
  | W
  | S
  | E
deriving DecidableEq, Repr, Inhabited

/-- A write that its agent has made and that is not yet performed at its place (R13, R344, R346): the path, the warp key
(path L) or the engine's number, and the bytes; `strong` when it is the write of an atomic (R345). -/
structure Buffered where
  path : Path
  unit : Nat
  place : Place
  data : List (BitVec 8)
  strong : Bool := false
  /-- The message or operation of a weir that stores it; 0 for every other write (R234). -/
  op : Nat := 0
  /-- Half a byte: 1 the low one, 2 the high one; 0 whole bytes. -/
  nib : Nat := 0
  /-- The warps that have read it before it was performed (R344). -/
  seen : List Nat := []
deriving DecidableEq, Repr, Inhabited

/-- The bytes of a 32-byte granule as a path other than L still reads them, though newer ones may stand at the place: no
acquire has made those visible since (R13, R344). -/
structure Stale where
  path : Path
  place : Place
  data : List (BitVec 8)
deriving DecidableEq, Repr, Inhabited

/-- A register location of one warp: `v`, `t` and `k` per lane, `s` and special registers for the warp (R4, R88, R141). -/
inductive Loc where
  | v (n lane : Nat)
  | t (n lane : Nat)
  | s (n : Nat)
  | k (n lane : Nat)
  | sr (code half : Nat)
deriving DecidableEq, Repr, Inhabited

/-- One result of a run: visible to instruction j of the run when j − idx ≥ dist; `none` is next run (R94). -/
structure LogEntry where
  loc : Loc
  idx : Nat
  dist : Option Nat
  val : W32
deriving DecidableEq, Repr, Inhabited

/-- One element a tensor store writes (R79, R162): place, byte count, value bits, nibble (0 whole byte, 1 low, 2 high). -/
structure ElemWrite where
  place : Place
  va : Nat
  l1 : Bool
  size : Nat
  nib : Nat
  bits : Nat
deriving DecidableEq, Repr, Inhabited

/-- A held effect, released at commit in program order (R97, R101). -/
inductive Held where
  /-- Bytes at a place; `l1` when the page has CACHE 0, `va` the virtual address (R155). -/
  | bytes (p : Place) (va : Nat) (l1 : Bool) (data : List Byte)
  /-- Bytes that an STF writes in scratchpad (R43). -/
  | future (a : Nat) (data : List Byte)
  /-- Scratchpad line set full (STF, FEST.FULL) or empty (R43). -/
  | line (ln : Nat) (full : Bool)
  /-- A tensor element with the counters it adds to entry `n` (R162). -/
  | elem (n : Nat) (e : ElemWrite)
  /-- Tensor counters: violations, saturations, underflows, exponent maximum (R79, R80). -/
  | count (n viol satc ufc : Nat) (emax : Option Int)
  /-- Replaces a tensor entry (R174). -/
  | tdef (n : Nat) (image : BitVec 512)
  /-- TBND (R175). -/
  | tbnd (n : Nat) (lo hi : W32) (bact : BitVec 2) (nanok : Bool)
  /-- PPLD: writes a polynomial table, seen from the next run (R137). -/
  | ppld (n : Nat) (vals : List W32)
deriving DecidableEq, Repr, Inhabited

/-- A handler cause a run met (R361 to R365). -/
structure Cause where
  off : Nat
  code : Nat
  detail : Nat
  lanes : BitVec 32
  tdst : W32
deriving DecidableEq, Repr, Inhabited

/-- A page, vault or access fault before it has a record (R28, R31). -/
structure AccFault where
  va : Nat
  kind : Nat
  level : Nat
  wr : Bool
  rpl : Bool
  eaddr : Nat
  path : Path
deriving DecidableEq, Repr, Inhabited

/-- A run-terminal instruction with the operands it read at issue (R93, R97): active lanes, per-lane address or target,
place, and operands B and C. -/
structure Pending where
  op : Nat
  w : Word
  off : Nat
  lanes : List Nat
  addr : List (Nat × Nat) := []
  place : List (Nat × Place) := []
  b : List (Nat × BitVec 128) := []
  c : List (Nat × BitVec 128) := []
deriving DecidableEq, Repr, Inhabited

/-- A pending LDF of a parked lane (R45). -/
structure LdfWait where
  line : Nat
  byte : Nat
  dst : Nat
  size : Nat
deriving DecidableEq, Repr, Inhabited

/-- A run in flight (R91 to R98). -/
structure Run where
  /-- Issue address. -/
  addr : Nat
  /-- Lanes that take part (R254). -/
  lanes : BitVec 32
  /-- Offset and raw bits of each instruction, in order. -/
  words : List (Nat × BitVec 128)
  /-- Instructions issued. -/
  index : Nat := 0
  log : List LogEntry := []
  held : List Held := []
  term : Option Pending := none
  causes : List Cause := []
  faults : List AccFault := []
  /-- Gathered flags (R117). -/
  flags : BitVec 7 := 0
  /-- Lanes switched off by R47. -/
  smask : BitVec 32 := 0
  /-- Scratchpad reads of the clock in hand (R44). -/
  reads : List ScrRead := []
  /-- LDF lanes found empty (R45). -/
  ldf : List (Nat × LdfWait) := []
  /-- Bounds causes of STT under BACT 3, entered after commit (R162, R364). -/
  post : List Cause := []
  /-- An uncorrectable error consumed, with its path, and how many faults the run had met before (R373). -/
  ue : Option Nat := none
  errAt : Nat := 0
  /-- Paired mode: the copies differ at this run, in a lane (R390). -/
  mismatch : Option Nat := none
deriving DecidableEq, Repr, Inhabited

/-- What a parked lane waits for (R255); the park kind future is the lane's own list of loads (R45). -/
inductive Park where
  | barrier (g : Nat) (phase : Bool)
  /-- A barrier wait whose phase has ended with a shadow, until the shadow is complete (R387). -/
  | shadow
  | mask (k : Nat)
  | serial
  | sleep (wake : Nat)
  | tag (mask : BitVec 64) (all : Bool)
  | matrix (dst : Nat)
  /-- WAITF and ACQ.GE: place, virtual address, comparison, comparand, destination, paths, scope, and the value that
  satisfied it, once a write has (R255: no release is lost). -/
  | flag (p : Place) (va : Nat) (cmp : Nat) (val : BitVec 64) (dst : Option Nat) (paths : BitVec 6) (scope : Nat)
      (met : Option W64)
  /-- JOINW: the counter's place (none for address 0), its address, the frame, and whether an access left it zero. -/
  | join (p : Option Place) (counter frame : BitVec 64) (resume : Nat) (met : Bool)
  /-- SPAWN with no room: the record and the order in which the launch's lanes parked (R281). -/
  | spawn (image : BitVec 256) (seq : Nat)
deriving DecidableEq, Repr, Inhabited

/-- A lane's state (R255). -/
inductive LaneState where
  | ready
  | parked (why : Park)
  | yielding
  | exited
deriving DecidableEq, Repr, Inhabited

/-- One lane: its counter, its state, its join counter address (R253, R141), and its LDF loads not yet returned: the lane
is parked while there are any, whatever else its run parked it for (R45, R255). -/
structure Lane where
  lpc : Nat := 0
  state : LaneState := .ready
  join : BitVec 64 := 0
  loads : List LdfWait := []
  /-- The first clock in which a run that includes it may begin (R255). -/
  due : Nat := 0
deriving DecidableEq, Repr, Inhabited

/-- What a trap entry saves (R366): each lane's lpc, state and pending loads, the trapped run's lanes and the address after
its marker. -/
structure TrapSave where
  lanes : List (Nat × LaneState)
  /-- The pending loads of each lane that has any. -/
  loads : List (Nat × List LdfWait) := []
  runLanes : BitVec 32
  after : Nat
  post : Bool
  /-- Results of waits that ended meanwhile, written when TRET commits (R367, log 9). -/
  writes : List (Loc × W32) := []
deriving DecidableEq, Repr, Inhabited

/-- One substitution (R368): at `off` of the run at `addr`, the lanes and the value. -/
structure Subst where
  off : Nat
  lane : Nat
  val : BitVec 64
deriving DecidableEq, Repr, Inhabited

/-- Who waits on a fault record (R29, R30). -/
inductive Requester where
  | warp (k : Nat)
  | copy (id : Nat)
  | matrix (part : Nat)
  | weir (ctx : Nat)
  | enc (slot : Nat)
  /-- The device itself, on a backwater page of a launch (R285): the launch context, and the order number of the launch in
  it. -/
  | launch (l order : Nat)
deriving DecidableEq, Repr, Inhabited

/-- A warp in a context (R250 to R256). -/
structure Warp where
  launch : Nat
  /-- Gang key; none in a loose warp. -/
  gang : Option Nat
  /-- Warp number within the gang. -/
  num : Nat := 0
  /-- Header address and the header itself (R107). -/
  hdrAt : Nat
  hdr : BitVec 512
  cls : Nat := 0
  v : List ((Nat × Nat) × W32) := []
  s : List (Nat × W32) := []
  k : List (Nat × W32) := []
  lanes : List Lane
  fpst : W32 := 0
  smask : W32 := 0
  tmask : W32 := 0
  tpc : BitVec 64 := 0
  toff : W32 := 0
  tcause : W32 := 0
  tdst : W32 := 0
  tsub : BitVec 64 := 0
  /-- Polynomial tables: 320 × table + word (R136). -/
  pp : List (Nat × W32) := []
  run : Option Run := none
  readySince : Nat := 0
  clockRead : Nat := 0
  /-- Open serial section: lanes still parked in it and the current lane (R271). -/
  serial : Option (BitVec 32 × Nat) := none
  /-- In the handler, with the trap save (R366). -/
  handler : Option TrapSave := none
  /-- Causes to enter after commit, in order, with the run's address (R364). -/
  post : List (Nat × Cause) := []
  /-- Substitution record and the address of the trapped run (R368). -/
  subAt : Nat := 0
  subst : List Subst := []
  /-- Fault-parked: fault keys not yet serviced (R29, R256). -/
  faultWait : List Nat := []
  /-- Consecutive faults of one run on one page (R30): the run's address, the page, and the count. -/
  faultRuns : List ((Nat × Nat) × Nat) := []
  /-- Registers with an uncorrectable error (R384). -/
  badRegs : List Loc := []
  /-- A reserve context holds it (R286). -/
  reserve : Bool := false
  /-- Scratchpad base line and lines of a loose warp's slice (R42). -/
  sliceAt : Nat := 0
  /-- Join-blocked since (R291). -/
  joinSince : Option Nat := none
  /-- Stopped by its partition for a switch-out (R376). -/
  stopping : Bool := false
  /-- KHIT and PCOR (R204). -/
  khit : Bool := false
  pcor : Bool := false
  /-- Paired mode: the runs, by issue address and lanes, whose last attempt mismatched (R390). -/
  mismatched : List (Nat × BitVec 32) := []
deriving DecidableEq, Repr, Inhabited

/-- A barrier of a gang (R272); per-warp marks and recorded phases are lists by warp number. -/
structure Barrier where
  phase : Bool := false
  count : Nat := 0
  expect : Nat
  deflt : Bool := true
  recorded : List Nat := []
  marks : List Nat := []
  /-- Warps whose arrival in the phase came by BARS (R387). -/
  bars : List Nat := []
  /-- Clock of the last arrival, expectation or exit posted (R275). -/
  touched : Nat := 0
  /-- The expectation posted last by BARX: its clock and warp (R275). -/
  barx : Option (Nat × Nat) := none
deriving DecidableEq, Repr, Inhabited

/-- One slice of an open copy (R50, R51): supplying warp number, direction and lines as (source, destination). -/
structure Slice where
  warp : Nat
  form : Nat
  fromSp : Nat
  toSp : Nat
  lines : List (Nat × Nat)
deriving DecidableEq, Repr, Inhabited

/-- State of a tag (R53). -/
inductive TagState where
  | free
  | open (slices : List Slice)
  | running
  | ready
deriving DecidableEq, Repr, Inhabited

/-- Whose copy it is: a gang's tag, or a COPY or FILL command (R59). -/
inductive CopyOwner where
  | gang (g tag : Nat)
  | command (cmd : Nat)
deriving DecidableEq, Repr, Inhabited

/-- A running copy: lines not yet landed as (source, destination); for FILL the pattern replaces the source (R55). -/
structure Copy where
  owner : CopyOwner
  core : Nat
  asn : Nat
  root : Nat
  rpld : Bool := false
  rhnd : Nat
  fromSp : Nat
  toSp : Nat
  lines : List (Nat × Nat)
  fill : Option (BitVec 64) := none
  /-- Stopped at a replayable fault (R57), with its fault key. -/
  stopped : Option Nat := none
  /-- A fatal fault or an uncorrectable error ended it: nothing more lands (R57). -/
  dead : Bool := false
  /-- Status, DET and ITEM of a COPY or FILL ended early (R32, R319). -/
  ended : Option (Nat × Nat × Nat) := none
  faultRuns : List (Nat × Nat) := []
  /-- Destinations of the lines that have landed in scratchpad, with the bytes that stood there before (R48). -/
  landed : List (Nat × List Byte) := []
  /-- Destination lines that an LDF of a lane has read since they landed, as warp key, lane, line (R46). -/
  acquired : List (Nat × Nat × Nat) := []
deriving DecidableEq, Repr, Inhabited

/-- Shadow of a rollback gang (R387 to R389). -/
structure Shadow where
  warps : List (Nat × Warp)
  barriers : List (Nat × Barrier)
  scrBytes : Mem
  scrFull : List Nat
  /-- Rollbacks made from it (R389). -/
  tries : Nat := 0
  /-- The interval is clean so far (R388). -/
  clean : Bool := true
  /-- The shadow is still being written; the lanes of the phase that took it wait for it (R387). -/
  writing : Bool := true
  /-- An uncorrectable error lies in it (R389). -/
  bad : Bool := false
deriving DecidableEq, Repr, Inhabited

/-- State of a gang (R257). -/
inductive GangState where
  | placed
  | switching
  | switchedOut
  | ending
deriving DecidableEq, Repr, Inhabited

/-- A gang on a core or in the save pool (R250 to R257). -/
structure Gang where
  launch : Nat
  /-- Linear index; none for a task gang. -/
  index : Option Nat
  task : Option (BitVec 512) := none
  core : Nat
  hdrAt : Nat
  hdr : BitVec 512
  warps : Nat
  cls : Nat
  deadline : Nat := 0
  /-- First scratchpad line of the allocation (R42). -/
  scrAt : Nat := 0
  state : GangState := .placed
  barriers : List (Nat × Barrier) := []
  tags : List (Nat × TagState) := []
  /-- Warp numbers that have exited, with the union of their smask and fpst. -/
  exitedWarps : List Nat := []
  smaskUnion : W32 := 0
  shadow : Option Shadow := none
  rollbacks : Nat := 0
  /-- An error in a clean interval was consumed: its warps stop, and its shadow is to be restored (R389). -/
  rolling : Bool := false
  /-- The path of that error (R369). -/
  rollPath : Nat := 0
  /-- Warps of a rollback gang as they exited, by number: a rollback brings them back with what its shadow does not hold
  (R69, R389). -/
  left : List (Nat × Warp) := []
  /-- Pool room set aside for its switch-out (R379). -/
  room : Nat := 0
  /-- Constant space of a task gang (R301). -/
  const : List Byte := []
deriving DecidableEq, Repr, Inhabited

/-- A cached leaf (R26): the page it maps and the entry as read. -/
structure TlbEntry where
  asn : Nat
  /-- Virtual base and size of the page. -/
  base : Nat
  size : Nat
  entry : BitVec 64
  level : Nat
  /-- Where the entry lies. -/
  ea : Nat
deriving DecidableEq, Repr, Inhabited

/-- A residency handle (R37). -/
structure Handle where
  asn : Nat
  /-- vault, first block, count, read-write. -/
  extents : List (Nat × Nat × Nat × Bool)
  unpinning : Bool := false
deriving DecidableEq, Repr, Inhabited

/-- An unserviced fault record's identity, and who waits on it (R30, R32). -/
structure FaultWait where
  /-- Fault key, never reused. -/
  key : Nat
  /-- Index of the record, once written. -/
  ix : Option Nat
  /-- The record as the device writes it (R31). -/
  image : BitVec 256
  asn : Nat
  page : Nat
  kind : Nat
  wr : Bool
  rpl : Bool
  who : List Requester
  /-- Requesters for which the record is the 16th in a row of their run and page: fatal to them once it is written (R30). -/
  last : List Requester := []
  /-- The fault has only just been met, and its requester does not yet wait on the key. -/
  fresh : Bool := true
deriving DecidableEq, Repr, Inhabited

/-! ## The matrix unit (chapter 08) -/

/-- An accumulator row: entries as 64-bit patterns by column (unlisted +0), integer mode, poison, written marks
(R182). -/
structure AccRow where
  vals : List (Nat × BitVec 64) := []
  intMode : Bool := false
  poison : Bool := false
  written : List Nat := []
  /-- An uncorrectable error lies in an entry (R384). -/
  bad : Bool := false
deriving DecidableEq, Repr, Inhabited

/-- Key of a kept bank (R185). -/
structure KeepKey where
  asn : Nat
  rhnd : Nat
  entry : BitVec 512
  origin : List Nat
  depth : Nat
deriving DecidableEq, Repr, Inhabited

/-- A column's block of a bank: integers by k, exponent, scale, CB, NaN mark, wholly outside dimension 0 (R193, R200). -/
structure BankSeg where
  ints : List Int
  exp : Int
  /-- The scale g × T, exact: 0 finite, 1 infinite, 2 NaN; sign, significand, exponent. -/
  scale : Nat × Bool × Nat × Int
  cb : Nat
  nan : Bool
  outside : Bool
deriving DecidableEq, Repr, Inhabited

/-- A loaded operand bank (R180, R185, R200): format, depth, and for each live column its blocks in ascending k. -/
structure Bank where
  fmt : Nat
  depth : Nat
  segs : List (Nat × List BankSeg) := []
  key : Option KeepKey := none
  /-- An uncorrectable error lies in it (R384). -/
  bad : Bool := false
deriving DecidableEq, Repr, Inhabited

/-- A matrix instruction in its partition's queue (R183), with what it read at issue. -/
structure MatOp where
  op : Nat
  w : Word
  warp : Nat
  gang : Nat
  runAddr : Nat
  off : Nat
  lanes : BitVec 32
  entryNo : Nat
  entry : BitVec 512
  origin : List Nat
  /-- Rows, columns or elements already done (R198). -/
  doneUnits : Nat := 0
  /-- Its first step is done: whether a kept bank serves it is settled (R185, R198). -/
  begun : Bool := false
  /-- The bank as loaded so far. -/
  bank : Option Bank := none
  /-- Blocks already fetched of the row or column in hand (R198: lines already done stand). -/
  fetched : List BankSeg := []
  /-- Elements already fetched of the block in hand (R198: lines already done stand). -/
  elems : List Nat := []
  /-- It is the other unit's copy of a paired gang's instruction (R208). -/
  twin : Bool := false
  /-- It took a kept bank (R185). -/
  hit : Bool := false
  stopped : Option Nat := none
  /-- A fatal fault or an uncorrectable error ended it. -/
  dead : Bool := false
  faultRuns : List (Nat × Nat) := []
  /-- Flags gathered, and whether a value violated a bound under BACT 3 (R197). -/
  flags : BitVec 7 := 0
  viol : Bool := false
deriving DecidableEq, Repr, Inhabited

/-- The probe row: its accumulator row, RA by block and S by column and block of the last A row (R203). -/
structure Probe where
  row : Nat := 0
  ra : List Nat := []
  sums : List (Nat × List Nat) := []
deriving DecidableEq, Repr, Inhabited

/-- A partition (R8, R181, R183, R261): per-class counts, matrix queue, banks by gang × 4 + number, rows by gang × 128 +
number, unowned kept banks oldest first, probe. -/
structure Part where
  counts : List (Nat × Nat) := []
  queue : List MatOp := []
  banks : List (Nat × Bank) := []
  rows : List (Nat × AccRow) := []
  kept : List Bank := []
  probe : Probe := {}
deriving DecidableEq, Repr, Inhabited

/-! ## Spawn (chapter 11) -/

/-- A gathering queue (R282, R283): key (entry offset, launch), records oldest first, clock of the first, due. -/
structure GQueue where
  entry : Nat
  launch : Nat
  recs : List (BitVec 256)
  first : Nat
  due : Bool := false
  /-- Its launch was switched out on the core: what it still holds goes to the ring and forms no warp (R283). -/
  preempted : Bool := false
  /-- An uncorrectable error lies in a record (R384). -/
  bad : Bool := false
deriving DecidableEq, Repr, Inhabited

/-- A spawn record placed and not yet entered (R281): where it goes (queue number or ring) once its increment is
performed. -/
structure Entering where
  launch : Nat
  core : Nat
  queue : Option Nat
  image : BitVec 256
deriving DecidableEq, Repr, Inhabited

/-- The watch of a hold slot, whether its counter has released it, and whether it then found no place and is marked ready
(R291, R292). -/
structure Hold where
  slot : Nat
  place : Option Place
  /-- The counter's address (R290). -/
  addr : BitVec 64 := 0
  ready : Bool
  marked : Bool := false
deriving DecidableEq, Repr, Inhabited

/-- A launch context (R303, R307, R315, R316). -/
structure Launch where
  queue : Nat
  pkt : BitVec 512
  asn : Nat
  root : Nat
  rpld : Bool
  hdr : BitVec 512
  args : List Byte
  arrival : Nat
  order : Nat
  tensors : List (Nat × BitVec 512) := []
  regions : List (Nat × BitVec 256) := []
  /-- Ring head index, records in the ring, and hold slots in use (R285). -/
  ringHead : Nat := 0
  ringLen : Nat := 0
  holds : List Hold := []
  /-- Order numbers given to spawn-parked lanes (R281). -/
  spawnSeq : Nat := 0
  /-- Queued task records, oldest first: address and place (R300). -/
  tasks : List (Nat × Place) := []
  /-- Next unplaced gang index (R325), and skips counted against the launch (R327). -/
  next : Nat := 0
  skips : Nat := 0
  fpsum : BitVec 7 := 0
  smask : W32 := 0
  nsm : Nat := 0
  /-- Held by PREEMPT (R375). -/
  held : Bool := false
  /-- The cause of a kill in progress: status, ITEM, DET (R369, R370). -/
  kill : Option (Nat × Nat × Nat) := none
  /-- A gang record faulted (R312). -/
  recFault : Bool := false
  /-- Cores whose reserves are kept, with the reserve contexts: warp key and slice line (R286, R42). -/
  reserves : List (Nat × List (Nat × Nat)) := []
deriving DecidableEq, Repr, Inhabited

/-! ## Queues, commands and engines (chapter 12) -/

/-- A block in the eddy cache (R307, R309). -/
structure EddyEntry where
  qcb : BitVec 512
  dirty : Bool
  /-- An uncorrectable error lies in it (R384). -/
  bad : Bool := false
deriving DecidableEq, Repr, Inhabited

/-- The repeat a hook is in: first word, words, passes left (R322). -/
structure HookRep where
  start : Nat
  len : Nat
  left : Nat
deriving DecidableEq, Repr, Inhabited

/-- The hook machine (R321, R322). -/
structure HookVM where
  queue : Nat
  ix : Nat
  words : List W32
  pc : Nat := 0
  steps : Nat := 0
  h : List W64 := [0, 0, 0, 0, 0, 0, 0, 0]
  /-- The packet as taken, and with the hook's edits. -/
  orig : Packet := 0
  pkt : Packet
  hw : List W32 := [0, 0, 0, 0]
  rep : Option HookRep := none
deriving DecidableEq, Repr, Inhabited

/-- What a command in progress does next (R319). -/
inductive CmdWork where
  /-- COPY and FILL: the copy that carries it out. -/
  | copying (id : Nat)
  /-- WAIT: the flag's place, comparison and operand, and whether a write has met it. -/
  | waiting (p : Place) (cmp : Nat) (val : W64) (met : Bool)
  /-- CAPTURE of a queue, from start to stop (R319, R416). -/
  | capturing (q : Nat)
  /-- LAUNCH: checked, with the header and image read, and waiting for a context; then running in one. -/
  | launching (hdr : BitVec 512) (image : List Byte)
  | running (launch : Nat)
  /-- PREEMPT switch-out, until the launch's gangs are saved. -/
  | switching (launch : Nat)
  /-- UNPIN, until the handle's users complete. -/
  | unpinning (handle : Nat)
  /-- CKPT, until no launch is placed, then until the transfer completes. -/
  | checkpoint (started : Bool)
  /-- SCANT, until the core is empty, then until the pattern ends. -/
  | scanning (core : Nat) (started : Bool)
  /-- COLL at the root. -/
  | collective (id : Nat)
  /-- ENCFRAME queued on slot (engine × 4 + slot). -/
  | encoding (slot : Nat)
  /-- MAP, until the weir operations and messages that had begun under the old translation have completed, as (context,
  operation) and (context, connection, sequence number) (R237). -/
  | mapping (ops : List (Nat × Nat)) (msgs : List (Nat × Nat × Nat))
deriving DecidableEq, Repr, Inhabited

/-- A command started and not complete (R310, R312). -/
structure Cmd where
  queue : Nat
  ix : Nat
  pkt : Packet
  asn : Nat
  root : Nat
  rpld : Bool
  work : CmdWork
  /-- Clock of the taking. -/
  since : Nat
  order : Nat
deriving DecidableEq, Repr, Inhabited

/-- A capture in progress (R393). -/
structure Capture where
  buf : Nat
  len : Nat
  asn : Nat
  root : Nat
  next : Nat := 64
  wraps : Nat := 0
deriving DecidableEq, Repr, Inhabited

/-- How reading a frame ended (R332): with the samples of its reduced planes, Y, Cb and Cr (R331). -/
inductive FrameRead where
  | samples (l : List Int)
  | fatal
  | uncorrectable
deriving DecidableEq, Repr, Inhabited

/-- A frame queued on an encode slot (R332), with its reading once the start flag was met. -/
structure EncFrame where
  cmd : Nat
  /-- Its start flag has been found high enough (R332). -/
  started : Bool := false
  read : Option FrameRead := none
  /-- Bitstream and report are written, the done flag is not: the report's status, whether it is a key frame, and where the
  next frame's bitstream goes (R332). -/
  wrote : Option (Nat × Bool × Nat) := none
deriving DecidableEq, Repr, Inhabited

/-- A held encode slot (R333). -/
structure EncSlot where
  desc : Nat
  asn : Nat
  /-- The descriptor as read at the session's first frame, 128 bytes; none until it has been read. -/
  image : Option (List Byte) := none
  frameNo : Nat := 0
  offset : Nat := 0
  /-- Frames since the last key frame. -/
  sinceKey : Nat := 0
  /-- All four slots of the engine (2160p). -/
  whole : Bool := false
  frames : List EncFrame := []
  /-- Stopped at a replayable fault, with its key. -/
  stopped : Option Nat := none
  faultRuns : List (Nat × Nat) := []
deriving DecidableEq, Repr, Inhabited

/-- A mailbox event (R385, R386). -/
inductive MailEvent where
  | poisonedDev (dpa : Nat)
  | poisonedVault (off : Nat)
  | counter (kind unit : Nat)
deriving DecidableEq, Repr, Inhabited

/-- The standard commands of the mailbox (R395): identify, get log, get event records, clear event records. -/
inductive MailCommand where
  | identify
  | getLog
  | getEvents
  /-- The oldest `n` records are cleared. -/
  | clearEvents (n : Nat)
deriving DecidableEq, Repr, Inhabited

/-- The mailbox's reply to the last command (R395). -/
inductive MailReply where
  | success
  | invalidInput
  | unsupported
  | report (bytes : List Byte)
  | events (l : List MailEvent)
deriving DecidableEq, Repr, Inhabited

/-- The package's power state (R397). -/
inductive Power where
  | d0active
  | d0idle
  | d3hot
  | d3cold
deriving DecidableEq, Repr, Inhabited

/-- A gang in the save pool with its warps and matrix state (R377): warps by number, partition state by partition. -/
structure Saved where
  gang : Gang
  warps : List (Nat × Warp)
  scrBytes : Mem
  scrFull : List Nat
  rows : List ((Nat × Nat) × AccRow)
  banks : List ((Nat × Nat) × Bank)
  queues : List (Nat × List MatOp)
  copies : List (Nat × Copy)
  /-- An uncorrectable error lies in the save (R379). -/
  bad : Bool := false
deriving DecidableEq, Repr, Inhabited

/-- A loose warp in the save pool (R304). -/
structure SavedLoose where
  warp : Warp
  scrBytes : Mem
  scrFull : List Nat
  /-- An uncorrectable error lies in the save (R379). -/
  bad : Bool := false
deriving DecidableEq, Repr, Inhabited

/-! ## Rills and weirs (chapter 09) -/

/-- A packet of the fabric: the header's fields (R212) and the payload's bytes. -/
structure Pkt where
  kind : Nat
  dpkg : Nat
  drill : Nat
  dctx : Nat
  spkg : Nat
  srill : Nat
  sctx : Nat
  mseq : Nat := 0
  mlen : Nat := 0
  off : Nat := 0
  asp : Bool := false
  addr : BitVec 64 := 0
  arg : BitVec 64 := 0
  data : List Byte := []
  /-- First-hop mask of the sending connection, 0 for none; no part of the header (R211, R213). -/
  fmask : Nat := 0
  /-- Its sender has counted its bytes as accepted; no part of the header (R229). -/
  accepted : Bool := false
deriving DecidableEq, Repr, Inhabited

/-- A posted operation (R228, R229). -/
inductive WOpKind where
  | xmit
  | recv
  | rcmb (fn : Nat)
  | rcfw (fn : Nat) (st : Bool) (out : Nat)
  | rput (raddr : BitVec 64)
  | rget (raddr : BitVec 64)
  | ratm (flag addend : BitVec 64)
deriving DecidableEq, Repr, Inhabited

/-- A chunk (R220): its parts as (offset, address, bytes), in order; a byte in no part reads as zero and drops its
writes. -/
structure Chunk where
  inVault : Bool := false
  size : Nat := 0
  parts : List (Nat × Nat × Nat) := []
  fmt : Nat := 0
  /-- Entry of the tensor table in tensor mode. -/
  tid : Option Nat := none
deriving DecidableEq, Repr, Inhabited

/-- A posted operation in progress (R228, R229): connection, outbound number of the message it sends, chunk. -/
structure WOp where
  id : Nat
  kind : WOpKind
  cn : Nat
  seq : Nat := 0
  chunk : Chunk := {}
  /-- It has begun to move bytes: the places of its chunk, by offset and length (R237). -/
  begun : Bool := false
  places : List (Nat × Nat × Place) := []
  /-- Bytes handed to the router, and bytes accepted (R229). -/
  sent : Nat := 0
  accepted : Nat := 0
  /-- Results of an RCFW to be forwarded, oldest first, as (offset, bytes) (R230). -/
  forward : List (Nat × List Byte) := []
  /-- Bytes of a response stored, as (offset, length). -/
  got : List (Nat × Nat) := []
  /-- The incoming message is complete under the order rule, or the ACK has arrived. -/
  received : Bool := false
  stopped : Option Nat := none
  faultRuns : List (Nat × Nat) := []
deriving DecidableEq, Repr, Inhabited

/-- A message being received at a context (R229 to R232): connection, sequence number, kind, length, and for the one-sided
ones the address. -/
structure RcvMsg where
  cn : Nat
  seq : Nat
  kind : Nat
  mlen : Nat
  asp : Bool := false
  addr : BitVec 64 := 0
  arg : BitVec 64 := 0
  /-- Bytes performed, as (offset, length). -/
  got : List (Nat × Nat) := []
  begun : Bool := false
  places : List (Nat × Nat × Place) := []
  /-- A GETQ has arrived and its range has translated: it may be answered in its turn. -/
  asked : Bool := false
  /-- Bytes of a GETQ's answer sent. -/
  sent : Nat := 0
  stopped : Option Nat := none
  faultRuns : List (Nat × Nat) := []
deriving DecidableEq, Repr, Inhabited

/-- Weir context states (R217). -/
inductive WeirState where
  | empty
  | loaded
  | running
  | waiting
  | faulted
  | stopped
  | halted
  | failed
deriving DecidableEq, Repr, Inhabited

/-- What a Waiting context waits for (R217). -/
inductive WeirWait where
  /-- WAITF: the flag's place and address, comparison and comparand, and whether a write has met it (R226). -/
  | flag (p : Place) (va cmp : Nat) (val : W64) (met : Bool)
  /-- SIGF, posting limit, HALT: re-examined when an operation completes (R227, R228, R225). -/
  | ops
  /-- A `.W` operation (R228). -/
  | op (id : Nat)
deriving DecidableEq, Repr, Inhabited

/-- A weir context (R216, R217). -/
structure WeirCtx where
  state : WeirState := .empty
  cause : Nat := 0
  wait : Option WeirWait := none
  slots : List W64 := []
  /-- Slots and registers with an uncorrectable error (R384): a slot by number, a `w` register as 4,096 + number, a `d`
  register as 8,192 + number, a connection as 12,288 + number, a template as 16,384 + number. -/
  bad : List Nat := []
  tpls : List (BitVec 256) := []
  tensors : List (Nat × BitVec 512) := []
  initW : List W64 := []
  tag : BitVec 64 := 0
  rhnd : Nat := 0
  asn : Nat := 0
  root : Nat := 0
  rpld : Bool := false
  w : List (Nat × W64) := []
  d : List (Nat × BitVec 256) := []
  conns : List (BitVec 64) := []
  outSeq : List (Nat × Nat) := []
  inSeq : List (Nat × Nat) := []
  pc : Nat := 0
  wdbg : W64 := 0
  ops : List WOp := []
  nextOp : Nat := 0
  msgs : List RcvMsg := []
  held : List Pkt := []
  /-- Connections with packets refused for want of room (R215). -/
  refusing : List Nat := []
  /-- Own packets refused by their receiver, until its ROOM (R215). -/
  kept : List Pkt := []
  /-- Root package, rill and context of the START, and its tag (R245). -/
  starter : Option (Nat × Nat × Nat) := none
  /-- The slot is executed without stopping at a breakpoint: resumed there, or in the middle of its instruction (R242). -/
  passing : Bool := false
  faultWait : Option Nat := none
  faultRuns : List (Nat × Nat) := []
deriving DecidableEq, Repr, Inhabited

/-- Link state of a rill (R210). -/
inductive RillState where
  | untrained
  | up
  | down
deriving DecidableEq, Repr, Inhabited

structure Rill where
  state : RillState := .untrained
  /-- Consecutive failed resends (R210). -/
  resends : Nat := 0
  /-- Packets handed to the link layer and not yet sent, oldest first. -/
  queued : List Pkt := []
  /-- Packets sent whole, in the replay buffer until they are delivered, oldest first (R210, R229). -/
  replay : List Pkt := []
deriving DecidableEq, Repr, Inhabited

/-- A collective at its root (R245, R246). -/
structure Coll where
  cmd : Nat
  tag : BitVec 64
  /-- package, rill, context, start argument. -/
  members : List (Nat × Nat × Nat × BitVec 64)
  since : Nat
  /-- Timeout in clocks, 0 for none. -/
  timeout : Nat
  doneBy : List Nat := []
  answered : List Nat := []
  /-- First failure: member and cause; none for a timeout. -/
  aborted : Bool := false
  failure : Option (Nat × Nat) := none
deriving DecidableEq, Repr, Inhabited

/-! ## The model's own -/

/-- The agent the instruction in hand belongs to (log 1). -/
inductive Focus where
  | none
  /-- A warp issuing an instruction. -/
  | warp (k : Nat)
  /-- A weir context executing a slot. -/
  | weir (c : Nat)
  /-- The hook machine. -/
  | hook
  /-- The command processor carrying out the packet it has taken. -/
  | command
deriving DecidableEq, Repr, Inhabited

/-- Where a double-bit error strikes (R384). -/
inductive Upset where
  /-- A 32-byte granule of device memory, by number; an 8-byte one of vault memory, of scratchpad; a 32-byte one of the
  host-line cache. -/
  | dev (g : Nat)
  | vault (g : Nat)
  | scr (g : Nat)
  | host (g : Nat)
  /-- A register of warp `k`. -/
  | register (k : Nat) (l : Loc)
  /-- A row of accumulators, a bank with its correction registers, of a partition, by key. -/
  | row (part n : Nat)
  | bank (part n : Nat)
  /-- An unowned kept bank of a partition, by its place among them. -/
  | kept (part n : Nat)
  /-- A block in the eddy cache, by queue; a line of the launch-line cache, by key. -/
  | eddy (q : Nat)
  | launchLine (key : Nat)
  /-- A record of a confluence queue. -/
  | confluence (core queue : Nat)
  /-- The shadow of a gang, a gang's save, a loose warp's. -/
  | shadow (g : Nat)
  | saved (g : Nat)
  | savedLoose (id : Nat)
  /-- A slot or register of a weir context, numbered as `WeirCtx.bad` numbers them. -/
  | weir (c n : Nat)
  /-- A line of an L1 or an instruction cache; the translations that a core and its die hold for an address. -/
  | l1 (core asn line : Nat)
  | icache (core asn line : Nat)
  | translation (core asn va : Nat)
deriving DecidableEq, Repr, Inhabited

/-- What happens next (log 1). -/
inductive Move where
  /-- An event, a host write, a physical event. -/
  | event (i : Instr)
  /-- `n` clocks pass. -/
  | advance (n : Nat)
  /-- Warp `k` begins a run, issues its next instruction, or ends its run at the marker. -/
  | warp (k : Nat)
  /-- Weir context `c` takes its turn (R218). -/
  | weir (c : Nat)
  /-- The command processor takes the next packet of a queue (R310). -/
  | take (q : Nat)
  /-- The hook machine executes one word (R321). -/
  | hook
  /-- The command processor starts the packet in hand (R310). -/
  | command
  /-- The data engine sends the next packet of operation `op` of context `c` (R218, R228). -/
  | send (c op : Nat)
  /-- Held packet `n` of context `c` is performed if it can be (R215). -/
  | retry (c n : Nat)
  /-- The next GETR packet of the answer to a GETQ, by context, connection and sequence number (R231). -/
  | answer (c cn seq : Nat)
  /-- The neighbour refuses an own packet of a rill for want of room: the sender keeps it until ROOM (R215). -/
  | giveBack (rill : Nat) (response : Bool)
  /-- An L1 line of a core is replaced (R12). -/
  | dropL1 (core asn line : Nat)
  /-- A packet arrives on a rill: its header flit and its payload (R212). -/
  | arrive (header : BitVec 512) (payload : List Byte)
  /-- A flit of a rill passes its check, and its packet has more (R210). -/
  | flit (rill : Nat)
  /-- The last flit of a rill's oldest request, or response, has been sent (R229). -/
  | transmit (rill : Nat) (response : Bool)
  /-- A rill's link layer delivers its oldest request, or its oldest response, to the neighbour (R210, R211). -/
  | deliver (rill : Nat) (response : Bool)
  /-- The host sends a standard command to the mailbox (R395). -/
  | mailbox (c : MailCommand)
  /-- A double-bit error strikes an array (R384). -/
  | upset (u : Upset)
  /-- A single-bit error is corrected, and counted against a unit: kinds 0 memory bank, 1 SIMT lane, 2 partition, 3 core
  (R384, R386). -/
  | corrected (kind unit : Nat)
  /-- A path fetches the 32-byte granule of a place, whose bytes it goes on to read until an acquire (R13, log 41). -/
  | peek (path : Path) (p : Place)
  /-- Writes of a path begin, or cease, to wait before they are performed (R13, log 58). -/
  | lag (path : Path) (on : Bool)
  /-- The `n`-th waiting write is performed (R13, log 58). -/
  | perform (n : Nat)
  /-- Paired mode: the two copies of warp `k`'s run in flight differ in a lane (R390). -/
  | mismatch (k lane : Nat)
  /-- The confluence of a core passes a clock (R283). -/
  | confluence (core : Nat)
  /-- The matrix unit of a partition performs its next row, column or element (R184, R198). -/
  | matrix (part : Nat)
  /-- Paired mode: the two units' drained values differ (R208). -/
  | drainMismatch (part : Nat)
deriving DecidableEq, Repr, Inhabited

end Sys2Proof.Machine
end

