-- ==== Sys2Proof/Machine/State.lean ====
section
/-! DEFINITION. The machine's state, its faults and refusals, and the state after reset. Every piece of state the spec
names is here (INVENTORY.md, State); agenda, focus and free are the model's own (log 1, log 4). -/

namespace Sys2Proof.Machine

/-- Why a step stops with a fault. Each is raised in states no run from reset reaches, or on a move no agent can make;
all are safe: the machine stops where the hardware has no such step. -/
inductive Fault where
  /-- An instruction was executed with no agent of its kind in focus: raised by every meaning that needs one; safe. -/
  | noAgent
  /-- An instruction was executed by an agent that is in no state to execute it (a warp without a run, a context that is
  not Running, no packet in hand): raised by the same meanings; safe. -/
  | notIssuing
deriving DecidableEq, Repr

/-- Why a step is refused. -/
inductive Refusal where
  /-- The instruction has no meaning in this model yet: raised by Dispatch only; safe. -/
  | notModelled (mnemonic : String)
  /-- A word, slot or packet that is fetched does not decode where decoding was already checked: raised by step only, in
  states no run reaches; safe. -/
  | undecodable
deriving DecidableEq, Repr

/-- The state of one package (R7). -/
structure State where
  /-- Counter of die 0 (R141, R398). -/
  clock : Nat := 0
  power : Power := .d0active
  powerCap : Nat := 3000
  /-- Issue slots withheld, of 16, and the stacks' rate limit (R397). -/
  withheld : Nat := 0
  rateLimited : Bool := false
  /-- Clock since which no gang is placed (R397). -/
  idleSince : Nat := 0
  packageNo : Nat := 0
  routes : List (Nat × BitVec 16) := []
  segDir : Option Nat := none
  /-- Save pool base and size, and bytes in use (R379). -/
  savePool : Option (Nat × Nat) := none
  poolUsed : Nat := 0
  /-- Predictive counters by (kind, unit), marks by kind, drain interval in clocks (R386). -/
  counters : List ((Nat × Nat) × Nat) := []
  marks : List (Nat × Nat) := []
  drainInterval : Nat := 1050000000
  /-- Clock up to which the counters have drained (R386). -/
  drainedAt : Nat := 0
  mailLog : List MailEvent := []
  mailReply : Option MailReply := none
  /-- Cores taken out of service: the complement of the logical core map (R392). -/
  coresOut : List Nat := []
  scanning : List Nat := []
  patch : Option (BitVec 256 × Nat) := none
  /-- Interrupt vectors raised, latest first (R394). -/
  msix : List Nat := []
  -- memories
  dev : Mem := []
  host : Mem := []
  vault : Mem := []
  scr : Mem := []
  /-- Full scratchpad lines, core × 4,096 + line (R41). -/
  scrFull : List Nat := []
  /-- Poisoned 32-byte granules of device memory and 8-byte granules of vault memory (R385). -/
  badDev : List Nat := []
  badVault : List Nat := []
  /-- Uncorrectable 8-byte granules of scratchpad and 32-byte granules of the host-line cache (R384). -/
  badScr : List Nat := []
  badHost : List Nat := []
  /-- Operations on scratchpad lines in the clock in hand, in the order of R44. -/
  scrNow : List ScrOp := []
  /-- Writes not yet performed at their places, no two overlapping, and the paths whose writes wait so (R13, log 58). -/
  buffer : List Buffered := []
  lag : List Path := []
  /-- Granules that a path other than L reads as they stood (R13, R344, log 41). -/
  stale : List Stale := []
  /-- Slices, TCLRs and matrix instructions taken in the clock in hand: by gang as 2 × key, by partition as 2 × number + 1,
  the warp taken last (R52, R183). -/
  turns : List (Nat × Nat) := []
  /-- Pages, by address space, root and number, that a MAP found unmapped and something waits on an address of (R27,
  log 25). -/
  unmapped : List (Nat × Nat × Nat) := []
  /-- Lines the launch-line cache holds (R317). The host-line cache is coherent and holds nothing of its own (R33,
  log 30). -/
  launchLines : List Nat := []
  /-- Lines among them with an uncorrectable error (R384). -/
  badLines : List Nat := []
  handles : List (Nat × Handle) := []
  -- caches of translation, data and code
  coreTlb : List (Nat × TlbEntry) := []
  dieTlb : List (Nat × TlbEntry) := []
  /-- L1 lines: core, ASN, virtual line number; the bytes held (R12, R335). -/
  l1 : List ((Nat × Nat × Nat) × List Byte) := []
  /-- Instruction-cache lines by core, ASN, virtual line number (R104). -/
  icache : List ((Nat × Nat × Nat) × List Byte) := []
  /-- Fetch misses outstanding: die, ASN, line (R105). -/
  fetches : List (Nat × Nat × Nat) := []
  -- fault queue
  fqBase : Option Nat := none
  fqProd : W32 := 0
  fqCons : W32 := 0
  fqArmed : Bool := true
  faultWaits : List FaultWait := []
  nextKey : Nat := 0
  -- queues and commands
  eddy : List (Nat × EddyEntry) := []
  latch : List (Nat × W64) := []
  /-- Doorbell writes that the port holds while the latch is full, oldest first (R309). -/
  portHeld : List (Nat × W64) := []
  /-- Queues whose block left the eddy cache with packets not yet taken (R309, R310). -/
  unread : List Nat := []
  /-- The queue whose packet was taken last (R310, log 21). -/
  lastQueue : Nat := 0
  hook : Option HookVM := none
  /-- Packet taken and not yet started: queue, ring index, packet (R310). -/
  taken : Option (Nat × Nat × Packet) := none
  cmds : List (Nat × Cmd) := []
  nextCmd : Nat := 0
  hookStore : List (Nat × List W32) := []
  captures : List (Nat × Capture) := []
  encSlots : List (Nat × EncSlot) := []
  /-- Slots whose frame read met a fatal fault (R30, R332). -/
  encFault : List Nat := []
  /-- Slots whose frame met an uncorrectable page-table entry (R28, R374). -/
  encError : List Nat := []
  -- launches, gangs, warps
  launches : List (Nat × Launch) := []
  gangs : List (Nat × Gang) := []
  nextGang : Nat := 0
  warps : List (Nat × Warp) := []
  parts : List (Nat × Part) := []
  copies : List (Nat × Copy) := []
  nextCopy : Nat := 0
  saved : List (Nat × Saved) := []
  savedLoose : List (Nat × SavedLoose) := []
  queues : List ((Nat × Nat) × GQueue) := []
  entering : List Entering := []
  /-- Since when a class-7 launch's head gang has fitted no core (R329). -/
  riskSince : List (Nat × Nat) := []
  /-- Cores reserved for an at-risk launch (R329). -/
  reservedFor : List (Nat × Nat) := []
  -- rills and weirs
  weirs : List (Nat × WeirCtx) := []
  rills : List (Nat × Rill) := []
  /-- By weir: the context its sequencer served last, and in which clock (R218). -/
  weirTurn : List (Nat × (Nat × Nat)) := []
  /-- By rill: the connection its data engine served last, as context × 16 + connection (R218). -/
  sendTurn : List (Nat × Nat) := []
  /-- Packets on the package not yet performed, by number. -/
  pkts : List (Nat × Pkt) := []
  nextPkt : Nat := 0
  /-- Packets delivered to neighbours, latest first. -/
  outbox : List (Nat × Pkt) := []
  colls : List (Nat × Coll) := []
  -- the model's own
  agenda : List Move := []
  focus : Focus := .none
  /-- The counter free values are applied to (log 4). -/
  free : Nat := 0
deriving DecidableEq, Repr, Inhabited

/-- The package right after reset. -/
def State.reset : State := {}

end Sys2Proof.Machine
end

