-- ==== Sys2Proof/Machine/Data.lean ====
section
/-! DEFINITION. Helpers over plain data: tables as association lists, bit fields, bytes, and memory in its canonical
form (R1, log 2). -/

namespace Sys2Proof.Machine

/-! ## Tables -/

/-- The value of a key. -/
def lookup {κ α : Type} [DecidableEq κ] (k : κ) : List (κ × α) → Option α
  | [] => none
  | entry :: rest => if k = entry.1 then some entry.2 else lookup k rest

/-- The value of a key, or a default. -/
def lookupD {κ α : Type} [DecidableEq κ] (k : κ) (d : α) (l : List (κ × α)) : α := (lookup k l).getD d

/-- The table without a key. -/
def erase {κ α : Type} [DecidableEq κ] (k : κ) (l : List (κ × α)) : List (κ × α) := l.filter (fun entry => decide (k ≠ entry.1))

/-- The table with a key set: in its place, or at the end. -/
def put {κ α : Type} [DecidableEq κ] (k : κ) (a : α) : List (κ × α) → List (κ × α)
  | [] => [(k, a)]
  | entry :: rest => if k = entry.1 then (k, a) :: rest else entry :: put k a rest

/-- The table with the value of a key changed, where it has one. -/
def adjust {κ α : Type} [DecidableEq κ] (k : κ) (f : α → α) (l : List (κ × α)) : List (κ × α) :=
  match lookup k l with
  | none => l
  | some a => put k (f a) l

/-- The least natural that is no key. -/
def freshKey {α : Type} (l : List (Nat × α)) : Nat :=
  ((List.range (l.length + 1)).find? (fun i => (lookup i l).isNone)).getD l.length

/-! ## Bits -/

/-- Bits `[lo + n − 1 : lo]` as a number. -/
def fld {m : Nat} (x : BitVec m) (lo n : Nat) : Nat := x.toNat / 2 ^ lo % 2 ^ n

/-- `x` with bits `[lo + n − 1 : lo]` replaced by the low bits of `v`. -/
def setFld {m : Nat} (x : BitVec m) (lo n v : Nat) : BitVec m :=
  BitVec.ofNat m (x.toNat / 2 ^ (lo + n) * 2 ^ (lo + n) + v % 2 ^ n * 2 ^ lo + x.toNat % 2 ^ lo)

/-- Signed value of the low `n` bits (sx). -/
def sx (n x : Nat) : Int := sextInt n x

/-- An integer modulo 2^n. -/
def wrap (n : Nat) (x : Int) : Nat := (x % (2 ^ n : Int)).toNat

/-- The lanes 0 to 31. -/
def allLanes : List Nat := List.range 32

/-- The lanes of a mask, ascending. -/
def lanesOf (m : BitVec 32) : List Nat := allLanes.filter (fun i => m.getLsbD i)

/-- The mask of a list of lanes. -/
def maskOf (l : List Nat) : BitVec 32 := l.foldl (fun m i => m ||| (1#32 <<< i)) 0

/-! ## Bytes -/

/-- Little-endian value of bytes (R1). -/
def leNat : List Byte → Nat
  | [] => 0
  | b :: t => b.toNat + 256 * leNat t

/-- `n` little-endian bytes of a value (R1). -/
def leBytes : Nat → Nat → List Byte
  | 0, _ => []
  | n + 1, x => BitVec.ofNat 8 x :: leBytes n (x / 256)

/-- Little-endian bytes as a bit vector. -/
def leBits (m : Nat) (l : List Byte) : BitVec m := BitVec.ofNat m (leNat l)

/-! ## Memory -/

/-- The byte at an address (log 2: an unlisted byte is 0). -/
def Mem.get (a : Nat) : Mem → Byte
  | [] => 0
  | (a', b) :: t => if a = a' then b else if a < a' then 0 else Mem.get a t

/-- The memory with one byte set, in canonical form. -/
def Mem.set (a : Nat) (b : Byte) : Mem → Mem
  | [] => if b = 0 then [] else [(a, b)]
  | (a', b') :: t =>
    if a < a' then (if b = 0 then (a', b') :: t else (a, b) :: (a', b') :: t)
    else if a = a' then (if b = 0 then t else (a, b) :: t)
    else (a', b') :: Mem.set a b t

/-- `n` bytes from an address. -/
def Mem.bytes (m : Mem) (a : Nat) : Nat → List Byte
  | 0 => []
  | n + 1 => m.get a :: Mem.bytes m (a + 1) n

/-- The memory with consecutive bytes set from an address. -/
def Mem.setBytes (m : Mem) (a : Nat) : List Byte → Mem
  | [] => m
  | b :: t => Mem.setBytes (Mem.set a b m) (a + 1) t

/-- Every address is above `lo`, rising, and no byte is 0. -/
def Mem.above (lo : Nat) : Mem → Bool
  | [] => true
  | (a, b) :: t => decide (lo ≤ a) && decide (b ≠ 0) && Mem.above (a + 1) t

/-- The canonical form: addresses strictly rising, no entry equal to what an unlisted address reads as. -/
def Mem.wf (m : Mem) : Bool := Mem.above 0 m

/-- The cells of a memory within `[lo, hi)`, moved down by `lo`. -/
def Mem.slice (m : Mem) (lo hi : Nat) : Mem :=
  (m.filter (fun c => decide (lo ≤ c.1 ∧ c.1 < hi))).map (fun c => (c.1 - lo, c.2))

/-- The memory with `[lo, hi)` all zero. -/
def Mem.clear (m : Mem) (lo hi : Nat) : Mem := m.filter (fun c => decide (¬ (lo ≤ c.1 ∧ c.1 < hi)))

/-- The memory with the cells of `c`, moved up by `lo`, written. -/
def Mem.paste (m : Mem) (lo : Nat) : Mem → Mem
  | [] => m
  | (a, b) :: t => Mem.paste (Mem.set (lo + a) b m) lo t

/-- The members of a sorted list of numbers with `n` in it. -/
def insertNat (n : Nat) : List Nat → List Nat
  | [] => [n]
  | a :: t => if n < a then n :: a :: t else if n = a then a :: t else a :: insertNat n t

end Sys2Proof.Machine
end

