-- ==== Sys2Proof/Machine/Flags.lean ====
section
/-! DEFINITION. Numbers and flags: the floating formats, exact values with one rounding at the end, and the flags of
R67, for every arithmetic and conversion rule of the spec (R60 to R66, R126 to R135). -/

namespace Sys2Proof.Machine

/-! ## Flags (R67) -/

abbrev FFlags := BitVec 7
def flagNV : FFlags := 1
def flagDZ : FFlags := 2
def flagOF : FFlags := 4
def flagUF : FFlags := 8
def flagNX : FFlags := 16
def flagSAT : FFlags := 32
def flagBV : FFlags := 64

/-- A bit pattern with the flags its making raised. -/
abbrev FRes := Nat × FFlags

/-! ## Formats (R60, R61) -/

/-- Which encodings of a format are not numbers. -/
inductive FKind where
  /-- IEEE infinities and NaNs. -/
  | ieee
  /-- E4M3: no infinity, NaN only at 0x7F and 0xFF. -/
  | e4m3
  /-- E2M1: neither. -/
  | e2m1
deriving DecidableEq, Repr

/-- A floating format: exponent and fraction widths. -/
structure FFmt where
  eb : Nat
  mb : Nat
  kind : FKind := .ieee
deriving DecidableEq, Repr

def fp32 : FFmt := { eb := 8, mb := 23 }
def fp64 : FFmt := { eb := 11, mb := 52 }
def fp16 : FFmt := { eb := 5, mb := 10 }
def bf16 : FFmt := { eb := 8, mb := 7 }
def e4m3 : FFmt := { eb := 4, mb := 3, kind := .e4m3 }
def e5m2 : FFmt := { eb := 5, mb := 2 }
def e2m1 : FFmt := { eb := 2, mb := 1, kind := .e2m1 }

/-- The floating format of a SUB code; FP32 for the codes that name none (callers check). -/
def fmtOf (code : Nat) : FFmt :=
  if code = 5 then fp64 else if code = 8 ∨ code = 6 then fp16 else if code = 9 ∨ code = 7 then bf16
  else if code = 0xA then e4m3 else if code = 0xB then e5m2 else if code = 0xC then e2m1 else fp32

/-- The code names a floating format. -/
def isFloat (code : Nat) : Bool := 4 ≤ code ∧ code ≤ 0xC

def FFmt.width (f : FFmt) : Nat := 1 + f.eb + f.mb
def FFmt.bias (f : FFmt) : Int := 2 ^ (f.eb - 1) - 1
/-- Exponent of the least subnormal. -/
def FFmt.qmin (f : FFmt) : Int := 1 - f.bias - f.mb

/-- Largest finite pattern without sign (R60). -/
def FFmt.maxBits (f : FFmt) : Nat :=
  match f.kind with
  | .ieee => (2 ^ f.eb - 1) * 2 ^ f.mb - 1
  | .e4m3 => 2 ^ (f.eb + f.mb) - 2
  | .e2m1 => 2 ^ (f.eb + f.mb) - 1

/-- Infinity without sign, in a format that has one. -/
def FFmt.infBits (f : FFmt) : Nat := (2 ^ f.eb - 1) * 2 ^ f.mb

/-- The canonical NaN (R61); +0 for E2M1 (R65). -/
def FFmt.nanBits (f : FFmt) : Nat :=
  match f.kind with
  | .ieee => (2 ^ f.eb - 1) * 2 ^ f.mb + 2 ^ (f.mb - 1)
  | .e4m3 => 2 ^ (f.eb + f.mb) - 1
  | .e2m1 => 0

def FFmt.sign (f : FFmt) (neg : Bool) : Nat := if neg then 2 ^ (f.eb + f.mb) else 0

/-! ## Values -/

/-- What a pattern stands for: a NaN, an infinity, or ± m × 2^e (zero when m = 0, keeping its sign). -/
inductive FVal where
  | nan (signalling : Bool)
  | inf (neg : Bool)
  | num (neg : Bool) (m : Nat) (e : Int)
deriving DecidableEq, Repr

/-- The value of a pattern (R60, R61). -/
def FFmt.decode (f : FFmt) (x : Nat) : FVal :=
  let neg := x / 2 ^ (f.eb + f.mb) % 2 = 1
  let e := x / 2 ^ f.mb % 2 ^ f.eb
  let m := x % 2 ^ f.mb
  let number : FVal := if e = 0 then .num neg m f.qmin else .num neg (2 ^ f.mb + m) (f.qmin + (e - 1 : Nat))
  match f.kind with
  | .ieee =>
    if e = 2 ^ f.eb - 1 then
      if m = 0 then .inf neg else .nan (m < 2 ^ (f.mb - 1) ∧ f ≠ e5m2)
    else number
  | .e4m3 => if e = 2 ^ f.eb - 1 ∧ m = 2 ^ f.mb - 1 then .nan false else number
  | .e2m1 => number

/-- The value with its sign inverted. -/
def FVal.negate : FVal → FVal
  | .nan s => .nan s
  | .inf n => .inf (!n)
  | .num n m e => .num (!n) m e

def FVal.isNaN : FVal → Bool
  | .nan _ => true
  | _ => false

def FVal.isSNaN : FVal → Bool
  | .nan s => s
  | _ => false

def FVal.isZero : FVal → Bool
  | .num _ m _ => m = 0
  | _ => false

/-- A signed integer of unit 2^e. -/
def ofInt (x : Int) (e : Int) : FVal := .num (x < 0) x.natAbs e

/-! ## Rounding (R64, R65, R126) -/

/-- ± m × 2^e rounded to a multiple of 2^q under a mode; `sticky` adds something positive below one unit of m. The
rounded multiple and whether anything was lost. -/
def roundQ (rm : Nat) (neg : Bool) (m : Nat) (e : Int) (sticky : Bool) (q : Int) : Nat × Bool :=
  if q ≤ e then (m * 2 ^ (e - q).toNat, sticky)
  else
    let k := (q - e).toNat
    let n := m / 2 ^ k
    let rem := m % 2 ^ k
    let inexact := rem ≠ 0 ∨ sticky
    let up : Bool :=
      match rm with
      | 0 => 2 ^ (k - 1) < rem ∨ (rem = 2 ^ (k - 1) ∧ (sticky ∨ n % 2 = 1))
      | 1 => false
      | 2 => inexact ∧ !neg
      | _ => inexact ∧ neg
    (if up then n + 1 else n, inexact)

/-- Bits of a number: 0 for 0. -/
def bitLen (m : Nat) : Nat := if m = 0 then 0 else Nat.log2 m + 1

/-- The unrounded exponent's quantum in a format. -/
def FFmt.quantum (f : FFmt) (m : Nat) (e : Int) : Int := max (e + bitLen m - 1 - f.mb) f.qmin

/-- The rounded pattern without sign, before overflow is examined, whether it is inexact, and whether the result is tiny
after rounding (R67, R126). -/
def FFmt.roundBits (f : FFmt) (rm : Nat) (neg : Bool) (m : Nat) (e : Int) (sticky : Bool) : Nat × Bool × Bool :=
  let q := f.quantum m e
  let r := roundQ rm neg m e sticky q
  let qu := e + bitLen m - 1 - f.mb
  let u := roundQ rm neg m e sticky qu
  let tiny := decide (qu < f.qmin) && decide (u.1 < 2 ^ (f.mb + (f.qmin - qu).toNat))
  (((q - f.qmin) * 2 ^ f.mb + r.1).toNat, r.2, tiny)

/-- Overflow's result and flags, saturate 0: infinity or the largest finite as the mode directs (R65). -/
def FFmt.overflow (f : FFmt) (rm : Nat) (neg : Bool) : Nat :=
  if rm = 0 ∨ (rm = 2 ∧ !neg) ∨ (rm = 3 ∧ neg) then
    match f.kind with
    | .ieee => f.sign neg + f.infBits
    | .e4m3 => f.nanBits
    | .e2m1 => f.sign neg + f.maxBits
  else f.sign neg + f.maxBits

/-- A nonzero exact value rounded once to a format by a conversion (R65). -/
def FFmt.convNum (f : FFmt) (rm : Nat) (sat : Bool) (neg : Bool) (m : Nat) (e : Int) (sticky : Bool) : FRes :=
  let r := f.roundBits rm neg m e sticky
  if f.maxBits < r.1 then
    match f.kind with
    | .e2m1 => (f.sign neg + f.maxBits, flagSAT)
    | .e4m3 => if sat then (f.sign neg + f.maxBits, flagSAT) else (f.overflow rm neg, flagOF ||| flagNX)
    | .ieee => if sat then (f.sign neg + f.maxBits, flagSAT ||| flagNX) else (f.overflow rm neg, flagOF ||| flagNX)
  else
    (f.sign neg + r.1, (if r.2.1 then flagNX else 0) ||| (if r.2.1 ∧ r.2.2 then flagUF else 0))

/-- A value converted to a format (R65). -/
def FFmt.conv (f : FFmt) (rm : Nat) (sat : Bool) (x : FVal) : FRes :=
  match x with
  | .nan s => (f.nanBits, if s ∨ f.kind = .e2m1 then flagNV else 0)
  | .inf neg =>
    match f.kind with
    | .ieee => if sat then (f.sign neg + f.maxBits, flagSAT) else (f.sign neg + f.infBits, 0)
    | .e4m3 => if sat then (f.sign neg + f.maxBits, flagSAT) else (f.overflow rm neg, flagOF ||| flagNX)
    | .e2m1 => (f.sign neg + f.maxBits, flagSAT)
  | .num neg m e => if m = 0 then (f.sign neg, 0) else f.convNum rm sat neg m e false

/-- A nonzero exact result of arithmetic rounded once (R127, R128). -/
def FFmt.arith (f : FFmt) (rm : Nat) (sat : Bool) (neg : Bool) (m : Nat) (e : Int) (sticky : Bool) : FRes :=
  let r := f.roundBits rm neg m e sticky
  if f.maxBits < r.1 then
    let x := f.overflow rm neg
    if sat ∧ x = f.sign neg + f.infBits then (f.sign neg + f.maxBits, flagSAT ||| flagNX) else (x, flagOF ||| flagNX)
  else
    (f.sign neg + r.1, (if r.2.1 then flagNX else 0) ||| (if r.2.1 ∧ r.2.2 then flagUF else 0))

/-- An infinite result that comes from an infinite operand (R128). -/
def FFmt.infResult (f : FFmt) (sat neg : Bool) : FRes :=
  if sat then (f.sign neg + f.maxBits, flagSAT) else (f.sign neg + f.infBits, 0)

/-- The canonical NaN for an invalid operation. -/
def FFmt.invalid (f : FFmt) : FRes := (f.nanBits, flagNV)

/-- NV when some operand is a signalling NaN (R126). -/
def snanFlag (l : List FVal) : FFlags := if l.any FVal.isSNaN then flagNV else 0

/-! ## Arithmetic (R126 to R131) -/

/-- The exact sum of two numbers as a signed integer and its unit; the sign an exact zero takes is the caller's. -/
def exactAdd (na : Bool) (ma : Nat) (ea : Int) (nb : Bool) (mb : Nat) (eb : Int) : Int × Int :=
  let e := min ea eb
  let x : Int := (if na then -1 else 1) * ((ma * 2 ^ (ea - e).toNat : Nat) : Int)
  let y : Int := (if nb then -1 else 1) * ((mb * 2 ^ (eb - e).toNat : Nat) : Int)
  (x + y, e)

/-- a + b of two non-NaN values, rounded once. -/
def FFmt.addVals (f : FFmt) (rm : Nat) (sat : Bool) (a b : FVal) : FRes :=
  match a, b with
  | .nan _, _ => (f.nanBits, 0)
  | _, .nan _ => (f.nanBits, 0)
  | .inf na, .inf nb => if na = nb then f.infResult sat na else f.invalid
  | .inf na, .num _ _ _ => f.infResult sat na
  | .num _ _ _, .inf nb => f.infResult sat nb
  | .num na ma ea, .num nb mb eb =>
    let s := exactAdd na ma ea nb mb eb
    if s.1 = 0 then (f.sign (if ma = 0 ∧ mb = 0 ∧ na = nb then na else rm = 3), 0)
    else f.arith rm sat (s.1 < 0) s.1.natAbs s.2 false

/-- FADD (R127). -/
def FFmt.add (f : FFmt) (rm : Nat) (sat : Bool) (x y : Nat) : FRes :=
  let a := f.decode x
  let b := f.decode y
  if a.isNaN ∨ b.isNaN then (f.nanBits, snanFlag [a, b]) else f.addVals rm sat a b

/-- FSUB (R127). -/
def FFmt.sub (f : FFmt) (rm : Nat) (sat : Bool) (x y : Nat) : FRes :=
  let a := f.decode x
  let b := f.decode y
  if a.isNaN ∨ b.isNaN then (f.nanBits, snanFlag [a, b]) else f.addVals rm sat a b.negate

/-- The exact product of two non-NaN values; none for ∞ × 0. -/
def mulVals (a b : FVal) : Option FVal :=
  match a, b with
  | .inf na, .inf nb => some (.inf (na != nb))
  | .inf na, .num nb m _ => if m = 0 then none else some (.inf (na != nb))
  | .num na m _, .inf nb => if m = 0 then none else some (.inf (na != nb))
  | .num na ma ea, .num nb mb eb => some (.num (na != nb) (ma * mb) (ea + eb))
  | _, _ => none

/-- FMUL (R127). -/
def FFmt.mul (f : FFmt) (rm : Nat) (sat : Bool) (x y : Nat) : FRes :=
  let a := f.decode x
  let b := f.decode y
  if a.isNaN ∨ b.isNaN then (f.nanBits, snanFlag [a, b])
  else
    match mulVals a b with
    | none => f.invalid
    | some (.inf n) => f.infResult sat n
    | some (.num n m e) => if m = 0 then (f.sign n, 0) else f.arith rm sat n m e false
    | some (.nan _) => f.invalid

/-- FFMA: a × b + c with one rounding; NV for ∞ × 0 even when c is a quiet NaN (R126). -/
def FFmt.fma (f : FFmt) (rm : Nat) (sat : Bool) (x y z : Nat) : FRes :=
  let a := f.decode x
  let b := f.decode y
  let c := f.decode z
  if a.isNaN ∨ b.isNaN then (f.nanBits, snanFlag [a, b, c])
  else
    match mulVals a b with
    | none => f.invalid
    | some p => if c.isNaN then (f.nanBits, snanFlag [c]) else f.addVals rm sat p c

/-- A quotient num / den × 2^e, as a number with at least `p` significant bits and whether anything is left over. -/
def ratio (p num den : Nat) : Nat × Int × Bool :=
  let k := p + bitLen den - bitLen num
  let n := num * 2 ^ k
  (n / den, -(k : Int), n % den ≠ 0)

/-- FDIV (R127, R128). -/
def FFmt.div (f : FFmt) (rm : Nat) (sat : Bool) (x y : Nat) : FRes :=
  let a := f.decode x
  let b := f.decode y
  match a, b with
  | .nan _, _ => (f.nanBits, snanFlag [a, b])
  | _, .nan _ => (f.nanBits, snanFlag [a, b])
  | .inf _, .inf _ => f.invalid
  | .inf na, .num nb _ _ => f.infResult sat (na != nb)
  | .num na _ _, .inf nb => (f.sign (na != nb), 0)
  | .num na ma ea, .num nb mb eb =>
    if mb = 0 then
      if ma = 0 then f.invalid
      else if sat then (f.sign (na != nb) + f.maxBits, flagDZ ||| flagSAT)
      else (f.sign (na != nb) + f.infBits, flagDZ)
    else if ma = 0 then (f.sign (na != nb), 0)
    else
      let q := ratio (f.mb + 4) ma mb
      f.arith rm sat (na != nb) q.1 (q.2.1 + ea - eb) q.2.2

/-- The pattern of 1. -/
def FFmt.one (f : FFmt) : Nat := f.bias.toNat * 2 ^ f.mb

/-- FRCP: 1 / a, correctly rounded (R127). -/
def FFmt.rcp (f : FFmt) (rm : Nat) (sat : Bool) (x : Nat) : FRes := f.div rm sat f.one x

/-- Integer square root by bits, most significant first: the root found so far and the bits still to try. -/
def isqrtGo (n : Nat) : Nat → Nat → Nat
  | 0, r => r
  | k + 1, r => if (r + 2 ^ k) * (r + 2 ^ k) ≤ n then isqrtGo n k (r + 2 ^ k) else isqrtGo n k r

/-- ⌊√n⌋. -/
def isqrt (n : Nat) : Nat := isqrtGo n (bitLen n / 2 + 1) 0

/-- √(m × 2^e) as a number with at least `p` significant bits and whether anything is left over. -/
def rootOf (p m : Nat) (e : Int) : Nat × Int × Bool :=
  let k0 := 2 * p + 2 - bitLen m
  let k := if (e - k0) % 2 = 0 then k0 else k0 + 1
  let n := m * 2 ^ k
  let r := isqrt n
  (r, (e - k) / 2, r * r ≠ n)

/-- FSQRT (R127). -/
def FFmt.sqrt (f : FFmt) (rm : Nat) (x : Nat) : FRes :=
  match f.decode x with
  | .nan s => (f.nanBits, if s then flagNV else 0)
  | .inf neg => if neg then f.invalid else (f.infBits, 0)
  | .num neg m e =>
    if m = 0 then (f.sign neg, 0)
    else if neg then f.invalid
    else
      let r := rootOf (f.mb + 4) m e
      f.arith rm false false r.1 r.2.1 r.2.2

/-- 1/√a truncated to the format, and whether it is exact; a is positive. -/
def FFmt.rsqTrunc (f : FFmt) (m : Nat) (e : Int) : Nat × Bool :=
  -- 1/√(m·2^e) = √(2^(2t) / m) · 2^(−t − e/2), with the exponent made even
  let m' := if e % 2 = 0 then m else 2 * m
  let e' := if e % 2 = 0 then e else e - 1
  let t := f.mb + 4 + bitLen m'
  let n := 2 ^ (2 * t) / m'
  let r := isqrt n
  let exact := r * r * m' = 2 ^ (2 * t)
  let b := f.roundBits 1 false r (-(t : Int) - e' / 2) (!exact)
  (b.1, exact && !b.2.1)

/-- FRSQ: within 1 ulp, exact where representable; `pick` chooses between the two neighbours (R127, log 6). -/
def FFmt.rsq (f : FFmt) (pick : Bool) (x : Nat) : FRes :=
  match f.decode x with
  | .nan s => (f.nanBits, if s then flagNV else 0)
  | .inf neg => if neg then f.invalid else (0, 0)
  | .num neg m e =>
    if m = 0 then (f.sign neg + f.infBits, flagDZ)
    else if neg then f.invalid
    else
      let r := f.rsqTrunc m e
      if r.2 then (r.1, 0) else (if pick then r.1 + 1 else r.1, flagNX)

/-- A number rounded to an integer under a mode. -/
def roundInt (rm : Nat) (neg : Bool) (m : Nat) (e : Int) (sticky : Bool) : Nat × Bool := roundQ rm neg m e sticky 0

/-- FRND: rounded to an integral value, no NX (R127). -/
def FFmt.rnd (f : FFmt) (rm : Nat) (x : Nat) : FRes :=
  match f.decode x with
  | .nan s => (f.nanBits, if s then flagNV else 0)
  | .inf neg => (f.sign neg + f.infBits, 0)
  | .num neg m e =>
    let n := (roundInt rm neg m e false).1
    if n = 0 then (f.sign neg, 0) else ((f.conv rm false (.num neg n 0)).1, 0)

/-- FSCALE: a × 2^b (R127, R128). -/
def FFmt.scale (f : FFmt) (rm : Nat) (sat : Bool) (x : Nat) (b : Int) : FRes :=
  match f.decode x with
  | .nan s => (f.nanBits, if s then flagNV else 0)
  | .inf neg => f.infResult sat neg
  | .num neg m e =>
    if m = 0 then (f.sign neg, 0)
    else
      -- a shift far beyond the format's range rounds as one at its edge
      let lim : Int := 4096
      f.arith rm sat neg m (e + max (-lim) (min lim b)) false

/-- Order of two numbers: −1, 0, 1 of a − b. -/
def cmpVals (a b : FVal) : Int :=
  match a, b with
  | .inf na, .inf nb => if na = nb then 0 else if na then -1 else 1
  | .inf na, _ => if na then -1 else 1
  | _, .inf nb => if nb then 1 else -1
  | .num na ma ea, .num nb mb eb => (exactAdd na ma ea (!nb) mb eb).1.sign
  | _, _ => 0

/-- FMIN and FMAX: minimumNumber and maximumNumber (R129). -/
def FFmt.minmax (f : FFmt) (isMax : Bool) (x y : Nat) : FRes :=
  let a := f.decode x
  let b := f.decode y
  let fl := snanFlag [a, b]
  if a.isNaN ∧ b.isNaN then (f.nanBits, fl)
  else if a.isNaN then (y, fl)
  else if b.isNaN then (x, fl)
  else
    let c := cmpVals a b
    let aLess := c < 0 ∨ (c = 0 ∧ f.sign true ≤ x)
    ((if aLess then (if isMax then y else x) else (if isMax then x else y)), fl)

/-- FCMP: the condition and its flags (R130). -/
def FFmt.compare (f : FFmt) (cc : Nat) (x y : Nat) : Bool × FFlags :=
  let a := f.decode x
  let b := f.decode y
  let un := a.isNaN ∨ b.isNaN
  let c := cmpVals a b
  let res : Bool :=
    match cc with
    | 0 => !un ∧ c = 0
    | 1 => un ∨ c ≠ 0
    | 2 => !un ∧ c < 0
    | 3 => !un ∧ c ≤ 0
    | 4 => !un ∧ 0 < c
    | 5 => !un ∧ 0 ≤ c
    | 6 => un
    | _ => !un
  let nv := if 2 ≤ cc ∧ cc ≤ 5 then un else (a.isSNaN ∨ b.isSNaN)
  (res, if nv then flagNV else 0)

/-- FCLASS: the one-hot class (R130). -/
def FFmt.classOf (f : FFmt) (x : Nat) : Nat :=
  match f.decode x with
  | .nan s => if s then 2 ^ 8 else 2 ^ 9
  | .inf neg => if neg then 1 else 2 ^ 7
  | .num neg m _ =>
    if m = 0 then (if neg then 2 ^ 3 else 2 ^ 4)
    else if m < 2 ^ f.mb then (if neg then 2 ^ 2 else 2 ^ 5)
    else (if neg then 2 else 2 ^ 6)

/-- FABS and FNEG: the sign bit changed; a NaN becomes canonical (R127). -/
def FFmt.setSign (f : FFmt) (x : Nat) (flip : Bool) : Nat :=
  if (f.decode x).isNaN then f.nanBits
  else if flip then (x + f.sign true) % 2 ^ f.width else x % 2 ^ (f.eb + f.mb)

/-! ## Integers and conversions (R63, R66) -/

/-- Width of an integer type code. -/
def intWidth (ty : Nat) : Nat := if ty = 2 ∨ ty = 3 then 64 else if ty = 0xD ∨ ty = 0xE then 8 else 32

/-- The integer type is signed. -/
def intSigned (ty : Nat) : Bool := ty = 0 ∨ ty = 2 ∨ ty = 0xD

/-- The integer a pattern holds in a type. -/
def intVal (ty x : Nat) : Int :=
  if intSigned ty then sx (intWidth ty) x else ((x % 2 ^ intWidth ty : Nat) : Int)

def intMin (ty : Nat) : Int := if intSigned ty then -(2 ^ (intWidth ty - 1) : Int) else 0
def intMax (ty : Nat) : Int := if intSigned ty then 2 ^ (intWidth ty - 1) - 1 else 2 ^ intWidth ty - 1

/-- sat(x, T): x clamped to the type's range (R6). -/
def satInt (ty : Nat) (x : Int) : Int := max (intMin ty) (min (intMax ty) x)

/-- A value rounded and clamped to an integer type, with its flags (R66). -/
def toInt (ty rm : Nat) (x : FVal) : Int × FFlags :=
  match x with
  | .nan _ => (0, flagNV)
  | .inf neg => (if neg then intMin ty else intMax ty, flagNV)
  | .num neg m e =>
    let r := roundInt rm neg m e false
    let n : Int := if neg then -(r.1 : Int) else r.1
    if n < intMin ty ∨ intMax ty < n then (satInt ty n, flagNV)
    else (n, if r.2 then flagNX else 0)

/-- An integer converted to an integer type (R66). -/
def intToInt (ty : Nat) (sat : Bool) (x : Int) : Int × FFlags :=
  if sat then (satInt ty x, if satInt ty x = x then 0 else flagSAT) else (x, 0)

/-- A result pattern in the register: integers narrower than a register are extended by their type (R132). -/
def intPattern (ty : Nat) (x : Int) : Nat :=
  if intWidth ty = 64 then wrap 64 x
  else if intSigned ty then wrap 32 (sx (intWidth ty) (wrap (intWidth ty) x)) else wrap (intWidth ty) x

/-- CVT: one value converted between types (R65, R66, R132). -/
def convert (dst frm rm : Nat) (sat : Bool) (x : Nat) : FRes :=
  if isFloat frm then
    let v := (fmtOf frm).decode x
    if isFloat dst then (fmtOf dst).conv rm sat v
    else
      let r := toInt dst rm v
      (intPattern dst r.1, r.2)
  else
    let n := intVal frm x
    if isFloat dst then (fmtOf dst).conv rm sat (ofInt n 0)
    else
      let r := intToInt dst sat n
      (intPattern dst r.1, r.2)

/-- A value times 2^b, exactly; a shift beyond every format's range is cut off at its edge. -/
def scaleVal (v : FVal) (b : Int) : FVal :=
  match v with
  | .num n m e => .num n m (e + max (-8192) (min 8192 b))
  | v => v

/-- CVTS: A × 2^b converted with one rounding (R133). -/
def convertScaled (dst frm rm : Nat) (sat : Bool) (x : Nat) (b : Int) : FRes :=
  let v := scaleVal ((fmtOf frm).decode x) b
  if isFloat dst then (fmtOf dst).conv rm sat v
  else
    let r := toInt dst rm v
    (intPattern dst r.1, r.2)

/-! ## Functions within a bound (R135) -/

/-- The FP32 pattern, without sign, that m × 2^e truncates to (0 below the least subnormal). -/
def trunc32 (m : Nat) (e : Int) : Nat := if m = 0 then 0 else (fp32.roundBits 1 false m e false).1

/-- An exact positive value known to lie within [lo, hi] × 2^e, in at most two neighbouring cells: a pattern below it and
one above it; where the interval holds a representable value, that value for both. -/
def bracket32 (lo hi : Nat) (e : Int) : Nat × Nat :=
  let a := trunc32 lo e
  let b := trunc32 hi e
  if a = b then (a, a + 1) else (b, b)

/-- The patterns within `u` units in the last place of the bracketed value (log 6): the two that bracket it, and for a
bound of 2 the next one on each side, unless a binade begins between, where a unit changes its size. -/
def nearBy (u : Nat) (b : Nat × Nat) : List Nat :=
  [b.1, b.2] ++ (if 2 ≤ u ∧ b.1 % 2 ^ 23 ≠ 0 then [b.1 - 1] else []) ++ (if 2 ≤ u ∧ b.2 % 2 ^ 23 ≠ 0 then [b.2 + 1] else [])

/-- The pattern `pick` chooses among those within the bound. -/
def pickNear (u : Nat) (pick : BitVec 64) (b : Nat × Nat) : Nat :=
  (nearBy u b).getD (pick.toNat % (nearBy u b).length) b.1

/-- Flags of a special function's finite result: UF and NX when it is tiny and not exact (R135). -/
def tinyFlags (bits : Nat) (exact : Bool) : FFlags := if bits < 2 ^ 23 ∧ !exact then flagUF ||| flagNX else 0

/-- Products of 2^(2^−i) over the set bits of a fraction of `n` bits, with lower and upper bounds at scale 2^192: `c` is
bounds on 2^(2^−i). -/
def exp2Go : Nat → Nat → Nat × Nat → Nat × Nat → Nat × Nat
  | 0, _, _, acc => acc
  | n + 1, fr, c, acc =>
    -- the top bit of the remaining n + 1 bits
    let acc' := if fr / 2 ^ n % 2 = 1 then (acc.1 * c.1 / 2 ^ 192, acc.2 * c.2 / 2 ^ 192 + 1) else acc
    exp2Go n fr (isqrt (c.1 * 2 ^ 192), isqrt (c.2 * 2 ^ 192) + 1) acc'

/-- Bounds on 2^(fr / 2^n) at scale 2^192, fr < 2^n. -/
def exp2Frac (n fr : Nat) : Nat × Nat :=
  let r := isqrt (2 * 2 ^ 384)
  exp2Go n fr (r, r + 1) (2 ^ 192, 2 ^ 192)

/-- EXP2 (R135). -/
def exp2Of (pick : BitVec 64) (x : Nat) : FRes :=
  match fp32.decode x with
  | .nan s => (fp32.nanBits, if s then flagNV else 0)
  | .inf neg => if neg then (0, 0) else (fp32.infBits, 0)
  | .num neg m e =>
    if m = 0 then (fp32.one, 0)
    else
      let a : Int := (if neg then -1 else 1) * (m : Int)
      -- integer part, and the fraction in 64 bits with what is left over
      let n : Int := if 0 ≤ e then a * 2 ^ e.toNat else a / 2 ^ (-e).toNat
      let r : Nat := if 0 ≤ e then 0 else (a % 2 ^ (-e).toNat).toNat
      if 128 ≤ n then (fp32.infBits, flagOF ||| flagNX)
      else if neg ∧ e + bitLen m ≤ -30 then
        -- 1 − 2^−30 < 2^a < 1
        (pickNear 1 pick (fp32.one - 1, fp32.one), 0)
      else if r = 0 ∧ -149 ≤ n then ((fp32.roundBits 1 false 1 n false).1, 0)
      else if n < -1000 then
        -- far below the least subnormal: 0 or 2^-149 lie within the bound
        (if pick.toNat % 2 = 1 then 1 else 0, flagUF ||| flagNX)
      else
        let k := (-e).toNat
        let fr := if k ≤ 64 then r * 2 ^ (64 - k) else r / 2 ^ (k - 64)
        let lo := (exp2Frac 64 fr).1
        let hi := if 64 < k then (exp2Frac 64 fr).2 + (exp2Frac 64 fr).2 / 2 ^ 63 else (exp2Frac 64 fr).2
        let b := bracket32 lo hi (n - 192)
        let res := pickNear 1 pick b
        (res, tinyFlags res false)

/-- Bits of log2 of y / 2^256 in [1, 2) by squaring, bounds carried: the numbers of `n` bits found from below and above. -/
def log2Go : Nat → Nat → Nat → Nat
  | 0, _, acc => acc
  | n + 1, y, acc =>
    let s := y * y / 2 ^ 256
    if 2 ^ 257 ≤ s then log2Go n (s / 2) (2 * acc + 1) else log2Go n s (2 * acc)

/-- LOG2 (R135). -/
def log2Of (pick : BitVec 64) (x : Nat) : FRes :=
  match fp32.decode x with
  | .nan s => (fp32.nanBits, if s then flagNV else 0)
  | .inf neg => if neg then fp32.invalid else (fp32.infBits, 0)
  | .num neg m e =>
    if m = 0 then (fp32.sign true + fp32.infBits, flagDZ)
    else if neg then fp32.invalid
    else
      let n : Int := e + (bitLen m - 1 : Nat)
      let y := m * 2 ^ (256 - (bitLen m - 1))
      if m = 2 ^ (bitLen m - 1) then
        if n = 0 then (0, 0) else ((fp32.conv 0 false (ofInt n 0)).1, 0)
      else
        -- 96 bits of the fraction; truncation at scale 2^256 loses less than 2^-90 of it
        let fr := log2Go 96 y 0
        let lo : Int := n * 2 ^ 96 + (fr : Int) - 64
        let hi : Int := n * 2 ^ 96 + (fr : Int) + 64
        if 0 ≤ lo then
          let b := bracket32 lo.toNat hi.toNat (-96)
          (pickNear 1 pick b, 0)
        else
          let b := bracket32 (-hi).toNat (-lo).toNat (-96)
          (fp32.sign true + pickNear 1 pick b, 0)

/-- π × 2^480, truncated. -/
def piBits : Nat := 0x3243f6a8885a308d313198a2e03707344a4093822299f31d0082efa98ec4e6c89452821e638d01377be5466cf34e90c6cc0ac29b7c97c50dd3f84d5b5

/-- The sine's series at scale 2^200: x − x³/3! + …, `t` the current term, by terms. -/
def sinGo (x2 : Nat) : Nat → Nat → Nat → Nat → Nat → Nat
  | 0, _, _, pos, neg => pos - neg
  | n + 1, k, t, pos, neg =>
    let t' := t * x2 / 2 ^ 200 / ((2 * k) * (2 * k + 1))
    if k % 2 = 1 then sinGo x2 n (k + 1) t' pos (neg + t') else sinGo x2 n (k + 1) t' (pos + t') neg

/-- sin of x / 2^200 for x up to π/2, at scale 2^200, within 64 units. -/
def sinFix (x : Nat) : Nat := sinGo (x * x / 2 ^ 200) 40 1 x x 0

/-- The quadrant and remainder at scale 2^480 of a positive number m × 2^e against π/2. -/
def reduce (m : Nat) (e : Int) : Nat × Nat :=
  -- the number at scale 2^480; FP32 values have e ≥ −149
  let a := m * 2 ^ (e + 480).toNat
  let h := piBits / 2
  (a / h % 4, a % h)

/-- The error of `reduce`: the quotient times the truncation of π/2, at scale 2^200 far below one unit for FP32. -/
def sinBracket (m : Nat) (e : Int) (cosine : Bool) : Bool × (Nat × Nat) :=
  let r := reduce m e
  let q := if cosine then (r.1 + 1) % 4 else r.1
  let x := if q % 2 = 0 then r.2 else piBits / 2 - r.2
  let v := sinFix (x / 2 ^ 280)
  (2 ≤ q, bracket32 (v - 128) (v + 128) (-200))

/-- SIN (R135). -/
def sinOf (pick : BitVec 64) (x : Nat) : FRes :=
  match fp32.decode x with
  | .nan s => (fp32.nanBits, if s then flagNV else 0)
  | .inf _ => fp32.invalid
  | .num neg m e =>
    if m = 0 then (fp32.sign neg, 0)
    else
      let small := e + bitLen m ≤ -12
      -- below 2^-12, a − a³/6 < sin a < a, less than one unit apart
      let sb : Bool × (Nat × Nat) := if small then (false, (x % 2 ^ 31 - 1, x % 2 ^ 31)) else sinBracket m e false
      let res := pickNear 2 pick sb.2
      (fp32.sign (neg != sb.1) + res, tinyFlags res false)

/-- COS (R135). -/
def cosOf (pick : BitVec 64) (x : Nat) : FRes :=
  match fp32.decode x with
  | .nan s => (fp32.nanBits, if s then flagNV else 0)
  | .inf _ => fp32.invalid
  | .num _ m e =>
    if m = 0 then (fp32.one, 0)
    else
      let small := e + bitLen m ≤ -12
      let sb : Bool × (Nat × Nat) := if small then (false, (fp32.one - 1, fp32.one)) else sinBracket m e true
      let res := pickNear 2 pick sb.2
      (fp32.sign sb.1 + res, tinyFlags res false)

end Sys2Proof.Machine
end

