-- ==== Sys2Proof/Machine/Ops.lean ====
section
/-! DEFINITION. The named operations over the machine: numbering (R7), header fields (R107), places and memory (R15 to
R20, R36, R385), watches (R255), translation (R21 to R28), the fault queue (R30 to R32), registers (R4, R88, R94, R141),
and taking a trap with the return from one (R365 to R368). -/

namespace Sys2Proof.Machine

/-! ## Numbering (R7, R8) -/

/-- The core, partition and context of a warp key (core × 64 + partition × 16 + context). -/
def coreOfWarp (k : Nat) : Nat := k / 64
def partOfWarp (k : Nat) : Nat := k / 16
def ctxOfWarp (k : Nat) : Nat := k % 16
def dieOfCore (c : Nat) : Nat := c / 64
def dieOfRill (r : Nat) : Nat := r / 4

/-- The clock of a die's counter: at most 16 clocks from die 0's (R141, R398). -/
def dieClock (s : State) (die : Nat) : Nat := if die = 0 then s.clock else s.clock + Config.dieSkew die % 17

/-! ## The kernel header (R107, R108) -/

def hdrScrl (h : BitVec 512) : Nat := fld h 168 13
def hdrBars (h : BitVec 512) : Nat := fld h 184 5
def hdrTags (h : BitVec 512) : Nat := fld h 192 7
def hdrRows (h : BitVec 512) : Nat := 32 * fld h 200 3
def hdrBanks (h : BitVec 512) : Nat := fld h 203 3
def hdrRsv (h : BitVec 512) : Nat := fld h 206 3
def hdrPpt (h : BitVec 512) : Nat := fld h 209 3
def hdrFpte (h : BitVec 512) : BitVec 7 := BitVec.ofNat 7 (fld h 212 5)
def hdrRb (h : BitVec 512) : Bool := fld h 217 1 = 1
def hdrPair (h : BitVec 512) : Bool := fld h 218 1 = 1
def hdrSmp (h : BitVec 512) : Bool := fld h 219 1 = 1
def hdrRegs (h : BitVec 512) : Nat := 8 * fld h 160 5
def hdrCodelen (h : BitVec 512) : Nat := fld h 128 32
def hdrTraph (h : BitVec 512) : Nat := fld h 96 32
def hdrEntry (h : BitVec 512) : Nat := fld h 64 32

/-- A code offset the header may name (R108). -/
def codeOffOk (len x : Nat) : Bool := x % 4 = 0 ∧ 64 ≤ x ∧ x % 32 ≠ 28 ∧ x < len

/-- The header is malformed (R108). -/
def hdrMalformed (h : BitVec 512) : Bool :=
  fld h 0 32 ≠ 0x56410960 || fld h 32 8 ≠ 1 || fld h 40 24 ≠ 0 || fld h 165 3 ≠ 0 || fld h 181 3 ≠ 0 ||
  fld h 189 3 ≠ 0 || fld h 199 1 ≠ 0 || fld h 220 292 ≠ 0 ||
  hdrCodelen h % 32 ≠ 0 || hdrCodelen h < 96 || 0x1000000 < hdrCodelen h ||
  hdrRegs h = 0 || 192 < hdrRegs h || 4096 < hdrScrl h || 16 < hdrBars h || 64 < hdrTags h || 128 < hdrRows h ||
  4 < hdrBanks h || hdrRsv h = 0 || 4 < hdrRsv h || 4 < hdrPpt h ||
  !codeOffOk (hdrCodelen h) (hdrEntry h) || (hdrTraph h ≠ 0 && !codeOffOk (hdrCodelen h) (hdrTraph h))

/-- A 64-bit address, offset 28 of a fetch block taken as the next block (R90, R253). -/
def normLpc (a : Nat) : Nat := if a % 2 ^ 64 % 32 = 28 then (a + 4) % 2 ^ 64 else a % 2 ^ 64

/-! ## Places (R15, R17, R335, R385) -/

/-- `n` bytes at a place. -/
def readPlace (s : State) (p : Place) (n : Nat) : List Byte :=
  match p with
  | .dev a => s.dev.bytes a n
  | .host a => s.host.bytes a n
  | .vault a => s.vault.bytes a n
  | .scr a => s.scr.bytes a n

/-- Little-endian value of `n` bytes at a place. -/
def readNat (s : State) (p : Place) (n : Nat) : Nat := leNat (readPlace s p n)

def read64 (s : State) (p : Place) : W64 := BitVec.ofNat 64 (readNat s p 8)

/-- The place `n` bytes further. -/
def Place.plus (p : Place) (n : Nat) : Place :=
  match p with
  | .dev a => .dev (a + n)
  | .host a => .host (a + n)
  | .vault a => .vault (a + n)
  | .scr a => .scr (a + n)

/-- A granule of `size` bytes of a list overlaps the `n` bytes from `a`. -/
def hitsGranule (size a n : Nat) (l : List Nat) : Bool := l.any (fun g => decide (g * size < a + n ∧ a < g * size + size))

/-- The granules of a list that the `n` bytes from `a` do not cover whole. -/
def uncovered (size a n : Nat) (l : List Nat) : List Nat := l.filter (fun g => !decide (a ≤ g * size ∧ g * size + size ≤ a + n))

/-- Some granule of the bytes holds an uncorrectable error: 32-byte granules of device memory and of the host-line cache,
8-byte granules of vault memory and scratchpad (R384, R385). -/
def isPoisoned (s : State) (p : Place) (n : Nat) : Bool :=
  match p with
  | .dev a => hitsGranule 32 a n s.badDev
  | .host a => hitsGranule 32 a n s.badHost
  | .vault a => hitsGranule 8 a n s.badVault
  | .scr a => hitsGranule 8 a n s.badScr

/-- A granule of the bytes holds an uncorrectable error, and a write of the bytes does not cover it whole (R385). -/
def partPoisoned (s : State) (p : Place) (n : Nat) : Bool :=
  match p with
  | .dev a => hitsGranule 32 a n (uncovered 32 a n s.badDev)
  | .host a => hitsGranule 32 a n (uncovered 32 a n s.badHost)
  | .vault a => hitsGranule 8 a n (uncovered 8 a n s.badVault)
  | .scr a => hitsGranule 8 a n (uncovered 8 a n s.badScr)

/-- The comparison of a flag wait: 0 unsigned ≥, 1 equal, 2 not equal (R226, R356). -/
def flagHolds (cmp : Nat) (v c : W64) : Bool :=
  match cmp with
  | 0 => c.toNat ≤ v.toNat
  | 1 => v = c
  | _ => v ≠ c

/-- An address whose page the tables of its space no longer map, since a MAP found them so: what waits on it looks at no
place until they do (R27, log 25). -/
def State.away (s : State) (asn root va : Nat) : Bool := s.unmapped.any (fun u => decide (u = (asn, root, va / pageBytes)))

/-- The same for an address of a launch. -/
def State.awayFor (s : State) (l va : Nat) : Bool :=
  !s.unmapped.isEmpty && (match lookup l s.launches with | some x => s.away x.asn x.root va | none => false)

/-- What a wait that looks at its flag again finds there: a value that compares true; nothing where the bytes hold an
uncorrectable error, which the wait consumes in its own step (R255, R385). -/
def flagMet (s : State) (p : Place) (cmp : Nat) (val : W64) : Bool := !isPoisoned s p 8 && flagHolds cmp (read64 s p) val

/-- A parked lane whose flag now compares true keeps the value that did (R255: no release is lost); `away` are the addresses
it cannot look at. -/
def meetFlagLane (s : State) (away : Nat → Bool) (st : LaneState) : LaneState :=
  match st with
  | .parked (.flag p va cmp val dst paths scope none) =>
    if !away va && flagMet s p cmp val then .parked (.flag p va cmp val dst paths scope (some (read64 s p))) else st
  | _ => st

/-- A parked lane whose join counter at a place was left zero by an indivisible access (R290). -/
def meetJoinLane (p : Place) (away : Nat → Bool) (st : LaneState) : LaneState :=
  match st with
  | .parked (.join (some q) c f r false) => if p = q ∧ !away c.toNat then .parked (.join (some q) c f r true) else st
  | _ => st

/-- The warp with a function applied to every lane's state, in the trap save as well (R367). -/
def Warp.mapStates (f : LaneState → LaneState) (w : Warp) : Warp :=
  { w with lanes := w.lanes.map (fun l => { l with state := f l.state }),
           handler := w.handler.map (fun h => { h with lanes := h.lanes.map (fun x => (x.1, f x.2)) }) }

/-- A WAIT command whose flag now compares true is met (R319). -/
def meetWait (s : State) (c : Cmd) : Cmd :=
  match c.work with
  | .waiting p cmp val false =>
    if !s.away c.asn c.root (fld c.pkt 64 57) && flagMet s p cmp val then { c with work := .waiting p cmp val true } else c
  | _ => c

/-- A weir context whose awaited flag now compares true is met (R226: a write is never missed). -/
def meetWeir (s : State) (x : WeirCtx) : WeirCtx :=
  match x.wait with
  | some (.flag p va cmp val false) =>
    if !s.away x.asn x.root va && flagMet s p cmp val then { x with wait := some (.flag p va cmp val true) } else x
  | _ => x

/-- Every lane, every WAIT and every weir context waiting on a flag re-examined, after a write. -/
def wakeFlags (s : State) : State :=
  { s with warps := s.warps.map (fun x => (x.1, x.2.mapStates (meetFlagLane s (s.awayFor x.2.launch)))),
           cmds := s.cmds.map (fun x => (x.1, meetWait s x.2)), weirs := s.weirs.map (fun x => (x.1, meetWeir s x.2)) }

/-- Every join watch at a place met, and every hold of that counter ready (R290, R292). -/
def wakeJoins (p : Place) (s : State) : State :=
  { s with warps := s.warps.map (fun x => (x.1, x.2.mapStates (meetJoinLane p (s.awayFor x.2.launch)))),
           launches := s.launches.map (fun x =>
             (x.1, { x.2 with holds := x.2.holds.map (fun h =>
               if h.place = some p ∧ !s.away x.2.asn x.2.root h.addr.toNat then { h with ready := true } else h) })) }

/-- The key of a 128-byte line in the launch-line cache (R317). -/
def lineKey (p : Place) : Option Nat :=
  match p with
  | .dev a => some (2 * (a / 128))
  | .host a => some (2 * (a / 128) + 1)
  | _ => none

/-- Bytes stored at a place, and nothing else: a granule covered whole loses its error (R385), a line of the launch-line
cache is invalidated (R317). -/
def rawPoke (p : Place) (data : List Byte) (s : State) : State :=
  let n := data.length
  let s := match lineKey p with
    | some _ => { s with launchLines := s.launchLines.filter (fun l =>
        !((List.range (n / 128 + 2)).any (fun i => decide (lineKey (p.plus (128 * i)) = some l ∧ 128 * i < n + 128)))) }
    | none => s
  match p with
  | .dev a => { s with dev := s.dev.setBytes a data, badDev := uncovered 32 a n s.badDev }
  | .host a => { s with host := s.host.setBytes a data, badHost := uncovered 32 a n s.badHost }
  | .vault a => { s with vault := s.vault.setBytes a data, badVault := uncovered 8 a n s.badVault }
  | .scr a => { s with scr := s.scr.setBytes a data, badScr := uncovered 8 a n s.badScr }

/-! ## Writes not yet performed (R13, R334 to R346, log 58) -/

/-- The `m` bytes at `q` and the `n` bytes at `p` overlap. -/
def overlaps (p : Place) (n : Nat) (q : Place) (m : Nat) : Bool :=
  match p, q with
  | .dev a, .dev b => decide (a < b + m ∧ b < a + n)
  | .host a, .host b => decide (a < b + m ∧ b < a + n)
  | .vault a, .vault b => decide (a < b + m ∧ b < a + n)
  | .scr a, .scr b => decide (a < b + m ∧ b < a + n)
  | _, _ => false

/-- The 8-byte words that `n` bytes at a place lie in. -/
def wordsAt (p : Place) (n : Nat) : List Place :=
  let down := fun (a : Nat) => a / 8 * 8
  let base : Place := match p with
    | .dev a => .dev (down a)
    | .host a => .host (down a)
    | .vault a => .vault (down a)
    | .scr a => .scr (down a)
  (List.range ((n + 7) / 8)).map (fun i => base.plus (8 * i))

/-- Counters that an indivisible write left zero wake their joins (R288, R290). -/
def wakeZeros (p : Place) (n : Nat) (s : State) : State :=
  (wordsAt p n).foldl (fun s q => if read64 s q = 0 then wakeJoins q s else s) s

/-- The 32-byte granule of a place (R13). -/
def Place.granule (p : Place) : Place :=
  match p with
  | .dev a => .dev (a / 32 * 32)
  | .host a => .host (a / 32 * 32)
  | .vault a => .vault (a / 32 * 32)
  | .scr a => .scr (a / 32 * 32)

/-- A byte with half of it replaced: 1 the low half, 2 the high one (R62). -/
def nibbleByte (nib old new : Nat) : Nat := if nib = 1 then old / 16 * 16 + new % 16 else new % 16 * 16 + old % 16

/-- What a waiting write puts at its place. -/
def Buffered.bytes (s : State) (b : Buffered) : List Byte :=
  if b.nib = 0 then b.data else leBytes 1 (nibbleByte b.nib (readNat s b.place 1) (leNat b.data))

/-- One write performed at its place. -/
def performWrite (b : Buffered) (s : State) : State :=
  let s := wakeFlags (rawPoke b.place (b.bytes s) s)
  if b.strong then wakeZeros b.place b.data.length s else s

/-- Two writes reach memory together: those of one engine and operation to one granule on a path other than L (R13). -/
def Buffered.together (b c : Buffered) : Bool :=
  b.path ≠ .L && b.path = c.path && b.unit = c.unit && b.op = c.op && b.place.granule = c.place.granule

/-- The writes of the buffer that a test accepts, with those that reach memory together with them, performed in the order
they were made. -/
def performSome (want : Buffered → Bool) (s : State) : State :=
  let go := fun (b : Buffered) => want b || s.buffer.any (fun c => want c && c.together b)
  (s.buffer.filter go).foldl (fun s b => performWrite b s) { s with buffer := s.buffer.filter (fun b => !go b) }

/-- Buffered writes to bytes that another write is about to change are performed first: one order of the writes to a
location (R346). -/
def settlePlace (p : Place) (n : Nat) (s : State) : State :=
  performSome (fun b => overlaps p n b.place b.data.length) s

/-- Bytes written at a place, with nothing woken. -/
def pokePlace (p : Place) (data : List Byte) (s : State) : State := rawPoke p data (settlePlace p data.length s)

/-- Bytes written at a place, and flag waits re-examined. -/
def writePlace (p : Place) (data : List Byte) (s : State) : State := wakeFlags (pokePlace p data s)

/-- A path's older bytes of a granule that the `n` bytes at a place meet are no longer read. -/
def dropStale (path : Path) (p : Place) (n : Nat) (s : State) : State :=
  { s with stale := s.stale.filter (fun x => !(x.path = path && overlaps p n x.place x.data.length)) }

/-- Two stores of weirs that no order binds: of different messages or operations, neither of them a combine (R234). -/
def Buffered.unordered (b c : Buffered) : Bool :=
  b.path = .W && c.path = .W && b.op ≠ 0 && c.op ≠ 0 && decide (b.unit ≠ c.unit ∨ b.op ≠ c.op)

/-- A write put in the buffer, whole or in pieces that lie in one granule each (R13); older waiting writes to its bytes are
performed first, but those it is not ordered with and those it reaches memory with. -/
def waitWrite (b : Buffered) (s : State) : State :=
  let n := b.data.length
  let off := match b.place with | .dev a => a % 32 | .host a => a % 32 | .vault a => a % 32 | .scr a => a % 32
  let cuts := (List.range ((off + n + 31) / 32)).map (fun i =>
    let lo := if i = 0 then 0 else 32 * i - off
    let hi := min n (32 * (i + 1) - off)
    { b with place := b.place.plus lo, data := (b.data.drop lo).take (hi - lo) })
  let s := performSome (fun c => overlaps b.place n c.place c.data.length && !b.unordered c && !cuts.any (fun d => d.together c)) s
  { s with buffer := s.buffer ++ cuts }

/-- Writes of a path to a place may wait: they lag, and the place keeps no error and is none of scratchpad. -/
def mayWait (path : Path) (p : Place) (n : Nat) (s : State) : Bool :=
  s.lag.contains path && (match p with | .scr _ => false | _ => true) && !isPoisoned s p n

/-- A write as a buffer would hold it: it waits where it may (log 58), else it is performed at once. Its own path reads
nothing older there from now on. -/
def makeWrite (b : Buffered) (s : State) : State :=
  let s := dropStale b.path b.place b.data.length s
  if mayWait b.path b.place b.data.length s then waitWrite b s else writePlace b.place b.data s

/-- A write of a path. -/
def laterWrite (path : Path) (unit : Nat) (strong : Bool) (p : Place) (data : List Byte) (s : State) : State :=
  makeWrite { path := path, unit := unit, place := p, data := data, strong := strong } s

/-- Half a byte written on a path: it waits where it may, else it is put beside the other half at once (R62). -/
def laterHalf (path : Path) (unit nib : Nat) (p : Place) (bits : Nat) (s : State) : State :=
  let s := dropStale path p 1 s
  if mayWait path p 1 s then waitWrite { path := path, unit := unit, place := p, data := leBytes 1 bits, nib := nib } s
  else
    let s := settlePlace p 1 s
    writePlace p (leBytes 1 (nibbleByte nib (readNat s p 1) bits)) s

/-- The `n`-th buffered write reaches its place, with those it goes together with. -/
def performNth (n : Nat) (s : State) : State :=
  match s.buffer[n]? with
  | none => s
  | some b =>
    if b.path = .L then performWrite b { s with buffer := s.buffer.eraseIdx n } else performSome (fun c => c.together b) s

/-- A buffered write of path L that warp `k` sees before it is performed: to vault memory one of its own, elsewhere a plain
one of its core, or a strong one of its own (R156, R345, R346). -/
def ownWrite (k : Nat) (b : Buffered) : Bool :=
  match b.path, b.place with
  | .L, .vault _ => decide (b.unit = k)
  | .L, _ => decide (b.unit = k ∨ (b.unit / 64 = k / 64 ∧ b.strong = false))
  | _, _ => false

/-- The writes of a path set that a release of warp `k` covers: its core's on path L, every engine's on the others (R341,
R353, R355). -/
def releasePaths (k : Nat) (paths : BitVec 6) (s : State) : State :=
  performSome (fun b =>
    match b.path with
    | .L => paths.getLsbD 0 && decide (b.unit / 64 = k / 64)
    | .C => paths.getLsbD 1
    | .M => paths.getLsbD 2
    | .W => paths.getLsbD 3
    | .S => paths.getLsbD 4
    | .E => paths.getLsbD 5) s

/-- A release of path L by warp `k` (R341, R351). -/
def releaseStores (k : Nat) (s : State) : State := releasePaths k 1 s

/-- Every write of a path performed. -/
def performPath (path : Path) (s : State) : State := performSome (fun b => b.path = path) s

/-- Every write performed. -/
def performAll (s : State) : State := performSome (fun _ => true) s

/-- A byte laid over a list of bytes. -/
def layOver (base : Nat) (bytes : List Byte) (at_ : Nat) (data : List Byte) : List Byte :=
  bytes.mapIdx (fun i x => if at_ ≤ base + i ∧ base + i < at_ + data.length then data.getD (base + i - at_) x else x)

/-- The offsets of two places of one memory; none for scratchpad and for different memories. -/
def Place.offsets (p q : Place) : Option (Nat × Nat) :=
  match p, q with
  | .dev a, .dev c => some (a, c)
  | .host a, .host c => some (a, c)
  | .vault a, .vault c => some (a, c)
  | _, _ => none

/-- The bytes of a write laid over `l`, the bytes read at a place. -/
def layWrite (p q : Place) (data l : List Byte) : List Byte :=
  match p.offsets q with
  | some (a, c) => layOver a l c data
  | none => l

/-- A waiting write laid over `l`, the bytes read at a place: half a byte beside the other half that `l` has. -/
def Buffered.over (b : Buffered) (p : Place) (l : List Byte) : List Byte :=
  if b.nib = 0 then layWrite p b.place b.data l
  else match p.offsets b.place with
    | some (a, c) => l.mapIdx (fun i x => if a + i = c then BitVec.ofNat 8 (nibbleByte b.nib x.toNat (leNat b.data)) else x)
    | none => l

/-- `n` bytes at a place as warp `k` reads them on path L: its own buffered writes laid over them (R156, R343). -/
def viewPlace (s : State) (k : Nat) (p : Place) (n : Nat) : List Byte :=
  (s.buffer.filter (fun b => ownWrite k b && overlaps p n b.place b.data.length)).foldl
    (fun l b => b.over p l) (readPlace s p n)

/-! ## Older bytes that other paths read (R13, R344) -/

/-- A path fetches a granule, and goes on to read its bytes as they stand now until an acquire (log 41). -/
def peek (path : Path) (p : Place) (s : State) : State :=
  let g := p.granule
  let scr := match p with | .scr _ => true | _ => false
  if path = .L || scr || isPoisoned s g 32 then s
  else { s with stale := { path := path, place := g, data := readPlace s g 32 } ::
           s.stale.filter (fun x => !(x.path = path && x.place = g)) }

/-- `n` bytes at a place as a path other than L reads them: in each granule those that stand there, or those the path
fetched before (R13). -/
def readOn (path : Path) (s : State) (p : Place) (n : Nat) : List Byte :=
  (s.stale.filter (fun x => x.path = path && overlaps p n x.place x.data.length)).foldl
    (fun l x => layWrite p x.place x.data l) (readPlace s p n)

/-- An acquire: from here on no path reads bytes older than those that stand at a place (R341, R344). -/
def acquireAll (s : State) : State := { s with stale := [] }

/-- Warp `k` has read `n` bytes at a place on path L: what it reads of them on any path from now on is no older (R344). -/
def noteSeen (k : Nat) (p : Place) (n : Nat) (s : State) : State :=
  { dropStale .S p n (dropStale .M p n s) with
    buffer := s.buffer.map (fun b =>
      if ownWrite k b && overlaps p n b.place b.data.length && !b.seen.contains k then { b with seen := k :: b.seen } else b) }

/-- Waiting writes to bytes that warp `k` has read already are performed before another path of it reads them (R344). -/
def settleSeen (k : Nat) (p : Place) (n : Nat) (s : State) : State :=
  performSome (fun b => b.seen.contains k && overlaps p n b.place b.data.length) s

/-- Before an engine reads, for warp `k`, bytes that the warp's loads may have seen already: waiting writes among them that it
has read are performed, and the core's copy of the line goes where it differs, so that no later load is older (R344). -/
def freshFor (k asn va : Nat) (path : Path) (p : Place) (n : Nat) (s : State) : State :=
  let s := settleSeen k p n s
  { s with l1 := s.l1.filter (fun x =>
      !(decide (x.1 = (k / 64, asn, va / 128)) && decide ((x.2.drop (va % 128)).take n ≠ readOn path s p n))) }

/-- Strong writes of warp `k` itself are performed before it loads their bytes: they become visible to every thread at one
instant (R346). -/
def settleStrong (k : Nat) (p : Place) (n : Nat) (s : State) : State :=
  performSome (fun b => b.path = .L && b.strong && decide (b.unit = k) && overlaps p n b.place b.data.length) s

/-- Before warp `k` accesses bytes at their place, its own buffered writes to them are performed (R343). -/
def settleOwn (k : Nat) (p : Place) (n : Nat) (s : State) : State :=
  performSome (fun b => ownWrite k b && overlaps p n b.place b.data.length) s

/-! ## Indivisible accesses (R166, R288, R345) -/

/-- Bytes changed by one indivisible access: writes that others have made to them come before an access that changes them,
and one that changes nothing leaves them where they are. -/
def rmwBytes (p : Place) (n : Nat) (f : List Byte → List Byte) (s : State) : List Byte × State :=
  let o := readPlace s p n
  if f o = o then (o, wakeZeros p n s)
  else
    let s := settlePlace p n s
    let o := readPlace s p n
    (o, wakeZeros p n (writePlace p (f o) s))

/-- An indivisible 64-bit access: the old value, and the state with the new one; a counter left zero wakes its joins
(R288, R290). -/
def rmw64 (p : Place) (f : W64 → W64) (s : State) : W64 × State :=
  let o := read64 s p
  if f o = o then (o, if o = 0 then wakeJoins p s else s)
  else
    let s := settlePlace p 8 s
    let o := read64 s p
    let s := writePlace p (leBytes 8 (f o).toNat) s
    (o, if f o = 0 then wakeJoins p s else s)

/-! ## Scratchpad lines in one clock (R44) -/

/-- The operation's effect on the line. -/
def ScrOp.apply (o : ScrOp) (s : State) : State :=
  let s := if o.data.isEmpty then s else rawPoke (.scr o.at_) o.data s
  match o.full with
  | none => s
  | some true => { s with scrFull := insertNat o.line s.scrFull }
  | some false => { s with scrFull := s.scrFull.filter (fun x => x ≠ o.line) }

/-- An operation's place in the order of R44, within one line and clock. -/
def ScrOp.before (x y : ScrOp) : Bool := decide (x.rank < y.rank ∨ (x.rank = y.rank ∧ x.warp ≤ y.warp))

/-- An operation on a line takes its place among those of the clock: they leave the line as the order of R44 does. -/
def scrOp (o : ScrOp) (s : State) : State :=
  let first := s.scrNow.filter (fun x => x.before o)
  let rest := s.scrNow.filter (fun x => !x.before o)
  let s := { s with scrNow := first ++ o :: rest }
  wakeFlags ((o :: rest.filter (fun x => x.line = o.line)).foldl (fun s x => x.apply s) s)

/-- A warp's store to scratchpad, in the clock of its commit; `stf` for an STF's. -/
def scrStore (k a : Nat) (stf : Bool) (data : List Byte) (s : State) : State :=
  scrOp { rank := 1, warp := k, line := a / 128, at_ := a, data := data, old := readPlace s (.scr a) data.length, stf := stf } s

/-- A warp's change of a line's bit. -/
def scrBit (k ln : Nat) (full : Bool) (s : State) : State := scrOp { rank := 2, warp := k, line := ln, full := some full } s

/-- A copy's line landing. -/
def scrLand (a : Nat) (data : List Byte) (s : State) : State :=
  scrOp { rank := 0, line := a / 128, at_ := a, data := data, old := readPlace s (.scr a) data.length, full := some true } s

/-! ## Scratchpad lines (R41 to R44) -/

/-- The line of a core is full. -/
def lineFull (s : State) (ln : Nat) : Bool := s.scrFull.contains ln

def setLine (ln : Nat) (full : Bool) (s : State) : State :=
  { s with scrFull := if full then insertNat ln s.scrFull else s.scrFull.filter (fun x => x ≠ ln) }

/-! ## Vault rights (R37, R38) -/

/-- The vault access is permitted to a launch naming handle `rhnd` (R38). -/
def vaultOk (s : State) (rhnd off : Nat) (write : Bool) : Bool :=
  match lookup rhnd s.handles with
  | none => false
  | some h =>
    rhnd ≠ 0 && off < 2 ^ 30 && h.extents.any (fun e =>
      decide (e.1 = off / 2 ^ 22 ∧ e.2.1 ≤ off % 2 ^ 22 / 32768 ∧ off % 2 ^ 22 / 32768 < e.2.1 + e.2.2.1) &&
        (!write || e.2.2.2))

/-- The fault of a refused vault access (R31, R38). -/
def vaultFault (off : Nat) (write : Bool) (path : Path) : AccFault :=
  { va := off, kind := 7, level := 0, wr := write, rpl := false, eaddr := 0, path := path }

/-! ## Translation (R21 to R28) -/

/-- The first DPA that nothing backs (R15). -/
def dpaLimit : Nat := 0xC000000000

/-- Bytes a leaf of a level maps (R22). -/
def leafSize (level : Nat) : Nat := 2 ^ (15 + 12 * level)

/-- The index of an address at a level (R22). -/
def levelIndex (level va : Nat) : Nat := if level = 3 then va / 2 ^ 51 % 64 else va / leafSize level % 4096

def pteV (e : BitVec 64) : Bool := e.getLsbD 0
def pteLeaf (e : BitVec 64) : Bool := e.getLsbD 1
def pteW (e : BitVec 64) : Bool := e.getLsbD 2
def pteX (e : BitVec 64) : Bool := e.getLsbD 3
def pteD (e : BitVec 64) : Bool := e.getLsbD 5
def pteRpw (e : BitVec 64) : Bool := e.getLsbD 6
def pteHost (e : BitVec 64) : Bool := e.getLsbD 7
def pteCache (e : BitVec 64) : Nat := fld e 8 2
def ptePa (e : BitVec 64) : Nat := fld e 15 37 * 32768

/-- A valid entry breaks a rule of R24 at its level. -/
def pteMalformed (level : Nat) (e : BitVec 64) : Bool :=
  fld e 52 12 ≠ 0 || fld e 10 5 ≠ 0 || (level = 3 && pteLeaf e) || (level = 0 && !pteLeaf e) ||
  (if pteLeaf e then ptePa e % leafSize level ≠ 0 || pteCache e = 3 else fld e 2 2 ≠ 0 || fld e 5 5 ≠ 0)

/-- How a walk ends. -/
inductive WalkEnd where
  /-- The leaf, its level, and every (address, entry) read. -/
  | leaf (level : Nat) (entry : BitVec 64) (seen : List (Nat × BitVec 64))
  | fail (kind level : Nat) (rpl : Bool) (eaddr : Nat)
deriving DecidableEq, Repr

/-- The walk from a table of a level downward (R22 to R24, R28); `n` is the level. An entry of the root table that nothing
backs takes the physical-range fault, and a leaf out of range takes it before its permissions are looked at (log 59). -/
def walkFrom (s : State) (va : Nat) (write fetch : Bool) : Nat → Nat → List (Nat × BitVec 64) → WalkEnd
  | n, base, seen =>
    let ea := base + 8 * levelIndex n va
    if dpaLimit ≤ ea then .fail 4 n false ea
    else if isPoisoned s (.dev ea) 8 then .fail 6 n false ea
    else
      let e := read64 s (.dev ea)
      let seen := (ea, e) :: seen
      if !pteV e then .fail 0 n true ea
      else if pteMalformed n e then .fail 3 n false ea
      else if !(pteLeaf e && pteHost e) && dpaLimit ≤ ptePa e then .fail 4 n false ea
      else if pteLeaf e then
        if write && !pteW e then .fail 1 n (pteRpw e) ea
        else if fetch && !pteX e then .fail 2 n false ea
        else .leaf n e seen
      else
        match n with
        | 0 => .fail 3 0 false ea
        | m + 1 => walkFrom s va write fetch m (ptePa e) seen

/-- A and D set in the entries of a walk that yields its translation (R25). -/
def setAccessed (write : Bool) (seen : List (Nat × BitVec 64)) (s : State) : State :=
  seen.foldl (fun s x =>
    let e' := x.2 ||| 16 ||| (if write && pteLeaf x.2 then 32 else 0)
    if e' = x.2 then s else pokePlace (.dev x.1) (leBytes 8 e'.toNat) s) s

/-- The leaf as the walk leaves it. -/
def touched (write : Bool) (e : BitVec 64) : BitVec 64 := e ||| 16 ||| (if write then 32 else 0)

/-- A translation cache's entry for an address. -/
def tlbFind (l : List (Nat × TlbEntry)) (unit asn va : Nat) : Option TlbEntry :=
  (l.find? (fun x => decide (x.1 = unit ∧ x.2.asn = asn ∧ x.2.base ≤ va ∧ va < x.2.base + x.2.size))).map (·.2)

/-- The cached leaf covers part of the page of another. -/
def TlbEntry.meets (e x : TlbEntry) : Bool :=
  decide (x.asn = e.asn ∧ x.base < e.base + e.size ∧ e.base < x.base + x.size)

/-- The set of a cache of `sets` sets that a leaf goes to, by its page number (R26, log 7). -/
def tlbSet (sets : Nat) (e : TlbEntry) : Nat := e.base / e.size % sets

/-- The last entry of a list that a test accepts taken out. -/
def dropLast {α : Type} (want : α → Bool) (l : List α) : List α :=
  ((l.reverse).eraseIdx (((l.reverse).findIdx? want).getD l.length)).reverse

/-- A leaf put in a cache of `sets` sets of `ways` entries, replacing any of the same page; the oldest of a full set leaves
(R26, log 7). -/
def tlbFill (sets ways unit : Nat) (e : TlbEntry) (l : List (Nat × TlbEntry)) : List (Nat × TlbEntry) :=
  let l := l.filter (fun x => !(decide (x.1 = unit) && e.meets x.2))
  let mine := fun (x : Nat × TlbEntry) => decide (x.1 = unit ∧ tlbSet sets x.2 = tlbSet sets e)
  (unit, e) :: (if ways ≤ (l.filter mine).length then dropLast mine l else l)

/-- The cached leaf serves the access as it stands (R25, R28). -/
def tlbServes (write fetch : Bool) (e : TlbEntry) : Bool :=
  (!write || (pteW e.entry && pteD e.entry)) && (!fetch || pteX e.entry)

/-- Who translates: a core (with its first-level cache) or an engine of a die (R26). -/
inductive Xlate where
  | core (c : Nat)
  | die (d : Nat)
deriving DecidableEq, Repr

def Xlate.dieOf : Xlate → Nat
  | .core c => dieOfCore c
  | .die d => d

/-- The leaf in the caches that cover it: 64 sets of 8 in a core, 1,024 of 16 in a die (R26). -/
def fillTlbs (x : Xlate) (e : TlbEntry) (s : State) : State :=
  let s := { s with dieTlb := tlbFill 1024 16 x.dieOf e s.dieTlb }
  match x with
  | .core c => { s with coreTlb := tlbFill 64 8 c e s.coreTlb }
  | .die _ => s

/-- The caches an access looks in give up what they hold for an address. -/
def dropTlbs (x : Xlate) (asn va : Nat) (s : State) : State :=
  let here := fun (e : TlbEntry) => decide (e.asn = asn ∧ e.base ≤ va ∧ va < e.base + e.size)
  let s := { s with dieTlb := s.dieTlb.filter (fun y => !(decide (y.1 = x.dieOf) && here y.2)) }
  match x with
  | .core c => { s with coreTlb := s.coreTlb.filter (fun y => !(decide (y.1 = c) && here y.2)) }
  | .die _ => s

/-- The leaf as a cache holds it. -/
def tlbOf (asn va level : Nat) (entry : BitVec 64) (ea : Nat) : TlbEntry :=
  { asn := asn, base := va / leafSize level * leafSize level, size := leafSize level, entry := entry, level := level, ea := ea }

/-- The place an address has under a leaf, with its CACHE field; the physical-range fault beyond device memory (R15). -/
def leafPlace (va : Nat) (write : Bool) (path : Path) (e : TlbEntry) : Except AccFault (Place × Nat) :=
  let pa := ptePa e.entry + (va - e.base)
  if pteHost e.entry then .ok (.host (pa % 2 ^ 52), pteCache e.entry)
  else if dpaLimit ≤ pa then
    .error { va := va, kind := 4, level := e.level, wr := write, rpl := false, eaddr := e.ea, path := path }
  else .ok (.dev pa, pteCache e.entry)

/-- The address space and rights an access uses. -/
structure Space where
  asn : Nat
  root : Nat
  rpld : Bool
  rhnd : Nat
deriving DecidableEq, Repr

/-- The leaf a translation finds cached: the core's, else the die's (R26). -/
def tlbHit (s : State) (x : Xlate) (asn va : Nat) : Option TlbEntry :=
  match (match x with | .core c => tlbFind s.coreTlb c asn va | .die _ => none) with
  | some e => some e
  | none => tlbFind s.dieTlb x.dieOf asn va

/-- Translates a global address: a cached leaf that serves it, else a walk that sets A and D and fills the caches. A cached
leaf that refuses the access, or that a write finds with D 0, is walked afresh; the leaf the new walk reads replaces it,
and decides the fault (R25, R28). -/
def translate (x : Xlate) (sp : Space) (va : Nat) (write fetch : Bool) (path : Path) (s : State) :
    Except AccFault (Place × Nat) × State :=
  if 2 ^ 57 ≤ va then
    (.error { va := va, kind := 5, level := 0, wr := write, rpl := false, eaddr := 0, path := path }, s)
  else
    let hit := tlbHit s x sp.asn va
    match hit.bind (fun e => if tlbServes write fetch e then some e else none) with
    | some e => (leafPlace va write path e, fillTlbs x e s)
    | none =>
      match walkFrom s va write fetch 3 sp.root [] with
      | .fail kind level rpl ea =>
        let s' := match hit with
          | none => s
          | some _ =>
            let s := dropTlbs x sp.asn va s
            if kind = 1 ∨ kind = 2 then fillTlbs x (tlbOf sp.asn va level (read64 s (.dev ea)) ea) s else s
        (.error { va := va, kind := kind, level := level, wr := write, rpl := rpl && !sp.rpld, eaddr := ea, path := path }, s')
      | .leaf level e seen =>
        let t := tlbOf sp.asn va level (touched write e) (seen.head?.getD (0, 0)).1
        match leafPlace va write path t with
        | .error f => (.error f, s)
        | .ok p => (.ok p, fillTlbs x t (setAccessed write seen s))

/-- Translates every 32 KiB page of a range, in order: the places of its bytes by page, or every fault met. -/
def translateRange (x : Xlate) (sp : Space) (write : Bool) (path : Path) :
    Nat → Nat → Nat → State → (List (Nat × Place × Nat) × List AccFault) × State
  | 0, _, _, s => (([], []), s)
  | fuel + 1, va, len, s =>
    if len = 0 then (([], []), s)
    else
      let n := min len (pageBytes - va % pageBytes)
      let r := translate x sp va write false path s
      let rest := translateRange x sp write path fuel (va + n) (len - n) r.2
      match r.1 with
      | .ok p => ((((n, p.1, p.2) :: rest.1.1), rest.1.2), rest.2)
      | .error f => ((rest.1.1, f :: rest.1.2), rest.2)

/-! ## L1 (R12, R155, R335) -/

/-- The key of the L1 line of a virtual address. -/
def l1Key (core asn va : Nat) : Nat × Nat × Nat := (core, asn, va / 128)

/-- The core drops its L1 copy of a line (R166). -/
def dropL1 (core asn va : Nat) (s : State) : State := { s with l1 := erase (l1Key core asn va) s.l1 }

/-- The first byte of the line of a place that a virtual address names. -/
def linePlace (va : Nat) (p : Place) : Place :=
  match p with
  | .dev a => .dev (a - va % 128)
  | .host a => .host (a - va % 128)
  | p => p

/-- A plain load by warp `k` of `n` bytes of one line from a page with CACHE 0: from L1 where the core holds the line, else
from the place, filling the line. Poison met at the place; a line with a poisoned granule is not kept. -/
def loadL1 (k asn va : Nat) (p : Place) (n : Nat) (s : State) : (List Byte × Bool) × State :=
  match lookup (l1Key (coreOfWarp k) asn va) s.l1 with
  | some ln => (((ln.drop (va % 128)).take n, false), s)
  | none =>
    ((viewPlace s k p n, isPoisoned s p n),
      if isPoisoned s (linePlace va p) 128 then s
      else { s with l1 := (l1Key (coreOfWarp k) asn va, viewPlace s k (linePlace va p) 128) :: s.l1 })

/-- Where a strong write of warp `k` itself to a line still waits, it is performed, and the core's copy of the line goes,
before the warp loads from the line (R166, R346). -/
def freshLine (k asn va : Nat) (p : Place) (s : State) : State :=
  if s.buffer.any (fun b => b.strong && decide (b.unit = k) && overlaps (linePlace va p) 128 b.place b.data.length) then
    dropL1 (coreOfWarp k) asn va (settleStrong k (linePlace va p) 128 s)
  else s

/-- A store updates the core's L1 copy of the line if it holds one (R155). -/
def storeL1 (core asn va : Nat) (data : List Byte) (s : State) : State :=
  let f := fun (ln : List Byte) => ln.take (va % 128) ++ data ++ ln.drop (va % 128 + data.length)
  { s with l1 := adjust (l1Key core asn va) f s.l1 }

/-- The core's L1 is invalidated (R352). -/
def flushL1 (core : Nat) (s : State) : State := { s with l1 := s.l1.filter (fun x => x.1.1 ≠ core) }

/-- An acquire by a core at every scope: its L1 is invalidated, and nothing older is read (R294, R341, R352). -/
def acquireCore (core : Nat) (s : State) : State := flushL1 core (acquireAll s)

/-! ## Launch kills (R369) -/

/-- The first cause detected ends the launch (R369). -/
def killLaunch (l status item det : Nat) (s : State) : State :=
  { s with launches := adjust l (fun x => if x.kill.isNone then { x with kill := some (status, item, det) } else x) s.launches }

/-- All ones in a 64-bit field. -/
def allOnes64 : Nat := 2 ^ 64 - 1

/-- ITEM for a warp's cause: its gang's linear index, or all ones for a loose warp or task gang (R369). -/
def itemOf (s : State) (w : Warp) : Nat :=
  match w.gang with
  | none => allOnes64
  | some g =>
    match lookup g s.gangs with
    | some x => x.index.getD allOnes64
    | none => allOnes64

/-! ## Packets and the router (R210, R211) -/

/-- A packet put on the package, to be performed by its destination rill. -/
def postPkt (p : Pkt) (s : State) : State := { s with pkts := s.pkts ++ [(s.nextPkt, p)], nextPkt := s.nextPkt + 1 }

/-- Flits of a packet: its header and its payload in units of 64 bytes (R209). -/
def Pkt.flits (p : Pkt) : Nat := 1 + (p.data.length + 63) / 64

/-- A packet's header flit (R212). -/
def Pkt.header (p : Pkt) : BitVec 512 :=
  BitVec.ofNat 512 (p.kind % 2 ^ 8 + 2 ^ 12 * (p.dpkg % 2 ^ 12) + 2 ^ 24 * (p.drill % 2 ^ 4) + 2 ^ 28 * (p.dctx % 2 ^ 2) +
    2 ^ 30 * (p.spkg % 2 ^ 12) + 2 ^ 42 * (p.srill % 2 ^ 4) + 2 ^ 46 * (p.sctx % 2 ^ 2) + 2 ^ 48 * (p.mseq % 2 ^ 16) +
    2 ^ 64 * (p.mlen % 2 ^ 25) + 2 ^ 89 * (p.off % 2 ^ 25) + 2 ^ 114 * (p.data.length / 32 % 2 ^ 8) +
    2 ^ 122 * (if p.asp then 1 else 0) + 2 ^ 128 * p.addr.toNat + 2 ^ 192 * p.arg.toNat)

/-- A header flit keeps R212: a listed kind, lengths and offsets in range, reserved fields zero. -/
def headerOk (h : BitVec 512) : Bool :=
  let k := fld h 0 8
  let sided := k = 2 || k = 3 || k = 5
  decide (1 ≤ k ∧ k ≤ 12) && fld h 8 4 = 0 && fld h 123 5 = 0 && fld h 256 256 = 0 &&
  decide (fld h 64 25 ≤ 2 ^ 24) && fld h 64 5 = 0 && fld h 89 5 = 0 && decide (fld h 114 8 ≤ 128) &&
  (sided || fld h 122 1 = 0) && (sided || k = 8 || fld h 128 64 = 0) &&
  (k = 5 || k = 8 || (if k = 0x0A then fld h 200 56 = 0 else fld h 192 64 = 0))

/-- The packet of a header flit and its payload; none where the header breaks R212 or the payload is not as long as PLEN
says: R212 states no error for it (R2, log 28). -/
def parsePkt (h : BitVec 512) (data : List Byte) : Option Pkt :=
  if headerOk h ∧ data.length = 32 * fld h 114 8 then
    some { kind := fld h 0 8, dpkg := fld h 12 12, drill := fld h 24 4, dctx := fld h 28 2, spkg := fld h 30 12,
           srill := fld h 42 4, sctx := fld h 46 2, mseq := fld h 48 16, mlen := fld h 64 25, off := fld h 89 25,
           asp := fld h 122 1 = 1, addr := BitVec.ofNat 64 (fld h 128 64), arg := BitVec.ofNat 64 (fld h 192 64), data := data }
  else none

/-- Flits queued on a rill. -/
def rillLoad (s : State) (r : Nat) : Nat := (((lookupD r {} s.rills).queued).map Pkt.flits).sum

/-- The rills a packet may leave by: up, in the route table's mask, and for an own packet in its connection's first-hop
mask (R211). -/
def rillsFor (s : State) (p : Pkt) : List Nat :=
  let m := lookupD p.dpkg 0 s.routes
  let f := p.spkg ≠ s.packageNo || p.fmask = 0
  (List.range 16).filter (fun r =>
    m.getLsbD r && (f || p.fmask.testBit r) && decide ((lookupD r {} s.rills).state = .up))

/-- A packet routed (R211): to its rill on this package, else to the up rill with the fewest queued flits, whichever of
equals (log 23); discarded where there is none. It says whether the packet was accepted. -/
def routePkt (p : Pkt) (s : State) : Bool × State :=
  if p.dpkg = s.packageNo then (true, postPkt p s)
  else
    let rs := rillsFor s p
    let low := (rs.map (rillLoad s)).min?.getD 0
    let best := rs.filter (fun r => rillLoad s r = low)
    match best[(Config.freeWord s.free).toNat % max 1 best.length]? with
    | none => (false, s)
    | some r =>
      let x := lookupD r {} s.rills
      (true, { s with rills := put r { x with queued := x.queued ++ [p] } s.rills, free := s.free + 1 })

/-- The weir context fails with a cause: it stops issuing, abandons its operations, and sends FAIL to the root of the
collective that started it (R238). -/
def failWeir (c cause : Nat) (s : State) : State :=
  match lookup c s.weirs with
  | none => s
  | some x =>
    let s := { s with weirs := put c { x with state := .failed, cause := cause, wait := none, ops := [], msgs := [], held := [],
                                              refusing := [], kept := [], faultWait := none } s.weirs }
    match x.starter with
    | none => s
    | some r =>
      (routePkt { kind := 0x0A, dpkg := r.1, drill := r.2.1, dctx := r.2.2, spkg := s.packageNo, srill := c / 4,
                  sctx := c % 4, arg := BitVec.ofNat 64 cause } s).2

/-! ## The fault queue (R30 to R32) -/

/-- The number of a path (R31). -/
def Path.code : Path → Nat
  | .L => 0
  | .C => 1
  | .M => 2
  | .W => 3
  | .S => 4
  | .E => 5

/-- A record as R31 lays it out: PART stands on path L only, CTX on paths L and W. -/
def faultRecord (asn core part ctx stamp : Nat) (f : AccFault) : BitVec 256 :=
  let path := f.path.code
  let part := if path = 0 then part else 0
  let ctx := if path = 0 ∨ path = 3 then ctx else 0
  BitVec.ofNat 256 (f.eaddr + (if f.rpl then 2 ^ 124 else 0) + (if f.wr then 2 ^ 125 else 0) + f.level % 4 * 2 ^ 126 +
    f.kind % 8 * 2 ^ 128 + path * 2 ^ 131 + ctx % 16 * 2 ^ 134 + part % 4 * 2 ^ 138 + core % 256 * 2 ^ 140 +
    asn % 4096 * 2 ^ 148 + stamp % 2 ^ 32 * 2 ^ 160 + f.va % 2 ^ 64 * 2 ^ 192)

/-- Firmware ends a requester whose fault is fatal (R30): `det` is 1 for a record the driver marked KILL. An uncorrectable
page-table entry ends a run, a copy and a matrix instruction under error containment, which their own steps do (R28,
R374). -/
def endRequester (ix det : Nat) (kind : Nat) (r : Requester) (s : State) : State :=
  match r with
  | .warp k =>
    match lookup k s.warps with
    | some w => if kind = 6 then s else killLaunch w.launch 0x20 ix det s
    | none => s
  | .copy id =>
    match lookup id s.copies with
    | none => s
    | some c =>
      if kind = 6 then s
      else
      let s := { s with copies := put id { c with dead := true, stopped := none, ended := some (0x20, det, ix) } s.copies }
      match c.owner with
      | .gang g _ =>
        match lookup g s.gangs with
        | some x => killLaunch x.launch 0x20 ix det s
        | none => s
      | .command _ => s
  | .matrix p =>
    match (lookupD p {} s.parts).queue with
    | op :: _ =>
      match lookup op.gang s.gangs with
      | some x => if kind = 6 then s else killLaunch x.launch 0x20 ix det s
      | none => s
    | [] => s
  | .weir c => failWeir c (if kind = 7 then 7 else 6) s
  | .enc slot =>
    { s with encFault := if kind = 6 then s.encFault else insertNat slot s.encFault,
             encError := if kind = 6 then insertNat slot s.encError else s.encError,
             encSlots := adjust slot (fun x => { x with stopped := none }) s.encSlots }
  | .launch l _ => if kind = 6 then killLaunch l 0x22 allOnes64 0 s else killLaunch l 0x20 ix det s

/-- The requester is still the one that waits on a fault key, and not another that has its number since (R30). -/
def waitsOn (s : State) (key : Nat) (r : Requester) : Bool :=
  match r with
  | .warp k => (lookup k s.warps).any (fun w => w.faultWait.contains key)
  | .copy _ => true
  | .matrix p => (match (lookupD p {} s.parts).queue with | op :: _ => op.dead || op.stopped = some key | [] => false)
  | .weir c => (lookup c s.weirs).any (fun x => x.faultWait = some key || x.ops.any (fun o => o.stopped = some key) ||
      x.msgs.any (fun m => m.stopped = some key))
  | .enc k => (lookup k s.encSlots).any (fun x => x.stopped = some key)
  | .launch l n => (lookup l s.launches).any (fun x => x.order = n)

/-- A fresh record written to the ring while there is a base and room; vector 1 for a replayable one; firmware acts on a
fatal one at once (R30, R32). -/
def writeRecord (f : FaultWait) (s : State) : FaultWait × State :=
  match s.fqBase with
  | none => (f, s)
  | some base =>
    if 4096 ≤ (s.fqProd - s.fqCons).toNat then (f, s)
    else
      let ix := s.fqProd.toNat
      let s := pokePlace (.dev (base + 32 * (ix % 4096))) (leBytes 32 f.image.toNat) s
      let s := { s with fqProd := s.fqProd + 1,
                        msix := if f.image.getLsbD 124 && s.fqArmed then 1 :: s.msix else s.msix,
                        fqArmed := if f.image.getLsbD 124 then false else s.fqArmed }
      ({ f with ix := some ix, last := [] },
       (if f.rpl then f.last else f.who).foldl (fun s r =>
         if f.fresh || waitsOn s f.key r then endRequester ix 0 f.kind r s else s) s)

/-- Every fault without a record offered to the ring, oldest first (R30). -/
def flushFaults (s : State) : State :=
  let r := s.faultWaits.foldl (fun (acc : List FaultWait × State) f =>
      if f.ix.isSome then (acc.1 ++ [f], acc.2)
      else
        let w := writeRecord f acc.2
        (acc.1 ++ [w.1], w.2)) ([], s)
  -- a fatal record, once written, has been acted on
  { r.2 with faultWaits := (r.1.filter (fun f => f.rpl || f.ix.isNone)).map (fun f => { f with fresh := false }) }

/-- A requester's fault: joined to an unserviced record of the same ASN, page and kind, or a new record (R30, log 60).
`last` says it is the 16th consecutive one of its page, which firmware treats as fatal once it has the record. The key it
waits on. -/
def raiseFault (r : Requester) (asn core part ctx stamp : Nat) (f : AccFault) (last : Bool) (s : State) : Nat × State :=
  match s.faultWaits.find? (fun x => decide (x.asn = asn ∧ x.page = f.va / pageBytes ∧ x.kind = f.kind ∧ x.rpl ∧ f.rpl)) with
  | some x =>
    let join := fun (y : FaultWait) =>
      if y.key ≠ x.key then y
      else if last then (if y.last.contains r then y else { y with last := y.last ++ [r] })
      else (if y.who.contains r then y else { y with who := y.who ++ [r] })
    match last, x.ix with
    | true, some ix => (x.key, endRequester ix 0 f.kind r s)
    | _, _ => (x.key, { s with faultWaits := s.faultWaits.map join })
  | none =>
    let x : FaultWait := { key := s.nextKey, ix := none, image := faultRecord asn core part ctx stamp f, asn := asn,
                           page := f.va / pageBytes, kind := f.kind, wr := f.wr, rpl := f.rpl,
                           who := if f.rpl && last then [] else [r], last := if f.rpl && last then [r] else [] }
    (s.nextKey, flushFaults { s with faultWaits := s.faultWaits ++ [x], nextKey := s.nextKey + 1 })

/-- Consecutive faults of one instruction, by page, after an attempt that faulted on the pages given (R30). -/
def countFaults (pages : List Nat) (l : List (Nat × Nat)) : List (Nat × Nat) :=
  pages.eraseDups.map (fun p => (p, lookupD p 0 l + 1))

/-- Consecutive faults of the runs of a warp, by run and page: the others stand (R30). -/
def countRunFaults (addr : Nat) (pages : List Nat) (l : List ((Nat × Nat) × Nat)) : List ((Nat × Nat) × Nat) :=
  pages.eraseDups.map (fun p => ((addr, p), lookupD (addr, p) 0 l + 1)) ++ l.filter (fun x => x.1.1 ≠ addr)

/-- The page has now faulted 16 times in a row (R30). -/
def sixteenth (l : List (Nat × Nat)) (page : Nat) : Bool := 16 ≤ lookupD page 0 l

/-! ## Registers (R4, R88, R94, R95, R141) -/

/-- The value a register holds outside its run: temporaries read zero (R95), unwritten registers zero (R251). -/
def archRead (w : Warp) : Loc → W32
  | .v n l => lookupD (n, l) 0 w.v
  | .t _ _ => 0
  | .s n => lookupD n 0 w.s
  | .k n l => if (lookupD n 0 w.k).getLsbD l then 1 else 0
  | .sr code half =>
    if code = 0x09 then w.smask else if code = 0x0A then w.fpst
    else if code = 0x11 then BitVec.setWidth 32 (w.tsub >>> (32 * half)) else 0

/-- A register written outside its run; an error it held goes with the old value (R384). -/
def archWrite (w : Warp) (x : Loc × W32) : Warp :=
  let w : Warp := { w with badRegs := w.badRegs.filter (fun l => l ≠ x.1) }
  match x.1 with
  | .v n l => { w with v := put (n, l) x.2 w.v }
  | .t _ _ => w
  | .s n => { w with s := put n x.2 w.s }
  | .k n l =>
    let o := lookupD n 0 w.k
    { w with k := put n (if x.2 = 0 then o &&& ~~~(1#32 <<< l) else o ||| (1#32 <<< l)) w.k }
  | .sr code half =>
    if code = 0x09 ∧ half = 0 then { w with smask := x.2 }
    else if code = 0x0A ∧ half = 0 then { w with fpst := x.2 &&& 0x7F }
    else if code = 0x11 then { w with tsub := BitVec.ofNat 64 (setFld w.tsub (32 * half) 32 x.2.toNat).toNat }
    else w

/-- The log entry is visible to instruction `idx` (R94). -/
def LogEntry.visible (idx : Nat) (e : LogEntry) : Bool :=
  match e.dist with
  | some d => e.idx + d ≤ idx
  | none => false

/-- The value instruction `idx` of a run reads (R94): the latest visible result, else what the register held when the run
began (log 66, for a register the run has written twice). The log's latest entry comes first. -/
def runRead (w : Warp) (r : Run) (idx : Nat) (l : Loc) : W32 :=
  match r.log.find? (fun e => e.loc = l && e.visible idx) with
  | some e => e.val
  | none => archRead w l

/-- The location of a register in a lane. -/
def locOf (r : RegId) (lane : Nat) : Loc :=
  match r with
  | .v n => .v n lane
  | .s n => .s n
  | .t n => .t n lane
  | .k n => .k n lane

/-! ## Traps (R365 to R368) -/

/-- sr.tdst of an instruction: its first destination (R365). -/
def tdstOf (op : Nat) (w : Word) (regs : Nat) : W32 :=
  match formOf op w with
  | none => 0x1000
  | some f =>
    let dual := (f.cOut && (f.c.regs w.c).length ≠ 0) || (f.sopOut && w.sop ≠ 15) ||
      (match f.ext with | .counts => true | .atomic true _ => true | _ => false)
    let dualBit : Nat := if dual then 0x2000 else 0
    let none : W32 := BitVec.ofNat 32 (0x1000 + dualBit)
    match f.d with
    | .mask =>
      BitVec.ofNat 32 (w.d.toNat + 0x800 + (if w.sx then 0x400 else 0) + dualBit)
    | .reg _ _ _ n =>
      match regOf w.d with
      | .v m => if regs < m + n then none else
          BitVec.ofNat 32 (w.d.toNat + (if n = 2 then 0x100 else if n = 4 then 0x200 else 0) + dualBit)
      | .s _ => BitVec.ofNat 32 (w.d.toNat + 0x400 + (if n = 2 then 0x100 else if n = 4 then 0x200 else 0) + dualBit)
      | _ => BitVec.ofNat 32 (w.d.toNat + (if n = 2 then 0x100 else if n = 4 then 0x200 else 0) + dualBit)
    | _ => none

/-- sr.tcause (R362). -/
def tcauseOf (c : Cause) (post : Bool) : W32 :=
  BitVec.ofNat 32 (c.code + 256 * (c.detail % 256) + (if post then 65536 else 0))

/-- The warp enters its handler (R365, R366): the trap registers are written, every lane's counter and state saved, and
every lane that has not exited is Ready at header + TRAPH. -/
def trapEnter (clock : Nat) (c : Cause) (runAddr : Nat) (runLanes : BitVec 32) (after : Nat) (post : Bool) (w : Warp) : Warp :=
  { w with
    tpc := BitVec.ofNat 64 runAddr, toff := BitVec.ofNat 32 c.off, tmask := c.lanes, tcause := tcauseOf c post,
    tdst := c.tdst,
    handler := some { lanes := w.lanes.map (fun l => (l.lpc, l.state)),
                      loads := (w.lanes.mapIdx (fun i l => (i, l.loads))).filter (fun x => x.2 ≠ []),
                      runLanes := runLanes, after := after, post := post },
    lanes := w.lanes.map (fun l =>
      if l.state = .exited then l else { l with lpc := normLpc (w.hdrAt + hdrTraph w.hdr), state := .ready, loads := [] }),
    run := none, mismatched := w.mismatched.filter (fun x => x ≠ (runAddr, runLanes)), readySince := clock }

/-- TRET: the saved lanes come back and the form acts on the trapped run's lanes (R267, R368): 0 RETRY, 1 SUB, 2 NEXT. -/
def trapReturn (clock form : Nat) (w : Warp) : Warp :=
  match w.handler with
  | none => w
  | some h =>
    let back (i : Nat) (l : Lane) : Lane :=
      match h.lanes[i]? with
      | none => l
      | some (pc, st) =>
        if l.state = .exited then { l with lpc := pc }
        else
          let pc' := if form = 2 ∧ !h.post ∧ h.runLanes.getLsbD i ∧ pc = w.tpc.toNat then normLpc h.after else pc
          { l with lpc := pc', state := st, loads := lookupD i [] h.loads }
    let w' := { w with lanes := w.lanes.mapIdx back, handler := none, readySince := clock }
    let w' := h.writes.foldl archWrite w'
    if h.post then { w' with subst := [] }
    else if form = 1 then
      { w' with subAt := w.tpc.toNat,
                subst := (lanesOf w.tmask).map (fun i => { off := w.toff.toNat, lane := i, val := w.tsub }) ++
                  (if w.subAt = w.tpc.toNat then
                    w.subst.filter (fun x => !(x.off = w.toff.toNat ∧ w.tmask.getLsbD x.lane)) else []) }
    else { w' with subst := [] }

end Sys2Proof.Machine
end

