-- ==== Sys2Proof/Machine/Operands.lean ====
section
/-! DEFINITION. Operands and effects of a SIMT instruction: what it reads at issue (R86, R88, R92 to R94), the effect
record it leaves, and how its run takes that effect (R93 to R98, R117, R363, R368). -/

namespace Sys2Proof.Machine

/-! ## The instruction in hand -/

/-- What a SIMT instruction sees at issue. -/
structure Ctx where
  /-- Warp key. -/
  key : Nat
  wp : Warp
  run : Run
  /-- Offset of the instruction from the run's address. -/
  off : Nat
  op : Nat
  w : Word
  /-- Active lanes, ascending (R92). -/
  full : List Nat
  /-- Active lanes whose instruction is performed: those not substituted (R368). -/
  act : List Nat
deriving Repr

/-- What an instruction does to its run. -/
structure Eff where
  writes : List (Loc × W32) := []
  /-- Flags by lane (R117). -/
  flags : List (Nat × FFlags) := []
  held : List Held := []
  term : Option Pending := none
  /-- Handler causes: code, detail, lanes (R361). -/
  causes : List (Nat × Nat × BitVec 32) := []
  /-- Causes entered after commit (R364). -/
  post : List (Nat × Nat × BitVec 32) := []
  faults : List AccFault := []
  /-- Lanes switched off (R47). -/
  smask : BitVec 32 := 0
  reads : List ScrRead := []
  /-- Path of an uncorrectable error consumed (R372). -/
  ue : Option Nat := none
deriving Repr

/-- The value the instruction reads from a location (R94). -/
def Ctx.read (c : Ctx) (l : Loc) : W32 := runRead c.wp c.run c.run.index l

/-- The value of `n` registers from a code, in a lane, lowest register lowest (R4, R144). -/
def Ctx.reg (c : Ctx) (code : BitVec 8) (n lane : Nat) : Nat :=
  (List.range n).foldr (fun i acc => (c.read (locOf ((regOf code).plus i) lane)).toNat + 2 ^ 32 * acc) 0

def Ctx.a (c : Ctx) (n lane : Nat) : Nat := c.reg c.w.a n lane
def Ctx.c (c : Ctx) (n lane : Nat) : Nat := c.reg c.w.c n lane

/-- Operand B: `n` registers, or the immediate of type `ty` (R86). -/
def Ctx.b (c : Ctx) (n ty lane : Nat) : Nat :=
  if c.w.i then (immBits c.w ty).toNat % 2 ^ (32 * n) else c.reg c.w.b n lane

/-- Bit of a mask register in a lane. -/
def Ctx.kBit (c : Ctx) (code : BitVec 8) (lane : Nat) : Bool := c.read (.k code.toNat lane) ≠ 0

/-- A mask register whole. -/
def Ctx.kWord (c : Ctx) (code : BitVec 8) : BitVec 32 := maskOf (allLanes.filter (c.kBit code))

def Ctx.ty (c : Ctx) : Nat := c.w.ty.toNat
def Ctx.sop (c : Ctx) : Nat := c.w.sop.toNat
def Ctx.mx (c : Ctx) : Nat := c.w.mx.toNat
def Ctx.rm (c : Ctx) : Nat := c.w.rm.toNat
def Ctx.core (c : Ctx) : Nat := coreOfWarp c.key

/-- D names an `s` register. -/
def Ctx.dScalar (c : Ctx) : Bool := (regOf c.w.d).isS

/-- The writes of `n` registers from a code in a lane. -/
def regWrites (code : BitVec 8) (n lane x : Nat) : List (Loc × W32) :=
  (List.range n).map (fun i => (locOf ((regOf code).plus i) lane, BitVec.ofNat 32 (x / 2 ^ (32 * i))))

/-- The writes of a result to D: in each lane given, or once, with the first lane's value, to an `s` register (R93, R115). -/
def Ctx.dst (c : Ctx) (n : Nat) (vals : List (Nat × Nat)) : List (Loc × W32) :=
  if c.dScalar then
    match vals with
    | [] => []
    | (l, x) :: _ => regWrites c.w.d n l x
  else vals.flatMap (fun v => regWrites c.w.d n v.1 v.2)

/-- The writes of a mask register in the lanes given. -/
def maskWrites (code : BitVec 8) (vals : List (Nat × Bool)) : List (Loc × W32) :=
  vals.map (fun v => (.k code.toNat v.1, if v.2 then 1 else 0))

/-- A result of `n` registers computed lane by lane. -/
def Ctx.perLane (c : Ctx) (n : Nat) (f : Nat → Nat) : Eff := { writes := c.dst n (c.act.map (fun l => (l, f l))) }

/-- The lane whose result a lane takes: in uniform form the first active one, since the operation is performed once
(R115). -/
def Ctx.once (c : Ctx) (l : Nat) : Nat := if c.dScalar then c.act.headD l else l

/-- A floating result of `n` registers computed lane by lane, with its flags; in uniform form once for the warp (R115). -/
def Ctx.perLaneF (c : Ctx) (n : Nat) (f : Nat → FRes) : Eff :=
  { writes := c.dst n (c.act.map (fun l => (l, (f (c.once l)).1))), flags := c.act.map (fun l => (l, (f (c.once l)).2)) }

/-- A mask result computed lane by lane. -/
def Ctx.perLaneK (c : Ctx) (f : Nat → Bool) : Eff := { writes := maskWrites c.w.d (c.act.map (fun l => (l, f l))) }

/-- A cause raised at this instruction. -/
def Eff.cause (code detail : Nat) (lanes : List Nat) : Eff := { causes := [(code, detail, maskOf lanes)] }

/-- The terminal effect of an instruction, with the operands it read. -/
def Ctx.pend (c : Ctx) : Pending := { op := c.op, w := c.w, off := c.off, lanes := c.act }

/-! ## Substitution (R368) -/

/-- Instructions whose causes are raised once for the warp: barriers, copies, tags, matrix, tensor table, fences, RBIND
(R365). -/
def oncePerWarp (op : Nat) : Bool :=
  (0x90 ≤ op && op ≤ 0x9C) || (0xA0 ≤ op && op ≤ 0xA5) || (0xB0 ≤ op && op ≤ 0xB3) || (0xB6 ≤ op && op ≤ 0xB9)

/-- The lanes recorded for the instruction at `off` of the run at `addr`, ascending, with their values. -/
def Warp.substFor (w : Warp) (addr off : Nat) : List (Nat × BitVec 64) :=
  if w.subAt = addr then
    allLanes.flatMap (fun l => (w.subst.filter (fun x => x.off = off ∧ x.lane = l)).map (fun x => (x.lane, x.val)))
  else []

/-- What substituted lanes write, lowest lane first: a uniform destination takes the value of the lowest (R368). -/
def substWrites (op : Nat) (w : Word) (regs : Nat) (subs : List (Nat × BitVec 64)) : List (Loc × W32) :=
  let t := (tdstOf op w regs).toNat
  if t / 0x1000 % 2 = 1 then []
  else if t / 0x800 % 2 = 1 then maskWrites w.d (subs.map (fun x => (x.1, x.2.getLsbD 0)))
  else
    let n := if t / 0x100 % 4 = 0 then 1 else if t / 0x100 % 4 = 1 then 2 else 4
    match subs with
    | [] => []
    | (l, v) :: _ =>
      if t / 0x400 % 2 = 1 then regWrites w.d n l v.toNat
      else subs.flatMap (fun x => regWrites w.d n x.1 (if n = 1 then x.2.toNat % 2 ^ 32 else x.2.toNat))

/-! ## Issue -/

/-- The guard holds in a lane (R92). -/
def guardHolds (w : Warp) (r : Run) (x : Word) (lane : Nat) : Bool :=
  if x.gk = 15 then !x.gn else (runRead w r r.index (.k x.gk.toNat lane) ≠ 0) != x.gn

/-- What the instruction at the run's index sees. -/
def ctxOf (k : Nat) (wp : Warp) (r : Run) (op : Nat) (w : Word) : Ctx :=
  let off := (r.words[r.index]?.getD (0, 0)).1
  let full := (lanesOf r.lanes).filter (guardHolds wp r w)
  let subs := (wp.substFor r.addr off).filter (fun x => full.contains x.1)
  let act :=
    if subs.isEmpty then full
    else if oncePerWarp op || (match formOf op w with
        | some f => (match f.d with | .reg _ _ _ _ => (regOf w.d).isS | _ => false)
        | none => false) then []
    else full.filter (fun l => !(subs.any (fun x => x.1 = l)))
  { key := k, wp := wp, run := r, off := off, op := op, w := w, full := full, act := act }

/-- Floating-point causes of an effect: the enabled flags raised and the lanes that raised them; none in the handler
(R117, R147, R363, R367). -/
def fpCause (c : Ctx) (e : Eff) : List (Nat × Nat × BitVec 32) :=
  if c.wp.handler.isSome then []
  else
    let en := hdrFpte c.wp.hdr
    let hit := e.flags.filter (fun x => x.2 &&& en ≠ 0)
    if hit.isEmpty then []
    else
      let lanes := if c.op = 0x61 ∨ c.op = 0x62 then maskOf c.act else maskOf (hit.map (·.1))
      [(1, ((hit.foldl (fun m x => m ||| x.2) 0) &&& en).toNat, lanes)]

/-- The instruction reads, in a lane in which it is performed, a register that holds an uncorrectable error (R372, R384);
NOP, whose guard has no effect, reads none (R103). -/
def readsBad (c : Ctx) : Bool :=
  let rd := readsOf c.op c.w
  c.op ≠ 0x00 && !c.act.isEmpty && c.wp.badRegs.any (fun x =>
    match x with
    | .v n l => rd.contains (.v n) && c.act.contains l
    | .s n => rd.contains (.s n)
    | .k n l => rd.contains (.k n) && c.act.contains l
    | _ => false)

/-- The run with an instruction's effect taken: results logged at their distance, held effects, causes, faults and flags
gathered, and the index moved on (R93 to R97, R117). -/
def takeEff (c : Ctx) (e : Eff) : Run :=
  let r := c.run
  let dist := match distOf c.op c.w with
    | .within d => some d
    | .nextRun => none
  let subs := (c.wp.substFor r.addr c.off).filter (fun x => c.full.contains x.1)
  let writes := e.writes ++ substWrites c.op c.w (hdrRegs c.wp.hdr) subs
  let td := tdstOf c.op c.w (hdrRegs c.wp.hdr)
  let mk := fun (x : Nat × Nat × BitVec 32) =>
    ({ off := c.off, code := x.1, detail := x.2.1, lanes := x.2.2, tdst := td } : Cause)
  { r with
    index := r.index + 1,
    log := (writes.map (fun x => ({ loc := x.1, idx := r.index, dist := dist, val := x.2 } : LogEntry))).reverse ++ r.log,
    held := r.held ++ e.held,
    term := match e.term with | some t => some t | none => r.term,
    causes := r.causes ++ (e.causes ++ fpCause c e).map mk,
    post := r.post ++ e.post.map mk,
    faults := r.faults ++ e.faults,
    flags := r.flags ||| e.flags.foldl (fun m x => m ||| x.2) 0,
    smask := r.smask ||| e.smask,
    reads := r.reads ++ e.reads,
    errAt := if r.ue.isSome then r.errAt else r.faults.length,
    ue := match r.ue with | some u => some u | none => if readsBad c then some 0 else e.ue }

/-- The state with warp `k`'s run changed. -/
def setRun (k : Nat) (r : Run) (s : State) : State := { s with warps := adjust k (fun w => { w with run := some r }) s.warps }

/-- The machine after warp `k` issues an instruction whose effect is `f`. -/
def issueNext (k : Nat) (wp : Warp) (r : Run) (op : Nat) (w : Word) (f : Ctx → State → Eff × State) (s : State) : State :=
  let c := ctxOf k wp r op w
  let e := f c s
  setRun k (takeEff c e.1) e.2

/-- One SIMT instruction: the warp in focus issues it into its run (R92, R93). -/
def simt (op : Nat) (w : Word) (f : Ctx → State → Eff × State) (s : State) : Host.Outcome State Fault Refusal :=
  match s.focus with
  | .warp k =>
    match lookup k s.warps with
    | none => .fault .notIssuing
    | some wp =>
      match wp.run with
      | none => .fault .notIssuing
      | some r => .next (issueNext k wp r op w f s)
  | _ => .fault .noAgent

/-- One SIMT instruction that neither reads nor changes anything beyond its run. -/
def simtP (op : Nat) (w : Word) (f : Ctx → Eff) (s : State) : Host.Outcome State Fault Refusal :=
  simt op w (fun c s => (f c, s)) s

/-- One SIMT instruction that reads the state beyond its run and changes none of it. -/
def simtR (op : Nat) (w : Word) (f : Ctx → State → Eff) (s : State) : Host.Outcome State Fault Refusal :=
  simt op w (fun c s => (f c s, s)) s

/-! ## The warp's launch, gang and space -/

/-- The launch context of a warp. -/
def launchOf (s : State) (wp : Warp) : Launch := (lookup wp.launch s.launches).getD default

/-- The address space and rights of a warp (R38). -/
def spaceOf (l : Launch) : Space := { asn := l.asn, root := l.root, rpld := l.rpld, rhnd := fld l.pkt 398 12 }

/-- First byte and size of a warp's scratchpad, in the package's scratchpad numbering (R19, R42). -/
def scratchOf (s : State) (k : Nat) (wp : Warp) : Nat × Nat :=
  let core := coreOfWarp k
  match wp.gang with
  | none => ((core * 4096 + wp.sliceAt) * 128, 4096)
  | some g =>
    match lookup g s.gangs with
    | some x => ((core * 4096 + x.scrAt) * 128, hdrScrl x.hdr * 128)
    | none => (0, 0)

/-- The constant space of a warp: the launch's argument block, or a task's record (R20, R301). -/
def constOf (s : State) (wp : Warp) : List Byte :=
  match wp.gang with
  | none => (launchOf s wp).args
  | some g =>
    match lookup g s.gangs with
    | some x => if x.task.isSome then x.const else (launchOf s wp).args
    | none => []

/-- The gang of a warp. -/
def gangOf (s : State) (wp : Warp) : Option Gang := wp.gang.bind (fun g => lookup g s.gangs)

end Sys2Proof.Machine
end

