-- ==== Sys2Proof/Machine/Float.lean ====
section
/-! DEFINITION. Floating-point arithmetic, packed half precision, conversions, special functions (R126 to R135). -/

namespace Sys2Proof.Machine

/-- The floating format of the instruction's type. -/
def Ctx.fmt (c : Ctx) : FFmt := fmtOf c.ty
def Ctx.fa (c : Ctx) (l : Nat) : Nat := c.a (regsOf c.ty) l
def Ctx.fb (c : Ctx) (l : Nat) : Nat := c.b (regsOf c.ty) c.ty l
def Ctx.fc (c : Ctx) (l : Nat) : Nat := c.c (regsOf c.ty) l

/-- FADD (R127). -/
def faddEff (c : Ctx) : Eff := c.perLaneF (regsOf c.ty) (fun l => c.fmt.add c.rm c.w.sat (c.fa l) (c.fb l))
def execFadd (w : Word) (s : State) : Host.Outcome State Fault Refusal := simtP 0x40 w faddEff s

/-- FSUB (R127). -/
def fsubEff (c : Ctx) : Eff := c.perLaneF (regsOf c.ty) (fun l => c.fmt.sub c.rm c.w.sat (c.fa l) (c.fb l))
def execFsub (w : Word) (s : State) : Host.Outcome State Fault Refusal := simtP 0x41 w fsubEff s

/-- FMUL (R127). -/
def fmulEff (c : Ctx) : Eff := c.perLaneF (regsOf c.ty) (fun l => c.fmt.mul c.rm c.w.sat (c.fa l) (c.fb l))
def execFmul (w : Word) (s : State) : Host.Outcome State Fault Refusal := simtP 0x42 w fmulEff s

/-- FFMA (R127). -/
def ffmaEff (c : Ctx) : Eff := c.perLaneF (regsOf c.ty) (fun l => c.fmt.fma c.rm c.w.sat (c.fa l) (c.fb l) (c.fc l))
def execFfma (w : Word) (s : State) : Host.Outcome State Fault Refusal := simtP 0x43 w ffmaEff s

/-- FMIN (R129). -/
def fminEff (c : Ctx) : Eff := c.perLaneF (regsOf c.ty) (fun l => c.fmt.minmax false (c.fa l) (c.fb l))
def execFmin (w : Word) (s : State) : Host.Outcome State Fault Refusal := simtP 0x44 w fminEff s

/-- FMAX (R129). -/
def fmaxEff (c : Ctx) : Eff := c.perLaneF (regsOf c.ty) (fun l => c.fmt.minmax true (c.fa l) (c.fb l))
def execFmax (w : Word) (s : State) : Host.Outcome State Fault Refusal := simtP 0x45 w fmaxEff s

/-- FABS (R127). -/
def fabsEff (c : Ctx) : Eff := c.perLane (regsOf c.ty) (fun l => c.fmt.setSign (c.fa l) false)
def execFabs (w : Word) (s : State) : Host.Outcome State Fault Refusal := simtP 0x46 w fabsEff s

/-- FNEG (R127). -/
def fnegEff (c : Ctx) : Eff := c.perLane (regsOf c.ty) (fun l => c.fmt.setSign (c.fa l) true)
def execFneg (w : Word) (s : State) : Host.Outcome State Fault Refusal := simtP 0x47 w fnegEff s

/-- FCMP (R130). -/
def fcmpEff (c : Ctx) : Eff :=
  { writes := maskWrites c.w.d (c.act.map (fun l => (l, (c.fmt.compare c.sop (c.fa l) (c.fb l)).1))),
    flags := c.act.map (fun l => (l, (c.fmt.compare c.sop (c.fa l) (c.fb l)).2)) }
def execFcmp (w : Word) (s : State) : Host.Outcome State Fault Refusal := simtP 0x48 w fcmpEff s

/-- FCLASS (R130). -/
def fclassEff (c : Ctx) : Eff := c.perLane 1 (fun l => c.fmt.classOf (c.fa l))
def execFclass (w : Word) (s : State) : Host.Outcome State Fault Refusal := simtP 0x49 w fclassEff s

/-- FRCP (R127). -/
def frcpEff (c : Ctx) : Eff := c.perLaneF (regsOf c.ty) (fun l => c.fmt.rcp c.rm c.w.sat (c.fa l))
def execFrcp (w : Word) (s : State) : Host.Outcome State Fault Refusal := simtP 0x4A w frcpEff s

/-- The free bits an instruction uses in a lane (log 4). -/
def freeIn (s : State) (l : Nat) : BitVec 64 := Config.freeWord (s.free + l)

/-- The state after an instruction has used free bits in up to 32 lanes. -/
def useFree (s : State) : State := { s with free := s.free + 32 }

/-- FRSQ: one of the two neighbours of 1/√a, exact where representable (R127, log 6). -/
def frsqEff (c : Ctx) (s : State) : Eff :=
  c.perLaneF (regsOf c.ty) (fun l => c.fmt.rsq ((freeIn s l).getLsbD 0) (c.fa l))
def execFrsq (w : Word) (s : State) : Host.Outcome State Fault Refusal :=
  simt 0x4B w (fun c s => (frsqEff c s, useFree s)) s

/-- FSQRT (R127). -/
def fsqrtEff (c : Ctx) : Eff := c.perLaneF (regsOf c.ty) (fun l => c.fmt.sqrt c.rm (c.fa l))
def execFsqrt (w : Word) (s : State) : Host.Outcome State Fault Refusal := simtP 0x4C w fsqrtEff s

/-- FDIV (R127, R128). -/
def fdivEff (c : Ctx) : Eff := c.perLaneF (regsOf c.ty) (fun l => c.fmt.div c.rm c.w.sat (c.fa l) (c.fb l))
def execFdiv (w : Word) (s : State) : Host.Outcome State Fault Refusal := simtP 0x4D w fdivEff s

/-- FRND (R127). -/
def frndEff (c : Ctx) : Eff := c.perLaneF (regsOf c.ty) (fun l => c.fmt.rnd c.rm (c.fa l))
def execFrnd (w : Word) (s : State) : Host.Outcome State Fault Refusal := simtP 0x4E w frndEff s

/-- FSCALE: B is s32 (R127). -/
def fscaleEff (c : Ctx) : Eff :=
  c.perLaneF (regsOf c.ty) (fun l => c.fmt.scale c.rm c.w.sat (c.fa l) (sx 32 (c.b 1 0 l)))
def execFscale (w : Word) (s : State) : Host.Outcome State Fault Refusal := simtP 0x4F w fscaleEff s

/-! ## Packed half precision (R131) -/

/-- Element `e` of a packed register. -/
def half (x e : Nat) : Nat := x / 2 ^ (16 * e) % 65536

/-- A packed result from its two elements, with the flags of both. -/
def packHalf (f : Nat → FRes) : FRes := ((f 0).1 + 65536 * (f 1).1, (f 0).2 ||| (f 1).2)

/-- HADD2 (R131). -/
def hadd2Eff (c : Ctx) : Eff :=
  c.perLaneF 1 (fun l => packHalf (fun e => c.fmt.add c.rm c.w.sat (half (c.fa l) e) (half (c.fb l) e)))
def execHadd2 (w : Word) (s : State) : Host.Outcome State Fault Refusal := simtP 0x50 w hadd2Eff s

/-- HMUL2 (R131). -/
def hmul2Eff (c : Ctx) : Eff :=
  c.perLaneF 1 (fun l => packHalf (fun e => c.fmt.mul c.rm c.w.sat (half (c.fa l) e) (half (c.fb l) e)))
def execHmul2 (w : Word) (s : State) : Host.Outcome State Fault Refusal := simtP 0x51 w hmul2Eff s

/-- HFMA2 (R131). -/
def hfma2Eff (c : Ctx) : Eff :=
  c.perLaneF 1 (fun l => packHalf (fun e => c.fmt.fma c.rm c.w.sat (half (c.fa l) e) (half (c.fb l) e) (half (c.fc l) e)))
def execHfma2 (w : Word) (s : State) : Host.Outcome State Fault Refusal := simtP 0x52 w hfma2Eff s

/-- HMNX2: SOP 0 minimum, 1 maximum (R131). -/
def hmnx2Eff (c : Ctx) : Eff :=
  c.perLaneF 1 (fun l => packHalf (fun e => c.fmt.minmax (c.sop = 1) (half (c.fa l) e) (half (c.fb l) e)))
def execHmnx2 (w : Word) (s : State) : Host.Outcome State Fault Refusal := simtP 0x53 w hmnx2Eff s

/-! ## Conversions (R132 to R134) -/

/-- CVT (R132). -/
def cvtEff (c : Ctx) : Eff :=
  c.perLaneF (regsOf c.ty) (fun l => convert c.ty c.sop c.rm c.w.sat (c.a (regsOf c.sop) l))
def execCvt (w : Word) (s : State) : Host.Outcome State Fault Refusal := simtP 0x54 w cvtEff s

/-- CVTS (R133). -/
def cvtsEff (c : Ctx) : Eff :=
  c.perLaneF (regsOf c.ty) (fun l =>
    convertScaled c.ty c.sop c.rm c.w.sat (c.a (regsOf c.sop) l) (sx 32 (c.b 1 0 l)))
def execCvts (w : Word) (s : State) : Host.Outcome State Fault Refusal := simtP 0x55 w cvtsEff s

/-- `x` with the byte at position `i` replaced. -/
def withByte (x i b : Nat) : Nat := x / 2 ^ (8 * i + 8) * 2 ^ (8 * i + 8) + b % 256 * 2 ^ (8 * i) + x % 2 ^ (8 * i)

/-- PACK: A and B converted and placed (R134). -/
def packOf (ty mx rm : Nat) (sat : Bool) (a b c : Nat) : FRes :=
  let f := fmtOf ty
  let x := f.conv rm sat (fp32.decode a)
  let y := f.conv rm sat (fp32.decode b)
  (if ty = 6 ∨ ty = 7 then x.1 + 65536 * y.1
   else if ty = 0xC then withByte c mx (x.1 + 16 * y.1)
   else withByte (withByte c (2 * mx) x.1) (2 * mx + 1) y.1,
   x.2 ||| y.2)
def packEff (c : Ctx) : Eff :=
  c.perLaneF 1 (fun l => packOf c.ty c.mx c.rm c.w.sat (c.a 1 l) (c.b 1 4 l) (c.c 1 l))
def execPack (w : Word) (s : State) : Host.Outcome State Fault Refusal := simtP 0x56 w packEff s

/-- UNPK: one element exactly to FP32 (R134). -/
def unpkOf (frm idx a : Nat) : FRes :=
  let n := (fmtOf frm).width
  fp32.conv 0 false ((fmtOf frm).decode (a / 2 ^ (n * idx) % 2 ^ n))
def unpkEff (c : Ctx) : Eff := c.perLaneF 1 (fun l => unpkOf c.sop c.w.c.toNat (c.a 1 l))
def execUnpk (w : Word) (s : State) : Host.Outcome State Fault Refusal := simtP 0x57 w unpkEff s

/-! ## Special functions (R135) -/

/-- EXP2 (R135). -/
def exp2Eff (c : Ctx) (s : State) : Eff := c.perLaneF 1 (fun l => exp2Of (freeIn s l) (c.a 1 l))
def execExp2 (w : Word) (s : State) : Host.Outcome State Fault Refusal :=
  simt 0x58 w (fun c s => (exp2Eff c s, useFree s)) s

/-- LOG2 (R135). -/
def log2Eff (c : Ctx) (s : State) : Eff := c.perLaneF 1 (fun l => log2Of (freeIn s l) (c.a 1 l))
def execLog2 (w : Word) (s : State) : Host.Outcome State Fault Refusal :=
  simt 0x59 w (fun c s => (log2Eff c s, useFree s)) s

/-- SIN (R135). -/
def sinEff (c : Ctx) (s : State) : Eff := c.perLaneF 1 (fun l => sinOf (freeIn s l) (c.a 1 l))
def execSin (w : Word) (s : State) : Host.Outcome State Fault Refusal :=
  simt 0x5A w (fun c s => (sinEff c s, useFree s)) s

/-- COS (R135). -/
def cosEff (c : Ctx) (s : State) : Eff := c.perLaneF 1 (fun l => cosOf (freeIn s l) (c.a 1 l))
def execCos (w : Word) (s : State) : Host.Outcome State Fault Refusal :=
  simt 0x5B w (fun c s => (cosEff c s, useFree s)) s

end Sys2Proof.Machine
end

