-- ==== Sys2Proof/Machine/Lanes.lean ====
section
/-! DEFINITION. Lanes, warps and gangs between runs: parking and release (R255), masks (R270), yields (R258), serial
sections (R271), exits (R264, R274), barriers (R272 to R275), tags and the start of a copy (R50, R53, R55), and lines
left full (R44, R45). -/

namespace Sys2Proof.Machine

/-! ## Changing one warp, gang, launch or partition -/

def modWarp (k : Nat) (f : Warp → Warp) (s : State) : State := { s with warps := adjust k f s.warps }
def modGang (g : Nat) (f : Gang → Gang) (s : State) : State := { s with gangs := adjust g f s.gangs }
def modLaunch (l : Nat) (f : Launch → Launch) (s : State) : State := { s with launches := adjust l f s.launches }
def modPart (p : Nat) (f : Part → Part) (s : State) : State := { s with parts := put p (f (lookupD p {} s.parts)) s.parts }

/-- The warps of a gang, with their keys. -/
def gangWarps (g : Nat) (s : State) : List (Nat × Warp) := s.warps.filter (fun x => x.2.gang = some g)

/-- Every warp of a gang changed. -/
def modGangWarps (g : Nat) (f : Warp → Warp) (s : State) : State :=
  { s with warps := s.warps.map (fun x => if x.2.gang = some g then (x.1, f x.2) else x) }

/-- Every launch of a gang killed with a cause: ITEM is the gang's index. -/
def killGang (g status det : Nat) (s : State) : State :=
  match lookup g s.gangs with
  | none => s
  | some x => killLaunch x.launch status (x.index.getD allOnes64) det s

/-! ## Lane states (R255) -/

def LaneState.isReady : LaneState → Bool
  | .ready => true
  | _ => false

def LaneState.isExited : LaneState → Bool
  | .exited => true
  | _ => false

def LaneState.isYielding : LaneState → Bool
  | .yielding => true
  | _ => false

def LaneState.isParked : LaneState → Bool
  | .parked _ => true
  | _ => false

/-- The lane counts for issue: Ready, with no load pending (R45, R254). -/
def Lane.counts (l : Lane) : Bool := l.state.isReady && l.loads.isEmpty

/-- Some lane counts for issue (R254). -/
def Warp.counts (w : Warp) : Bool := w.lanes.any Lane.counts

/-- Every lane is Exited. -/
def Warp.exited (w : Warp) : Bool := w.lanes.all (fun l => l.state.isExited)

/-- The state of a lane. -/
def Warp.lane (w : Warp) (i : Nat) : Lane := w.lanes[i]?.getD { state := .exited }

/-- One lane changed. -/
def Warp.modLane (w : Warp) (i : Nat) (f : Lane → Lane) : Warp :=
  { w with lanes := w.lanes.mapIdx (fun j l => if j = i then f l else l) }

/-- The lanes given take a state. -/
def Warp.setStates (w : Warp) (ls : List Nat) (st : LaneState) : Warp :=
  { w with lanes := w.lanes.mapIdx (fun j l => if ls.contains j then { l with state := st } else l) }

/-- The lanes given take an address. -/
def Warp.setLpcs (w : Warp) (ls : List (Nat × Nat)) : Warp :=
  { w with lanes := w.lanes.mapIdx (fun j l => match lookup j ls with | some a => { l with lpc := normLpc a } | none => l) }

/-- The lane takes a state in a clock; one released then may take part in a run from the next clock on (R255). -/
def Lane.enter (clock : Nat) (st : LaneState) (l : Lane) : Lane :=
  { l with state := st, due := if st.isReady && !l.state.isReady then clock + 1 else l.due }

/-- The lane may take part in a run that begins in a clock (R254, R255). -/
def Lane.mayGo (clock : Nat) (l : Lane) : Bool := l.counts && decide (l.due ≤ clock)

/-- A warp whose lanes change from `w`: one that was Blocked and is no longer becomes Ready now (R255, R261). -/
def Warp.readyFrom (clock : Nat) (w w' : Warp) : Warp := if !w.counts && w'.counts then { w' with readySince := clock } else w'

/-- A change of lane states, in the trap save as well (R255, R367). -/
def Warp.release (clock : Nat) (f : LaneState → LaneState) (w : Warp) : Warp :=
  w.readyFrom clock { w with
    lanes := w.lanes.map (fun l => l.enter clock (f l.state)),
    handler := w.handler.map (fun h => { h with lanes := h.lanes.map (fun x => (x.1, f x.2)) }) }

/-- Lane `i` leaves the park `p` accepts: as it runs, else in its trap save (R255, R367). -/
def Warp.wakeLane (clock : Nat) (p : Park → Bool) (i : Nat) (w : Warp) : Warp :=
  let hit := fun (st : LaneState) => match st with | .parked q => p q | _ => false
  if hit (w.lane i).state then w.readyFrom clock (w.modLane i (Lane.enter clock .ready))
  else
    { w with handler := w.handler.map (fun h =>
        { h with lanes := h.lanes.mapIdx (fun j x => if j = i ∧ hit x.2 then (x.1, .ready) else x) }) }

/-- The park of lane `i` that `want` accepts, as it runs or else in its trap save, with whether it is the trap save's
(R367). -/
def Warp.parkOf (w : Warp) (want : Park → Bool) (i : Nat) : Option (Park × Bool) :=
  let own := match (w.lane i).state with | .parked p => if want p then some (p, false) else none | _ => none
  match own with
  | some x => some x
  | none =>
    match w.handler.bind (fun h => h.lanes[i]?) with
    | some (_, .parked p) => if want p then some (p, true) else none
    | _ => none

/-- Lane `i` set to a state, as it runs or in its trap save; a Blocked warp that it makes ready is ready since now. -/
def Warp.setAt (clock : Nat) (saved : Bool) (i : Nat) (st : LaneState) (w : Warp) : Warp :=
  if saved then
    { w with handler := w.handler.map (fun h => { h with lanes := h.lanes.mapIdx (fun j x => if j = i then (x.1, st) else x) }) }
  else w.readyFrom clock (w.modLane i (Lane.enter clock st))

/-- A result written when a wait ends: now, or when the TRET commits for a wait of the trap save (R367, log 9). -/
def Warp.deliver (saved : Bool) (x : List (Loc × W32)) (w : Warp) : Warp :=
  if saved then { w with handler := w.handler.map (fun h => { h with writes := h.writes ++ x }) }
  else x.foldl archWrite w

/-- The parks that `want` accepts: those of the lanes as they run, then those of the trap save, ascending. -/
def Warp.parks (w : Warp) (want : Park → Bool) : List (Nat × Bool × Park) :=
  let at_ := fun (saved : Bool) (i : Nat) (st : LaneState) =>
    match st with | .parked p => if want p then some (i, saved, p) else none | _ => none
  allLanes.filterMap (fun i => at_ false i (w.lane i).state) ++
  (match w.handler with
   | some h => (h.lanes.mapIdx (fun i x => at_ true i x.2)).filterMap id
   | none => [])

/-- The lanes of the given parks go on together, each with the result of its wait (R255). -/
def Warp.endParks (clock : Nat) (res : Nat → Park → List (Loc × W32)) (ps : List (Nat × Bool × Park)) (w : Warp) : Warp :=
  ps.foldl (fun w x => (w.deliver x.2.1 (res x.1 x.2.2)).setAt clock x.2.1 x.1 .ready) w

/-! ## Masks and yields (R258, R270) -/

/-- The join condition of mask `k` over lane states (R270). -/
def joinHolds (w : Warp) (k : Nat) (states : List LaneState) : Bool :=
  (lanesOf (lookupD k 0 w.k)).all (fun i =>
    (w.lane i).state.isExited || states[i]? = some (.parked (.mask k)))

/-- The lanes waiting on a mask whose join condition holds are released (R270). -/
def releaseMasks (clock : Nat) (w : Warp) : Warp :=
  (List.range 12).foldl (fun w k =>
    let go := fun (st : LaneState) => if st = .parked (.mask k) then .ready else st
    let w1 :=
      if joinHolds w k (w.lanes.map (·.state)) then
        w.readyFrom clock { w with lanes := w.lanes.map (fun l => l.enter clock (go l.state)) }
      else w
    { w1 with handler := w1.handler.map (fun h =>
        if joinHolds w1 k (h.lanes.map (·.2)) then { h with lanes := h.lanes.map (fun x => (x.1, go x.2)) } else h) }) w

/-- Yielding lanes become Ready (R258). -/
def wakeYields (clock : Nat) (w : Warp) : Warp :=
  { w with lanes := w.lanes.map (fun l => if l.state.isYielding then l.enter clock .ready else l) }

/-- Every lane that has not exited is Parked or Yielding, as the clock before left them: the Yielding ones are released
(R258). -/
def releaseYields (clock : Nat) (w : Warp) : Warp :=
  if w.run.isNone && !w.counts && w.lanes.any (fun l => l.state.isYielding) then { wakeYields clock w with readySince := clock } else w

/-! ## Serial sections (R271) -/

/-- The current lane has left: the next lane of the section becomes current and is released; with none left the section
closes. -/
def serialNext (clock : Nat) (w : Warp) : Warp :=
  match w.serial with
  | none => w
  | some (m, _) =>
    match (lanesOf m).filter (fun i => !(w.lane i).state.isExited) with
    | [] => { w with serial := none }
    | l :: rest =>
      { (w.wakeLane clock (fun p => p = .serial) l) with serial := some (maskOf rest, l) }

/-- The lanes given leave the section if one of them is current (R271). -/
def serialLeave (clock : Nat) (ls : List Nat) (w : Warp) : Warp :=
  match w.serial with
  | some (_, cur) => if ls.contains cur then serialNext clock w else w
  | none => w

/-! ## Copies and tags (R50 to R55) -/

/-- The ready tags of a gang as a bitmap (R53). -/
def Gang.readyTags (g : Gang) : BitVec 64 :=
  g.tags.foldl (fun m x => if x.2 = .ready then m ||| (1#64 <<< x.1) else m) 0

/-- A tag wait whose condition holds is met, whatever the tags do next (R172, R255); a met wait holds the empty mask. -/
def meetTags (g : Nat) (s : State) : State :=
  match lookup g s.gangs with
  | none => s
  | some x =>
    let m := x.readyTags
    modGangWarps g (fun w => w.mapStates (fun st =>
      match st with
      | .parked (.tag t all) =>
        if (if all then t &&& m = t else t &&& m ≠ 0) then .parked (.tag 0 true) else st
      | _ => st)) s

/-- The open copy of a tag starts when every warp that has not exited has supplied its slice; a copy of no lines is
complete at once (R50, R55). -/
def startCopy (g tag : Nat) (s : State) : State :=
  match lookup g s.gangs with
  | none => s
  | some x =>
    match lookup tag x.tags with
    | some (.open slices) =>
      if slices.length < x.warps - x.exitedWarps.length then s
      else
        let order := (List.range 32).flatMap (fun n => slices.filter (fun sl => sl.warp = n))
        let lines := order.flatMap (·.lines)
        if lines.isEmpty then meetTags g (modGang g (fun x => { x with tags := put tag .ready x.tags }) s)
        else
          match slices with
          | [] => s
          | sl :: _ =>
            let l := (lookup x.launch s.launches).getD default
            let c : Copy := { owner := .gang g tag, core := x.core, asn := l.asn, root := l.root, rpld := l.rpld,
                              rhnd := fld l.pkt 398 12, fromSp := sl.fromSp, toSp := sl.toSp, lines := lines }
            modGang g (fun x => { x with tags := put tag .running x.tags })
              { s with copies := put s.nextCopy c s.copies, nextCopy := s.nextCopy + 1 }
    | _ => s

/-- First scratchpad line of the gang a copy belongs to. -/
def copyScrAt (s : State) (c : Copy) : Nat :=
  match c.owner with
  | .gang g _ => (match lookup g s.gangs with | some x => x.core * 4096 + x.scrAt | none => 0)
  | .command _ => 0

/-- The place of a line of a copy: translated on path C, permitted, or in scratchpad (R38, R41, R59). -/
def copyPlace (c : Copy) (sp addr : Nat) (write : Bool) (s : State) : Except AccFault Place × State :=
  match sp with
  | 0 =>
    let r := translate (.core c.core) { asn := c.asn, root := c.root, rpld := c.rpld, rhnd := c.rhnd } addr write false .C s
    (match r.1 with | .ok p => .ok p.1 | .error f => .error f, r.2)
  | 1 => (if vaultOk s c.rhnd addr write then .ok (.vault addr) else .error (vaultFault addr write .C), s)
  | _ => (.ok (.scr (copyScrAt s c * 128 + addr)), s)

/-- Every open copy of a gang offered its start (R50). -/
def startCopies (g : Nat) (s : State) : State := (List.range 64).foldl (fun s t => startCopy g t s) s

/-! ## Barriers (R272 to R275) -/

/-- A barrier of a gang changed. -/
def modBarrier (g b : Nat) (f : Barrier → Barrier) (s : State) : State :=
  modGang g (fun x => { x with barriers := adjust b f x.barriers }) s

/-- An arrival of warp number `n` in a clock (R274). -/
def Barrier.arrive (clock n : Nat) (b : Barrier) : Barrier :=
  { b with touched := clock, count := min (b.count + 1) 2047,
           recorded := (if b.phase then insertNat n b.recorded else b.recorded.filter (fun m => m ≠ n)),
           marks := insertNat n b.marks }

/-- The phase bit as the warp's last arrival found it (R272). -/
def Barrier.recordedPhase (n : Nat) (b : Barrier) : Bool := b.recorded.contains n

/-- A warp's exit posted to a barrier (R274). -/
def Barrier.exit (clock n : Nat) (b : Barrier) : Barrier :=
  if b.deflt then
    { b with touched := clock, expect := b.expect - 1, count := if b.marks.contains n then b.count - 1 else b.count,
             marks := b.marks.filter (fun m => m ≠ n), bars := b.bars.filter (fun m => m ≠ n) }
  else b

/-! ## Exits (R264, R274, R69, R252) -/

/-- The lanes given are Exited, in the trap save as well (R264, R367); the current lane of a section leaves it. -/
def exitLanes (clock : Nat) (ls : List Nat) (w : Warp) : Warp :=
  let w' : Warp := { w with lanes := w.lanes.mapIdx (fun j l => if ls.contains j then { l with state := .exited, loads := [] } else l) }
  serialLeave clock ls
    { w' with handler := w'.handler.map (fun h =>
        { h with lanes := h.lanes.mapIdx (fun j x => if ls.contains j then (x.1, .exited) else x),
                 loads := h.loads.filter (fun x => !ls.contains x.1) }) }

/-! ## Reserves (R286) -/

/-- The launch keeps reserves on the core already. -/
def hasReserves (l : Launch) (core : Nat) : Bool := (lookup core l.reserves).isSome

/-- Records of a launch in queues of a core, or on their way into them. -/
def recordsOn (s : State) (core l : Nat) : Bool :=
  s.queues.any (fun q => q.1.1 = core && decide (q.2.launch = l) && !q.2.recs.isEmpty) ||
  s.entering.any (fun e => e.core = core && decide (e.launch = l))

/-- Records of a launch outside every queue: in its ring or on their way into it, or in its hold area (R285). -/
def recordsOut (s : State) (l : Nat) (x : Launch) : Bool :=
  decide (0 < x.ringLen) || !x.holds.isEmpty || s.entering.any (fun e => decide (e.launch = l))

/-- A core that no longer needs a launch's reserves frees them (R286). -/
def freeReserve (core l : Nat) (s : State) : State :=
  match lookup l s.launches with
  | none => s
  | some x =>
    if hasReserves x core && !(s.warps.any (fun w => coreOfWarp w.1 = core && decide (w.2.launch = l))) &&
        !recordsOn s core l && (x.reserves.any (fun r => r.1 ≠ core) || !recordsOut s l x) then
      modLaunch l (fun x => { x with reserves := erase core x.reserves }) s
    else s

/-- Every launch's reserves looked at, after whatever may have freed some. -/
def freeReserves (s : State) : State :=
  s.launches.foldl (fun s l => (l.2.reserves.map (·.1)).foldl (fun s c => freeReserve c l.1 s) s) s

/-- Warp `k` has exited: its barriers, open copies and flag summaries take note, and its context is free (R252, R274,
R50, R69). -/
def exitWarp (k : Nat) (s : State) : State :=
  match lookup k s.warps with
  | none => s
  | some w =>
    let s := modLaunch w.launch (fun l => { l with fpsum := l.fpsum ||| BitVec.setWidth 7 w.fpst }) s
    let s := freeReserves { s with warps := erase k s.warps }
    match w.gang with
    | none => s
    | some g =>
      let s := modGang g (fun x =>
        { x with barriers := x.barriers.map (fun b => (b.1, b.2.exit s.clock w.num)),
                 exitedWarps := insertNat w.num x.exitedWarps, left := if hdrRb x.hdr then put w.num w x.left else x.left, smaskUnion := x.smaskUnion ||| w.smask,
                 state := if x.warps ≤ (insertNat w.num x.exitedWarps).length ∧ x.state ≠ .switching then .ending else x.state }) s
      startCopies g s

/-- Every lane that has not exited is parked in JOINW (R291). -/
def Warp.joinBlocked (w : Warp) : Bool :=
  w.lanes.all (fun l => match l.state with | .exited => true | .parked (.join _ _ _ _ _) => l.loads.isEmpty | _ => false)

/-- What follows any change of a warp's lanes: masks tested, an exited warp leaves, and a loose warp's join-blocking dated
(R255, R270, R291). -/
def settle (k : Nat) (s : State) : State :=
  match lookup k s.warps with
  | none => s
  | some w =>
    let w := releaseMasks s.clock w
    if w.exited then exitWarp k { s with warps := put k { w with handler := none } s.warps }
    else
      let since := if w.gang.isNone && w.joinBlocked then some (w.joinSince.getD s.clock) else none
      { s with warps := put k { w with joinSince := since } s.warps }

/-! ## Lines left full (R44, R45) -/

/-- What a load of a size code makes of its bytes (R154): 0 u8, 1 s8, 2 u16, 3 s16, 4 b32, 5 b64, 6 b128. -/
def sizeBytes (sop : Nat) : Nat :=
  match sop with
  | 0 => 1
  | 1 => 1
  | 2 => 2
  | 3 => 2
  | 4 => 4
  | 5 => 8
  | _ => 16

def extendLoad (sop : Nat) (l : List Byte) : Nat :=
  match sop with
  | 1 => wrap 32 (sx 8 (leNat l))
  | 3 => wrap 32 (sx 16 (leNat l))
  | _ => leNat l

/-- A lane of a gang has read a line by LDF: from then on its LDS see what a copy landed there (R46). -/
def acquireLine (k : Nat) (gang : Option Nat) (lane ln : Nat) (s : State) : State :=
  { s with copies := s.copies.map (fun x =>
      match x.2.owner with
      | .gang g _ =>
        if gang = some g ∧ x.2.landed.any (fun y => y.1 = ln) then (x.1, { x.2 with acquired := (k, lane, ln) :: x.2.acquired }) else x
      | .command _ => x) }

/-- What the loads of a lane that a line answers write (R45). -/
def ldfWrites (data : LdfWait → Nat) (i : Nat) (ws : List LdfWait) : List (Loc × W32) :=
  ws.flatMap (fun q => regWrites (BitVec.ofNat 8 q.dst) (regsOfSize q.size) i (data q))

/-- The loads of lane `i` that a line answers are performed: in the lane as it runs now, in its trap save when the TRET
commits; a warp that was Blocked and is no longer becomes Ready now (R44, R45, R367). -/
def answerLdf (clock : Nat) (data : LdfWait → Nat) (hit : LdfWait → Bool) (i : Nat) (w : Warp) : Warp :=
  let w1 := (ldfWrites data i ((w.lane i).loads.filter hit)).foldl archWrite
    (w.modLane i (fun l => { l with loads := l.loads.filter (fun q => !hit q) }))
  let freed := !((w.lane i).loads.filter hit).isEmpty && ((w1.lane i).loads).isEmpty
  let w2 := w.readyFrom clock (if freed then w1.modLane i (fun l => { l with due := max l.due (clock + 1) }) else w1)
  { w2 with handler := w2.handler.map (fun h =>
      let ws := lookupD i [] h.loads
      { h with loads := h.loads.map (fun x => if x.1 = i then (x.1, x.2.filter (fun q => !hit q)) else x),
               writes := h.writes ++ ldfWrites data i (ws.filter hit) }) }

/-! ## Translation in the lanes of an instruction -/

/-- Each lane's address translated in turn, with the faults met (R97: every access of a run is translated before it ends). -/
def translateLanes (c : Ctx) (write : Bool) (path : Path) :
    List (Nat × Nat) → State → (List (Nat × Place × Nat) × List AccFault) × State
  | [], s => (([], []), s)
  | (l, va) :: rest, s =>
    let r := translate (.core c.core) (spaceOf (launchOf s c.wp)) va write false path s
    let t := translateLanes c write path rest r.2
    match r.1 with
    | .ok p => (((l, p.1, p.2) :: t.1.1, t.1.2), t.2)
    | .error f => ((t.1.1, f :: t.1.2), t.2)

/-- The misalignment cause of an instruction: raised in the lanes whose address is no multiple of `n` (R151, R152). -/
def misaligned (n : Nat) (addrs : List (Nat × Nat)) : List Nat := (addrs.filter (fun x => x.2 % n ≠ 0)).map (·.1)

/-- A run-terminal access: every lane's address aligned to `n` and translated for writing before the run commits, or the
misalignment cause (R166, R280, R300). -/
def pendAccess (c : Ctx) (n : Nat) (write : Bool) (addrs : List (Nat × Nat)) (p : Pending) (s : State) : Eff × State :=
  match misaligned n addrs with
  | [] =>
    let r := translateLanes c write .L addrs s
    ({ term := some { p with addr := addrs, place := r.1.1.map (fun x => (x.1, x.2.1)) }, faults := r.1.2,
       ue := if r.1.1.any (fun x => isPoisoned r.2 x.2.1 n) then some 0 else none }, r.2)
  | bad => (Eff.cause 6 c.op bad, s)

/-! ## The end of a committed run -/

/-- What the effect of a run-terminal instruction sees at commit: the warp, the run, the instruction as it issued, and
the address after the marker (R97). -/
structure Fin where
  key : Nat
  run : Run
  p : Pending
  after : Nat
deriving Repr

/-- Address of the instruction. -/
def Fin.at (f : Fin) : Nat := f.run.addr + f.p.off

/-- A result written at commit, read from the next run on: in each lane, or once to an `s` register (R94, R115). -/
def Fin.dst (f : Fin) (n : Nat) (vals : List (Nat × Nat)) : List (Loc × W32) :=
  if (regOf f.p.w.d).isS then
    match vals with
    | [] => []
    | (l, x) :: _ => regWrites f.p.w.d n l x
  else vals.flatMap (fun v => regWrites f.p.w.d n v.1 v.2)

/-- The warp's registers with results written. -/
def writeRegs (k : Nat) (ws : List (Loc × W32)) (s : State) : State := modWarp k (fun w => ws.foldl archWrite w) s

/-- The lanes given park. -/
def parkLanes (k : Nat) (ls : List Nat) (why : Park) (s : State) : State :=
  modWarp k (fun w => w.setStates ls (.parked why)) s

end Sys2Proof.Machine
end

