-- ==== Sys2Proof/Machine/Poly.lean ====
section
/-! DEFINITION. Polynomial tables (R136 to R138) and FSTK (R139), with the loads and held stores of an instruction that
names a whole range of memory. -/

namespace Sys2Proof.Machine

/-! ## Ranges of memory on path L -/

/-- A plain read by warp `k` of bytes within one line: through L1 from a page with CACHE 0 (R12, R155); its own strong
writes there are performed first (R346), and no later read of the warp, on any path, is older (R344). -/
def loadAt (k asn va : Nat) (p : Place) (cache n : Nat) (s : State) : (List Byte × Bool) × State :=
  let s := freshLine k asn va p s
  let r := if cache = 0 then loadL1 k asn va p n s else ((viewPlace s k p n, isPoisoned s p n), s)
  (r.1, noteSeen k p n r.2)

/-- Pieces of `step` bytes of a translated range, with virtual address, place and CACHE. -/
def piecesOf (step : Nat) : Nat → List (Nat × Place × Nat) → List (Nat × Place × Nat)
  | _, [] => []
  | va, (n, p, c) :: rest =>
    (List.range (n / step)).map (fun i => (va + step * i, p.plus (step * i), c)) ++ piecesOf step (va + n) rest

/-- The bytes of pieces of `n` bytes, in order, and whether one was poisoned. -/
def loadPieces (k asn n : Nat) : List (Nat × Place × Nat) → State → (List Byte × Bool) × State
  | [], s => (([], false), s)
  | (va, p, c) :: rest, s =>
    let r := loadAt k asn va p c n s
    let t := loadPieces k asn n rest r.2
    ((r.1.1 ++ t.1.1, r.1.2 || t.1.2), t.2)

/-- A range translated in pieces of `step` bytes. -/
def translatePieces (c : Ctx) (write : Bool) (path : Path) (step va len : Nat) (s : State) :
    (List (Nat × Place × Nat) × List AccFault) × State :=
  let r := translateRange (.core c.core) (spaceOf (launchOf s c.wp)) write path (len / pageBytes + 2) va len s
  ((piecesOf step va r.1.1, r.1.2), r.2)

/-! ## Polynomial tables -/

/-- Word `i` of table `t` of a warp (R136). -/
def Warp.ppWord (w : Warp) (t i : Nat) : Nat := (lookupD (320 * t + i) 0 w.pp).toNat

/-- Value `f` of segment `j`: bp, c0, c1, c2, c3 (R136). -/
def Warp.ppVal (w : Warp) (t j f : Nat) : Nat := w.ppWord t (5 * j + f)

/-- a ≤ b, false where either is a NaN. -/
def fp32Le (a b : Nat) : Bool :=
  let x := fp32.decode a
  let y := fp32.decode b
  !x.isNaN && !y.isNaN && decide (cmpVals x y ≤ 0)

/-- The segment of a value: the largest i in 1..63 with bp[i] ≤ x, or 0 (R138). -/
def ppSegment (w : Warp) (t x : Nat) : Nat :=
  (List.range 63).foldl (fun j i => if fp32Le (w.ppVal t (i + 1) 0) x then i + 1 else j) 0

/-- PPE in one lane (R138). -/
def ppeOf (w : Warp) (t x : Nat) : FRes :=
  match fp32.decode x with
  | .nan sig => (fp32.nanBits, if sig then flagNV else 0)
  | _ =>
    let j := ppSegment w t x
    let u := fp32.sub 0 false x (w.ppVal t j 0)
    let r2 := fp32.fma 0 false (w.ppVal t j 4) u.1 (w.ppVal t j 3)
    let r1 := fp32.fma 0 false r2.1 u.1 (w.ppVal t j 2)
    let r0 := fp32.fma 0 false r1.1 u.1 (w.ppVal t j 1)
    (r0.1, u.2 ||| r2.2 ||| r1.2 ||| r0.2)

/-- PPE (R138): the table as the run began. -/
def ppeEff (c : Ctx) : Eff := c.perLaneF 1 (fun l => ppeOf c.wp c.sop (c.a 1 l))
def execPpe (w : Word) (s : State) : Host.Outcome State Fault Refusal := simtP 0x5C w ppeEff s

/-- The address of PPLD and PPST (R137). -/
def Ctx.ppAddr (c : Ctx) : Nat := wrap 64 ((c.a 2 0 : Int) + sx 32 c.w.ext.toNat)

/-- The words of a byte list. -/
def wordsOf : Nat → List Byte → List W32
  | 0, _ => []
  | n + 1, l => BitVec.ofNat 32 (leNat (l.take 4)) :: wordsOf n (l.drop 4)

/-- PPLD: the whole table read at issue, seen from the next run (R137). -/
def ppldEff (c : Ctx) (s : State) : Eff × State :=
  if c.act.isEmpty then ({}, s)
  else if c.ppAddr % 4 ≠ 0 then (Eff.cause 6 c.op c.act, s)
  else
    let t := translatePieces c false .L 4 c.ppAddr 1280 s
    if t.1.2 ≠ [] then ({ faults := t.1.2 }, t.2)
    else
      let r := loadPieces c.key (launchOf s c.wp).asn 4 t.1.1 t.2
      ({ held := [.ppld c.sop (wordsOf 320 r.1.1)], ue := if r.1.2 then some 0 else none }, r.2)
def execPpld (w : Word) (s : State) : Host.Outcome State Fault Refusal := simt 0x5D w ppldEff s

/-- PPST: the whole table as the run began, held (R137). -/
def ppstEff (c : Ctx) (s : State) : Eff × State :=
  if c.act.isEmpty then ({}, s)
  else if c.ppAddr % 4 ≠ 0 then (Eff.cause 6 c.op c.act, s)
  else
    let t := translatePieces c true .L 4 c.ppAddr 1280 s
    ({ held := t.1.1.mapIdx (fun i x => .bytes x.2.1 x.1 (x.2.2 = 0) (leBytes 4 (c.wp.ppWord c.sop i))), faults := t.1.2 }, t.2)
def execPpst (w : Word) (s : State) : Host.Outcome State Fault Refusal := simt 0x5E w ppstEff s

/-- FSTK: D gets sr.fpst as the run began, and the flags of B[6:0] are raised (R139). -/
def fstkEff (c : Ctx) : Eff := c.perLaneF 1 (fun l => (c.wp.fpst.toNat, BitVec.ofNat 7 (c.b 1 1 l)))
def execFstk (w : Word) (s : State) : Host.Outcome State Fault Refusal := simtP 0x5F w fstkEff s

end Sys2Proof.Machine
end

