-- ==== Sys2Proof/Machine/Memory.lean ====
section
/-! DEFINITION. Loads, stores and prefetches in the four spaces (R151 to R159, R19, R20, R38, R43 to R48). -/

namespace Sys2Proof.Machine

/-! ## Memory operands (R151, R152) -/

/-- The address of a memory operand in a lane (R151): a pair modulo 2^64 in global space, a single modulo 2^32 elsewhere. -/
def Ctx.memAddr (c : Ctx) (global : Bool) (l : Nat) : Nat :=
  let base : Int := c.a (if global then 2 else 1) l
  let rest : Int :=
    if c.w.i then (match c.w.len with | .w64 => sx 8 c.w.b.toNat | _ => sx 32 c.w.ext.toNat)
    else (if c.w.sx then sx 32 (c.b 1 0 l) else (c.b 1 0 l : Int)) * 2 ^ c.mx +
      (match c.w.len with | .w96 => sx 32 c.w.ext.toNat | _ => 0)
  wrap (if global then 64 else 32) (base + rest)

/-- Bytes of an access (R154). -/
def Ctx.size (c : Ctx) : Nat := sizeBytes c.sop

/-- The lanes that perform a load: the first active one for an `s` destination (R144). -/
def Ctx.loaders (c : Ctx) : List Nat := if c.dScalar then c.act.take 1 else c.act

/-- The active lanes with their addresses. -/
def Ctx.addrs (c : Ctx) (global : Bool) : List (Nat × Nat) := c.act.map (fun l => (l, c.memAddr global l))

/-- Loads of a size from translated places, lane by lane: values, poison met, and L1 filled. -/
def loadLanes (k asn sop : Nat) : List (Nat × Nat × Place × Nat) → State → (List (Nat × Nat) × Bool) × State
  | [], s => (([], false), s)
  | (l, va, p, cache) :: rest, s =>
    let r := loadAt k asn va p cache (sizeBytes sop) s
    let t := loadLanes k asn sop rest r.2
    (((l, extendLoad sop r.1.1) :: t.1.1, r.1.2 || t.1.2), t.2)

/-- Translated lanes with their addresses. -/
def withAddr (addrs : List (Nat × Nat)) (ps : List (Nat × Place × Nat)) : List (Nat × Nat × Place × Nat) :=
  ps.map (fun x => (x.1, lookupD x.1 0 addrs, x.2.1, x.2.2))

/-! ## Global space -/

/-- LD (R155): every lane is translated before any is read, and an instruction that faults reads nothing (R21, R29). -/
def ldEff (c : Ctx) (s : State) : Eff × State :=
  let addrs := c.addrs true
  match misaligned c.size addrs with
  | [] =>
    let t := translateLanes c false .L (addrs.filter (fun x => c.loaders.contains x.1)) s
    if t.1.2 ≠ [] then ({ faults := t.1.2 }, t.2)
    else
      let r := loadLanes c.key (launchOf s c.wp).asn c.sop (withAddr addrs t.1.1) t.2
      ({ writes := c.dst (regsOfSize c.sop) r.1.1, ue := if r.1.2 then some 0 else none }, r.2)
  | bad => (Eff.cause 6 c.op bad, s)
def execLd (w : Word) (s : State) : Host.Outcome State Fault Refusal := simt 0x70 w ldEff s

/-- The bytes a store writes in a lane (R154). -/
def Ctx.storeData (c : Ctx) (l : Nat) : List Byte := leBytes c.size (c.c (regsOfSize c.sop) l)

/-- ST: held until the run commits (R155). -/
def stEff (c : Ctx) (s : State) : Eff × State :=
  let addrs := c.addrs true
  match misaligned c.size addrs with
  | [] =>
    let t := translateLanes c true .L addrs s
    ({ held := (withAddr addrs t.1.1).map (fun x => .bytes x.2.2.1 x.2.1 (x.2.2.2 = 0) (c.storeData x.1)),
       faults := t.1.2 }, t.2)
  | bad => (Eff.cause 6 c.op bad, s)
def execSt (w : Word) (s : State) : Host.Outcome State Fault Refusal := simt 0x71 w stEff s

/-! ## Scratchpad (R41 to R48) -/

/-- Lanes whose access lies within the warp's scratchpad, and the mask of those switched off (R47). -/
def scratchLanes (c : Ctx) (s : State) (n : Nat) (addrs : List (Nat × Nat)) : List (Nat × Nat) × BitVec 32 :=
  let sz := (scratchOf s c.key c.wp).2
  (addrs.filter (fun x => x.2 + n ≤ sz), maskOf ((addrs.filter (fun x => sz < x.2 + n)).map (·.1)))

/-- The package's place of a scratchpad offset of the warp. -/
def scrPlace (c : Ctx) (s : State) (a : Nat) : Place := .scr ((scratchOf s c.key c.wp).1 + a)

/-- The destination lines, in the gang's scratchpad, of copies of a gang whose tag is not ready (R48). -/
def pendingLines (s : State) (g : Nat) : List Nat :=
  (s.copies.flatMap (fun x =>
    match x.2.owner with
    | .gang g' _ => if g' = g ∧ x.2.toSp = 2 then x.2.landed.map (·.1) ++ x.2.lines.map (·.2) else []
    | .command _ => [])) ++
  (match lookup g s.gangs with
   | none => []
   | some x => x.tags.flatMap (fun t =>
      match t.2 with
      | .open sl => sl.flatMap (fun y => if y.toSp = 2 then y.lines.map (·.2) else [])
      | _ => []))

/-- The operation in the clock in hand makes a plain read by warp `k` of its line undefined: a landing, or the bytes of
another warp's STS (R48). -/
def ScrOp.races (k : Nat) (o : ScrOp) : Bool := !o.data.isEmpty && (o.rank = 0 || (!o.stf && decide (o.warp ≠ k)))

/-- The destination lines of copies that are not ready and that an LDF of a lane has read since they landed (R46). -/
def acquiredLines (s : State) (k lane : Nat) : List Nat :=
  s.copies.flatMap (fun x => (x.2.acquired.filter (fun y => y.1 = k ∧ y.2.1 = lane)).map (fun y => y.2.2))

/-- An LDS by a lane of the line that holds scratchpad byte `b` returns undefined bytes: a copy whose tag is not ready lands
there, unless an LDF of the lane has read it since, or an operation of the clock in hand touches it (R46, R48). -/
def lineRaces (k : Nat) (wp : Warp) (lane : Nat) (s : State) (b : Nat) : Bool :=
  let base := (scratchOf s k wp).1
  let ln := (b - base) / 128 * 128
  (match wp.gang with | some g => (pendingLines s g).contains ln && !(acquiredLines s k lane).contains ln | none => false) ||
  s.scrNow.any (fun o => o.races k && decide (o.line = b / 128))

/-- What the writes to a word of a racing line leave in it: what stands there, what stood there before a store or a landing
of the clock in hand or of a copy whose tag is not ready, and what such a copy has still to land (R48). -/
def raceWord (k : Nat) (wp : Warp) (s : State) (b : Nat) : List (List Byte) :=
  let base := (scratchOf s k wp).1
  let cur := readPlace s (.scr b) 4
  let mine := (s.copies.map (·.2)).filter (fun x =>
    decide (x.toSp = 2) && (match x.owner with | .gang g _ => decide (wp.gang = some g) | .command _ => false))
  let at_ := fun (d : Nat) => decide (base + d = b / 128 * 128)
  (cur ::
    ((s.scrNow.filter (fun o => o.races k && decide (o.line = b / 128))).map (fun o => layOver b cur o.at_ o.old) ++
     mine.flatMap (fun x => (x.landed.filter (fun y => at_ y.1)).map (fun y => (y.2.drop (b % 128)).take 4)) ++
     mine.flatMap (fun x => (x.lines.filter (fun y => at_ y.2)).filterMap (fun y =>
       match (copyPlace x x.fromSp y.1 false s).1 with
       | .ok p => some (readPlace s (p.plus (b % 128)) 4)
       | .error _ => none)))).eraseDups

/-- What an LDS of a racing line reads: each 4-byte word whole from one of the writes, which one being free (R48, log 12). -/
def racingBytes (k : Nat) (wp : Warp) (s : State) (b n : Nat) : List Byte :=
  let word := fun (i : Nat) =>
    let ws := raceWord k wp s (b / 4 * 4 + 4 * i)
    ws.getD ((Config.freeWord (s.free + i)).toNat % max 1 ws.length) []
  (((List.range ((n + 3) / 4)).flatMap word).drop (b % 4)).take n

/-- An LDS or LDF in the lanes given, left for the bank to answer as the clock leaves its lines (R44). -/
def scratchReads (c : Ctx) (s : State) (ldf : Bool) (lanes : List (Nat × Nat)) : List ScrRead :=
  let base := (scratchOf s c.key c.wp).1
  lanes.map (fun x =>
    { ldf := ldf, lane := x.1, byte := base + x.2, own := x.2, size := c.sop, dst := c.w.d.toNat })

/-- LDS: the reads of the lanes that perform it, and the lanes switched off (R47, R155). -/
def ldsEff (c : Ctx) (s : State) : Eff :=
  let addrs := c.addrs false
  match misaligned c.size addrs with
  | [] =>
    let inb := scratchLanes c s c.size addrs
    { reads := scratchReads c s false (inb.1.filter (fun x => c.loaders.contains x.1)), smask := inb.2 }
  | bad => Eff.cause 6 c.op bad
def execLds (w : Word) (s : State) : Host.Outcome State Fault Refusal := simtR 0x72 w ldsEff s

/-- Held stores to scratchpad; `fill` marks each line full after its bytes (R43, R157). -/
def scratchStore (c : Ctx) (s : State) (fill : Bool) : Eff :=
  let addrs := c.addrs false
  match misaligned c.size addrs with
  | [] =>
    let inb := scratchLanes c s c.size addrs
    let base := (scratchOf s c.key c.wp).1
    { held :=
        if fill then inb.1.map (fun x => .future (base + x.2) (c.storeData x.1)) ++ inb.1.map (fun x => .line ((base + x.2) / 128) true)
        else inb.1.map (fun x => .bytes (scrPlace c s x.2) x.2 false (c.storeData x.1)),
      smask := inb.2 }
  | bad => Eff.cause 6 c.op bad

/-- STS (R155). -/
def stsEff (c : Ctx) (s : State) : Eff := scratchStore c s false
def execSts (w : Word) (s : State) : Host.Outcome State Fault Refusal := simtR 0x73 w stsEff s

/-! ## Vault memory (R36, R38) -/

/-- Vault lanes with rights, and the faults of the others (R38, R152). -/
def vaultLanes (c : Ctx) (s : State) (write : Bool) (addrs : List (Nat × Nat)) : List (Nat × Nat) × List AccFault :=
  let h := (spaceOf (launchOf s c.wp)).rhnd
  (addrs.filter (fun x => vaultOk s h x.2 write),
   (addrs.filter (fun x => !vaultOk s h x.2 write)).map (fun x => vaultFault x.2 write .L))

/-- The vault bytes of lanes read at their place: the warp's own waiting stores there are performed first, and no write is
seen before it is performed (R345, R346). -/
def vaultLoads (k sop : Nat) : List (Nat × Nat) → State → (List (Nat × Nat) × Bool) × State
  | [], s => (([], false), s)
  | (l, a) :: rest, s =>
    let n := sizeBytes sop
    let s := settleOwn k (.vault a) n s
    let t := vaultLoads k sop rest s
    (((l, extendLoad sop (readPlace s (.vault a) n)) :: t.1.1, isPoisoned s (.vault a) n || t.1.2), t.2)

/-- LDV (R155). -/
def ldvEff (c : Ctx) (s : State) : Eff × State :=
  let addrs := c.addrs false
  match misaligned c.size addrs with
  | [] =>
    let v := vaultLanes c s false (addrs.filter (fun x => c.loaders.contains x.1))
    if v.2 ≠ [] then ({ faults := v.2 }, s)
    else
      let r := vaultLoads c.key c.sop v.1 s
      ({ writes := c.dst (regsOfSize c.sop) r.1.1, ue := if r.1.2 then some 0 else none }, r.2)
  | bad => (Eff.cause 6 c.op bad, s)
def execLdv (w : Word) (s : State) : Host.Outcome State Fault Refusal := simt 0x74 w ldvEff s

/-- STV (R155). -/
def stvEff (c : Ctx) (s : State) : Eff :=
  let addrs := c.addrs false
  match misaligned c.size addrs with
  | [] =>
    let v := vaultLanes c s true addrs
    { held := v.1.map (fun x => .bytes (.vault x.2) x.2 false (c.storeData x.1)), faults := v.2 }
  | bad => Eff.cause 6 c.op bad
def execStv (w : Word) (s : State) : Host.Outcome State Fault Refusal := simtR 0x75 w stvEff s

/-! ## Full and empty lines (R43 to R46, R157) -/

/-- LDF: the reads of its lanes, and the lanes switched off (R47, R157). -/
def ldfEff (c : Ctx) (s : State) : Eff :=
  let addrs := c.addrs false
  match misaligned c.size addrs with
  | [] =>
    let inb := scratchLanes c s c.size addrs
    { reads := scratchReads c s true inb.1, smask := inb.2 }
  | bad => Eff.cause 6 c.op bad
def execLdf (w : Word) (s : State) : Host.Outcome State Fault Refusal := simtR 0x76 w ldfEff s

/-- STF (R157). -/
def stfEff (c : Ctx) (s : State) : Eff := scratchStore c s true
def execStf (w : Word) (s : State) : Host.Outcome State Fault Refusal := simtR 0x77 w stfEff s

/-- FEST (R157). -/
def festEff (c : Ctx) (s : State) : Eff :=
  let addrs := c.addrs false
  match misaligned 128 addrs with
  | [] =>
    let inb := scratchLanes c s 128 addrs
    let base := (scratchOf s c.key c.wp).1
    { held := inb.1.map (fun x => .line ((base + x.2) / 128) (c.sop = 1)), smask := inb.2 }
  | bad => Eff.cause 6 c.op bad
def execFest (w : Word) (s : State) : Host.Outcome State Fault Refusal := simtR 0x78 w festEff s

/-! ## The reads of a clock answered (R44 to R46, R48) -/

/-- The destination of a read. -/
def ScrRead.writes (q : ScrRead) (bytes : List Byte) : List (Loc × W32) :=
  regWrites (BitVec.ofNat 8 q.dst) (regsOfSize q.size) q.lane (extendLoad q.size bytes)

/-- What an LDF that finds its line empty waits for (R45). -/
def ScrRead.wait (q : ScrRead) : LdfWait := { line := q.own / 128, byte := q.own % 128, dst := q.dst, size := q.size }

/-- Results of a run's scratchpad reads, seen from the next run on, and an error among their bytes (R155, R372). -/
def Run.answered (r : Run) (ws : List (Loc × W32)) (bad : Bool) : Run :=
  { r with log := (ws.map (fun x => ({ loc := x.1, idx := r.index, dist := none, val := x.2 } : LogEntry))).reverse ++ r.log,
           errAt := if r.ue.isSome then r.errAt else r.faults.length,
           ue := match r.ue with | some u => some u | none => if bad then some 0 else none }

/-- One read answered as the clock leaves its line: an LDF of an empty line waits; an LDS takes free words of a line it races
with, unless an LDF of its lane has gone before in the clock (R44 to R46, R48). `done` are the lanes of those. -/
def answerRead (k : Nat) (wp : Warp) (q : ScrRead) (r : Run) (done : List Nat) (s : State) : (Run × List Nat) × State :=
  let n := sizeBytes q.size
  let p : Place := .scr q.byte
  if q.ldf && !lineFull s (q.byte / 128) then (({ r with ldf := r.ldf ++ [(q.lane, q.wait)] }, done), s)
  else
    let racing := !q.ldf && !done.contains q.lane && lineRaces k wp q.lane s q.byte
    let bytes := if racing then racingBytes k wp s q.byte n else readPlace s p n
    let s' := if racing then { s with free := s.free + 4 } else if q.ldf then acquireLine k wp.gang q.lane (q.own / 128 * 128) s else s
    ((r.answered (q.writes bytes) (isPoisoned s p n), if q.ldf then q.lane :: done else done), s')

/-- The reads of a run answered, in the order they were made. -/
def answerReads (k : Nat) (wp : Warp) : List ScrRead → Run → List Nat → State → Run × State
  | [], r, _, s => (r, s)
  | q :: rest, r, done, s =>
    let x := answerRead k wp q r done s
    answerReads k wp rest x.1.1 x.1.2 x.2

/-- The loads of a run in flight that wait for lines now full are read (R45: no wake-up is lost). -/
def answerWaits (k : Nat) (wp : Warp) (r : Run) (s : State) : Run :=
  let base := (scratchOf s k wp).1
  let at_ := fun (q : LdfWait) => base + q.line * 128 + q.byte
  let full := fun (x : Nat × LdfWait) => lineFull s (at_ x.2 / 128)
  let ready := r.ldf.filter full
  ({ r with ldf := r.ldf.filter (fun x => !full x) } : Run).answered
    (ready.flatMap (fun x => regWrites (BitVec.ofNat 8 x.2.dst) (regsOfSize x.2.size) x.1
      (extendLoad x.2.size (readPlace s (.scr (at_ x.2)) (sizeBytes x.2.size)))))
    (ready.any (fun x => isPoisoned s (.scr (at_ x.2)) (sizeBytes x.2.size)))

/-- The scratchpad reads of warp `k`'s run, as the clock leaves the lines (R44, R45). -/
def settleReads (k : Nat) (s : State) : State :=
  match lookup k s.warps with
  | none => s
  | some wp =>
    match wp.run with
    | none => s
    | some r =>
      if r.reads.isEmpty && r.ldf.isEmpty then s
      else
        let x := answerReads k wp r.reads { r with reads := [] } [] s
        setRun k (answerWaits k wp x.1 x.2) x.2

/-- Every warp's. -/
def settleRuns (s : State) : State := (s.warps.map (·.1)).foldl (fun s k => settleReads k s) s

/-! ## Constant space and prefetch (R158, R159) -/

/-- LDC: bytes beyond the block read as zero (R20, R158). -/
def ldcEff (c : Ctx) (s : State) : Eff :=
  let addrs := c.addrs false
  match misaligned c.size addrs with
  | [] =>
    let k := constOf s c.wp
    { writes := c.dst (regsOfSize c.sop) ((addrs.filter (fun x => c.loaders.contains x.1)).map (fun x =>
        (x.1, extendLoad c.sop ((List.range c.size).map (fun i => k.getD (x.2 + i) 0))))) }
  | bad => Eff.cause 6 c.op bad
def execLdc (w : Word) (s : State) : Host.Outcome State Fault Refusal := simtR 0x79 w ldcEff s

/-- The granules with an uncorrectable error in the line of device memory that holds an address whose translation is
cached (R159, R385). -/
def prefFinds (c : Ctx) (s : State) (va : Nat) : List Nat :=
  if 2 ^ 57 ≤ va then []
  else
    match tlbHit s (.core c.core) (launchOf s c.wp).asn va with
    | none => []
    | some e =>
      (match leafPlace va false .L e with
       | .ok (.dev a, _) => s.badDev.filter (fun g => decide (g / 4 = a / 128))
       | _ => [])

/-- Uncorrectable granules found and not consumed: marked, and reported once through the event log (R385). -/
def reportGranules (l : List Nat) (s : State) : State :=
  { s with mailLog := (l.map (fun g => MailEvent.poisonedDev (32 * g))).foldl (fun m e => if m.contains e then m else m ++ [e]) s.mailLog }

/-- PREF: no effect a program can observe (R159); an uncorrectable granule it finds is reported (R385). -/
def prefEff (c : Ctx) (s : State) : Eff × State :=
  ({}, reportGranules ((c.addrs true).flatMap (fun x => prefFinds c s x.2)).eraseDups s)
def execPref (w : Word) (s : State) : Host.Outcome State Fault Refusal := simt 0x7A w prefEff s

end Sys2Proof.Machine
end

