-- ==== Sys2Proof/Machine/Atomics.lean ====
section
/-! DEFINITION. Atomics and reductions (R163 to R169): operands read at issue, performed at commit, lanes of one address
combined. -/

namespace Sys2Proof.Machine

/-! ## What a strong access does around its read and write -/

/-- Fields of the atomics' extension (R164). -/
def atScope (w : Word) : Nat := w.ext.toNat % 8
def atOrd (w : Word) : Nat := w.ext.toNat / 8 % 4
def atKm (w : Word) : Nat := w.ext.toNat / 256 % 16
def atDisp (w : Word) : Int := sx 20 (w.ext.toNat / 4096)

/-- Fields of a region descriptor (R337). -/
def rgValid (r : BitVec 256) : Bool := fld r 0 1 = 1
def rgWscp (r : BitVec 256) : Nat := fld r 1 3
def rgBase (r : BitVec 256) : Nat := fld r 15 49 * 32768
def rgSize (r : BitVec 256) : Nat := fld r 128 32 * 32768
def rgObj (r : BitVec 256) : Nat := fld r 192 64

/-- An acquire on an object: nothing older is read from then on, and at die scope or wider the core drops its L1 lines of the
regions bound to it (R341, R360, R339). -/
def acquireObject (k : Nat) (obj scope : Nat) (s : State) : State :=
  let s := acquireAll s
  if scope < 3 then s
  else
    match lookup k s.warps with
    | none => s
    | some w =>
      let l := launchOf s w
      let bound := (l.regions.map (·.2)).filter (fun r => rgValid r && decide (rgObj r = obj) && decide (3 ≤ rgWscp r))
      { s with l1 := s.l1.filter (fun x =>
          !(decide (x.1.1 = coreOfWarp k ∧ x.1.2.1 = l.asn) &&
            bound.any (fun r => decide (rgBase r ≤ x.1.2.2 * 128 ∧ x.1.2.2 * 128 < rgBase r + rgSize r)))) }

/-- The core keeps no stale copy of bytes that its warp has written at their place: it drops its L1 lines of them (R166,
R343). -/
def dropL1At (k va : Nat) (s : State) : State :=
  match lookup k s.warps with
  | none => s
  | some w => dropL1 (coreOfWarp k) (launchOf s w).asn va s

/-- One indivisible access of warp `k` to `n` bytes at a place: its own earlier writes are there before it; the new bytes
are there at once, or, for a relaxed access whose path's writes lag, when they reach their place (R166, R345, R346). -/
def strongAccess (k : Nat) (relaxed : Bool) (p : Place) (n : Nat) (f : List Byte → List Byte) (s : State) :
    List Byte × State :=
  let s := settleOwn k p n s
  let o := readPlace s p n
  if relaxed && s.lag.contains .L && decide (f o ≠ o) then
    let s := settlePlace p n s
    let o := readPlace s p n
    (o, laterWrite .L k true p (f o) s)
  else rmwBytes p n f s

/-! ## Operands at issue -/

/-- Registers of an atomic's operands: a quad for CAS128 (R163). -/
def atRegs (c : Ctx) : Nat := if c.op = 0x83 then 4 else regsOf c.ty

/-- The address of an atomic in a lane (R163, R164). -/
def atAddr (c : Ctx) (l : Nat) : Nat :=
  if c.mx = 0 then wrap 64 ((c.a 2 l : Int) + atDisp c.w) else wrap 32 ((c.a 1 l : Int) + atDisp c.w)

/-- An atomic at issue: aligned, permitted, within scratchpad, with its operands (R152, R169). One performed once for the
warp is its lowest active lane's, in sr.smask too (log 82); its success is every active lane's (R166). -/
def atomicEff (c : Ctx) (s : State) : Eff × State :=
  let n := atRegs c
  let all := c.act.map (fun l => (l, atAddr c l))
  match misaligned (4 * n) all with
  | [] =>
    let addrs := all.filter (fun x => c.loaders.contains x.1)
    let p := { c.pend with b := c.loaders.map (fun l => (l, BitVec.ofNat 128 (c.b n 0 l))),
                           c := c.loaders.map (fun l => (l, BitVec.ofNat 128 (c.c n l))) }
    match c.mx with
    | 0 => pendAccess c (4 * n) true addrs p s
    | 1 =>
      let v := vaultLanes c s true addrs
      ({ term := some { p with addr := v.1, place := v.1.map (fun x => (x.1, .vault x.2)) }, faults := v.2,
         ue := if v.1.any (fun x => isPoisoned s (.vault x.2) (4 * n)) then some 0 else none }, s)
    | _ =>
      let inb := scratchLanes c s (4 * n) addrs
      let performed := if c.dScalar && !inb.1.isEmpty then c.act else inb.1.map (·.1)
      ({ term := some { p with lanes := performed, addr := inb.1,
                               place := inb.1.map (fun x => (x.1, scrPlace c s x.2)) }, smask := inb.2,
         ue := if inb.1.any (fun x => isPoisoned s (scrPlace c s x.2) (4 * n)) then some 0 else none }, s)
  | bad => (Eff.cause 6 c.op bad, s)

/-! ## The operations -/

/-- The new value of an integer atomic, and whether .BADD's condition holds (R165). -/
def atomNew (ty op : Nat) (o v c : Nat) : Nat × Bool :=
  let m := 2 ^ intWidth ty
  let so := intVal ty o
  let sv := intVal ty v
  match op with
  | 0 => ((o + v) % m, false)
  | 1 => (if sv < so then v else o, false)
  | 2 => (if so < sv then v else o, false)
  | 3 => (o &&& v, false)
  | 4 => (o ||| v, false)
  | 5 => (o ^^^ v, false)
  | 6 => (v, false)
  | 7 => (if c ≤ o then 0 else o + 1, false)
  | 8 => (if o = 0 ∨ c < o then c else o - 1, false)
  | _ => if o + v < m ∧ o + v ≤ c then (o + v, true) else (o, false)

/-- Lanes of one address acting one after another on a value: the final value, and each lane's old value and success
(R166). -/
def foldLanes (f : Nat → Nat → Nat × Bool) : List Nat → Nat → Nat × List (Nat × Nat × Bool)
  | [], m => (m, [])
  | l :: rest, m =>
    let r := f l m
    let t := foldLanes f rest r.1
    (t.1, (l, m, r.2) :: t.2)

/-- Element by element over the packed types (R167). -/
def eachElem (ty : Nat) (f : FFmt → Nat → Nat → Nat) (a b : Nat) : Nat :=
  if ty = 6 ∨ ty = 7 then
    f (fmtOf ty) (a % 65536) (b % 65536) + 65536 * f (fmtOf ty) (a / 65536 % 65536) (b / 65536 % 65536)
  else f (fmtOf ty) a b

/-- A floating addition rounded to nearest, without flags (R167). -/
def fAdd (ty : Nat) (a b : Nat) : Nat := eachElem ty (fun f x y => (f.add 0 false x y).1) a b

/-- The floating additions of the lanes that name one address (R167). -/
def foldAdd (ty m : Nat) (b : Nat → Nat) : List Nat → Nat → List (Nat × Nat × Bool) → Nat × List (Nat × Nat × Bool)
  | [], p, acc => (fAdd ty m p, acc)
  | l :: rest, p, acc => foldAdd ty m b rest (fAdd ty p (b l)) (acc ++ [(l, fAdd ty m p, false)])

/-- What the lanes of one address do to the value there (R166 to R168). -/
def atomGroup (f : Fin) (ls : List Nat) (m : Nat) : Nat × List (Nat × Nat × Bool) :=
  let ty := f.p.w.ty.toNat
  let sop := f.p.w.sop.toNat
  let b := fun l => (lookupD l 0 f.p.b).toNat
  let c := fun l => (lookupD l 0 f.p.c).toNat
  match f.p.op with
  | 0x81 | 0x85 =>
    if sop = 0 then
      match ls with
      | [] => (m, [])
      | l :: rest => foldAdd ty m b rest (b l) [(l, m, false)]
    else foldLanes (fun l o => (eachElem ty (fun g x y => (g.minmax (sop = 2) x y).1) o (b l), false)) ls m
  | 0x82 | 0x83 => foldLanes (fun l o => (if o = b l then c l else o, false)) ls m
  | _ => foldLanes (fun l o => atomNew ty sop o (b l) (c l)) ls m

/-- The distinct addresses of an instruction, in the order of their first lanes, with their lanes. -/
def byAddress (l : List (Nat × Nat)) : List (Nat × List Nat) :=
  (l.map (·.2)).eraseDups.map (fun a => (a, (l.filter (fun x => x.2 = a)).map (·.1)))

/-- Counters that lanes of warp `k` count up or down by one each: one access for each counter, after the release of the
warp's stores; the core keeps no older copy (R166, R281, R288). -/
def countLanes (k : Nat) (up : Bool) (addrs : List (Nat × Nat)) (places : List (Nat × Place)) (s : State) : State :=
  (byAddress addrs).foldl (fun s a =>
    match a.2.head?.bind (fun l => lookup l places) with
    | none => s
    | some p =>
      let n := BitVec.ofNat 64 a.2.length
      dropL1At k a.1 (rmw64 p (fun v => if up then v + n else v - n) s).2) (releaseStores k s)

/-- Every atomic at commit: one indivisible access per address; old values, success mask, and the order's acquire (R166,
R164). -/
def atomicEnd (f : Fin) (s : State) : State :=
  let n := if f.p.op = 0x83 then 4 else regsOf f.p.w.ty.toNat
  let s := if 2 ≤ atOrd f.p.w then releaseStores f.key s else s
  let go := fun (acc : List (Nat × Nat × Bool) × State) (g : Nat × List Nat) =>
    match g.2.head?.bind (fun l => lookup l f.p.place) with
    | none => acc
    | some p =>
      let x := strongAccess f.key (atOrd f.p.w = 0) p (4 * n) (fun o => leBytes (4 * n) (atomGroup f g.2 (leNat o)).1) acc.2
      let s := if f.p.w.mx = 0 then dropL1At f.key g.1 x.2 else x.2
      let s := if f.p.w.mx = 0 ∧ atOrd f.p.w % 2 = 1 then acquireObject f.key g.1 (atScope f.p.w) s else s
      (acc.1 ++ (atomGroup f g.2 (leNat x.1)).2, s)
  let out := (byAddress f.p.addr).foldl go ([], s)
  let olds := f.p.lanes.filterMap (fun l => (out.1.find? (fun x => x.1 = l)))
  let ret := f.p.op ≠ 0x84 ∧ f.p.op ≠ 0x85
  let ok := f.p.lanes.filterMap (fun l =>
    ((olds.find? (fun x => x.1 = l || (regOf f.p.w.d).isS)).map (fun x => (l, x.2.2))))
  writeRegs f.key
    ((if ret then f.dst n (olds.map (fun x => (x.1, x.2.1))) else []) ++
     (if f.p.op = 0x80 ∧ f.p.w.sop = 9 then maskWrites (BitVec.ofNat 8 (atKm f.p.w)) ok else []))
    out.2

/-! ## The instructions -/

/-- ATOM (R165, R166). -/
def execAtom (w : Word) (s : State) : Host.Outcome State Fault Refusal := simt 0x80 w atomicEff s
/-- ATOMF (R167). -/
def execAtomf (w : Word) (s : State) : Host.Outcome State Fault Refusal := simt 0x81 w atomicEff s
/-- CAS (R168). -/
def execCas (w : Word) (s : State) : Host.Outcome State Fault Refusal := simt 0x82 w atomicEff s
/-- CAS128 (R168). -/
def execCas128 (w : Word) (s : State) : Host.Outcome State Fault Refusal := simt 0x83 w atomicEff s
/-- RED (R166). -/
def execRed (w : Word) (s : State) : Host.Outcome State Fault Refusal := simt 0x84 w atomicEff s
/-- REDF (R167). -/
def execRedf (w : Word) (s : State) : Host.Outcome State Fault Refusal := simt 0x85 w atomicEff s

end Sys2Proof.Machine
end

