-- ==== Sys2Proof/Machine/Barriers.lean ====
section
/-! DEFINITION. Gang barriers: the instructions (R273, R274). Phases complete in Gangs (R275). -/

namespace Sys2Proof.Machine

/-- What every barrier instruction checks at issue (R273): the gang, the declaration, and for BARX the count. -/
def barrierEff (count : Ctx → Nat) (c : Ctx) : Eff :=
  if c.act.isEmpty then { term := if c.full.isEmpty then some c.pend else none }
  else if c.wp.gang.isNone || hdrBars c.wp.hdr ≤ c.w.c.toNat || 1024 < count c then Eff.cause 5 c.op c.act
  else { term := some { c.pend with b := [(0, BitVec.ofNat 128 (count c))] } }

/-- The warp's gang and number, where it takes part in the barrier's instruction. -/
def onBarrier (f : Fin) (g : Nat → Nat → State → State) (s : State) : State :=
  if f.p.lanes.isEmpty then s
  else
    match lookup f.key s.warps with
    | none => s
    | some w =>
      match w.gang with
      | none => s
      | some x => g x w.num s

/-- The barrier's state as a gang holds it. -/
def barrierOf (s : State) (g b : Nat) : Barrier :=
  match lookup g s.gangs with
  | none => { expect := 0 }
  | some x => (lookup b x.barriers).getD { expect := 0 }

/-- An arrival releases every store of the arriving warp (R276). -/
def arrivalRelease (f : Fin) (s : State) : State := if f.p.lanes.isEmpty then s else releaseStores f.key s

/-- BARA (R274). -/
def baraEff (c : Ctx) : Eff := barrierEff (fun _ => 0) c
def execBara (w : Word) (s : State) : Host.Outcome State Fault Refusal := simtP 0xB0 w baraEff s
def baraEnd (f : Fin) (s : State) : State :=
  onBarrier f (fun g n s => modBarrier g f.p.w.c.toNat (Barrier.arrive s.clock n) s) (arrivalRelease f s)

/-- BARW (R274). -/
def barwEff (c : Ctx) : Eff := barrierEff (fun _ => 0) c
def execBarw (w : Word) (s : State) : Host.Outcome State Fault Refusal := simtP 0xB1 w barwEff s
/-- A warp that has arrived in the phase parks until it ends (R274). -/
def barwEnd (f : Fin) (s : State) : State :=
  onBarrier f (fun g n s =>
    let b := barrierOf s g f.p.w.c.toNat
    if b.marks.contains n then parkLanes f.key f.p.lanes (.barrier f.p.w.c.toNat b.phase) s else s) s

/-- BARS (R274). -/
def barsEff (c : Ctx) : Eff := barrierEff (fun _ => 0) c
def execBars (w : Word) (s : State) : Host.Outcome State Fault Refusal := simtP 0xB2 w barsEff s
/-- An arrival, and a park until the phase bit differs from the recorded one (R274). -/
def barsEnd (f : Fin) (s : State) : State :=
  onBarrier f (fun g n s =>
    let s := modBarrier g f.p.w.c.toNat (fun b => { b.arrive s.clock n with bars := insertNat n b.bars }) s
    parkLanes f.key f.p.lanes (.barrier f.p.w.c.toNat ((barrierOf s g f.p.w.c.toNat).recordedPhase n)) s) (arrivalRelease f s)

/-- BARX (R274). -/
def barxEff (c : Ctx) : Eff := barrierEff (fun c => c.b 1 1 0) c
def execBarx (w : Word) (s : State) : Host.Outcome State Fault Refusal := simtP 0xB3 w barxEff s
/-- The expectation: the warps that have not exited for a count of 0, else the count (R274); of several posted in one clock
that of the highest warp key stands (R275). -/
def barxEnd (f : Fin) (s : State) : State :=
  let n := (lookupD 0 0 f.p.b).toNat
  onBarrier f (fun g _ s =>
    modBarrier g f.p.w.c.toNat (fun b =>
      if b.barx.any (fun x => decide (x.1 = s.clock ∧ f.key < x.2)) then b
      else
        { b with deflt := n = 0, expect := if n = 0 then (gangWarps g s).length else n, touched := s.clock,
                 barx := some (s.clock, f.key) }) s) s

end Sys2Proof.Machine
end

