-- ==== Sys2Proof/Machine/Contain.lean ====
section
/-! DEFINITION. Uncorrectable errors contained (R372 to R374), shadows and rollback (R387 to R389), predictive counters
(R386), and the waits tested again when lanes come back (R380). -/

namespace Sys2Proof.Machine

/-! ## Predictive counters (R386) -/

/-- Default marks: memory bank, SIMT lane, partition, core, rill, in the order of R386's table (log 15). -/
def defaultMark (kind : Nat) : Nat :=
  match kind with
  | 0 => 64
  | 1 => 16
  | 2 => 32
  | 3 => 64
  | _ => 4096

def markOf (s : State) (kind : Nat) : Nat := lookupD kind (defaultMark kind) s.marks

/-- A corrected event of a weight: the counter rises to its mark at most, and reaching it is an event with vector 0. -/
def bumpCounter (kind unit weight : Nat) (s : State) : State :=
  let old := lookupD (kind, unit) 0 s.counters
  let m := markOf s kind
  let s' := { s with counters := put (kind, unit) (min m (old + weight)) s.counters }
  if old < m ∧ m ≤ old + weight then
    { s' with mailLog := s'.mailLog ++ [.counter kind unit], msix := 0 :: s'.msix }
  else s'

/-! ## Errors contained (R373, R374) -/

/-- An error consumed by the gang now rolls it back: a clean interval of a shadow that is written, and not the fourth
rollback from it (R374, R389, log 16). -/
def canRoll (x : Gang) : Bool :=
  match x.shadow with
  | some sh => sh.clean && !sh.writing && decide (sh.tries < 3)
  | none => false

/-- An uncorrectable error consumed by a gang on a path: rollback or a kill with status 0x0022 (R374). -/
def containGang (g path : Nat) (s : State) : State :=
  match lookup g s.gangs with
  | none => s
  | some x =>
    if canRoll x then modGang g (fun x => { x with rolling := true, rollPath := path }) s else killGang g 0x22 path s

/-- A run of warp `k` has consumed an uncorrectable error on a path (R373, R374). -/
def containRun (k path : Nat) (s : State) : State :=
  match lookup k s.warps with
  | none => s
  | some w =>
    match w.gang with
    | some g => containGang g path s
    | none => killLaunch w.launch 0x22 allOnes64 path s

/-! ## Lines left full (R44, R45) -/

/-- A line one of the warp's pending loads waits for has an uncorrectable error in the bytes loaded (R372). -/
def ldfPoisoned (s : State) (base ln : Nat) (w : Warp) : Bool :=
  let bad := fun (q : LdfWait) => decide (base / 128 + q.line = ln) && isPoisoned s (.scr (base + q.line * 128 + q.byte)) (sizeBytes q.size)
  w.lanes.any (fun l => l.loads.any bad) || (match w.handler with | some h => h.loads.any (fun x => x.2.any bad) | none => false)

/-- Lanes waiting for a line that is full read it and continue (R44 to R46). -/
def wakeLdf (ln : Nat) (s : State) : State :=
  if !lineFull s ln then s
  else
    s.warps.foldl (fun s x =>
      let base := (scratchOf s x.1 x.2).1
      let data := fun (q : LdfWait) =>
        extendLoad q.size (readPlace s (.scr (base + q.line * 128 + q.byte)) (sizeBytes q.size))
      let mine := fun (q : LdfWait) => decide (base / 128 + q.line = ln)
      let s := if ldfPoisoned s base ln x.2 then containRun x.1 0 s else s
      let s := (allLanes.filter (fun i => (x.2.lane i).loads.any mine)).foldl
        (fun s i => acquireLine x.1 x.2.gang i (128 * ln - base) s) s
      modWarp x.1 (fun w => allLanes.foldl (fun w i =>
        answerLdf s.clock data mine i w) w) s) s

/-- The lines that pending loads wait for, by the package's numbering. -/
def waitedLines (s : State) : List Nat :=
  (s.warps.flatMap (fun x =>
    let base := (scratchOf s x.1 x.2).1 / 128
    (x.2.lanes.flatMap (fun l => l.loads.map (fun q => base + q.line))) ++
    (match x.2.handler with | some h => h.loads.flatMap (fun y => y.2.map (fun q => base + q.line)) | none => []))).eraseDups

/-- At the end of a clock every line left full is read by the loads that wait for it, and the order of R44 begins anew
(R44, R45). -/
def endClockLines (s : State) : State :=
  { (waitedLines s).foldl (fun s ln => wakeLdf ln s) s with scrNow := [] }

/-! ## Waits tested again (R380) -/

/-- A barrier wait whose phase has ended is released. -/
def endedPhase (bars : List (Nat × Barrier)) (st : LaneState) : LaneState :=
  match st with
  | .parked (.barrier b phase) =>
    (match lookup b bars with
     | some x => if x.phase ≠ phase then .ready else st
     | none => st)
  | _ => st

/-- A counter looked at again reads zero; one with an uncorrectable error is consumed by the wait's own step (R290, R385). -/
def counterZero (s : State) (p : Place) : Bool := !isPoisoned s p 8 && decide (read64 s p = 0)

/-- Join waits whose counter is zero now are met; `away` are the addresses they cannot look at. -/
def retestJoin (s : State) (away : Nat → Bool) (st : LaneState) : LaneState :=
  match st with
  | .parked (.join (some p) c f r false) =>
    if !away c.toNat && counterZero s p then .parked (.join (some p) c f r true) else st
  | _ => st

/-- A wait looks again at a flag or counter that holds an uncorrectable error (R385). -/
def waitBroken (s : State) (away : Nat → Bool) : Park → Bool
  | .flag p va _ _ _ _ _ none => !away va && isPoisoned s p 8
  | .join (some p) c _ _ false => !away c.toNat && isPoisoned s p 8
  | _ => false

/-- The wait of lane `lane` of warp `k` looks again at bytes that hold an uncorrectable error, and has consumed it (R374,
R385). -/
def consumeWait (k lane : Nat) (w : Warp) (s : State) : State :=
  if (w.parkOf (waitBroken s (s.awayFor w.launch)) lane).isSome then containRun k Path.L.code s else s

/-- The full lines of a stretch of a core's scratchpad offered to the loads that wait for them (R45). -/
def rearmLines (lo n : Nat) (s : State) : State :=
  (s.scrFull.filter (fun l => decide (lo ≤ l ∧ l < lo + n))).foldl (fun s l => wakeLdf l s) s

/-- Every wait of a gang tested again: barriers, joins, tags, flags, lines, masks (R380, R389). -/
def rearmGang (g : Nat) (s : State) : State :=
  match lookup g s.gangs with
  | none => s
  | some x =>
    let s := modGangWarps g (fun w => w.release s.clock (endedPhase x.barriers)) s
    let s := modGangWarps g (fun w => w.mapStates (retestJoin s (s.awayFor x.launch))) s
    let s := wakeFlags (meetTags g s)
    let s := rearmLines (x.core * 4096 + x.scrAt) (hdrScrl x.hdr) s
    modGangWarps g (releaseMasks s.clock) s

/-! ## Shadows (R387, R388) -/

/-- A register of a warp, or a granule of a stretch of scratchpad bytes, has an uncorrectable error (R384). -/
def badSources (s : State) (ws : List (Nat × Warp)) (lo n : Nat) : Bool :=
  ws.any (fun w => !w.2.badRegs.isEmpty) || (decide (0 < n) && isPoisoned s (.scr lo) n)

/-- A lane whose phase has ended, as a shadow holds it. -/
def pastShadow (st : LaneState) : LaneState := if st = .parked .shadow then .ready else st

/-- The shadow of a gang as it stands, with its lanes past the phases that have ended; an error met in writing it kills the
launch (R387, R389). -/
def takeShadow (g : Nat) (s : State) : State :=
  match lookup g s.gangs with
  | none => s
  | some x =>
    if !hdrRb x.hdr then s
    else
      let lo := (x.core * 4096 + x.scrAt) * 128
      let n := hdrScrl x.hdr
      let sh : Shadow :=
        { warps := (gangWarps g s).map (fun y => (y.1, y.2.mapStates pastShadow)), barriers := x.barriers,
          scrBytes := s.scr.slice lo (lo + n * 128),
          scrFull := (s.scrFull.filter (fun l => decide (lo / 128 ≤ l ∧ l < lo / 128 + n))).map (fun l => l - lo / 128) }
      let s := modGang g (fun x => { x with shadow := some sh }) s
      if badSources s (gangWarps g s) lo (n * 128) then killGang g 0x22 6 s else s

/-- The interval of a gang's shadow is dirty from here on (R388). -/
def dirtyGang (g : Nat) (s : State) : State :=
  modGang g (fun x => { x with shadow := x.shadow.map (fun sh => { sh with clean := false }) }) s

/-- A warp of the shadow as it comes back (R387, R389): the shadow's registers, lanes and tables; everything it does not
hold as the warp has it now, or as it exited; no trap save and no substitution record; what it restores holds no error. -/
def shadowWarp (clock : Nat) (sh : Warp) (now : Option Warp) : Warp :=
  let b := now.getD sh
  { b with v := sh.v, s := sh.s, k := sh.k, lanes := sh.lanes, pp := sh.pp, serial := sh.serial, run := none,
           handler := none, subst := [], faultWait := [], mismatched := [], readySince := clock,
           badRegs := b.badRegs.filter (fun l => match l with | .sr _ _ => true | _ => false) }

/-- A context that no warp holds and no launch keeps in reserve (R286). -/
def contextFree (s : State) (k : Nat) : Bool :=
  (lookup k s.warps).isNone && !s.launches.any (fun l => l.2.reserves.any (fun r => r.2.any (fun x => x.1 = k)))

/-- A free context for a warp of a partition: its own, or another; none where the partition is full. -/
def freeContext (s : State) (part key : Nat) : Option Nat :=
  if contextFree s key then some key
  else ((List.range 16).map (fun c => part * 16 + c)).find? (contextFree s)

/-- A warp of a shadow put back: over itself, or, where it has exited since, in a free context. -/
def restoreWarp (g path : Nat) (left : List (Nat × Warp)) (y : Nat × Warp) (s : State) : State :=
  match (gangWarps g s).find? (fun z => z.2.num = y.2.num) with
  | some z => { s with warps := put z.1 (shadowWarp s.clock y.2 (some z.2)) s.warps }
  | none =>
    match freeContext s (partOfWarp y.1) y.1 with
    | some k => { s with warps := put k (shadowWarp s.clock y.2 (lookup y.2.num left)) s.warps }
    | none => killGang g 0x22 path s

/-- ROLLBACK (R389): the shadow of a rolling gang is restored once all its warps stand at a run boundary; an interval a
last run made dirty, and an error in the shadow itself, kill the launch instead. -/
def rollback (g : Nat) (s : State) : State :=
  match lookup g s.gangs with
  | none => s
  | some x =>
    if !x.rolling || (gangWarps g s).any (fun y => y.2.run.isSome) then s
    else
      match x.shadow with
      | none => s
      | some sh =>
        if !sh.clean || sh.bad then
          killGang g 0x22 (if sh.clean then 6 else x.rollPath) (modGang g (fun x => { x with rolling := false }) s)
        else
          let lo := x.core * 4096 + x.scrAt
          let n := hdrScrl x.hdr
          let nums := sh.warps.map (fun y => y.2.num)
          let s := modGang g (fun x =>
            { x with barriers := sh.barriers, exitedWarps := x.exitedWarps.filter (fun m => !nums.contains m),
                     left := x.left.filter (fun y => !nums.contains y.1), state := .placed, rolling := false, rollbacks := x.rollbacks + 1,
                     shadow := some { sh with tries := sh.tries + 1 } }) s
          let s := { s with
            scr := (s.scr.clear (lo * 128) ((lo + n) * 128)).paste (lo * 128) sh.scrBytes,
            badScr := s.badScr.filter (fun g => !decide (lo * 16 ≤ g ∧ g < (lo + n) * 16)),
            scrFull := sh.scrFull.foldl (fun l a => insertNat (lo + a) l)
              (s.scrFull.filter (fun l => !decide (lo ≤ l ∧ l < lo + n))) }
          let s := sh.warps.foldl (fun s y => restoreWarp g x.rollPath x.left y s) s
          rearmGang g (bumpCounter 3 x.core 16 s)

def execRollback (gang : Nat) (s : State) : Host.Outcome State Fault Refusal := .next (rollback gang s)

/-- SHADOW_COMPLETE (R387): the shadow is written, and the lanes its phase released go on. -/
def shadowComplete (g : Nat) (s : State) : State :=
  match lookup g s.gangs with
  | none => s
  | some x =>
    match x.shadow with
    | none => s
    | some sh =>
      if !sh.writing then s
      else
        modGangWarps g (fun w => w.release s.clock pastShadow)
          (modGang g (fun x => { x with shadow := some { sh with writing := false } }) s)

def execShadowComplete (gang : Nat) (s : State) : Host.Outcome State Fault Refusal := .next (shadowComplete gang s)

end Sys2Proof.Machine
end

