-- ==== Sys2Proof/Machine/Tensor.lean ====
section
/-! DEFINITION. The tensor table (R70, R71, R75 to R81), tensor loads and stores (R160 to R162), and the tensor-table
instructions (R173 to R175). The same element functions serve the matrix unit, the weirs and the samplers. -/

namespace Sys2Proof.Machine

/-! ## Entries (R75) -/

/-- A tensor entry's 64 bytes. -/
abbrev TEntry := BitVec 512

/-- An entry the launch image does not supply (R75). -/
def emptyTensor : TEntry := BitVec.ofNat 512 (0x800 * 2 ^ 238)

def tnBase (e : TEntry) : Nat := fld e 0 57
def tnVault (e : TEntry) : Bool := fld e 57 1 = 1
def tnFmt (e : TEntry) : Nat := fld e 58 4
def tnRank (e : TEntry) : Nat := fld e 62 2 + 1
def tnSBase (e : TEntry) : Nat := fld e 64 57
def tnSVault (e : TEntry) : Bool := fld e 121 1 = 1
def tnSgran (e : TEntry) : Nat := fld e 122 3
def tnAuto (e : TEntry) : Bool := fld e 125 1 = 1
def tnValid (e : TEntry) : Bool := fld e 126 1 = 1
def tnRnd (e : TEntry) : Nat := fld e 182 2
def tnSatm (e : TEntry) : Bool := fld e 184 1 = 1
def tnBact (e : TEntry) : Nat := fld e 185 2
def tnNanok (e : TEntry) : Bool := fld e 187 1 = 1
def tnImg (e : TEntry) : Bool := fld e 188 1 = 1
def tnFilt (e : TEntry) : Nat := fld e 189 2
def tnBrd (e : TEntry) : Bool := fld e 191 1 = 1
def tnAu (e : TEntry) : Nat := fld e 210 2
def tnAv (e : TEntry) : Nat := fld e 212 2
def tnSstr (e : TEntry) : Nat := fld e 214 24
def tnEmax (e : TEntry) : Int := sx 12 (fld e 238 12)
def tnTscale (e : TEntry) : Nat := fld e 352 32
def tnLo (e : TEntry) : Nat := fld e 384 32
def tnHi (e : TEntry) : Nat := fld e 416 32
def tnUfc (e : TEntry) : Nat := fld e 448 24
def tnSatc (e : TEntry) : Nat := fld e 472 24
def tnViol (e : TEntry) : Nat := fld e 496 16

/-- The size field of a dimension as it stands, less one. -/
def tnDimField (e : TEntry) (d : Nat) : Nat :=
  match d with
  | 0 => fld e 128 18
  | 1 => fld e 146 18
  | 2 => fld e 164 18
  | _ => fld e 192 18

/-- The size of a dimension; one beyond the rank (R76). -/
def tnDim (e : TEntry) (d : Nat) : Nat := if d < tnRank e then tnDimField e d + 1 else 1

/-- The byte stride of dimensions 1 to 3 in units of 16 bytes. -/
def tnStr (e : TEntry) (d : Nat) : Nat := fld e (224 + 32 * d) 32

/-- Bits of an element of a format. -/
def elemBits (fmt : Nat) : Nat := if isFloat fmt then (fmtOf fmt).width else intWidth fmt

/-- SGRAN suits the format (R70). -/
def sgranOk (fmt g : Nat) : Bool :=
  match g with
  | 0 => fmt ≠ 0xC
  | 1 => fmt = 0xC
  | 2 => fmt = 8 ∨ fmt = 9 ∨ fmt = 0xA ∨ fmt = 0xB
  | 3 => fmt = 8 ∨ fmt = 9 ∨ fmt = 0xA ∨ fmt = 0xB
  | _ => false

/-- A bound as a value: FP32 for floating formats, signed 32-bit for integer formats (R175). -/
def boundVal (fmt x : Nat) : FVal := if isFloat fmt then fp32.decode x else ofInt (sx 32 x) 0

/-- Bounds that R77 and R175 refuse: a NaN, or LO above HI. -/
def badBounds (fmt lo hi : Nat) : Bool :=
  (boundVal fmt lo).isNaN || (boundVal fmt hi).isNaN || decide (0 < cmpVals (boundVal fmt lo) (boundVal fmt hi))

/-- An entry with VALID 1 is malformed (R77). -/
def tnMalformed (e : TEntry) : Bool :=
  let f := tnFmt e
  fld e 250 6 ≠ 0 || fld e 127 1 ≠ 0 || 3 < tnSgran e || 1 < tnFilt e ||
  f = 6 || f = 7 || f = 0xF || !sgranOk f (tnSgran e) ||
  (tnAuto e && (tnSgran e = 0 || tnSgran e = 3)) || (f = 0xC && tnDim e 0 % 2 ≠ 0) ||
  [1, 2, 3].any (fun d => decide (tnRank e ≤ d ∧ tnDimField e d ≠ 0)) ||
  tnBase e % 16 ≠ 0 || tnSBase e % 16 ≠ 0 || (tnVault e && tnBase e / 2 ^ 30 ≠ 0) || (tnSVault e && tnSBase e / 2 ^ 30 ≠ 0) ||
  (tnTscale e ≠ 0 && !(decide (2 ^ 23 ≤ tnTscale e) && decide (tnTscale e < 255 * 2 ^ 23))) ||
  (tnBact e ≠ 0 && badBounds f (tnLo e) (tnHi e)) ||
  (!tnImg e && (fld e 189 3 ≠ 0 || fld e 210 4 ≠ 0)) ||
  (tnImg e && (!(tnRank e = 2 || tnRank e = 3) || !(isFloat f || f = 0xE)))

/-- An instruction may use the entry (R77). -/
def tnUsable (e : TEntry) : Bool := tnValid e && !tnMalformed e

/-- Entry `n` of a launch. -/
def Launch.tensor (l : Launch) (n : Nat) : TEntry := lookupD n emptyTensor l.tensors

/-! ## Geometry (R71, R76) -/

/-- The position lies within the geometry; coordinates beyond the rank are ignored (R76, R160). -/
def tnInside (e : TEntry) (ix : List Nat) : Bool :=
  (List.range (tnRank e)).all (fun d => decide (ix.getD d 0 < tnDim e d))

/-- A coordinate, 0 beyond the rank. -/
def tnCoord (e : TEntry) (ix : List Nat) (d : Nat) : Nat := if d < tnRank e then ix.getD d 0 else 0

/-- The address of an element's first byte (R76). -/
def elemAddr (e : TEntry) (ix : List Nat) : Nat :=
  tnBase e + tnCoord e ix 0 * elemBits (tnFmt e) / 8 +
    16 * (tnStr e 1 * tnCoord e ix 1 + tnStr e 2 * tnCoord e ix 2 + tnStr e 3 * tnCoord e ix 3)

/-- The nibble an element takes: 0 a whole byte or more, 1 the low one, 2 the high one (R62). -/
def elemNib (e : TEntry) (ix : List Nat) : Nat := if tnFmt e = 0xC then 1 + tnCoord e ix 0 % 2 else 0

/-- Bytes an element's access reads. -/
def elemSize (e : TEntry) : Nat := max 1 (elemBits (tnFmt e) / 8)

/-- The address and bytes of an element's granular scale (R71). -/
def scaleAddr (e : TEntry) (ix : List Nat) : Nat × Nat :=
  let i := tnCoord e ix
  let row := 16 * tnSstr e
  match tnSgran e with
  | 1 => (tnSBase e + row * (i 1 + tnDim e 1 * (i 2 + tnDim e 2 * i 3)) + i 0 / 32, 1)
  | 2 => (tnSBase e + row * (i 1 + tnDim e 1 * (i 2 + tnDim e 2 * i 3)) + 4 * (i 0 / 128), 4)
  | _ => (tnSBase e + row * (i 1 / 128 + (tnDim e 1 + 127) / 128 * (i 2 + tnDim e 2 * i 3)) + 4 * (i 0 / 128), 4)

/-! ## Element access -/

/-- Who reads a tensor: its translation, space and path, and the warp it reads for, if any; on path L through the L1 of that
warp's core (R12). -/
structure TUser where
  x : Xlate
  sp : Space
  path : Path
  warp : Option Nat
deriving DecidableEq, Repr

/-- The place of a tensor address in the space its bit names (R38, R76). -/
def tensorPlace (u : TUser) (inVault : Bool) (addr : Nat) (write : Bool) (s : State) :
    Except AccFault (Place × Nat) × State :=
  if inVault then
    (if vaultOk s u.sp.rhnd addr write then .ok (.vault addr, 1) else .error (vaultFault addr write u.path), s)
  else translate u.x u.sp addr write false u.path s

/-- Bytes of a tensor, with whether one is poisoned. -/
def tensorBytes (u : TUser) (va : Nat) (p : Place) (cache n : Nat) (s : State) : (List Byte × Bool) × State :=
  match u.warp with
  | some k =>
    if u.path = .L then loadAt k u.sp.asn va p cache n s
    else
      let s := freshFor k u.sp.asn va u.path p n s
      ((readOn u.path s p n, isPoisoned s p n), s)
  | none => ((readOn u.path s p n, isPoisoned s p n), s)

/-- What a tensor access yields: bytes and poison, or a fault. -/
def tensorRead (u : TUser) (inVault : Bool) (addr n : Nat) (s : State) : Except AccFault (Nat × Bool) × State :=
  match tensorPlace u inVault addr false s with
  | (.error f, s) => (.error f, s)
  | (.ok p, s) =>
    let r := tensorBytes u addr p.1 p.2 n s
    (.ok (leNat r.1.1, r.1.2), r.2)

/-- The value of an E8M0 scale (R70). -/
def e8m0 (b : Nat) : FVal := if b = 255 then .nan false else .num false 1 ((b : Int) - 127)

/-- A scale's value: a NaN of any kind gives NaN (R71). -/
def scaleVal32 (x : Nat) : FVal := if (fp32.decode x).isNaN then .nan false else fp32.decode x

/-- The tensor scale T (R70). -/
def tnT (e : TEntry) : FVal := if tnTscale e = 0 then .num false 1 0 else fp32.decode (tnTscale e)

/-- The granular scale of an element, with poison (R70, R71). -/
def readScale (u : TUser) (e : TEntry) (ix : List Nat) (s : State) : Except AccFault (FVal × Bool) × State :=
  if tnSgran e = 0 then (.ok (.num false 1 0, false), s)
  else
    let a := scaleAddr e ix
    match tensorRead u (tnSVault e) a.1 a.2 s with
    | (.error f, s) => (.error f, s)
    | (.ok r, s) => (.ok (if tnSgran e = 1 then e8m0 r.1 else scaleVal32 r.1, r.2), s)

/-- The exact product of two values, NaN for ∞ × 0 and for a NaN (R71); a signalling first factor stays so. -/
def timesVal (a b : FVal) : FVal :=
  match a, b with
  | .nan s, _ => .nan s
  | _, .nan _ => .nan false
  | a, b => (mulVals a b).getD (.nan false)

/-- The element's bits out of the bytes read (R62). -/
def elemOf (e : TEntry) (ix : List Nat) (x : Nat) : Nat :=
  match elemNib e ix with
  | 1 => x % 16
  | 2 => x / 16 % 16
  | _ => x

/-- The granular scale of an element of a floating format; 1 for an integer one. -/
def scaleFor (u : TUser) (e : TEntry) (ix : List Nat) (s : State) : Except AccFault (FVal × Bool) × State :=
  if isFloat (tnFmt e) then readScale u e ix s else (.ok (.num false 1 0, false), s)

/-- The faults of an access made of two. -/
def bothFaults {α β : Type} (x : Except AccFault α) (y : Except AccFault β) : List AccFault :=
  (match x with | .error f => [f] | .ok _ => []) ++ (match y with | .error f => [f] | .ok _ => [])

/-- An element read: its bits, its scale g × T, and poison; or the faults of the element and of its scale (R38, R97). -/
def readElem (u : TUser) (e : TEntry) (ix : List Nat) (s : State) : Except (List AccFault) (Nat × FVal × Bool) × State :=
  let x := tensorRead u (tnVault e) (elemAddr e ix) (elemSize e) s
  let g := scaleFor u e ix x.2
  (match x.1, g.1 with
   | .ok r, .ok g => .ok (elemOf e ix r.1, timesVal g.1 (tnT e), r.2 || g.2)
   | a, b => .error (bothFaults a b), g.2)

/-- An exact value converted to a register type (R65, R66). -/
def convVal (dst rm : Nat) (sat : Bool) (x : FVal) : FRes :=
  if isFloat dst then (fmtOf dst).conv rm sat x
  else
    let r := toInt dst rm x
    (intPattern dst r.1, r.2)

/-! ## Writing an element (R79, R80) -/

/-- What one element's write does. -/
structure TOut where
  bits : Nat
  flags : FFlags
  viol : Bool
  satc : Bool
  ufc : Bool
  emax : Option Int
deriving DecidableEq, Repr, Inhabited

/-- The bound check and action: whether x violates, and what is offered on (R79, steps 1 and 2). -/
def boundStep (e : TEntry) (x : FVal) : Bool × FVal :=
  if tnBact e = 0 then (false, x)
  else if x.isNaN then (!tnNanok e, if !tnNanok e && 2 ≤ tnBact e then .num false 0 0 else x)
  else
    let lo := boundVal (tnFmt e) (tnLo e)
    let hi := boundVal (tnFmt e) (tnHi e)
    if cmpVals x lo < 0 then (true, if 2 ≤ tnBact e then lo else x)
    else if 0 < cmpVals x hi then (true, if 2 ≤ tnBact e then hi else x)
    else (false, x)

/-- The unbiased exponent of a finite nonzero value. -/
def expOf (x : FVal) : Option Int :=
  match x with
  | .num _ m e => if m = 0 then none else some (e + Nat.log2 m)
  | _ => none

/-- A conversion's result with one more flag. -/
def withFlag (fl : FFlags) (r : FRes) : FRes := (r.1, r.2 ||| fl)

/-- x / d rounded once to a floating format by a conversion (R65, R79 step 4); infinities and zeros as IEEE 754 has them,
with the flags of the conversion, and those of the division: invalid for 0 / 0 and ∞ / ∞, divide by zero for a number over
zero (log 13). -/
def FFmt.convDiv (f : FFmt) (rm : Nat) (sat : Bool) (x d : FVal) : FRes :=
  match x, d with
  | .nan s, _ => f.conv rm sat (.nan s)
  | _, .nan _ => f.conv rm sat (.nan false)
  | .inf _, .inf _ => withFlag flagNV (f.conv rm sat (.nan false))
  | .inf a, .num b _ _ => f.conv rm sat (.inf (a != b))
  | .num a _ _, .inf b => (f.sign (a != b), 0)
  | .num a m e, .num b n g =>
    if n = 0 then
      (if m = 0 then withFlag flagNV (f.conv rm sat (.nan false)) else withFlag flagDZ (f.conv rm sat (.inf (a != b))))
    else if m = 0 then (f.sign (a != b), 0)
    else
      let q := ratio (f.mb + 4) m n
      f.convNum rm sat (a != b) q.1 (q.2.1 + e - g) q.2.2

/-- The integer a value is, for a value offered by an integer source. -/
def intOf (x : FVal) : Int :=
  match x with
  | .num n m e =>
    let k : Int := if 0 ≤ e then m * 2 ^ e.toNat else m / 2 ^ (-e).toNat
    if n then -k else k
  | _ => 0

/-- One element through the four steps (R79) with granular scale times T `d`; `isInt` says that the source is an
integer (R66). UFC counts finite nonzero values that give zero, and no NaN or infinity (log 77). -/
def writeElem (e : TEntry) (d : FVal) (x : FVal) (isInt : Bool) : TOut :=
  let b := boundStep e x
  let v := b.2
  let fl : FFlags := if b.1 then flagBV else 0
  let f := tnFmt e
  if isFloat f then
    let r := (fmtOf f).convDiv (tnRnd e) (tnSatm e) v d
    { bits := r.1, flags := fl ||| r.2, viol := b.1, satc := r.2 &&& (flagOF ||| flagSAT) ≠ 0,
      ufc := (expOf v).isSome && decide (r.1 % 2 ^ ((fmtOf f).width - 1) = 0), emax := expOf v }
  else if isInt then
    let n := intOf v
    let r := intToInt f (tnSatm e) n
    let w := wrap (intWidth f) r.1
    { bits := w, flags := fl ||| r.2, viol := b.1, satc := decide (satInt f n ≠ n),
      ufc := (expOf v).isSome && decide (w = 0), emax := expOf v }
  else
    let r := toInt f (tnRnd e) v
    let w := wrap (intWidth f) r.1
    { bits := w, flags := fl ||| r.2, viol := b.1, satc := !v.isNaN && decide (r.2 &&& flagNV ≠ 0),
      ufc := (expOf v).isSome && decide (w = 0), emax := expOf v }

/-- The counters of an entry moved on, each saturating (R80). -/
def bumpCounters (viol satc ufc : Nat) (emax : Option Int) (e : TEntry) : TEntry :=
  let e := setFld e 496 16 (min 0xFFFF (tnViol e + viol))
  let e := setFld e 472 24 (min 0xFFFFFF (tnSatc e + satc))
  let e := setFld e 448 24 (min 0xFFFFFF (tnUfc e + ufc))
  match emax with
  | some x => setFld e 238 12 (wrap 12 (max (tnEmax e) (max (-2047) (min 2047 x))))
  | none => e

/-- An entry of a launch changed. -/
def modTensor (l n : Nat) (f : TEntry → TEntry) (s : State) : State :=
  modLaunch l (fun x => { x with tensors := put n (f (x.tensor n)) x.tensors }) s

/-! ## LDT and STT (R160 to R162) -/

/-- The coordinates of a lane (R160). -/
def Ctx.coords (c : Ctx) (l : Nat) : List Nat :=
  (List.range 4).map (fun i => c.a 4 l / 2 ^ (32 * i) % 2 ^ 32)

/-- A warp's lanes reading tensors on a path. -/
def userOf (c : Ctx) (s : State) (path : Path) : TUser :=
  { x := .core c.core, sp := spaceOf (launchOf s c.wp), path := path, warp := some c.key }

/-- The tensor-descriptor cause of entry C (R77, R362). -/
def tensorCause (c : Ctx) : Eff := Eff.cause 7 c.w.c.toNat c.act

/-- A non-canonical address is found before any lane's access is performed: the instruction leaves its faults alone, and the
machine as it was (R21). -/
def canonicalFirst (s : State) (r : Eff × State) : Eff × State :=
  if r.1.faults.any (fun f => f.kind = 5) then ({ faults := r.1.faults }, s) else r

/-- LDT in the lanes given: results with flags, faults, poison. -/
def ldtLanes (c : Ctx) (u : TUser) (e : TEntry) : List Nat → State → (List (Nat × FRes) × List AccFault × Bool) × State
  | [], s => (([], [], false), s)
  | l :: rest, s =>
    if !tnInside e (c.coords l) then
      let t := ldtLanes c u e rest s
      (((l, (0, 0)) :: t.1.1, t.1.2.1, t.1.2.2), t.2)
    else
      match readElem u e (c.coords l) s with
      | (.error fs, s) =>
        let t := ldtLanes c u e rest s
        ((t.1.1, fs ++ t.1.2.1, t.1.2.2), t.2)
      | (.ok (x, g, bad), s) =>
        let t := ldtLanes c u e rest s
        let r := if isFloat (tnFmt e) then convVal c.ty c.rm c.w.sat (timesVal ((fmtOf (tnFmt e)).decode x) g)
                 else if c.ty = tnFmt e then (intPattern c.ty (intVal c.ty x), 0)
                 else convert c.ty (tnFmt e) c.rm c.w.sat x
        (((l, r) :: t.1.1, t.1.2.1, bad || t.1.2.2), t.2)

/-- LDT (R161). -/
def ldtEff (c : Ctx) (s : State) : Eff × State :=
  let e := (launchOf s c.wp).tensor c.w.c.toNat
  if c.act.isEmpty then ({}, s)
  else if !tnUsable e then (tensorCause c, s)
  else
    let r := ldtLanes c (userOf c s .L) e c.loaders s
    canonicalFirst s
      ({ writes := c.dst (regsOf c.ty) (r.1.1.map (fun x => (x.1, x.2.1))),
         flags := if c.dScalar then r.1.1.flatMap (fun x => c.act.map (fun l => (l, x.2.2))) else r.1.1.map (fun x => (x.1, x.2.2)),
         faults := r.1.2.1, ue := if r.1.2.2 then some 0 else none }, r.2)
def execLdt (w : Word) (s : State) : Host.Outcome State Fault Refusal := simt 0x7B w ldtEff s

/-- The value STT offers: exact (R79). -/
def offerOf (ty x : Nat) : FVal := if isFloat ty then (fmtOf ty).decode x else ofInt (intVal ty x) 0

/-- STT in the lanes given: what each writes, faults, poison. -/
def sttLanes (c : Ctx) (u : TUser) (e : TEntry) :
    List Nat → State → (List (Nat × ElemWrite × TOut) × List AccFault × Bool) × State
  | [], s => (([], [], false), s)
  | l :: rest, s =>
    if !tnInside e (c.coords l) then sttLanes c u e rest s
    else
      let x := tensorPlace u (tnVault e) (elemAddr e (c.coords l)) true s
      let y := scaleFor u e (c.coords l) x.2
      let t := sttLanes c u e rest y.2
      (match x.1, y.1 with
       | .ok p, .ok g =>
         let o := writeElem e (timesVal g.1 (tnT e)) (offerOf c.ty (c.b (regsOf c.ty) c.ty l)) (!isFloat c.ty)
         let w : ElemWrite := { place := p.1, va := elemAddr e (c.coords l), l1 := !tnVault e && p.2 = 0,
                                size := elemSize e, nib := elemNib e (c.coords l), bits := o.bits }
         ((l, w, o) :: t.1.1, t.1.2.1, g.2 || t.1.2.2)
       | a, b => (t.1.1, bothFaults a b ++ t.1.2.1, t.1.2.2), t.2)

/-- STT: elements and counters held; a bounds cause after the commit under BACT 3 (R162). -/
def sttEff (c : Ctx) (s : State) : Eff × State :=
  let n := c.w.c.toNat
  let e := (launchOf s c.wp).tensor n
  if c.act.isEmpty then ({}, s)
  else if !tnUsable e then (tensorCause c, s)
  else
    let r := sttLanes c (userOf c s .L) e c.act s
    let one := fun (b : Bool) => if b then 1 else 0
    canonicalFirst s
      ({ held := r.1.1.flatMap (fun x =>
           [.elem n x.2.1, .count n (one x.2.2.viol) (one x.2.2.satc) (one x.2.2.ufc) x.2.2.emax]),
         flags := r.1.1.map (fun x => (x.1, x.2.2.flags)),
         post := if tnBact e = 3 ∧ r.1.1.any (fun x => x.2.2.viol) then
             [(0x0A, n, maskOf ((r.1.1.filter (fun x => x.2.2.viol)).map (·.1)))] else [],
         faults := r.1.2.1, ue := if r.1.2.2 then some 0 else none }, r.2)
def execStt (w : Word) (s : State) : Host.Outcome State Fault Refusal := simt 0x7C w sttEff s

/-! ## Tensor-table instructions (R173 to R175) -/

/-- TDEF: the image is read at issue and replaces the entry at commit (R174). -/
def tdefEff (c : Ctx) (s : State) : Eff × State :=
  if c.act.isEmpty then ({}, s)
  else if c.a 2 0 % 64 ≠ 0 then (Eff.cause 6 c.op c.act, s)
  else
    match tensorRead (userOf c s .L) false (c.a 2 0) 64 s with
    | (.error f, s) => ({ faults := [f] }, s)
    | (.ok r, s) =>
      let e := BitVec.ofNat 512 r.1
      (if r.2 then { ue := some 0 }
       else if tnValid e && tnMalformed e then tensorCause c
       else { held := [.tdef c.w.c.toNat e] }, s)
def execTdef (w : Word) (s : State) : Host.Outcome State Fault Refusal := simt 0x98 w tdefEff s

/-- A counter as TQRY and TUFC return it (R175). -/
def counterOf (e : TEntry) (which : Nat) : Nat :=
  match which with
  | 0 => tnViol e
  | 1 => tnSatc e
  | 2 => tnUfc e
  | _ => wrap 32 (tnEmax e)

/-- TQRY (R175); it sees every update performed before it issues (R80, log 65). -/
def tqryEff (c : Ctx) (s : State) : Eff :=
  let e := (launchOf s c.wp).tensor c.w.c.toNat
  if c.act.isEmpty then {}
  else if !tnUsable e then tensorCause c
  else c.perLane 1 (fun _ => counterOf e c.sop)
def execTqry (w : Word) (s : State) : Host.Outcome State Fault Refusal := simtR 0x99 w tqryEff s

/-- TBND (R175). -/
def tbndEff (c : Ctx) (s : State) : Eff :=
  let n := c.w.c.toNat
  let e := (launchOf s c.wp).tensor n
  if c.act.isEmpty then {}
  else if !tnUsable e || (c.sop ≠ 0 && badBounds (tnFmt e) (c.a 1 0) (c.b 1 1 0)) then tensorCause c
  else { held := [.tbnd n (BitVec.ofNat 32 (c.a 1 0)) (BitVec.ofNat 32 (c.b 1 1 0)) (BitVec.ofNat 2 c.sop) c.w.sx] }
def execTbnd (w : Word) (s : State) : Host.Outcome State Fault Refusal := simtR 0x9A w tbndEff s

/-- The bounds of an entry replaced (R175). -/
def setBounds (lo hi : W32) (bact : BitVec 2) (nanok : Bool) (e : TEntry) : TEntry :=
  setFld (setFld (setFld (setFld e 384 32 lo.toNat) 416 32 hi.toNat) 185 2 bact.toNat) 187 1 (if nanok then 1 else 0)

/-- TUFC: checked at issue, performed at commit (R175). -/
def tufcEff (c : Ctx) (s : State) : Eff :=
  if c.act.isEmpty then { term := some c.pend }
  else if !tnUsable ((launchOf s c.wp).tensor c.w.c.toNat) then tensorCause c
  else { term := some c.pend }
def execTufc (w : Word) (s : State) : Host.Outcome State Fault Refusal := simtR 0x9B w tufcEff s
/-- The entry with a counter at its reset value. -/
def resetCounter (which : Nat) (e : TEntry) : TEntry :=
  match which with
  | 0 => setFld e 496 16 0
  | 1 => setFld e 472 24 0
  | 2 => setFld e 448 24 0
  | _ => setFld e 238 12 0x800
/-- The counter is read, with every update performed (R80, log 65), and reset in one step (R175). -/
def tufcEnd (f : Fin) (s : State) : State :=
  if f.p.lanes.isEmpty then s
  else
    match lookup f.key s.warps with
    | none => s
    | some w =>
      let n := f.p.w.c.toNat
      let v := counterOf ((launchOf s w).tensor n) f.p.w.sop.toNat
      modTensor w.launch n (resetCounter f.p.w.sop.toNat)
        (writeRegs f.key (f.dst 1 (f.p.lanes.map (fun l => (l, v)))) s)

/-- Exponent of a format's largest finite value (R81). -/
def topExp (fmt : Nat) : Int := (fmtOf fmt).bias + (match (fmtOf fmt).kind with | .ieee => 0 | .e4m3 => 1 | .e2m1 => 1)

/-- 2^x clamped to 2^-126 to 2^127, as FP32 (R81). -/
def pow2of (x : Int) : Nat := (max (-126) (min 127 x) + 127).toNat * 2 ^ 23

/-- The FP32 pattern of 1.0. -/
def oneF : Nat := 0x3F800000

/-- The scale TSCL suggests (R81). -/
def suggestScale (e : TEntry) : Nat :=
  if !isFloat (tnFmt e) then oneF
  else if tnEmax e = -2048 then (if tnTscale e = 0 then oneF else tnTscale e)
  else pow2of (tnEmax e + 1 - topExp (tnFmt e))

/-- TSCL (R175); like TQRY it sees every update performed (R80, log 65). -/
def tsclEff (c : Ctx) (s : State) : Eff :=
  let e := (launchOf s c.wp).tensor c.w.c.toNat
  if c.act.isEmpty then {}
  else if !tnUsable e then tensorCause c
  else c.perLane 1 (fun _ => suggestScale e)
def execTscl (w : Word) (s : State) : Host.Outcome State Fault Refusal := simtR 0x9C w tsclEff s

end Sys2Proof.Machine
end

