-- ==== Sys2Proof/Machine/Matrix.lean ====
section
/-! DEFINITION. The squarer matrix unit (R179 to R204): checks at issue and at acceptance, the queue, and what each
accepted instruction performs. -/

namespace Sys2Proof.Machine

/-! ## Fields and formats (R186, R190, R199) -/

def mmCount (w : Word) : Nat := w.ext.toNat % 128 + 1
def mclrCount (w : Word) : Nat := w.c.toNat % 128 + 1
def mldbDepth (w : Word) : Nat := 128 * 2 ^ w.sop.toNat

/-- Pair slots of a format; 0 where it is no matrix operand (R180, R186). -/
def pairSlots (fmt : Nat) : Nat :=
  if fmt = 0xC then 4 else if fmt = 0xA ∨ fmt = 0xB ∨ fmt = 0xD ∨ fmt = 0xE then 2 else if fmt = 9 then 1 else 0

/-- The promotion block of a format (R72). -/
def blockOf (fmt : Nat) : Nat := if fmt = 0xC ∨ fmt = 9 then 32 else 128

/-- The class of formats that pair with each other (R186). -/
def pairClass (fmt : Nat) : Nat :=
  if fmt = 0xC then 1 else if fmt = 0xA ∨ fmt = 0xB then 2 else if fmt = 9 then 3 else if fmt = 0xD ∨ fmt = 0xE then 4 else 0

/-- The pair accumulates integers (R186). -/
def pairInt (fmt : Nat) : Bool := pairClass fmt = 4

/-- The position lies within the geometry; a dimension beyond the rank has size one (R76). -/
def tnWithin (e : TEntry) (ix : List Nat) : Bool := (List.range 4).all (fun d => decide (ix.getD d 0 < tnDim e d))

/-- Coordinate `d` of an operand's origin; with .SPD, dimensions 2 and 3 are 0 (R188). -/
def originAt (origin : List Nat) (spd : Bool) (d : Nat) : Nat := if spd && decide (2 ≤ d) then 0 else origin.getD d 0

/-- The coordinates of an operand element `k` along dimension 0 and `n` along dimension 1 from the origin. -/
def operandIx (origin : List Nat) (spd : Bool) (k n : Nat) : List Nat :=
  [originAt origin spd 0 + k, originAt origin spd 1 + n, originAt origin spd 2, originAt origin spd 3]

/-- Row or column `n` of an operand lies in the geometry beyond dimension 0 (R187, R200, log 17). -/
def operandLive (e : TEntry) (origin : List Nat) (spd : Bool) (n : Nat) : Bool :=
  tnWithin e (0 :: (operandIx origin spd 0 n).drop 1)

/-! ## Checks at issue (R198) -/

/-- The bytes of a scratchpad operand that lie in the geometry end within the gang's scratchpad (R188). -/
def spdFits (e : TEntry) (origin : List Nat) (depth rows size : Nat) : Bool :=
  let k := min (depth) (tnDim e 0 - originAt origin true 0)
  let n := (List.range rows).foldl (fun m i => if operandLive e origin true i then i + 1 else m) 0
  if k = 0 ∨ n = 0 then true
  else decide (elemAddr e (operandIx origin true (k - 1) (n - 1)) - tnBase e + origin.getD 2 0 + elemSize e ≤ size)

/-- A bank as the instructions accepted so far leave it: format, depth, any live column. -/
structure BankView where
  fmt : Nat
  depth : Nat
  live : Bool
deriving DecidableEq, Repr

/-- What the accepted instructions of a gang leave: banks, and row modes by row. -/
structure MView where
  banks : List (Nat × BankView)
  modes : List (Nat × Bool)
deriving DecidableEq, Repr

/-- The view after one more instruction (R198: "the state left by every matrix instruction accepted before it"). -/
def MView.after (v : MView) (op : MatOp) : MView :=
  match op.op with
  | 0xA0 =>
    let b : BankView := { fmt := tnFmt op.entry, depth := mldbDepth op.w,
                          live := (List.range 128).any (operandLive op.entry op.origin op.w.sx) }
    { v with banks := put op.w.d.toNat b v.banks }
  | 0xA1 =>
    match lookup op.w.sop.toNat v.banks with
    | none => v
    | some b =>
      if op.w.mx = 1 ∧ b.live then
        { v with modes := (List.range (mmCount op.w)).foldl (fun m r =>
            if operandLive op.entry op.origin op.w.sx r then put (op.w.d.toNat + r) (pairInt b.fmt) m else m) v.modes }
      else v
  | 0xA3 =>
    if op.w.sop = 2 then { v with banks := erase op.w.d.toNat v.banks }
    else { v with modes := (List.range (mclrCount op.w)).foldl (fun m r => put (op.w.d.toNat + r) (op.w.sop = 1) m) v.modes }
  | _ => v

/-- The view of a gang's banks and rows on a partition. -/
def matrixView (s : State) (part g : Nat) : MView :=
  let p := lookupD part {} s.parts
  let v : MView :=
    { banks := (List.range 4).filterMap (fun b => (lookup (4 * g + b) p.banks).map (fun k =>
        (b, { fmt := k.fmt, depth := k.depth, live := !k.segs.isEmpty }))),
      modes := (List.range 128).filterMap (fun r => (lookup (128 * g + r) p.rows).map (fun x => (r, x.intMode))) }
  (p.queue.filter (fun o => o.gang = g)).foldl MView.after v

/-- The origin quad of an instruction. -/
def Ctx.origin (c : Ctx) : List Nat := c.coords 0

/-- Rows an instruction names: first and count. -/
def matrixRows (op : Nat) (w : Word) : Nat × Nat :=
  match op with
  | 0xA1 => (w.d.toNat, mmCount w)
  | 0xA2 => (w.d.toNat, mmCount w)
  | 0xA3 => if w.sop = 2 then (0, 0) else (w.d.toNat, mclrCount w)
  | _ => (0, 0)

/-- The bank an instruction names. -/
def matrixBank (op : Nat) (w : Word) : Option Nat :=
  match op with
  | 0xA0 => some w.d.toNat
  | 0xA1 => some w.sop.toNat
  | 0xA3 => if w.sop = 2 then some w.d.toNat else none
  | 0xA4 => if w.sop = 0 ∨ w.sop = 3 then some w.mx.toNat else none
  | _ => none

/-- The resources of an instruction lie beyond the gang's (R198). -/
def matrixBound (c : Ctx) : Bool :=
  let r := matrixRows c.op c.w
  c.wp.gang.isNone || decide (hdrRows c.wp.hdr < r.1 + r.2) ||
    (match matrixBank c.op c.w with | some b => decide (hdrBanks c.wp.hdr ≤ b) | none => false)

/-- A matrix instruction that names a tensor, at issue, in the order of R198; the range of an `MMA`'s scratchpad operand is
that of the bank's depth as it stands at issue, and is tested again at acceptance (log 80). -/
def matrixTensorEff (c : Ctx) (s : State) : Eff :=
  let e := (launchOf s c.wp).tensor c.w.c.toNat
  let f := tnFmt e
  let o := c.origin
  let load := c.op ≠ 0xA2
  let depth := if c.op = 0xA0 then mldbDepth c.w
    else ((lookup c.w.sop.toNat (matrixView s (partOfWarp c.key) (c.wp.gang.getD 0)).banks).map (·.depth)).getD 0
  let rows := if c.op = 0xA0 then 128 else mmCount c.w
  if !tnUsable e then tensorCause c
  else if load && pairSlots f = 0 then Eff.cause 9 c.op c.act
  else if c.op = 0xA0 ∧ 128 * pairSlots f < mldbDepth c.w then Eff.cause 9 c.op c.act
  else if load && decide (o.getD 0 0 % 128 ≠ 0) then Eff.cause 9 c.op c.act
  else if c.op = 0xA2 ∧ tnAuto e ∧ o.getD 0 0 % (if tnSgran e = 1 then 32 else 128) ≠ 0 then Eff.cause 9 c.op c.act
  else if load && c.w.sx && decide (o.getD 2 0 % 16 ≠ 0) then Eff.cause 6 c.op c.act
  else if load && c.w.sx && !spdFits e o depth rows (scratchOf s c.key c.wp).2 then Eff.cause 5 c.op c.act
  else if !(load && c.w.sx) && tnVault e && !vaultOk s (spaceOf (launchOf s c.wp)).rhnd (tnBase e) (c.op = 0xA2) then
    { faults := [vaultFault (tnBase e) (c.op = 0xA2) .M] }
  else
    { term := some { c.pend with
        addr := o.mapIdx (fun i x => (i, x)),
        b := (List.range 4).map (fun i => (i, BitVec.ofNat 128 (fld e (128 * i) 128))) } }

/-- A matrix instruction at issue (R183, R198). -/
def matrixEff (c : Ctx) (s : State) : Eff :=
  if c.act.isEmpty then { term := if c.full.isEmpty then some c.pend else none }
  else if matrixBound c then Eff.cause 5 c.op c.act
  else if c.op ≤ 0xA2 then matrixTensorEff c s
  else { term := some c.pend }

/-- MLDB (R200). -/
def execMldb (w : Word) (s : State) : Host.Outcome State Fault Refusal := simtR 0xA0 w matrixEff s
/-- MMA (R201). -/
def execMma (w : Word) (s : State) : Host.Outcome State Fault Refusal := simtR 0xA1 w matrixEff s
/-- MDRN (R202). -/
def execMdrn (w : Word) (s : State) : Host.Outcome State Fault Refusal := simtR 0xA2 w matrixEff s
/-- MCLR.F64 and MCLR.S64 (R202). -/
def execMclr (w : Word) (s : State) : Host.Outcome State Fault Refusal := simtR 0xA3 w matrixEff s
/-- MCLR.BANK (R202). -/
def execMclrBank (w : Word) (s : State) : Host.Outcome State Fault Refusal := simtR 0xA3 w matrixEff s
/-- MCOR (R203). -/
def execMcor (w : Word) (s : State) : Host.Outcome State Fault Refusal := simtR 0xA4 w matrixEff s
/-- MSTAT (R204). -/
def execMstat (w : Word) (s : State) : Host.Outcome State Fault Refusal := simtR 0xA5 w matrixEff s

/-! ## Acceptance (R183, R198) -/

/-- The instruction goes to the queue: all but MSTAT, where a lane is active (R183, R204). -/
def matrixQueued (p : Pending) : Bool := 0xA0 ≤ p.op && p.op ≤ 0xA4 && !p.lanes.isEmpty

/-- The tensor entry an instruction read at issue (R78). -/
def Pending.entry (p : Pending) : TEntry :=
  BitVec.ofNat 512 ((List.range 4).foldr (fun i x => (lookupD i 0 p.b).toNat + 2 ^ 128 * x) 0)

/-- The instruction as the queue holds it. -/
def matOpOf (f : Fin) (g : Nat) : MatOp :=
  { op := f.p.op, w := f.p.w, warp := f.key, gang := g, runAddr := f.run.addr, off := f.p.off, lanes := maskOf f.p.lanes,
    entryNo := f.p.w.c.toNat, entry := f.p.entry, origin := f.p.addr.map (·.2) }

/-- The cause an instruction meets at acceptance, if any (R198). -/
def matrixRefused (f : Fin) (g : Nat) (s : State) : Option Nat :=
  let v := matrixView s (partOfWarp f.key) g
  let e := f.p.entry
  match f.p.op with
  | 0xA1 =>
    match lookup f.p.w.sop.toNat v.banks with
    | none => some 9
    | some b =>
      if pairClass (tnFmt e) ≠ pairClass b.fmt then some 9
      else if f.p.w.mx = 0 ∧ (List.range (mmCount f.p.w)).any (fun r =>
          decide (lookupD (f.p.w.d.toNat + r) false v.modes ≠ pairInt b.fmt)) then some 9
      else if f.p.w.sx && !spdFits e (f.p.addr.map (·.2)) b.depth (mmCount f.p.w)
          ((lookup g s.gangs).elim 0 (fun x => hdrScrl x.hdr * 128)) then some 5
      else none
  | 0xA4 =>
    if (f.p.w.sop = 0 ∨ f.p.w.sop = 3) ∧ (lookup f.p.w.mx.toNat v.banks).isNone then some 9 else none
  | _ => none

/-- Instructions of a warp accepted and not complete (R204). -/
def outstanding (s : State) (k : Nat) : Nat :=
  match lookup k s.warps with
  | none => 0
  | some w => ((lookupD (partOfWarp k) {} s.parts).queue.filter (fun o => o.warp = k ∧ w.gang = some o.gang)).length

/-- The warp waits for an MCOR (R203). -/
def mcorPending (s : State) (k : Nat) : Bool :=
  (lookupD (partOfWarp k) {} s.parts).queue.any (fun o =>
    o.warp = k && o.op = 0xA4 && decide ((lookup k s.warps).bind (·.gang) = some o.gang))

/-- The partition whose unit performs a paired gang's instructions beside a partition's own (R208, R390). -/
def twinPart (part : Nat) : Nat := part / 2 * 2 + (1 - part % 2)

/-- The gang runs in paired mode (R208, R390). -/
def gangPaired (s : State) (g : Nat) : Bool := (lookup g s.gangs).any (fun x => hdrPair x.hdr)

/-- A queue that the instruction goes to has its 16 entries (R183, R208). -/
def matrixFull (s : State) (k : Nat) : Bool :=
  let full := fun (p : Nat) => decide (16 ≤ (lookupD p {} s.parts).queue.length)
  full (partOfWarp k) || (((lookup k s.warps).bind (·.gang)).any (gangPaired s) && full (twinPart (partOfWarp k)))

/-- Acceptance at the commit of the run (R183): of a paired gang by both units (R208). -/
def matrixEnd (f : Fin) (s : State) : State :=
  if f.p.lanes.isEmpty then s
  else
    match (lookup f.key s.warps).bind (·.gang) with
    | none => s
    | some g =>
      let op := matOpOf f g
      let s := modPart (partOfWarp f.key) (fun p => { p with queue := p.queue ++ [op] }) s
      if gangPaired s g then modPart (twinPart (partOfWarp f.key)) (fun p => { p with queue := p.queue ++ [{ op with twin := true }] }) s
      else s

/-! ## The status word (R204) -/

/-- A row of the gang on the partition is poisoned. -/
def gangPoisoned (s : State) (part g : Nat) : Bool :=
  (lookupD part {} s.parts).rows.any (fun x => x.1 / 128 = g && x.2.poison)

/-- MSTAT's word for warp `k`. -/
def mstatWord (s : State) (k : Nat) : Nat :=
  match lookup k s.warps with
  | none => 0
  | some w =>
    outstanding s k + (if gangPoisoned s (partOfWarp k) (w.gang.getD 0) then 256 else 0) +
      (if w.pcor then 512 else 0) + (if w.khit then 1024 else 0)

/-- MSTAT at commit: at once, or when OUTS is 0 (R204). -/
def mstatEnd (f : Fin) (s : State) : State :=
  if f.p.lanes.isEmpty then s
  else if f.p.w.mx = 1 ∧ outstanding s f.key ≠ 0 then parkLanes f.key f.p.lanes (.matrix f.p.w.d.toNat) s
  else
    modWarp f.key (fun w => { w with pcor := false })
      (writeRegs f.key (f.dst 1 (f.p.lanes.map (fun l => (l, mstatWord s f.key)))) s)

/-- The issuing warp of an instruction changed, while it still holds its context. -/
def modOpWarp (op : MatOp) (f : Warp → Warp) (s : State) : State :=
  modWarp op.warp (fun w => if w.gang = some op.gang then f w else w) s

/-- Lanes parked in MSTAT.WAIT, as they run and in the trap save, take the status word and go on when OUTS is 0 (R204,
R367). -/
def wakeMatrix (k : Nat) (s : State) : State :=
  if outstanding s k ≠ 0 then s
  else
    let v := mstatWord s k
    modWarp k (fun w =>
      match w.parks (fun p => match p with | .matrix _ => true | _ => false) with
      | [] => w
      | ps =>
        { w.endParks s.clock (fun i p => match p with | .matrix d => regWrites (BitVec.ofNat 8 d) 1 i v | _ => []) ps with
          pcor := false }) s

/-! ## Operand segments (R72, R73, R189) -/

/-- A segment as the array takes it. -/
structure Seg where
  ints : List Int
  exp : Int
  nan : Bool
  /-- Nonzero elements that rounded to 0. -/
  lost : Nat
  /-- Finite nonzero elements. -/
  nonzero : Nat := 0
deriving DecidableEq, Repr, Inhabited

/-- A value as an integer in units of 2^e, to nearest even (R72). -/
def toUnits (e : Int) (x : FVal) : Int :=
  match x with
  | .num n m q =>
    let r := (roundQ 0 n m q false e).1
    if n then -(r : Int) else r
  | _ => 0

/-- The exponent R72 takes an element to have: a subnormal the least normal one. -/
def segExp (fmt : Nat) (x : FVal) : Option Int := (expOf x).map (fun e => max e (1 - (fmtOf fmt).bias))

/-- An operand segment aligned to its block exponent (R72). -/
def alignSeg (fmt : Nat) (bits : List Nat) : Seg :=
  if pairInt fmt then { ints := bits.map (intVal fmt), exp := 0, nan := false, lost := 0 }
  else
    let vals := bits.map (fmtOf fmt).decode
    let finite := fun (x : FVal) => match x with | .num _ _ _ => true | _ => false
    let top := (vals.filterMap (segExp fmt)).foldl (fun (m : Option Int) x => some (match m with | some y => max x y | none => x)) none
    let e : Int := match fmt with
      | 0xC => -1
      | 0xA => -9
      | _ => (match top with | some t => t - (if fmt = 9 then 23 else 21) | none => 0)
    let ints := vals.map (toUnits e)
    { ints := ints, exp := e, nan := vals.any (fun x => !finite x),
      lost := ((vals.zip ints).filter (fun x => decide (x.2 = 0) && finite x.1 && !x.1.isZero)).length,
      nonzero := (vals.filter (fun x => finite x && !x.isZero)).length }

/-- How a fetch ends short, with the elements already fetched of the block in hand. -/
inductive MStop where
  | fault (f : AccFault) (elems : List Nat)
  /-- An uncorrectable error in an operand or a scale. -/
  | error
deriving DecidableEq, Repr

/-- The fault of an access of path M: of vault refusals in the row or column in hand, `refused`, the one of the lowest offset
(R38). -/
def lowestRefused (f : AccFault) (refused : List AccFault) : AccFault :=
  if f.kind = 7 then refused.foldl (fun b x => if x.va < b.va then x else b) f else f

def MStop.lowest (x : MStop) (refused : List AccFault) : MStop :=
  match x with
  | .fault f got => .fault (lowestRefused f refused) got
  | .error => .error

/-- The bits of an operand element (R186, R188): from scratchpad with .SPD, else on path M. -/
def fetchElem (u : TUser) (spdAt : Option Nat) (e : TEntry) (ix : List Nat) (s : State) : Except MStop Nat × State :=
  if !tnWithin e ix then (.ok 0, s)
  else
    match spdAt with
    | some base =>
      let p : Place := .scr (base + (elemAddr e ix - tnBase e))
      (if isPoisoned s p (elemSize e) then .error .error else .ok (elemOf e ix (readNat s p (elemSize e))), s)
    | none =>
      match tensorRead u (tnVault e) (elemAddr e ix) (elemSize e) s with
      | (.error f, s) => (.error (.fault f []), s)
      | (.ok r, s) => (if r.2 then .error .error else .ok (elemOf e ix r.1), s)

/-- Consecutive operand elements along dimension 0, behind those fetched already; those fetched stand where one stops
(R198). -/
def fetchElems (u : TUser) (spdAt : Option Nat) (e : TEntry) (got : List Nat) : List (List Nat) → State → Except MStop (List Nat) × State
  | [], s => (.ok got, s)
  | ix :: rest, s =>
    match fetchElem u spdAt e ix s with
    | (.error (.fault f _), s) => (.error (.fault f got), s)
    | (.error .error, s) => (.error .error, s)
    | (.ok x, s) => fetchElems u spdAt e (got ++ [x]) rest s

/-- A block of an operand row or column: its segment, its scale, and whether it lies wholly outside dimension 0. -/
structure Block where
  seg : Seg
  scale : FVal
  outside : Bool
deriving DecidableEq, Repr

/-- The format's elements are aligned to their segment's largest exponent, and so may round (R72). -/
def alignRounds (fmt : Nat) : Bool := fmt = 9 ∨ fmt = 0xB

/-- The number of lost elements a segment counts: where a format that rounds meets a NaN or an infinity the spec gives the
alignment none (R72, R73), so a free number of its finite nonzero elements (log 4); a format that never rounds loses
none. -/
def lostOf (s : State) (fmt : Nat) (seg : Seg) : Nat :=
  if seg.nan && alignRounds fmt then (Config.freeWord s.free).toNat % (seg.nonzero + 1) else seg.lost

/-- Fetches block `q` of row or column `n` of an operand, from the elements it stopped at (R186, R187, R189, R198), counting
its lost elements. -/
def fetchBlock (u : TUser) (launch entryNo : Nat) (spdAt : Option Nat) (e : TEntry) (origin : List Nat) (spd : Bool)
    (got : List Nat) (q n : Nat) (s : State) : Except MStop Block × State :=
  let b := blockOf (tnFmt e)
  let k0 := originAt origin spd 0 + q * b
  if tnDim e 0 ≤ k0 then
    (.ok { seg := { ints := List.replicate b 0, exp := 0, nan := false, lost := 0 }, scale := .num false 1 0, outside := true }, s)
  else
    match fetchElems u spdAt e got (((List.range b).map (fun k => operandIx origin spd (q * b + k) n)).drop got.length) s with
    | (.error f, s) => (.error f, s)
    | (.ok bits, s) =>
      match (if pairInt (tnFmt e) then (.ok (.num false 1 0, false), s) else readScale u e (operandIx origin spd (q * b) n) s) with
      | (.error f, s) => (.error (.fault f bits), s)
      | (.ok (g, bad), s) =>
        if bad then (.error .error, s)
        else
          let seg := alignSeg (tnFmt e) bits
          let lost := lostOf s (tnFmt e) seg
          let s := if seg.nan then { s with free := s.free + 1 } else s
          (.ok { seg := seg, scale := timesVal g (tnT e), outside := false },
           if lost = 0 then s else modTensor launch entryNo (bumpCounters 0 0 lost none) s)

/-- Blocks of a row or column, ascending, with what stopped the fetching short (R194, R198). -/
def fetchBlocks (u : TUser) (launch entryNo : Nat) (spdAt : Option Nat) (e : TEntry) (origin : List Nat) (spd : Bool)
    (n : Nat) : List Nat → List Nat → State → (List Block × Option MStop) × State
  | _, [], s => (([], none), s)
  | got, q :: rest, s =>
    match fetchBlock u launch entryNo spdAt e origin spd got q n s with
    | (.error f, s) => (([], some f), s)
    | (.ok b, s) =>
      let r := fetchBlocks u launch entryNo spdAt e origin spd n [] rest s
      ((b :: r.1.1, r.1.2), r.2)

/-- The vault offsets of row or column `n` of an operand, and of its scales, that the launch may not read (R38). -/
def refusedElems (s : State) (u : TUser) (spdAt : Option Nat) (e : TEntry) (origin : List Nat) (spd : Bool) (depth n : Nat) :
    List AccFault :=
  let ixs := ((List.range depth).map (fun k => operandIx origin spd k n)).filter (tnWithin e)
  let offs := (if tnVault e ∧ spdAt.isNone then ixs.map (elemAddr e) else []) ++
    (if tnSVault e ∧ tnSgran e ≠ 0 ∧ isFloat (tnFmt e) then ixs.map (fun ix => (scaleAddr e ix).1) else [])
  (offs.filter (fun a => !vaultOk s u.sp.rhnd a false)).map (fun a => vaultFault a false .M)

/-! ## The unit's user (R59) -/

/-- The space and core of a matrix instruction, and the scratchpad byte its .SPD offset names. -/
def matUser (s : State) (part : Nat) (op : MatOp) : TUser × Nat × Option Nat :=
  match lookup op.gang s.gangs with
  | none => ({ x := .core (part / 4), sp := { asn := 0, root := 0, rpld := false, rhnd := 0 }, path := .M, warp := none }, 0, none)
  | some g =>
    ({ x := .core (part / 4), sp := spaceOf ((lookup g.launch s.launches).getD default), path := .M, warp := some op.warp }, g.launch,
     if op.w.sx then some ((g.core * 4096 + g.scrAt) * 128 + op.origin.getD 2 0) else none)

/-- The head instruction of a partition's queue changed. -/
def modHead (part : Nat) (f : MatOp → MatOp) (s : State) : State :=
  modPart part (fun p => { p with queue := match p.queue with | [] => [] | o :: t => f o :: t }) s

/-- The writes that a drain has left waiting for the rest of their granule are performed, unless the path lags. -/
def drainFlush (part : Nat) (s : State) : State :=
  if s.lag.contains .M then s else performSome (fun c => c.path = .M && decide (c.unit = part)) s

/-- An error the head instruction consumed ends it and its launch: its gang's interval is dirty, and rows do not come back
(R192, R207, R208, R374). -/
def matrixError (part : Nat) (op : MatOp) (s : State) : State :=
  killGang op.gang 0x22 Path.M.code (modHead part (fun o => { o with dead := true }) (drainFlush part s))

/-- The head instruction stops short: a replayable fault parks it at its unit, a fatal one or an error ends it (R198). -/
def matrixStop (part : Nat) (op : MatOp) (x : MStop) (s : State) : State :=
  match x with
  | .error => matrixError part op s
  | .fault f got =>
    let runs := countFaults [f.va / pageBytes] op.faultRuns
    let last := sixteenth runs (f.va / pageBytes)
    let s := modHead part (fun o => { o with faultRuns := runs, elems := got, dead := !f.rpl || last }) s
    let asn := (matUser s part op).1.sp.asn
    let r := raiseFault (.matrix part) asn (part / 4) 0 0 (dieClock s (dieOfCore (part / 4))) f last s
    if f.kind = 6 then matrixError part op r.2
    else if f.rpl && !last then modHead part (fun o => { o with stopped := some r.1 }) r.2 else r.2

/-! ## MLDB (R200, R185) -/

/-- The entry with its counter fields taken as zero (R185). -/
def keyEntry (e : TEntry) : TEntry := setFld (setFld e 448 64 0) 238 12 0

/-- The key a load has: none with handle 0 (R185). -/
def keepKey (u : TUser) (op : MatOp) : Option KeepKey :=
  if u.sp.rhnd = 0 then none
  else some { asn := u.sp.asn, rhnd := u.sp.rhnd, entry := keyEntry op.entry, origin := op.origin, depth := mldbDepth op.w }

/-- A scale as the bank keeps it, and back. -/
def packVal (x : FVal) : Nat × Bool × Nat × Int :=
  match x with
  | .num n m e => (0, n, m, e)
  | .inf n => (1, n, 0, 0)
  | .nan _ => (2, false, 0, 0)
def unpackVal (x : Nat × Bool × Nat × Int) : FVal :=
  match x.1 with
  | 0 => .num x.2.1 x.2.2.1 x.2.2.2
  | 1 => .inf x.2.1
  | _ => .nan false

/-- A column's block as the bank keeps it; the correction of a segment with a NaN is a value the spec does not give
(log 4). -/
def bankSeg (free : Nat) (b : Block) : BankSeg :=
  { ints := b.seg.ints, exp := b.seg.exp, scale := packVal b.scale,
    cb := if b.seg.nan then (Config.freeWord free).toNat else (b.seg.ints.map (fun n => (n * n).toNat)).sum,
    nan := b.seg.nan, outside := b.outside }

/-- The block numbers of a depth. -/
def blocksOf (fmt depth : Nat) : List Nat := List.range (depth / blockOf fmt)

/-- The unowned kept bank of a key (R185). -/
def keptBank (p : Part) (key : Option KeepKey) : Option Bank :=
  match key with
  | none => none
  | some _ => p.kept.find? (fun b => b.key = key)

/-- A block fetched for a row, as the instruction keeps it across a fault, and back. -/
def keptBlock (b : Block) : BankSeg :=
  { ints := b.seg.ints, exp := b.seg.exp, scale := packVal b.scale, cb := 0, nan := b.seg.nan, outside := b.outside }
def blockKept (x : BankSeg) : Block :=
  { seg := { ints := x.ints, exp := x.exp, nan := x.nan, lost := 0 }, scale := unpackVal x.scale, outside := x.outside }

/-- Column `j` of the head load: fetched into the bank so far, from the line of a block that it stopped at (R198); columns
ascending, and the blocks of each (R200, log 79). -/
def loadColumn (part : Nat) (op : MatOp) (j : Nat) (s : State) : State :=
  let u := matUser s part op
  let fmt := tnFmt op.entry
  let bank := op.bank.getD { fmt := fmt, depth := mldbDepth op.w }
  if !operandLive op.entry op.origin op.w.sx j then modHead part (fun o => { o with doneUnits := j + 1, bank := some bank }) s
  else
    let r := fetchBlocks u.1 u.2.1 op.entryNo u.2.2 op.entry op.origin op.w.sx j op.elems
      ((blocksOf fmt bank.depth).drop op.fetched.length) s
    let free := r.2.free
    let col := op.fetched ++ r.1.1.mapIdx (fun i b => bankSeg (free + i) b)
    let s := { r.2 with free := free + r.1.1.length }
    match r.1.2 with
    | some x =>
      matrixStop part op (x.lowest (refusedElems s u.1 u.2.2 op.entry op.origin op.w.sx bank.depth j))
        (modHead part (fun o => { o with fetched := col, bank := some bank }) s)
    | none =>
      modHead part (fun o => { o with doneUnits := j + 1, faultRuns := [], fetched := [], elems := [],
                                      bank := some { bank with segs := bank.segs ++ [(j, col)] } }) s

/-- The first step of a load: a kept bank with its key is taken, that one and no other of the key, and nothing is fetched;
an error in it is consumed (R185, R372). -/
def takeKept (part : Nat) (op : MatOp) (s : State) : Option State :=
  let key := keepKey (matUser s part op).1 op
  match keptBank (lookupD part {} s.parts) key with
  | none => none
  | some b =>
    if b.bad then some (matrixError part op s)
    else
      some (modHead part (fun o => { o with doneUnits := 128, bank := some b, hit := true })
        (modPart part (fun p => { p with kept := p.kept.eraseP (fun x => x.key = key) }) s))

/-- A unit of MLDB; whether a kept bank serves it is settled in its first step, once (R185, R198, R206). -/
def mldbUnit (part : Nat) (op : MatOp) (s : State) : State :=
  if op.begun then loadColumn part op op.doneUnits s
  else
    match takeKept part op s with
    | some s => modHead part (fun o => { o with begun := true }) s
    | none => loadColumn part op op.doneUnits (modHead part (fun o => { o with begun := true }) s)

/-- The bank holds its new contents, kept with its key under .KEEP (R200). -/
def mldbDone (part : Nat) (op : MatOp) (s : State) : State :=
  let key := if op.w.mx = 1 then keepKey (matUser s part op).1 op else none
  let s := match op.bank with
    | some b => modPart part (fun p => { p with banks := put (4 * op.gang + op.w.d.toNat) { b with key := key } p.banks }) s
    | none => s
  modOpWarp op (fun w => { w with khit := op.hit }) s

/-! ## MMA (R187, R191, R193 to R195, R201) -/

/-- A finite value. -/
def FVal.isNum : FVal → Bool
  | .num _ _ _ => true
  | _ => false

/-- x × y × z × 2^e with IEEE 754's rules for infinities, zeros and NaNs, rounded once to FP64 (R193). -/
def promoteOf (d : Int) (e : Int) (a b : FVal) : FRes :=
  if d = 0 ∧ a.isNum ∧ b.isNum then (0, 0)
  else
    match mulVals (ofInt d e) a with
    | none => fp64.invalid
    | some x =>
      match mulVals x b with
      | none => fp64.invalid
      | some (.num n m q) => if m = 0 then (fp64.sign n, 0) else fp64.arith 0 false n m q false
      | some (.inf n) => fp64.infResult false n
      | some (.nan _) => fp64.invalid

/-- The promoted product of one block (R193, R73): `odd` takes the block's product as if D were 0 (R191). -/
def promote (a : Block) (b : BankSeg) (d : Int) : FRes :=
  let sb := unpackVal b.scale
  if a.outside || b.outside then (0, 0)
  else if a.seg.nan || b.nan || a.scale.isNaN || sb.isNaN then (fp64.nanBits, flagNV)
  else promoteOf d (a.seg.exp + b.exp) a.scale sb

/-- S, RA and D of a block (R179). -/
def blockSums (x : List Int) (b : BankSeg) : Nat × Nat × Int :=
  let s : Int := ((x.zip b.ints).map (fun p => (p.1 + p.2) * (p.1 + p.2))).sum
  let ra : Int := (x.map (fun n => n * n)).sum
  (s.toNat, ra.toNat, (s - ra - b.cb) / 2)

/-- One entry with every block of a row promoted into it, ascending: its pattern and flags (R193, R195). -/
def promoteAll (isInt : Bool) (odd : List Nat) (old : BitVec 64) (bs : List (Nat × Block × BankSeg)) : BitVec 64 × FFlags :=
  bs.foldl (fun acc x =>
    let d := if odd.contains x.1 then 0 else (blockSums x.2.1.seg.ints x.2.2).2.2
    if isInt then (if x.2.1.outside || x.2.2.outside then acc else (acc.1 + BitVec.ofInt 64 d, acc.2))
    else
      let p := promote x.2.1 x.2.2 d
      let r := fp64.add 0 false acc.1.toNat p.1
      (BitVec.ofNat 64 r.1, acc.2 ||| p.2 ||| r.2)) (old, 0)

/-- The row after its `MMA` row: reset under .SET, each live entry updated and marked (R182, R187, R201). -/
def mmaRow (set isInt : Bool) (odd : List Nat) (bs : List Block) (bank : Bank) (row : AccRow) : AccRow × FFlags :=
  let r0 : AccRow := if set then { intMode := isInt, poison := row.poison } else row
  bank.segs.foldl (fun acc c =>
    let x := promoteAll isInt odd (lookupD c.1 0 acc.1.vals) (((List.range bs.length).zip (bs.zip c.2)))
    ({ acc.1 with vals := put c.1 x.1 acc.1.vals, written := insertNat c.1 acc.1.written }, acc.2 ||| x.2)) (r0, 0)

/-- The probe row of a row of blocks; a block with a NaN has sums the spec does not give (R203, log 4). -/
def probeOf (free row : Nat) (bs : List Block) (bank : Bank) : Probe :=
  let ra := bs.mapIdx (fun q b => if b.seg.nan then (Config.freeWord (free + q)).toNat else
    (b.seg.ints.map (fun n => (n * n).toNat)).sum)
  { row := row, ra := ra,
    sums := (List.range 128).map (fun j =>
      match lookup j bank.segs with
      | none => (j, ra)
      | some segs => (j, (bs.zip segs).mapIdx (fun q x =>
          if x.1.seg.nan || x.2.nan then (Config.freeWord (free + 16 + 16 * j + q)).toNat
          else (blockSums x.1.seg.ints x.2).1))) }

/-- The blocks of a row outside A's geometry: every element 0 (R76). -/
def zeroBlocks (fmt depth : Nat) : List Block :=
  (blocksOf fmt depth).map (fun _ =>
    { seg := { ints := List.replicate (blockOf fmt) 0, exp := 0, nan := false, lost := 0 }, scale := .num false 1 0, outside := true })

/-- The blocks of row `r` of the head `MMA`, from the block it stopped at; a row that feeds no live entry counts nothing
(R187, R189, R198). -/
def fetchRow (part : Nat) (op : MatOp) (bank : Bank) (r : Nat) (live : Bool) (s : State) : (List Block × Option MStop) × State :=
  let u := matUser s part op
  if !operandLive op.entry op.origin op.w.sx r then ((zeroBlocks bank.fmt bank.depth, none), s)
  else
    let x := fetchBlocks u.1 u.2.1 op.entryNo u.2.2 op.entry op.origin op.w.sx r op.elems
      ((blocksOf bank.fmt bank.depth).drop op.fetched.length) s
    ((op.fetched.map blockKept ++ x.1.1,
      x.1.2.map (fun y => y.lowest (refusedElems x.2 u.1 u.2.2 op.entry op.origin op.w.sx bank.depth r))), if live then x.2 else { x.2 with launches := s.launches })

/-- A correction in the partition's unit is seen by the next MSTAT of each of its warps (R204). -/
def noteCorrection (part : Nat) (s : State) : State :=
  { s with warps := s.warps.map (fun x => if partOfWarp x.1 = part then (x.1, { x.2 with pcor := true }) else x) }

/-- Row `r` of the head `MMA`; the last row is fetched for the probe too, and counts nothing where no entry is live (R187,
R203). The parity faults of its blocks that stayed odd poison the row, and each one corrected counts for the unit that met
it, that of partition `at_` (R191, R208). An error in the bank, or in a row that is added to, is consumed (R372). -/
def mmaUnit (part at_ : Nat) (op : MatOp) (odd : List ParityEvent) (s : State) : State :=
  let r := op.doneUnits
  let key := 4 * op.gang + op.w.sop.toNat
  match lookup key (lookupD part {} s.parts).banks with
  | none => modHead part (fun o => { o with doneUnits := mmCount op.w }) s
  | some bank =>
    let last := r + 1 = mmCount op.w
    let rowKey := 128 * op.gang + op.w.d.toNat + r
    let row := lookupD rowKey {} (lookupD part {} s.parts).rows
    let live := operandLive op.entry op.origin op.w.sx r && !bank.segs.isEmpty
    if !live && !last then modHead part (fun o => { o with doneUnits := r + 1 }) s
    else if bank.bad || (live && op.w.mx = 0 && row.bad) then matrixError part op s
    else
      match fetchRow part op bank r live s with
      | ((bs, some x), s) => matrixStop part op x (modHead part (fun o => { o with fetched := bs.map keptBlock }) s)
      | ((bs, none), s) =>
        let mine := if live then odd.filter (fun x => decide (x.row = r ∧ x.block < bs.length)) else []
        let bad := (mine.filter (·.again)).map (·.block)
        let fixed := (((mine.filter (fun x => !x.again)).map (·.block)).eraseDups).length
        let x := if live then mmaRow (op.w.mx = 1) (pairInt bank.fmt) bad bs bank row else (row, 0)
        let x1 : AccRow := { x.1 with poison := x.1.poison || (live && !bad.isEmpty) }
        let s := modPart part (fun p =>
          { p with rows := if live then put rowKey x1 p.rows else p.rows,
                   probe := if last then probeOf s.free rowKey bs bank else p.probe }) { s with free := s.free + 2100 }
        let s := modHead part (fun o => { o with doneUnits := r + 1, faultRuns := [], fetched := [], elems := [], flags := o.flags ||| x.2 }) s
        if fixed = 0 then s else noteCorrection part (bumpCounter 2 at_ (8 * fixed) s)

/-! ## MDRN (R196, R197, R202) -/

/-- The exact value of a row's entry (R196). -/
def entryVal (row : AccRow) (j : Nat) : FVal :=
  let x := lookupD j 0 row.vals
  if row.intMode then ofInt x.toInt 0 else fp64.decode x.toNat

/-- The coordinates of an entry in the destination (R196). -/
def drainIx (op : MatOp) (r j : Nat) : List Nat := operandIx op.origin false j r

/-- The granular scale an automatic drain gives the group of entry `j`, as the array holds it (R81). -/
def autoScale (e : TEntry) (op : MatOp) (row : AccRow) (r j : Nat) : Nat :=
  let n := if tnSgran e = 1 then 32 else 128
  let group := row.written.filter (fun i => i / n = j / n && tnWithin e (drainIx op r i))
  let top := (group.filterMap (fun i => expOf (boundStep e (entryVal row i)).2)).foldl
    (fun (m : Option Int) x => some (match m with | some y => max x y | none => x)) none
  if tnSgran e = 1 then (match top with | some t => (max 0 (min 254 (t - 2 + 127))).toNat | none => 127)
  else (match top with | some t => pow2of (t + 1 - topExp (tnFmt e)) | none => oneF)

/-- Bytes that a drain writes on path M, `nib` for half a byte. The writes to one granule reach memory together: they wait
until the drain goes on to another granule, or ends, and longer where the path lags (R13, log 58). -/
def drainWrite (part : Nat) (p : Place) (nib : Nat) (data : List Byte) (s : State) : State :=
  let s := dropStale .M p data.length s
  let b : Buffered := { path := .M, unit := part, place := p, data := data, nib := nib }
  if isPoisoned s p data.length || (match p with | .scr _ => true | _ => false) then
    writePlace p (b.bytes s) (settlePlace p data.length s)
  else
    let s := waitWrite b s
    let last := p.plus (data.length - 1)
    if s.lag.contains .M then s
    else performSome (fun c => c.path = .M && decide (c.unit = part) && c.op = 0 &&
      decide (c.place.granule ≠ p.granule ∧ c.place.granule ≠ last.granule)) s

/-- One entry written into the destination (R79, R80, R196). -/
def drainElem (part : Nat) (op : MatOp) (row : AccRow) (r j : Nat) (s : State) : State :=
  let e := op.entry
  let u := matUser s part op
  let ix := drainIx op r j
  let done := fun (fl : FFlags) (v : Bool) (s : State) =>
    modHead part (fun o => { o with doneUnits := 128 * r + j + 1, faultRuns := [], flags := o.flags ||| fl, viol := o.viol || v }) s
  if !row.written.contains j || !tnWithin e ix then done 0 false s
  else
    match tensorPlace u.1 (tnVault e) (elemAddr e ix) true s with
    | (.error f, s) =>
      let sa := scaleAddr e ix
      let other := if tnSVault e ∧ tnSgran e ≠ 0 ∧ isFloat (tnFmt e) ∧ !vaultOk s u.1.sp.rhnd sa.1 (tnAuto e)
        then [vaultFault sa.1 (tnAuto e) .M] else []
      matrixStop part op (.fault (lowestRefused f other) []) (drainFlush part s)
    | (.ok p, s) =>
      let sa := scaleAddr e ix
      let scale : Except MStop FVal × State :=
        if !isFloat (tnFmt e) then (.ok (.num false 1 0), s)
        else if tnAuto e then
          let g := autoScale e op row r j
          let first := !(row.written.any (fun i => decide (i < j) && scaleAddr e (drainIx op r i) = sa && tnWithin e (drainIx op r i)))
          (match tensorPlace u.1 (tnSVault e) sa.1 true s with
           | (.error f, s) => (.error (.fault f []), s)
           | (.ok q, s) => (.ok (if tnSgran e = 1 then e8m0 g else scaleVal32 g),
                            if first then drainWrite part q.1 0 (leBytes sa.2 g) s else s))
        else
          (match readScale u.1 e ix s with
           | (.error f, s) => (.error (.fault f []), s)
           | (.ok (g, bad), s) => (if bad then .error .error else .ok g, s))
      match scale with
      | (.error x, s) => matrixStop part op x (drainFlush part s)
      | (.ok g, s) =>
        let o := writeElem e (timesVal g (tnT e)) (entryVal row j) row.intMode
        let one := fun (b : Bool) => if b then 1 else 0
        done o.flags o.viol
          (modTensor u.2.1 op.entryNo (bumpCounters (one o.viol) (one o.satc) (one o.ufc) o.emax)
            (drainWrite part p.1 (elemNib e ix) (leBytes (elemSize e) o.bits) s))

/-- An element of the head drain; a poisoned row is consumed before any of it is written, and .CLR clears a drained row
(R192, R196). -/
def mdrnUnit (part : Nat) (op : MatOp) (s : State) : State :=
  let r := op.doneUnits / 128
  let j := op.doneUnits % 128
  let key := 128 * op.gang + op.w.d.toNat + r
  let row := lookupD key {} (lookupD part {} s.parts).rows
  if row.poison || row.bad then matrixError part op s
  else
    let s := drainElem part op row r j s
    let moved := match (lookupD part {} s.parts).queue with | o :: _ => o.doneUnits = op.doneUnits + 1 | [] => false
    if moved && j = 127 && op.w.mx = 1 then
      modPart part (fun p => { p with rows := adjust key (fun x => { x with vals := [] }) p.rows }) s
    else s

/-! ## MCLR and MCOR (R202, R203) -/

/-- The rows cleared, or the bank emptied (R202). -/
def mclrDone (part : Nat) (op : MatOp) (s : State) : State :=
  if op.w.sop = 2 then modPart part (fun p => { p with banks := erase (4 * op.gang + op.w.d.toNat) p.banks }) s
  else
    modPart part (fun p => { p with rows := (List.range (mclrCount op.w)).foldl (fun l r =>
      put (128 * op.gang + op.w.d.toNat + r) { intMode := op.w.sop = 1 } l) p.rows }) s

/-- What MCOR returns (R203). -/
def mcorValue (p : Part) (op : MatOp) : Nat :=
  let blk := op.w.a.toNat % 16
  let col := op.w.c.toNat % 128
  match op.w.sop.toNat with
  | 0 =>
    (match (lookup (4 * op.gang + op.w.mx.toNat) p.banks).bind (fun b => lookup col b.segs) with
     | some segs => ((segs[blk]?).map (·.cb)).getD 0
     | none => 0)
  | 1 => p.probe.ra.getD blk 0
  | 2 => (lookupD col [] p.probe.sums).getD blk 0
  | _ =>
    (match lookup (4 * op.gang + op.w.mx.toNat) p.banks with
     | some b => (b.segs.flatMap (·.2)).countP (fun x =>
         !x.nan && decide (x.cb ≠ (x.ints.map (fun n => (n * n).toNat)).sum))
     | none => 0)

/-- The bank with every correction rebuilt from its integers (R203). -/
def rebuildBank (b : Bank) : Bank :=
  { b with segs := b.segs.map (fun c => (c.1, c.2.map (fun x =>
      if x.nan then x else { x with cb := (x.ints.map (fun n => (n * n).toNat)).sum }))) }

/-- MCOR in queue order (R203): a poisoned probe row, and a bank with an error, are consumed. -/
def mcorDone (part : Nat) (op : MatOp) (s : State) : State :=
  let p := lookupD part {} s.parts
  let probing := op.w.sop = 1 ∨ op.w.sop = 2
  let row := lookupD p.probe.row {} p.rows
  let bad := !probing && (lookup (4 * op.gang + op.w.mx.toNat) p.banks).any (·.bad)
  if (probing ∧ (row.poison ∨ row.bad) ∧ !p.probe.ra.isEmpty) ∨ bad then matrixError part op s
  else
    let v := mcorValue p op
    let s := if op.w.sop = 3 then
        modPart part (fun p => { p with banks := adjust (4 * op.gang + op.w.mx.toNat) rebuildBank p.banks }) s
      else s
    let vals := (lanesOf op.lanes)
    let ws := if (regOf op.w.d).isS then regWrites op.w.d 2 0 v else vals.flatMap (fun l => regWrites op.w.d 2 l v)
    modOpWarp op (fun w => { ws.foldl archWrite w with readySince := s.clock }) s

/-! ## Performing and completing -/

/-- Units of an instruction (R198): columns, rows, elements; none where it is performed in one step. -/
def matUnits (op : MatOp) : Nat :=
  match op.op with
  | 0xA0 => 128
  | 0xA1 => mmCount op.w
  | 0xA2 => 128 * mmCount op.w
  | _ => 0

/-- The writes of a partition's own drains are there before its next fetch (R184); in paired mode they are both units'. -/
def settleUnit (part : Nat) (op : MatOp) (s : State) : State :=
  let pair := gangPaired s op.gang
  performSome (fun b => b.path = .M && decide (b.unit = part ∨ (pair ∧ b.unit = twinPart part))) s

/-- The unit that acts for a partition: its own, or, where its head instruction is the copy of a paired one, the other
(R208). -/
def actingPart (part : Nat) (s : State) : Nat :=
  match (lookupD part {} s.parts).queue with
  | op :: _ => if op.twin then twinPart part else part
  | [] => part

/-- The head instruction of a partition that can go on: neither stopped nor ended, and in paired mode at the head of both
queues (R184, R198, R208). -/
def readyHead (part : Nat) (s : State) : Option MatOp :=
  match (lookupD part {} s.parts).queue with
  | [] => none
  | op :: _ =>
    let both := !gangPaired s op.gang ||
      (match (lookupD (twinPart part) {} s.parts).queue with | o :: _ => o.twin && decide (o.gang = op.gang) | [] => false)
    if op.stopped.isSome || op.dead || op.twin || !both then none else some op

/-- Before both units of a pair perform a step: an error in either's bank, kept bank or row is one of both (R208, R372). -/
def pairErrors (part g : Nat) (s : State) : State :=
  let q := lookupD (twinPart part) {} s.parts
  modPart part (fun p =>
    { p with rows := p.rows.map (fun r => (r.1, { r.2 with bad := r.2.bad || (decide (r.1 / 128 = g) && (lookupD r.1 {} q.rows).bad) })),
             banks := p.banks.map (fun b =>
               (b.1, { b.2 with bad := b.2.bad || (decide (b.1 / 4 = g) && (lookup b.1 q.banks).any (·.bad)) })),
             kept := p.kept.map (fun b => { b with bad := b.bad || q.kept.any (fun c => c.key = b.key && c.bad) }) }) s

/-- After it, the other unit holds what this one does: the instruction, the gang's rows and banks, a probe the step has made,
and no kept bank that the step has taken (R208). -/
def pairMirror (part g : Nat) (old s : State) : State :=
  let p0 := lookupD part {} old.parts
  let p := lookupD part {} s.parts
  let left := decide (p.queue.length < p0.queue.length)
  let taken := fun (b : Bank) => p0.kept.any (fun c => c.key = b.key) && !p.kept.any (fun c => c.key = b.key)
  modPart (twinPart part) (fun q =>
    { q with queue := (match left, p.queue.head?, q.queue with
               | false, some o, _ :: rest => { o with twin := true } :: rest
               | _, _, l => l.tail),
             rows := q.rows.filter (fun r => r.1 / 128 ≠ g) ++ p.rows.filter (fun r => r.1 / 128 = g),
             banks := q.banks.filter (fun b => b.1 / 4 ≠ g) ++ p.banks.filter (fun b => b.1 / 4 = g),
             kept := q.kept.filter (fun b => !taken b),
             probe := if p.probe = p0.probe then q.probe else p.probe }) s

/-- A step of the head instruction, of both units where its gang is paired (R208). -/
def byUnits (part : Nat) (op : MatOp) (f : State → State) (s : State) : State :=
  if gangPaired s op.gang then pairMirror part op.gang s (f (pairErrors part op.gang s)) else f s

/-- The next unit of a partition's head instruction, with the parity faults that the unit of partition `at_` meets (R184,
R198). -/
def headUnit (part at_ : Nat) (op : MatOp) (odd : List ParityEvent) (s : State) : State :=
  let s := if op.op = 0xA4 then s else dirtyGang op.gang s
  let s := if op.op = 0xA2 ∧ op.doneUnits ≠ 0 then s else settleUnit part op s
  match op.op with
  | 0xA0 => mldbUnit part op s
  | 0xA1 => mmaUnit part at_ op odd s
  | _ => mdrnUnit part op s

/-- The next unit of what stands at the head of a partition's queue; nothing while it is stopped or ended (R184, R198). -/
def matrixUnit (part : Nat) (odd : List ParityEvent) (s : State) : State :=
  let at_ := actingPart part s
  match readyHead at_ s with
  | none => s
  | some op => if matUnits op ≤ op.doneUnits then s else byUnits at_ op (headUnit at_ part op odd) s

/-- Units until the head instruction has none left or stops. -/
def matrixRun (part : Nat) (odd : List ParityEvent) : Nat → State → State
  | 0, s => s
  | n + 1, s =>
    match readyHead (actingPart part s) s with
    | none => s
    | some op => if matUnits op ≤ op.doneUnits then s else matrixRun part odd n (matrixUnit part odd s)

/-- What the completion of the head instruction does to the unit. -/
def matrixLast (part : Nat) (op : MatOp) (s : State) : State :=
  match op.op with
  | 0xA0 => mldbDone part op (dirtyGang op.gang s)
  | 0xA2 => drainFlush part s
  | 0xA3 => mclrDone part op (dirtyGang op.gang s)
  | 0xA4 => mcorDone part op s
  | _ => s

/-- Flags of a complete instruction merged into its warp's sr.fpst, or the launch's summary when the warp has exited
(R68, R69, R184); the bounds cause of an MDRN becomes due (R197). -/
def matrixMerge (op : MatOp) (s : State) : State :=
  if (lookup op.warp s.warps).bind (·.gang) = some op.gang then
    let c : Cause := { off := op.off, code := 0x0A, detail := op.entryNo, lanes := op.lanes, tdst := 0x1000 }
    modWarp op.warp (fun w =>
      { w with fpst := w.fpst ||| BitVec.setWidth 32 op.flags,
               post := if op.viol && tnBact op.entry = 3 then w.post ++ [(op.runAddr, c)] else w.post }) s
  else
    match lookup op.gang s.gangs with
    | some g => modLaunch g.launch (fun l => { l with fpsum := l.fpsum ||| op.flags }) s
    | none => s

/-- The head instruction, with nothing left to do, takes its last effect and leaves its queue, unless that effect met an
error (R184). -/
def headFinish (part : Nat) (op : MatOp) (s : State) : State :=
  let s := matrixLast part op s
  match (lookupD part {} s.parts).queue with
  | [] => s
  | o :: rest => if o.dead then s else modPart part (fun p => { p with queue := rest }) s

/-- The head instruction leaves its queue complete: its flags are merged, and what waits for it goes on (R184). -/
def matrixFinish (part : Nat) (s : State) : State :=
  let at_ := actingPart part s
  match readyHead at_ s with
  | none => s
  | some op =>
    if op.doneUnits < matUnits op then s
    else
      let t := byUnits at_ op (headFinish at_ op) s
      if (lookupD at_ {} t.parts).queue.length < (lookupD at_ {} s.parts).queue.length then wakeMatrix op.warp (matrixMerge op t) else t

/-- MATRIX_COMPLETE (R184): the head instruction's remaining units, then its completion. -/
def matrixComplete (part : Nat) (odd : List ParityEvent) (s : State) : State :=
  matrixFinish part (matrixRun part odd 16384 s)

def execMatrixComplete (part : Nat) (odd : List ParityEvent) (s : State) : Host.Outcome State Fault Refusal :=
  .next (matrixComplete part odd s)

/-- Paired mode: the two units' drained values differ, found before any element or scale is written (R208). -/
def drainMismatch (part : Nat) (s : State) : State :=
  match (lookupD part {} s.parts).queue with
  | op :: _ =>
    (match lookup op.gang s.gangs with
     | some g =>
       if hdrPair g.hdr && op.op = 0xA2 && op.doneUnits = 0 && !op.dead && !op.twin then byUnits part op (matrixError part op) s
       else s
     | none => s)
  | [] => s

end Sys2Proof.Machine
end

