-- ==== Sys2Proof/Machine/Issue.lean ====
section
/-! DEFINITION. Runs before they issue: fetch and decode (R82, R89 to R91, R96, R100, R104), the choice of a warp (R254,
R261), instruction fills (R105) and page walks (R25, R26). -/

namespace Sys2Proof.Machine

/-! ## Fetch and decode -/

/-- What fetching and decoding a run whole gives. -/
inductive Fetched where
  /-- Its words with their offsets. -/
  | ready (words : List (Nat × BitVec 128))
  /-- A line is not in the instruction cache. -/
  | miss (line : Nat)
  /-- The illegal-instruction trap, with the offset of the lowest offending instruction (R100). -/
  | illegal (off : Nat)
  /-- A handler cause taken before any instruction issues (R82, R89, R136), and the address after the run's marker. -/
  | early (c : Cause) (after : Nat)
deriving DecidableEq, Repr

/-- The bytes of a word at an address of a cached line, to the end of its fetch block (R90). -/
def codeAt (s : State) (core asn a : Nat) : Option (BitVec 128) :=
  (lookup (core, asn, a / 128) s.icache).map (fun ln => leBits 128 ((ln.drop (a % 128)).take (min 16 (32 - a % 32))))

/-- Registers R96 counts: temporaries are exempt. -/
def keptRegs (l : List RegId) : List RegId := l.filter (fun r => !r.isT)

/-- A word breaks R96 after the reads and writes of the run before it. -/
def breaksOnce (op : Nat) (w : Word) (first : Bool) (reads writes : List RegId) : Bool :=
  let rd := keptRegs (readsOf op w)
  let wr := keptRegs (writesOf op w)
  wr.any (fun r => reads.contains r || writes.contains r) ||
  decide (wr.eraseDups.length ≠ wr.length) ||
  (wr.any (fun r => rd.contains r) && !(first && w.mark))

/-- A legal word that the run or the warp forbids: a terminal before the marker (R99), TRET outside the handler (R267),
an entry outside the code (R280, R290). -/
def wordForbidden (wp : Warp) (op : Nat) (w : Word) : Bool :=
  (isTerm op w && !w.mark) ||
  (op = 0x09 && wp.handler.isNone) ||
  ((op = 0xC0 || op = 0xC1 || op = 0xC3) && decide (hdrCodelen wp.hdr ≤ w.ext.toNat % 2 ^ 32))

/-- The least `v` register a word names at or above a count (R89, log 19). -/
def outOfBound (regs op : Nat) (w : Word) : Option Nat :=
  (readsOf op w ++ writesOf op w).foldl (fun best r =>
    match r, best with
    | .v n, some m => if regs ≤ n ∧ n < m then some n else some m
    | .v n, none => if regs ≤ n then some n else none
    | _, b => b) none

/-- The polynomial table an instruction names is not declared (R136). -/
def tableBound (wp : Warp) (op : Nat) (w : Word) : Bool :=
  (op = 0x5C || op = 0x5D || op = 0x5E) && decide (hdrPpt wp.hdr ≤ w.sop.toNat)

/-- The causes an instruction raises before its run issues, unless every lane of the run is substituted there (R368): the
register-bound cause, else that of an undeclared table. -/
def earlyCause (wp : Warp) (addr off : Nat) (lanes : BitVec 32) (op : Nat) (w : Word) : Option Cause :=
  let subs := (wp.substFor addr off).map (·.1)
  if (lanesOf lanes).all (fun l => subs.contains l) then none
  else
    let td := tdstOf op w (hdrRegs wp.hdr)
    match outOfBound (hdrRegs wp.hdr) op w with
    | some n => some { off := off, code := 4, detail := n, lanes := lanes, tdst := td }
    | none => if tableBound wp op w then some { off := off, code := 5, detail := op, lanes := lanes, tdst := td } else none

/-- Of the causes met so far, the one R363 takes: the first register-bound one, a decode cause (step 2), before the first of
an undeclared table (step 5). -/
def firstEarly (best new : Option Cause) : Option Cause :=
  match best, new with
  | none, c => c
  | some b, some c => if b.code = 5 ∧ c.code = 4 then some c else some b
  | some b, none => some b

/-- What the run gives where an instruction at `off` is illegal: a register-bound cause at a lower offset, else the
illegal-instruction trap (R100, R363); no marker is decoded then, so the lanes would go on at the run's own address
(log 72). -/
def illegalAt (addr off : Nat) (early : Option Cause) : Fetched :=
  match early with
  | some c => if c.code = 4 then .early c addr else .illegal off
  | none => .illegal off

/-- The run from address `a` on: `n` instructions may still come; what has been read and written, and the early cause met
(R91, R100, R363). -/
def scanRun (s : State) (core asn : Nat) (wp : Warp) (addr : Nat) (lanes : BitVec 32) :
    Nat → Nat → List (Nat × BitVec 128) → List RegId → List RegId → Option Cause → Fetched
  | 0, a, _, _, _, early => illegalAt addr (a - addr) early
  | n + 1, a, words, reads, writes, early =>
    let off := a - addr
    if a < wp.hdrAt + 64 ∨ wp.hdrAt + hdrCodelen wp.hdr < a + 8 then illegalAt addr off early
    else
      match codeAt s core asn a with
      | none => .miss (a / 128)
      | some x =>
        match splitWord x, decodeSimt x with
        | some (op, w), some _ =>
          let len := w.len.bytes
          if 32 < a % 32 + len ∨ wp.hdrAt + hdrCodelen wp.hdr < a + len ∨ wordForbidden wp op w ∨
              breaksOnce op w words.isEmpty reads writes then illegalAt addr off early
          else
            let early := firstEarly early (earlyCause wp addr off lanes op w)
            let words := words ++ [(off, x)]
            if w.mark then (match early with | some c => .early c (normLpc (a + len)) | none => .ready words)
            else
              scanRun s core asn wp addr lanes n (normLpc (a + len)) words (reads ++ keptRegs (readsOf op w))
                (writes ++ keptRegs (writesOf op w)) early
        | _, _ => illegalAt addr off early

/-- The issue address of a warp in a clock: the least lpc of its Ready lanes, those released in the clock itself left out
(R254, R255). -/
def Warp.issueAddr (clock : Nat) (w : Warp) : Option Nat :=
  (w.lanes.filter (Lane.mayGo clock)).foldl (fun b l =>
    match b with | some a => some (min a l.lpc) | none => some l.lpc) none

/-- The lanes that take part in a run that begins in a clock at an address (R254, R255). -/
def Warp.runLanes (clock : Nat) (w : Warp) (a : Nat) : BitVec 32 :=
  maskOf (allLanes.filter (fun i => (w.lane i).mayGo clock && decide ((w.lane i).lpc = a)))

/-- The next run of warp `k` (R82, R91). -/
def fetchRun (s : State) (k : Nat) (wp : Warp) : Fetched :=
  match wp.issueAddr s.clock with
  | none => .illegal 0
  | some a =>
    let lanes := wp.runLanes s.clock a
    if a % 4 ≠ 0 then .early { off := 0, code := 6, detail := 0, lanes := lanes, tdst := 0x1000 } a
    else scanRun s (coreOfWarp k) (launchOf s wp).asn wp a lanes 24 a [] [] [] none

/-- The address after a run's marker (R90, R97). -/
def Run.after (r : Run) : Nat :=
  match r.words.getLast? with
  | none => r.addr
  | some x =>
    normLpc (r.addr + x.1 + (match splitWord x.2 with | some (_, w) => w.len.bytes | none => 8))

/-! ## Causes taken to the handler or to firmware (R361, R367, R369) -/

/-- A handler cause: the handler is entered; in the handler, or with TRAPH 0, the launch is killed. The run, if any, is
abandoned or has committed already (R361, R365, R367). -/
def enterCause (k : Nat) (c : Cause) (addr : Nat) (lanes : BitVec 32) (after : Nat) (post : Bool) (s : State) : State :=
  match lookup k s.warps with
  | none => s
  | some w =>
    let drop := modWarp k (fun w => { w with run := none })
    if w.handler.isSome then killLaunch w.launch 0x21 (itemOf s w) (0x100 + c.code) (drop s)
    else if hdrTraph w.hdr = 0 then killLaunch w.launch 0x21 (itemOf s w) c.code (drop s)
    else modWarp k (trapEnter s.clock c addr lanes after post) s

/-! ## Beginning a run (R254, R260, R261) -/

/-- The warp may begin a run in this clock: it is Ready or has only its lines to wait for (R255, R256). -/
def mayIssue (s : State) (x : Nat × Warp) : Bool :=
  x.2.run.isNone && x.2.lanes.any (Lane.mayGo s.clock) && !x.2.stopping && x.2.faultWait.isEmpty &&
  (x.2.post.isEmpty || x.2.handler.isSome) && !mcorPending s x.1 &&
  (match lookup x.2.launch s.launches with | some l => l.kill.isNone | none => false) &&
  (match x.2.gang with
   | none => true
   | some g => match lookup g s.gangs with | some y => decide (y.state = .placed) && !y.rolling | none => false)

/-- The warps of a partition that may begin a run, with what fetching gives. -/
def issuers (s : State) (part : Nat) : List (Nat × Warp × Fetched) :=
  ((s.warps.filter (fun x => partOfWarp x.1 = part)).filter (mayIssue s)).map (fun x => (x.1, x.2, fetchRun s x.1 x.2))

def Fetched.missed : Fetched → Bool
  | .miss _ => true
  | _ => false

/-- A fetch miss asked of the die's fetch agent (R105). -/
def askLine (s : State) (x : Nat × Warp × Fetched) : State :=
  match x.2.2 with
  | .miss ln =>
    let key := (dieOfCore (coreOfWarp x.1), (launchOf s x.2.1).asn, ln)
    if s.fetches.contains key then s else { s with fetches := s.fetches ++ [key] }
  | _ => s

/-- Earlier in the order of step 2 of R261: ready-since, then context number. -/
def readyBefore (x y : Nat × Warp × Fetched) : Bool :=
  decide (x.2.1.readySince < y.2.1.readySince ∨ (x.2.1.readySince = y.2.1.readySince ∧ x.1 < y.1))

/-- The first of a class in the order of R261. -/
def firstOf (cls : Nat) (l : List (Nat × Warp × Fetched)) : Option (Nat × Warp × Fetched) :=
  (l.filter (fun x => x.2.1.cls = cls)).foldl (fun b x =>
    match b with | none => some x | some y => if readyBefore x y then some x else some y) none

/-- The warp the partition chooses: the lowest class whose count stands at 64, else the highest class (R261). -/
def chooseWarp (counts : List (Nat × Nat)) (l : List (Nat × Warp × Fetched)) : Option (Nat × Warp × Fetched) :=
  let has := fun (c : Nat) => l.any (fun x => x.2.1.cls = c)
  match (List.range 8).find? (fun c => has c && decide (64 ≤ lookupD c 0 counts)) with
  | some c => firstOf c l
  | none =>
    match (List.range 8).reverse.find? has with
    | some c => firstOf c l
    | none => none

/-- The counts after a run of class `c` begins (R261). -/
def countRun (c : Nat) (l : List (Nat × Warp × Fetched)) (counts : List (Nat × Nat)) : List (Nat × Nat) :=
  (List.range 8).foldl (fun m d =>
    if d = c then put d 0 m
    else if d < c ∧ l.any (fun x => x.2.1.cls = d) then put d (min 64 (lookupD d 0 m + 1)) m
    else m) counts

/-- The chosen warp begins its run, or meets what its decoding found (R100, R361). -/
def beginRun (x : Nat × Warp × Fetched) (s : State) : State :=
  let (k, w, f) := x
  let a := (w.issueAddr s.clock).getD 0
  let lanes := w.runLanes s.clock a
  match f with
  | .ready words => modWarp k (fun w => { w with run := some { addr := a, lanes := lanes, words := words } }) s
  | .illegal off =>
    killLaunch w.launch 0x21 (itemOf s w) 0x10 (modWarp k (fun w => { w with toff := BitVec.ofNat 32 off }) s)
  | .early c after => enterCause k c a lanes after false s
  | .miss _ => s

/-- The warp holds an issue slot: its run has instructions left to issue (R256, R260). -/
def Warp.issuing (w : Warp) : Bool :=
  match w.run with | some r => decide (r.index < r.words.length) | none => false

/-- The warps a slot may go to in the clock in hand: in a clock in which one slot in 16 is withheld, none of the lowest
class that has a Ready warp (R9, R397, log 61). -/
def slotWarps (s : State) (ready : List (Nat × Warp × Fetched)) : List (Nat × Warp × Fetched) :=
  if s.clock % 16 < s.withheld then
    ready.filter (fun x => ready.any (fun y => decide (y.2.1.cls < x.2.1.cls)))
  else ready

/-- RUN_ISSUE (R260, R261): a free slot of the partition begins a run. -/
def runIssue (part : Nat) (s : State) : State :=
  let all := issuers s part
  let s := all.foldl askLine s
  if 2 ≤ (s.warps.filter (fun x => partOfWarp x.1 = part ∧ x.2.issuing)).length then s
  else
    let ready := all.filter (fun x => !x.2.2.missed)
    match chooseWarp (lookupD part {} s.parts).counts (slotWarps s ready) with
    | none => s
    | some x =>
      let s := match x.2.2 with
        | .ready _ => modPart part (fun p => { p with counts := countRun x.2.1.cls ready p.counts }) s
        | _ => s
      beginRun x s
def execRunIssue (part : Nat) (s : State) : Host.Outcome State Fault Refusal := .next (runIssue part s)

/-! ## Page faults of a warp (R29, R30) -/

/-- The faults of an attempt, one for each page and kind (R29). -/
def distinctFaults (l : List AccFault) : List AccFault :=
  l.foldl (fun acc f => if acc.any (fun g => decide (g.va / pageBytes = f.va / pageBytes ∧ g.kind = f.kind)) then acc
    else acc ++ [f]) []

/-- The run at an address is abandoned and the warp waits for the service of its faults; a 16th one in a row of one run and
page is fatal (R29, R30). -/
def parkOnFaults (k addr : Nat) (fs : List AccFault) (s : State) : State :=
  match lookup k s.warps with
  | none => s
  | some w =>
    let fs := distinctFaults fs
    let runs := countRunFaults addr (fs.map (fun f => f.va / pageBytes)) w.faultRuns
    let core := coreOfWarp k
    let asn := (launchOf s w).asn
    let go := fun (acc : List Nat × State) (f : AccFault) =>
      let r := raiseFault (.warp k) asn core (partOfWarp k % 4) (ctxOfWarp k) (dieClock s (dieOfCore core)) f
        (decide (16 ≤ lookupD (addr, f.va / pageBytes) 0 runs)) acc.2
      (acc.1 ++ [r.1], r.2)
    let out := fs.foldl go ([], s)
    modWarp k (fun w => { w with run := none, faultRuns := runs, faultWait := w.faultWait ++ out.1 }) out.2

/-- A fatal fault of a run goes to firmware; the run is abandoned and the warp never issues again (R30, R363). That of an
uncorrectable page-table entry is contained as an error the run consumed (R28, R374). -/
def fatalRun (k : Nat) (f : AccFault) (s : State) : State :=
  match lookup k s.warps with
  | none => s
  | some w =>
    let core := coreOfWarp k
    let r := raiseFault (.warp k) (launchOf s w).asn core (partOfWarp k % 4) (ctxOfWarp k) (dieClock s (dieOfCore core)) f false s
    if f.kind = 6 then containRun k f.path.code (modWarp k (fun w => { w with run := none }) r.2)
    else modWarp k (fun w => { w with run := none, faultWait := w.faultWait ++ [r.1] }) r.2

/-! ## Instruction fills (R104, R105) -/

/-- Warps of a die that wait for a line of an address space. -/
def fillWaiters (s : State) (die asn line : Nat) : List (Nat × Warp) :=
  s.warps.filter (fun x => dieOfCore (coreOfWarp x.1) = die && decide ((launchOf s x.2).asn = asn) && mayIssue s x &&
    decide (fetchRun s x.1 x.2 = .miss line))

/-- A line put in a core's instruction cache, 128 sets of 8 lines by line number; the oldest of a full set leaves (R104,
log 7). -/
def icacheFill (key : Nat × Nat × Nat) (data : List Byte) (l : List ((Nat × Nat × Nat) × List Byte)) :
    List ((Nat × Nat × Nat) × List Byte) :=
  let l := erase key l
  let mine := fun (x : (Nat × Nat × Nat) × List Byte) => decide (x.1.1 = key.1 ∧ x.1.2.2 % 128 = key.2.2 % 128)
  (key, data) :: (if 8 ≤ (l.filter mine).length then dropLast mine l else l)

/-- The cores of a die that hold a warp of a launch of an address space and kernel header (R105). -/
def fillCores (s : State) (die asn hdrAt : Nat) : List Nat :=
  ((s.warps.filter (fun x => dieOfCore (coreOfWarp x.1) = die && decide ((launchOf s x.2).asn = asn ∧ x.2.hdrAt = hdrAt))).map
    (fun x => coreOfWarp x.1)).eraseDups

/-- A warp whose run's lines have arrived becomes Ready now (R260, R261). -/
def linesArrived (s : State) (x : Nat × Warp) : State :=
  match lookup x.1 s.warps with
  | some w => if (fetchRun s x.1 w).missed then s else modWarp x.1 (fun w => { w with readySince := s.clock }) s
  | none => s

/-- INSTRUCTION_FILL (R104, R105): the line is translated and read once, and written into the caches of the die's cores
that run the code object; a fault, at the first byte of the line its run fetches, parks the warps that wait, and an error in the
line or in an entry of its walk is contained for each of them (R28, R31, R372, R374). -/
def instructionFill (die asn line : Nat) (s : State) : State :=
  if !s.fetches.contains (die, asn, line) then s
  else
    let s := { s with fetches := s.fetches.filter (fun x => x ≠ (die, asn, line)) }
    let ws := fillWaiters s die asn line
    match ws with
    | [] => s
    | x :: _ =>
      let r := translate (.die die) (spaceOf (launchOf s x.2)) (128 * line) false true .L s
      match r.1 with
      | .error f => ws.foldl (fun s y =>
          let a := (y.2.issueAddr s.clock).getD 0
          let f := { f with va := max f.va a }
          if f.kind = 6 then fatalRun y.1 f s else parkOnFaults y.1 a [f] s) r.2
      | .ok p =>
        if isPoisoned r.2 p.1 128 then ws.foldl (fun s y => containRun y.1 0 s) r.2
        else
          let data := readPlace r.2 p.1 128
          ws.foldl linesArrived
            ((fillCores r.2 die asn x.2.hdrAt).foldl (fun s c => { s with icache := icacheFill (c, asn, line) data s.icache }) r.2)
def execInstructionFill (die asn line : Nat) (s : State) : Host.Outcome State Fault Refusal :=
  .next (instructionFill die asn line s)

/-! ## Page walks (R25, R26, R28) -/

/-- The global addresses that the next instruction of a warp's run accesses, and whether it writes them: none where an
address is misaligned, since the instruction then accesses nothing, and of a uniform load or atomic the one lane's that
performs it (R25, R144, R152). -/
def nextAccess (c : Ctx) : List Nat × Bool :=
  let need := fun (n : Nat) (write : Bool) (l : List (Nat × Nat)) (performs : Nat × Nat → Bool) =>
    (if (misaligned n l).isEmpty then (l.filter performs).map (·.2) else [], write)
  let loading := fun (x : Nat × Nat) => c.loaders.contains x.1
  let any := fun (_ : Nat × Nat) => true
  match c.op with
  | 0x70 => need c.size false (c.addrs true) loading
  | 0x71 => need c.size true (c.addrs true) any
  | 0xB4 => need 8 false (c.act.map (fun l => (l, c.a 2 l))) any
  | 0xC7 => need 8 false (c.act.map (fun l => (l, c.a 2 l))) any
  | 0xB5 => need 8 true (c.act.map (fun l => (l, c.a 2 l))) any
  | 0xC6 => need 8 true (c.act.map (fun l => (l, c.a 2 l))) any
  | 0xC2 => need 8 true (c.loaders.map (fun l => (l, c.a 2 l))) any
  | 0xC4 => need 8 true (c.loaders.map (fun l => (l, c.a 2 l))) any
  | 0xC5 => need (if c.sop = 0 then 64 else 16) true (c.act.map (fun l => (l, c.a 2 l))) any
  | _ =>
    if 0x80 ≤ c.op ∧ c.op ≤ 0x85 ∧ c.mx = 0 then need (4 * atRegs c) true (c.act.map (fun l => (l, atAddr c l))) loading
    else if c.op = 0xC0 ∨ c.op = 0xC1 ∨ c.op = 0xC3 then
      need 8 true ((c.act.map (fun l => (l, c.a 2 l))).filter (fun x => x.2 ≠ 0)) any
    else ([], false)

/-- The next instruction of warp `k` needs the page of a walk (R25). -/
def warpNeeds (s : State) (k : Nat) (wp : Warp) (req : WalkReq) : Bool :=
  match wp.run.bind (fun r => (r.words[r.index]?).map (fun x => (r, x))) with
  | none => false
  | some (r, x) =>
    match splitWord x.2 with
    | none => false
    | some (op, w) =>
      let a := nextAccess (ctxOf k wp r op w)
      let l := launchOf s wp
      a.2 = req.write && !req.fetch && decide (l.asn = req.asn ∧ l.root = req.root) &&
        a.1.any (fun va => va / pageBytes = req.va / pageBytes)

/-- A line of a copy that may move next needs the page of a walk. -/
def copyNeeds (c : Copy) (req : WalkReq) : Bool :=
  !req.fetch && decide (c.asn = req.asn ∧ c.root = req.root) && !c.dead && c.stopped.isNone &&
  (c.lines.take 1024).any (fun l =>
    decide ((c.fromSp = 0 ∧ c.fill.isNone ∧ req.write = false ∧ l.1 / pageBytes = req.va / pageBytes) ∨
      (c.toSp = 0 ∧ req.write = true ∧ l.2 / pageBytes = req.va / pageBytes)))

/-- An access or a fetch of the die needs the translation a walk yields (R25, log 64). -/
def walkWanted (s : State) (die : Nat) (req : WalkReq) : Bool :=
  (req.fetch && s.fetches.any (fun f => decide (f.1 = die ∧ f.2.1 = req.asn ∧ 128 * f.2.2 / pageBytes = req.va / pageBytes)) &&
    s.launches.any (fun l => decide (l.2.asn = req.asn ∧ l.2.root = req.root))) ||
  s.warps.any (fun x => decide (dieOfCore (coreOfWarp x.1) = die) && warpNeeds s x.1 x.2 req) ||
  s.copies.any (fun c => decide (dieOfCore c.2.core = die) && copyNeeds c.2 req)

/-- TRANSLATION_WALK (R25, R26): the walk an access waits for. One that yields its translation sets A and D and fills the
die's cache; one that fails changes nothing here: the access that asked decides the fault when it uses it (R28). -/
def translationWalk (die : Nat) (req : WalkReq) (s : State) : State :=
  if walkWanted s die req then
    (translate (.die die) { asn := req.asn, root := req.root, rpld := true, rhnd := 0 } req.va req.write req.fetch .L s).2
  else s
def execTranslationWalk (die : Nat) (req : WalkReq) (s : State) : Host.Outcome State Fault Refusal :=
  .next (translationWalk die req s)

end Sys2Proof.Machine
end

