-- ==== Sys2Proof/Machine/Copies.lean ====
section
/-! DEFINITION. Copies and tags: the instructions (R170 to R172), what the core checks of a slice at the marker (R52),
lines landing (R55 to R57) and tag waits ending (R55). Completion stands in Commands, since a command's copy completes its
command. -/

namespace Sys2Proof.Machine

/-! ## Slices -/

/-- Fields of the copies' extension (R170). -/
def cpTag (w : Word) : Nat := w.ext.toNat % 64
def cpFrom (w : Word) : Nat := w.ext.toNat / 64 % 4
def cpTo (w : Word) : Nat := w.ext.toNat / 256 % 4

/-- Registers of an address in a space: a pair for global (R170). -/
def spaceRegs (sp : Nat) : Nat := if sp = 0 then 2 else 1

/-- The address of a line: 64 bits in global space (R1). -/
def lineAddr (sp base i : Nat) : Nat := if sp = 0 then (base + 128 * i) % 2 ^ 64 else base + 128 * i

/-- Source and destination of each line of a slice at issue (R171). -/
def sliceLines (c : Ctx) : List (Nat × Nat) :=
  let f := cpFrom c.w
  let t := cpTo c.w
  match c.op with
  | 0x90 =>
    if c.act.isEmpty then []
    else (List.range (c.c 1 0)).map (fun i =>
      (lineAddr f (c.a (spaceRegs f) 0) i, lineAddr t (c.reg c.w.b (spaceRegs t) 0) i))
  | 0x91 => c.act.mapIdx (fun i l => (c.a (spaceRegs f) l, lineAddr t (c.reg c.w.b (spaceRegs t) 0) i))
  | _ => c.act.mapIdx (fun i l => (lineAddr f (c.a (spaceRegs f) 0) i, c.reg c.w.b (spaceRegs t) l))

/-- Lanes whose address breaks the 128-byte alignment of R51; every active lane where a base does. -/
def sliceMisaligned (c : Ctx) : List Nat :=
  let f := cpFrom c.w
  let t := cpTo c.w
  let baseA := c.a (spaceRegs f) 0 % 128 ≠ 0
  let baseB := c.reg c.w.b (spaceRegs t) 0 % 128 ≠ 0
  match c.op with
  | 0x90 => if baseA ∨ baseB then c.act else []
  | 0x91 => if baseB then c.act else c.act.filter (fun l => c.a (spaceRegs f) l % 128 ≠ 0)
  | _ => if baseA then c.act else c.act.filter (fun l => c.reg c.w.b (spaceRegs t) l % 128 ≠ 0)

/-- A copy instruction at issue: the gang, the count and the alignment (R51, R171, R365). -/
def copyEff (c : Ctx) : Eff :=
  let many := c.op = 0x90 ∧ !c.act.isEmpty ∧ 4096 < c.c 1 0
  let bound := c.wp.gang.isNone || decide many
  let mis := sliceMisaligned c
  if !c.full.isEmpty && c.act.isEmpty then {}
  else if bound || !mis.isEmpty then
    { causes := (if bound then [(5, c.op, maskOf c.act)] else []) ++ (if mis.isEmpty then [] else [(6, c.op, maskOf c.act)]) }
  else { term := some { c.pend with addr := sliceLines c } }

/-- CPY (R171). -/
def execCpy (w : Word) (s : State) : Host.Outcome State Fault Refusal := simtP 0x90 w copyEff s
/-- CPYG (R171). -/
def execCpyg (w : Word) (s : State) : Host.Outcome State Fault Refusal := simtP 0x91 w copyEff s
/-- CPYS (R171). -/
def execCpys (w : Word) (s : State) : Host.Outcome State Fault Refusal := simtP 0x92 w copyEff s

/-- A slice refused at its marker (R52): a scratchpad line beyond the gang's, a tag beyond the count or running or ready,
or another form or direction than the slices before it. -/
def sliceRefused (x : Gang) (f : Fin) : Bool :=
  let w := f.p.w
  let lim := hdrScrl x.hdr * 128
  f.p.addr.any (fun l => (cpFrom w = 2 && decide (lim < l.1 + 128)) || (cpTo w = 2 && decide (lim < l.2 + 128))) ||
  decide (hdrTags x.hdr ≤ cpTag w) ||
  (match lookup (cpTag w) x.tags with
   | some .running => true
   | some .ready => true
   | some (.open (sl :: _)) => decide (sl.form ≠ f.p.op ∨ sl.fromSp ≠ cpFrom w ∨ sl.toSp ≠ cpTo w)
   | _ => false)

/-- The refused vault lines of a slice (R38, R52). -/
def sliceFaults (s : State) (rhnd : Nat) (f : Fin) : List AccFault :=
  let w := f.p.w
  (if cpFrom w = 1 then (f.p.addr.filter (fun l => !vaultOk s rhnd l.1 false)).map (fun l => vaultFault l.1 false .C) else []) ++
  (if cpTo w = 1 then (f.p.addr.filter (fun l => !vaultOk s rhnd l.2 true)).map (fun l => vaultFault l.2 true .C) else [])

/-- The slice arrives at the commit of its run (R50, R171). -/
def copyEnd (f : Fin) (s : State) : State :=
  match (lookup f.key s.warps) with
  | none => s
  | some w =>
    match w.gang with
    | none => s
    | some g =>
      let sl : Slice := { warp := w.num, form := f.p.op, fromSp := cpFrom f.p.w, toSp := cpTo f.p.w, lines := f.p.addr }
      let t := cpTag f.p.w
      startCopy g t (modGang g (fun x =>
        { x with tags := put t (match lookup t x.tags with
          | some (.open l) => .open (l ++ [sl])
          | _ => .open [sl]) x.tags }) s)

/-! ## Tag instructions (R172) -/

/-- The tag mask of an instruction. -/
def Ctx.tagMask (c : Ctx) : BitVec 64 := BitVec.ofNat 64 (c.b 2 3 0)

/-- A tag instruction refused at issue (R172). -/
def tagRefused (c : Ctx) : Bool :=
  c.wp.gang.isNone || c.tagMask >>> hdrTags c.wp.hdr ≠ 0 || (c.op = 0x93 && c.tagMask = 0)

/-- TWANY, TWALL and TCLR at issue; with no active lane no bound is tested (log 83). -/
def tagEff (c : Ctx) : Eff :=
  if c.act.isEmpty then { term := if c.full.isEmpty then some c.pend else none }
  else if tagRefused c then Eff.cause 5 c.op c.act
  else { term := some { c.pend with b := [(0, BitVec.setWidth 128 c.tagMask)] } }

/-- The mask an instruction read at issue. -/
def Fin.tagMask (f : Fin) : BitVec 64 := BitVec.setWidth 64 (lookupD 0 0 f.p.b)

/-- TWANY (R172). -/
def execTwany (w : Word) (s : State) : Host.Outcome State Fault Refusal := simtP 0x93 w tagEff s
/-- TWALL (R172). -/
def execTwall (w : Word) (s : State) : Host.Outcome State Fault Refusal := simtP 0x94 w tagEff s
/-- Both park; TWALL with a zero mask does not (R172). -/
def tagWaitEnd (f : Fin) (s : State) : State :=
  if f.p.lanes.isEmpty ∨ f.tagMask = 0 then s
  else
    let s := parkLanes f.key f.p.lanes (.tag f.tagMask (f.p.op = 0x94)) s
    match (lookup f.key s.warps).bind (·.gang) with
    | some g => meetTags g s
    | none => s

/-- The lowest set bit of a mask, or 64. -/
def lowestTag (m : BitVec 64) : Nat := ((List.range 64).find? (fun i => m.getLsbD i)).getD 64

/-- TFFR (R172); with no active lane no bound is tested (log 83). -/
def tffrEff (c : Ctx) (s : State) : Eff :=
  if c.act.isEmpty then {}
  else if tagRefused c then Eff.cause 5 c.op c.act
  else
    let ready : BitVec 64 := match gangOf s c.wp with | some x => x.readyTags | none => 0
    c.perLane 1 (fun _ => lowestTag (ready &&& c.tagMask))
def execTffr (w : Word) (s : State) : Host.Outcome State Fault Refusal := simtR 0x95 w tffrEff s

/-- TCLR (R172). -/
def execTclr (w : Word) (s : State) : Host.Outcome State Fault Refusal := simtP 0x96 w tagEff s
/-- TCLR refused at its marker: a tag of its mask is open or running (R53, R172). -/
def tclrRefused (x : Gang) (f : Fin) : Bool :=
  x.tags.any (fun t => f.tagMask.getLsbD t.1 && (match t.2 with | .open _ => true | .running => true | _ => false))
/-- Every ready tag of the mask is freed (R53). -/
def tclrEnd (f : Fin) (s : State) : State :=
  if f.p.lanes.isEmpty then s
  else
    match (lookup f.key s.warps).bind (·.gang) with
    | none => s
    | some g =>
      modGang g (fun x => { x with tags := x.tags.map (fun t =>
        if f.tagMask.getLsbD t.1 ∧ t.2 = .ready then (t.1, .free) else t) }) s

/-- TAG_WAIT_RELEASE (R55, R255): a lane whose tag wait has been met goes on, with every such lane of its warp. -/
def tagWaitRelease (k lane : Nat) (s : State) : State :=
  let met := fun (p : Park) => decide (p = .tag 0 true)
  modWarp k (fun w => if (w.parkOf met lane).isNone then w else w.endParks s.clock (fun _ _ => []) (w.parks met)) s
def execTagWaitRelease (warp lane : Nat) (s : State) : Host.Outcome State Fault Refusal :=
  .next (tagWaitRelease warp lane s)

/-! ## Lines landing (R55 to R57) -/

/-- An uncorrectable error in a source line, or in a page-table entry its translation read, ends the copy; a gang's is
contained (R28, R57, R374). The DET of a COPY's completion is not given (log 32). -/
def copyError (id : Nat) (c : Copy) (s : State) : State :=
  let det := (Config.freeWord s.free).toNat % 65536
  let s := { s with copies := put id { c with dead := true, ended := some (0x22, det, allOnes64) } s.copies,
                    free := s.free + 1 }
  match c.owner with
  | .gang g _ => containGang g Path.C.code s
  | .command _ => s

/-- A fault of a copy (R29, R30, R57): a replayable one stops it at its line, a fatal one ends it. The faults of a page count
up until a line of the page lands. -/
def copyFault (id : Nat) (c : Copy) (f : AccFault) (s : State) : State :=
  let runs := put (f.va / pageBytes) (lookupD (f.va / pageBytes) 0 c.faultRuns + 1) c.faultRuns
  let last := sixteenth runs (f.va / pageBytes)
  let s := { s with copies := put id { c with faultRuns := runs, dead := !f.rpl || last } s.copies }
  let r := raiseFault (.copy id) c.asn c.core 0 0 (dieClock s (dieOfCore c.core)) f last s
  if f.kind = 6 then copyError id { c with faultRuns := runs, dead := true } r.2
  else if f.rpl && !last then { r.2 with copies := adjust id (fun c => { c with stopped := some r.1 }) r.2.copies } else r.2

/-- The vault lines of a copy that its launch may not name, by offset, and whether they are written (R38). -/
def refusedLines (s : State) (c : Copy) : List AccFault :=
  (if c.fromSp = 1 ∧ c.fill.isNone then
    (c.lines.filter (fun l => !vaultOk s c.rhnd l.1 false)).map (fun l => vaultFault l.1 false .C) else []) ++
  (if c.toSp = 1 then (c.lines.filter (fun l => !vaultOk s c.rhnd l.2 true)).map (fun l => vaultFault l.2 true .C) else [])

/-- The fault a copy records: of vault refusals, that of the lowest refused offset of its lines (R31, R38). -/
def copyRefusal (s : State) (c : Copy) (f : AccFault) : AccFault :=
  if f.kind = 7 then (refusedLines s c).foldl (fun b x => if x.va < b.va then x else b) f else f

/-- The lines of a copy that have landed and wait are performed at their destinations (R55, R312). -/
def performCopy (id : Nat) (s : State) : State := performSome (fun b => b.path = .C && decide (b.unit = id)) s

/-- Every line of a gang's copy is performed: its tag is ready (R53, R55). -/
def copyReady (id : Nat) (s : State) : State :=
  match lookup id s.copies with
  | none => s
  | some c =>
    match c.owner with
    | .gang g t =>
      if !c.lines.isEmpty || c.dead then s
      else
        meetTags g (modGang g (fun x => { x with tags := put t .ready x.tags }) { performCopy id s with copies := erase id s.copies })
    | .command _ => s

/-- A line written at its destination on path C: in scratchpad it lands in the clock's order and leaves its line full, with
the bytes that stood there kept for loads that race with it (R44, R48, R55). -/
def landLine (id line : Nat) (c : Copy) (q : Place) (data : List Byte) (s : State) : State :=
  let dst := (c.lines[line]?.getD (0, 0)).2
  let src := (c.lines[line]?.getD (0, 0)).1
  let c : Copy := { c with
    lines := c.lines.eraseIdx line,
    faultRuns := c.faultRuns.filter (fun x =>
      !decide ((c.fromSp = 0 ∧ x.1 = src / pageBytes) ∨ (c.toSp = 0 ∧ x.1 = dst / pageBytes))) }
  match q with
  | .scr b =>
    let old := readPlace s q 128
    let s := scrLand b data s
    { s with copies := put id { c with landed := (dst, old) :: c.landed } s.copies }
  | _ =>
    let s := laterWrite .C id false q data s
    { s with copies := put id c s.copies }

/-- COPY_LINE_LAND (R55, R57): one of the next 1,024 lines is read, whole and as path C sees it now (R13, log 63), and written at its
destination; the last line of a gang's copy makes its tag ready. -/
def copyLineLand (id line : Nat) (s : State) : State :=
  match lookup id s.copies with
  | none => s
  | some c =>
    if c.dead || c.stopped.isSome || decide (1024 ≤ line) then s
    else
      match c.lines[line]? with
      | none => s
      | some l =>
        let src := if c.fill.isSome then (Except.ok (.dev 0), s) else copyPlace c c.fromSp l.1 false s
        match src with
        | (.error f, s) => copyFault id c (copyRefusal s c f) s
        | (.ok p, s) =>
          match copyPlace c c.toSp l.2 true s with
          | (.error f, s) => copyFault id c (copyRefusal s c f) s
          | (.ok q, s) =>
            if c.fill.isNone && isPoisoned s p 128 then copyError id c s
            else
              let data := match c.fill with
                | some x => (List.range 16).flatMap (fun _ => leBytes 8 x.toNat)
                | none => readOn .C s p 128
              let s := landLine id line c q data s
              let s := match c.owner with | .gang g _ => dirtyGang g s | .command _ => s
              copyReady id s
def execCopyLineLand (copy line : Nat) (s : State) : Host.Outcome State Fault Refusal :=
  .next (copyLineLand copy line s)

end Sys2Proof.Machine
end

