-- ==== Sys2Proof/Machine/Alloc.lean ====
section
/-! DEFINITION. What a core has and what is free: contexts, registers, scratchpad, tags, barriers, rows and banks (R8, R11,
R42, R54, R286, R326), placing a gang (R251, R326) and forming a loose warp (R284). -/

namespace Sys2Proof.Machine

/-! ## What is taken -/

/-- Address of a launch's kernel header (R315). -/
def Launch.hdrAt (l : Launch) : Nat := 128 * fld l.pkt 64 50

/-- Registers a warp takes: 32 lanes of those its header declares (R11). -/
def warpRegs (h : BitVec 512) : Nat := 32 * hdrRegs h

/-- The reserve contexts of a core: launch, header, context and slice line (R286). -/
def reservesOn (s : State) (core : Nat) : List (Nat × BitVec 512 × Nat × Nat) :=
  s.launches.flatMap (fun l =>
    (lookupD core [] l.2.reserves).map (fun r => (l.1, l.2.hdr, r.1, r.2)))

/-- The warps of a partition that hold ordinary contexts. -/
def plainWarps (s : State) (part : Nat) : List (Nat × Warp) :=
  s.warps.filter (fun x => partOfWarp x.1 = part ∧ !x.2.reserve)

/-- The warps whose second copy, in paired mode, runs on a partition (R390). -/
def pairedOn (s : State) (part : Nat) : List (Nat × Warp) :=
  s.warps.filter (fun x => x.2.gang.isSome && hdrPair x.2.hdr && decide (partOfWarp x.1 ^^^ 1 = part))

/-- Contexts of a partition that are free (R8, R286). -/
def freeContexts (s : State) (part : Nat) : Nat :=
  16 - (plainWarps s part).length - (pairedOn s part).length -
    ((reservesOn s (part / 4)).filter (fun r => partOfWarp r.2.2.1 = part)).length

/-- Registers of a partition that are free (R11). -/
def freeRegs (s : State) (part : Nat) : Nat :=
  32768 - ((plainWarps s part).map (fun x => warpRegs x.2.hdr)).sum - ((pairedOn s part).map (fun x => warpRegs x.2.hdr)).sum -
    (((reservesOn s (part / 4)).filter (fun r => partOfWarp r.2.2.1 = part)).map (fun r => warpRegs r.2.1)).sum

/-- Context keys of a partition that no warp and no reserve holds, ascending. -/
def openKeys (s : State) (part : Nat) : List Nat :=
  ((List.range 16).map (fun c => part * 16 + c)).filter (contextFree s)

/-- Gangs on a core. -/
def gangsOn (s : State) (core : Nat) : List (Nat × Gang) := s.gangs.filter (fun g => g.2.core = core)

/-- Scratchpad lines of a core that are taken: first line and count (R42). -/
def takenLines (s : State) (core : Nat) : List (Nat × Nat) :=
  (gangsOn s core).map (fun g => (g.2.scrAt, hdrScrl g.2.hdr)) ++
  ((s.warps.filter (fun x => coreOfWarp x.1 = core ∧ x.2.gang.isNone ∧ !x.2.reserve)).map (fun x => (x.2.sliceAt, 32))) ++
  (reservesOn s core).map (fun r => (r.2.2.2, 32))

/-- The lowest free range of `n` lines among those taken (R42). -/
def findLines (taken : List (Nat × Nat)) (n : Nat) : Option Nat :=
  if n = 0 then some 0
  else
    (0 :: taken.map (fun t => t.1 + t.2)).foldl (fun best a =>
      if a + n ≤ 4096 ∧ taken.all (fun t => decide (a + n ≤ t.1 ∨ t.1 + t.2 ≤ a ∨ t.2 = 0)) then
        (match best with | some b => if a < b then some a else best | none => some a)
      else best) none

/-- `count` ranges of `n` lines, each the lowest that is free then. -/
def findRanges (n : Nat) : Nat → List (Nat × Nat) → Option (List Nat)
  | 0, _ => some []
  | k + 1, taken =>
    match findLines taken n with
    | none => none
    | some a =>
      match findRanges n k ((a, n) :: taken) with
      | none => none
      | some l => some (a :: l)

/-! ## What a gang needs (R326) -/

/-- Warps of a gang of `n` on partition `p` of its core, the second copies of paired mode included (R251, R390). -/
def warpsOnPart (h : BitVec 512) (n p : Nat) : Nat :=
  let own := fun (q : Nat) => ((List.range n).filter (fun w => w % 4 = q)).length
  own p + (if hdrPair h then own (p ^^^ 1) else 0)

/-- The range for the gang and the slices of the reserves set aside with it. -/
def gangRanges (s : State) (core : Nat) (l : Launch) (h : BitVec 512) : Option (Nat × List Nat) :=
  match findLines (takenLines s core) (hdrScrl h) with
  | none => none
  | some a =>
    (findRanges 32 (if hasReserves l core then 0 else 4 * hdrRsv l.hdr) ((a, hdrScrl h) :: takenLines s core)).map
      (fun r => (a, r))

/-- Banks and rows that the gangs of a partition hold (R181). -/
def banksUsed (s : State) (part : Nat) : Nat :=
  (((gangsOn s (part / 4)).filter (fun g => decide (0 < warpsOnPart g.2.hdr g.2.warps (part % 4)))).map (fun g => hdrBanks g.2.hdr)).sum
def rowsUsed (s : State) (part : Nat) : Nat :=
  (((gangsOn s (part / 4)).filter (fun g => decide (0 < warpsOnPart g.2.hdr g.2.warps (part % 4)))).map (fun g => hdrRows g.2.hdr)).sum

/-- Bytes of one shadow of a gang (R387). -/
def shadowBytes (h : BitVec 512) (n : Nat) : Nat :=
  n * (hdrRegs h * 128 + 640 + hdrPpt h * 1280) + hdrScrl h * 128 + hdrScrl h / 8

/-- Room left in the save pool (R379). -/
def poolRoom (s : State) : Nat :=
  match s.savePool with
  | some p => p.2 - s.poolUsed
  | none => 0

/-- The save pool has room for the two shadows of a new gang of `n` warps; a gang that comes back has the room of its own
(R387). -/
def shadowsFit (s : State) (h : BitVec 512) (n : Nat) (back : Bool) : Bool :=
  back || !hdrRb h || decide (2 * shadowBytes h n ≤ poolRoom s)

/-- A core fits a gang of a launch, new or coming `back` from the save pool (R326, R387, R392). -/
def coreFits (s : State) (core : Nat) (l : Launch) (h : BitVec 512) (n : Nat) (back : Bool) : Bool :=
  let rsv := if hasReserves l core then 0 else hdrRsv l.hdr
  !s.coresOut.contains core && !s.scanning.contains core &&
  (List.range 4).all (fun p =>
    let need := warpsOnPart h n p
    let part := core * 4 + p
    decide (need + rsv ≤ freeContexts s part) &&
    decide (need * warpRegs h + rsv * warpRegs l.hdr ≤ freeRegs s part) &&
    (need = 0 || (decide (banksUsed s part + hdrBanks h ≤ 4) && decide (rowsUsed s part + hdrRows h ≤ 128)))) &&
  (gangRanges s core l h).isSome &&
  decide (((gangsOn s core).map (fun g => hdrTags g.2.hdr)).sum + hdrTags h ≤ 64) &&
  decide (((gangsOn s core).map (fun g => hdrBars g.2.hdr)).sum + hdrBars h ≤ 16) &&
  shadowsFit s h n back

/-- A gang of the launch fits an empty core (R11, R42, R286). -/
def placeable (h : BitVec 512) (n : Nat) : Bool :=
  (List.range 4).all (fun p =>
    decide (warpsOnPart h n p + hdrRsv h ≤ 16) && decide ((warpsOnPart h n p + hdrRsv h) * warpRegs h ≤ 32768)) &&
  decide (hdrScrl h * 128 + 16384 * hdrRsv h ≤ 524288)

/-! ## Placing (R42, R181, R185, R251, R272, R286) -/

/-- The launch's reserves set aside on a core, each partition's from its highest free contexts. -/
def setReserves (core l : Nat) (slices : List Nat) (s : State) : State :=
  match lookup l s.launches with
  | none => s
  | some x =>
    if hasReserves x core then s
    else
      let n := hdrRsv x.hdr
      let keys := (List.range 4).flatMap (fun p => ((openKeys s (core * 4 + p)).reverse.take n))
      modLaunch l (fun x => { x with reserves := put core (keys.zip slices) x.reserves }) s

/-- Unowned kept banks of a partition discarded, oldest first, until `need` physical banks are free (R185). -/
def dropKept (part need : Nat) (s : State) : State :=
  modPart part (fun p => { p with kept := p.kept.drop (p.kept.length - (4 - banksUsed s part - need)) }) s

/-- A freshly formed warp: every lane Ready at the entry, every register zero (R251). -/
def newWarp (launch : Nat) (hdrAt : Nat) (hdr : BitVec 512) (cls clock : Nat) : Warp :=
  { launch := launch, gang := none, hdrAt := hdrAt, hdr := hdr, cls := cls,
    lanes := List.replicate 32 { lpc := normLpc (hdrAt + hdrEntry hdr) }, readySince := clock }

/-- A stretch of a core's scratchpad as placement leaves it: empty and zero (R42). -/
def clearLines (lo n : Nat) (s : State) : State :=
  { s with scr := s.scr.clear (lo * 128) ((lo + n) * 128), scrFull := s.scrFull.filter (fun l => !decide (lo ≤ l ∧ l < lo + n)) }

/-- Warp `w` of a gang put in the lowest free context of its partition. -/
def placeWarpOf (core g : Nat) (s : State) (w : Nat × Warp) : State :=
  match openKeys s (core * 4 + w.1 % 4) with
  | [] => s
  | k :: _ => { s with warps := put k { w.2 with gang := some g, num := w.1 } s.warps }

/-- A gang put on a core that fits it; its warps as given, by number (R251, R326). The gang's key is given. -/
def placeOn (core g : Nat) (x : Gang) (warps : List (Nat × Warp)) (s : State) : State :=
  match lookup x.launch s.launches with
  | none => s
  | some l =>
    match gangRanges s core l x.hdr with
    | none => s
    | some (a, slices) =>
      let s := setReserves core x.launch slices s
      let s := (List.range 4).foldl (fun s p =>
        if warpsOnPart x.hdr x.warps p = 0 then s else dropKept (core * 4 + p) (hdrBanks x.hdr) s) s
      let s := { s with gangs := put g { x with core := core, scrAt := a, state := .placed } s.gangs,
                        poolUsed := if hdrRb x.hdr then s.poolUsed + 2 * shadowBytes x.hdr x.warps else s.poolUsed }
      let s := clearLines (core * 4096 + a) (hdrScrl x.hdr) s
      acquireCore core (warps.foldl (placeWarpOf core g) s)

/-- The barriers and tags of a gang at placement (R272, R53). -/
def freshBarriers (h : BitVec 512) (n : Nat) : List (Nat × Barrier) :=
  (List.range (hdrBars h)).map (fun b => (b, { expect := n }))
def freshTags (h : BitVec 512) : List (Nat × TagState) := (List.range (hdrTags h)).map (fun t => (t, .free))

/-- A new gang placed on a core, with its first shadow where rollback is enabled (R251, R387). -/
def placeNew (core : Nat) (x : Gang) (s : State) : State :=
  let g := s.nextGang
  let w := newWarp x.launch x.hdrAt x.hdr x.cls s.clock
  let s := { s with nextGang := g + 1 }
  let x := { x with barriers := freshBarriers x.hdr x.warps, tags := freshTags x.hdr }
  takeShadow g (placeOn core g x ((List.range x.warps).map (fun i => (i, w))) s)

/-! ## Loose warps (R284) -/

/-- A free context for a loose warp of a launch on a core: its key, its slice and whether it is a reserve (R284, R42). Which
free context of the partition, and which of several free reserves, is the model's choice: the lowest context, and the first
reserve listed (log 75). -/
def looseContext (s : State) (core l : Nat) : Option (Nat × Nat × Bool) :=
  match lookup l s.launches with
  | none => none
  | some x =>
    let parts := ((List.range 4).map (fun p => core * 4 + p)).filter (fun p =>
      decide (0 < freeContexts s p) && decide (warpRegs x.hdr ≤ freeRegs s p) && !(openKeys s p).isEmpty)
    let best := parts.foldl (fun (b : Option Nat) p =>
      match b with
      | none => some p
      | some q => if freeContexts s q < freeContexts s p then some p else b) none
    match best, findLines (takenLines s core) 32 with
    | some p, some a => (openKeys s p).head?.map (fun k => (k, a, false))
    | _, _ =>
      ((lookupD core [] x.reserves).find? (fun r => (lookup r.1 s.warps).isNone)).map (fun r => (r.1, r.2, true))

end Sys2Proof.Machine
end

