-- ==== Sys2Proof/Machine/Queues.lean ====
section
/-! DEFINITION. Queues (R306 to R309), the command processor's own accesses (R416), and how a command completes (R312 to
R314). -/

namespace Sys2Proof.Machine

/-! ## The queue control block (R307) -/

/-- Address of the ring, and whether it lies in host memory. -/
def qRing (b : BitVec 512) : Nat := 4096 * fld b 12 40
def qRhost (b : BitVec 512) : Bool := fld b 52 1 = 1
def qPriv (b : BitVec 512) : Bool := fld b 64 1 = 1
/-- Age limit: 0 means 32. -/
def qAge (b : BitVec 512) : Nat := if fld b 65 8 = 0 then 32 else fld b 65 8
def qRoot (b : BitVec 512) : Nat := 4096 * fld b 76 28
def qSize (b : BitVec 512) : Nat := 2 ^ fld b 104 4
def qAsn (b : BitVec 512) : Nat := fld b 108 12
def qCmax (b : BitVec 512) : Nat := fld b 120 3
def qRpld (b : BitVec 512) : Bool := fld b 123 1 = 1
def qIen (b : BitVec 512) : Bool := fld b 124 1 = 1
def qHookv (b : BitVec 512) : Bool := fld b 125 1 = 1
def qState (b : BitVec 512) : Nat := fld b 126 2
def qProd (b : BitVec 512) : Nat := fld b 128 32
def qCons (b : BitVec 512) : Nat := fld b 160 32
def qVec (b : BitVec 512) : Nat := fld b 232 11
def qHw (b : BitVec 512) (i : Nat) : W32 := BitVec.ofNat 32 (fld b (384 + 32 * i) 32)

/-- Place of packet `i` of a ring (R307). -/
def ringSlot (b : BitVec 512) (i : Nat) : Place :=
  let a := qRing b + 64 * (i % qSize b)
  if qRhost b then .host a else .dev a

/-- The fields the device writes: first bit and width (R307). -/
def qcbDeviceFields : List (Nat × Nat) :=
  [(126, 2), (125, 1), (128, 32), (160, 32), (198, 34), (256, 16), (288, 32), (384, 128)]

/-- A block in memory with the device's fields of another. -/
def mergeQcb (old new : BitVec 512) : BitVec 512 :=
  qcbDeviceFields.foldl (fun b x => setFld b x.1 x.2 (fld new x.1 x.2)) old

/-! ## The queue table (R306) -/

/-- A directory entry with a nonzero reserved bit (R306). -/
def segReserved (e : BitVec 64) : Bool := fld e 1 11 ≠ 0 || fld e 53 11 ≠ 0

/-- The directory entry of a queue's segment, if it has one with V 1; one with a nonzero reserved bit, or with an
uncorrectable error, is rejected, as if its V were 0: R306 states no error status (R2, R385, logs 62 and 84). -/
def segEntry (s : State) (q : Nat) : Option (BitVec 64) :=
  match s.segDir with
  | none => none
  | some base =>
    let p : Place := .dev (base + 8 * (q / 64))
    let e := read64 s p
    if e.getLsbD 0 ∧ q < 2 ^ 20 ∧ !segReserved e ∧ !isPoisoned s p 8 then some e else none

/-- Where the block of a queue lies. -/
def qcbPlace (s : State) (q : Nat) : Option Place :=
  (segEntry s q).map (fun e =>
    let a := 4096 * fld e 12 40 + 64 * (q % 64)
    if e.getLsbD 52 then .host a else .dev a)

/-- A block with a nonzero reserved bit, or the reserved QST (R307). -/
def qcbReserved (b : BitVec 512) : Bool :=
  fld b 320 64 ≠ 0 || fld b 272 16 ≠ 0 || fld b 243 13 ≠ 0 || fld b 192 6 ≠ 0 || fld b 73 3 ≠ 0 || fld b 53 11 ≠ 0 ||
  fld b 0 12 ≠ 0 || fld b 126 2 = 3

/-- The bytes of a queue's block in memory. -/
def qcbBytes (s : State) (q : Nat) : Option (BitVec 512) := (qcbPlace s q).map (fun p => leBits 512 (readPlace s p 64))

/-- The block in memory holds an uncorrectable error (R385). -/
def qcbPoisoned (s : State) (q : Nat) : Bool := (qcbPlace s q).any (fun p => isPoisoned s p 64)

/-- The block in memory as the device takes it; one with a nonzero reserved field, or with an uncorrectable error, is
rejected, as if it were not there: R307 states no error status (R2, R385, logs 62 and 84). -/
def qcbInMemory (s : State) (q : Nat) : Option (BitVec 512) :=
  if qcbPoisoned s q then none else (qcbBytes s q).filter (fun b => !qcbReserved b)

/-- The block as QUERY shows it: zero without a valid segment, else as cached, else as it lies in memory (R319). -/
def qcbShown (s : State) (q : Nat) : BitVec 512 :=
  match segEntry s q, lookup q s.eddy with
  | none, _ => 0
  | some _, some e => e.qcb
  | some _, none => (qcbBytes s q).getD 0

/-- The block as it stands: in the eddy cache, else in memory (R309, R319). -/
def qcbNow (s : State) (q : Nat) : Option (BitVec 512) :=
  match lookup q s.eddy with
  | some e => some e.qcb
  | none => qcbInMemory s q

/-- The block as it stands, all zero where there is none. -/
def qcbOf (s : State) (q : Nat) : BitVec 512 := (qcbNow s q).getD 0

/-- The device's fields of a block written to memory. -/
def storeQcb (q : Nat) (b : BitVec 512) (s : State) : State :=
  match qcbPlace s q with
  | none => s
  | some p => writePlace p (leBytes 64 (mergeQcb (leBits 512 (readPlace s p 64)) b).toNat) s

/-- A block changed: in the eddy cache, which then holds it dirty, else in memory. -/
def modQcb (q : Nat) (f : BitVec 512 → BitVec 512) (s : State) : State :=
  match lookup q s.eddy with
  | some e => { s with eddy := put q { qcb := f e.qcb, dirty := true } s.eddy }
  | none =>
    match qcbInMemory s q with
    | some b => storeQcb q (f b) s
    | none => s

/-- The queue goes into error, and keeps its first one (R307, R308). -/
def queueError (q status ix : Nat) (s : State) : State :=
  modQcb q (fun b => if qState b = 2 then b else setFld (setFld (setFld b 126 2 2) 256 16 status) 288 32 ix) s

/-- A cached block about to be used: one with an uncorrectable error puts its queue into error, at the packet it would take
next (R372, R384, log 84). -/
def useQcb (q : Nat) (s : State) : State :=
  match lookup q s.eddy with
  | some e => if e.bad then queueError q 0x22 (qCons e.qcb) { s with eddy := put q { e with bad := false } s.eddy } else s
  | none => s

/-! ## The eddy cache and the doorbells (R308, R309) -/

/-- The cached block written back, clean afterwards. -/
def writeBack (q : Nat) (s : State) : State :=
  let s := useQcb q s
  match lookup q s.eddy with
  | some e => if e.dirty then { storeQcb q e.qcb s with eddy := put q { e with dirty := false } s.eddy } else s
  | none => s

/-- Queues whose packet is being taken: never victims (R309). -/
def beingTaken (s : State) (q : Nat) : Bool :=
  (match s.taken with | some t => decide (t.1 = q) | none => false) ||
  (match s.hook with | some h => decide (h.queue = q) | none => false)

/-- The queue is enabled and has packets not yet taken (R308, R310). -/
def hasWork (b : BitVec 512) : Bool := qState b = 1 && qCons b ≠ qProd b

/-- Room made in the set of a queue: its oldest block leaves a full set of 8, written back if dirty; one with work is to be
fetched again (R309, R310). -/
def eddyRoom (q : Nat) (s : State) : State :=
  let mine := s.eddy.filter (fun x => x.1 % 512 = q % 512)
  if mine.length < 8 then s
  else
    match mine.find? (fun x => !beingTaken s x.1) with
    | none => s
    | some x =>
      let s := writeBack x.1 s
      { s with eddy := erase x.1 s.eddy, unread := if hasWork x.2.qcb then insertNat x.1 s.unread else s.unread }

/-- A block put in the eddy cache. -/
def eddyPut (q : Nat) (b : BitVec 512) (dirty : Bool) (s : State) : State :=
  let s := if (lookup q s.eddy).isSome then s else eddyRoom q s
  { s with eddy := put q { qcb := b, dirty := dirty } s.eddy, unread := s.unread.filter (fun x => x ≠ q) }

/-- A ring applied to a queue whose block is present (R308). -/
def applyRing (q v : Nat) (s : State) : State :=
  let s := useQcb q s
  match lookup q s.eddy with
  | none => s
  | some e =>
    if qState e.qcb ≠ 1 then s
    else if (v + 2 ^ 32 - qCons e.qcb) % 2 ^ 32 ≤ qSize e.qcb then modQcb q (fun b => setFld b 128 32 v) s
    else queueError q 0x41 v s

/-- The block of a queue fetched, and its latched ring applied (R309). -/
def fetchLatched (q : Nat) (s : State) : State :=
  match lookup q s.latch with
  | none => s
  | some v =>
    let s := { s with latch := erase q s.latch }
    match lookup q s.eddy, qcbInMemory s q with
    | some _, _ => applyRing q (v.toNat % 2 ^ 32) s
    | none, some b => applyRing q (v.toNat % 2 ^ 32) (eddyPut q b false s)
    | none, none => s

/-- Enabling (R308): the cached copy is discarded, a latched ring first applied to the block as it lies; the block is read
afresh and QST becomes 1. -/
def queueEnable (q : Nat) (s : State) : State :=
  let s := fetchLatched q { s with eddy := if (lookup q s.latch).isSome then s.eddy else erase q s.eddy }
  let kept := lookup q s.eddy
  match (match kept with | some e => some e.qcb | none => qcbInMemory s q) with
  | none => s
  | some b => eddyPut q (setFld b 126 2 1) true s

/-- Disabling (R308): no packet is taken from now on; QST becomes 0 and the block is written back. -/
def queueDisable (q : Nat) (s : State) : State :=
  let s := writeBack q (modQcb q (fun b => setFld b 126 2 0) (useQcb q (fetchLatched q s)))
  { s with unread := s.unread.filter (fun x => x ≠ q) }

/-- The value of a control write (R308): 1 enable, 2 disable, 3 write back. -/
def controlWrite (code : Nat) : W64 := BitVec.ofNat 64 (2 ^ 63 + code * 2 ^ 60)

/-- A doorbell write that has passed the port: dropped without a segment; a control write; or a ring, applied where the block
is present, latched where it is not (R306, R308, R309). -/
def doorbellWrite (q : Nat) (val : W64) (s : State) : State :=
  if (segEntry s q).isNone then s
  else if val.getLsbD 63 then
    (match fld val 60 3 with
     | 1 => queueEnable q s
     | 2 => queueDisable q s
     | 3 => writeBack q s
     | _ => s)
  else if (lookup q s.eddy).isSome then applyRing q (val.toNat % 2 ^ 32) s
  else { s with latch := put q val s.latch }

/-- The write is a ring that the latch, full with 1,024 queues, cannot take (R309). -/
def latchRefuses (s : State) (q : Nat) (val : W64) : Bool :=
  !val.getLsbD 63 && (segEntry s q).isSome && (lookup q s.eddy).isNone && (lookup q s.latch).isNone &&
  decide (1024 ≤ s.latch.length)

/-- A doorbell write from the link: held by the port behind those it holds already, and while the latch is full; no ring is
dropped (R309). -/
def portWrite (q : Nat) (val : W64) (s : State) : State :=
  if !s.portHeld.isEmpty || latchRefuses s q val then { s with portHeld := s.portHeld ++ [(q, val)] }
  else doorbellWrite q val s

/-- The writes the port holds go on, in order, as far as the latch takes them. -/
def drainPort : Nat → State → State
  | 0, s => s
  | n + 1, s =>
    match s.portHeld with
    | [] => s
    | (q, v) :: t => if latchRefuses s q v then s else drainPort n (doorbellWrite q v { s with portHeld := t })

/-- QCB_FETCH (R309, R310): the block of a queue with a latched ring, or that left the cache with work, is fetched; what the
port held goes on. -/
def fetchQcb (q : Nat) (s : State) : State :=
  let s := fetchLatched q s
  let s := if s.unread.contains q ∧ (lookup q s.eddy).isNone then
      (match qcbInMemory s q with
       | some b => eddyPut q b false s
       | none => { s with unread := s.unread.filter (fun x => x ≠ q) })
    else s
  drainPort s.portHeld.length s
def execQcbFetch (q : Nat) (s : State) : Host.Outcome State Fault Refusal := .next (fetchQcb q s)

/-- DOORBELL_RING (R308). -/
def doorbellRing (q : Nat) (val : BitVec 64) (s : State) : State := if val.getLsbD 63 then s else portWrite q val s
def execDoorbellRing (q : Nat) (val : BitVec 64) (s : State) : Host.Outcome State Fault Refusal :=
  .next (doorbellRing q val s)

/-- QUEUE_ENABLE, QUEUE_DISABLE and QUEUE_WRITE_BACK: the control writes (R308). -/
def execQueueEnable (q : Nat) (s : State) : Host.Outcome State Fault Refusal := .next (portWrite q (controlWrite 1) s)
def execQueueDisable (q : Nat) (s : State) : Host.Outcome State Fault Refusal := .next (portWrite q (controlWrite 2) s)
def execQueueWriteBack (q : Nat) (s : State) : Host.Outcome State Fault Refusal := .next (portWrite q (controlWrite 3) s)

/-- REGISTER_WRITE_IGNORED (R308). -/
def registerWriteIgnored (_bar _off : Nat) (_val : BitVec 64) (s : State) : State := s
def execRegisterWriteIgnored (bar off : Nat) (val : BitVec 64) (s : State) : Host.Outcome State Fault Refusal :=
  .next (registerWriteIgnored bar off val s)

/-! ## The command processor's own accesses (R416) -/

/-- How an access of the command processor fails: status, DET, ITEM. -/
structure CpFail where
  status : Nat
  det : Nat
  item : Nat
deriving DecidableEq, Repr

/-- The space a queue's commands access. -/
def cpSpace (asn root : Nat) : Space := { asn := asn, root := root, rpld := true, rhnd := 0 }

/-- The places of a range, whole or not at all. -/
def cpPlaces (asn root va n : Nat) (write : Bool) (s : State) : Except CpFail (List (Nat × Place × Nat)) × State :=
  let r := translateRange (.die 0) (cpSpace asn root) write .L (n / pageBytes + 2) va n s
  match r.1.2 with
  | [] => (.ok r.1.1, r.2)
  | f :: _ => (.error { status := 0x20, det := 2, item := f.va }, r.2)

/-- Bytes read from the places of a range. -/
def gatherBytes (s : State) (l : List (Nat × Place × Nat)) : List Byte := l.flatMap (fun x => readPlace s x.2.1 x.1)

/-- Bytes written to the places of a range. -/
def scatterBytes : List (Nat × Place × Nat) → List Byte → State → State
  | [], _, s => s
  | (n, p, _) :: rest, data, s => scatterBytes rest (data.drop n) (writePlace p (data.take n) s)

/-- An operand read whole (R416). -/
def cpRead (asn root va n : Nat) (s : State) : Except CpFail (List Byte) × State :=
  match cpPlaces asn root va n false s with
  | (.error e, s) => (.error e, s)
  | (.ok l, s) =>
    if l.any (fun x => isPoisoned s x.2.1 x.1) then (.error { status := 0x22, det := 7, item := allOnes64 }, s)
    else (.ok (gatherBytes s l), s)

/-- A result written whole, or the failure. -/
def cpWrite (asn root va : Nat) (data : List Byte) (s : State) : Option CpFail × State :=
  match cpPlaces asn root va data.length true s with
  | (.error e, s) => (some e, s)
  | (.ok l, s) => (none, scatterBytes l data s)

/-- The lines of memory that `n` bytes at a place lie in, as the launch-line cache names them (R317). -/
def lineKeys (p : Place) (n : Nat) : List Nat :=
  let off := match p with | .dev a => a % 128 | .host a => a % 128 | .vault _ => 0 | .scr _ => 0
  (List.range ((off + n + 127) / 128)).filterMap (fun i => lineKey (p.plus (128 * i)))

/-- Lines put in the launch-line cache of 8,192 lines (R317); one fetched anew has no error. -/
def holdLines (keys : List Nat) (s : State) : State :=
  { s with launchLines := (keys ++ s.launchLines.filter (fun k => !keys.contains k)).take 8192,
           badLines := s.badLines.filter (fun k => s.launchLines.contains k) }

/-- An operand of a launch read through the launch-line cache, which never returns stale bytes (R317); an uncorrectable error
in a line it holds is consumed, and the line leaves (R384, R416). -/
def launchRead (asn root va n : Nat) (s : State) : Except CpFail (List Byte) × State :=
  match cpPlaces asn root va n false s with
  | (.ok l, s1) =>
    let keys := (l.flatMap (fun x => lineKeys x.2.1 x.1)).eraseDups
    let bad := fun (k : Nat) => keys.contains k && s1.badLines.contains k
    if s1.launchLines.any bad then
      (.error { status := 0x22, det := 7, item := allOnes64 }, { s1 with launchLines := s1.launchLines.filter (fun k => !bad k) })
    else
      match cpRead asn root va n s1 with
      | (.ok b, s2) => (.ok b, holdLines keys s2)
      | r => r
  | (.error e, s) => (.error e, s)

/-! ## Completion (R312 to R314) -/

/-- What a command completes with. -/
structure Result where
  status : Nat
  det : Nat := 0
  item : Nat := allOnes64
  nsm : Nat := 0
  smask : W32 := 0
  fpsum : BitVec 7 := 0
  /-- A gang record faulted (R312). -/
  recFault : Bool := false
deriving DecidableEq, Repr

def CpFail.result (f : CpFail) : Result := { status := f.status, det := f.det, item := f.item }

/-- Address of the completion flag; 0 for none (R311). -/
def pkFlag (p : BitVec 512) : Nat := 8 * fld p 426 54
def pkCval (p : BitVec 512) : Nat := fld p 480 32
def pkTag (p : BitVec 512) : Nat := fld p 32 32
def pkGrec (p : BitVec 512) : Bool := fld p 11 1 = 1
def pkRec (p : BitVec 512) : Bool := fld p 10 1 = 1
def pkIrq (p : BitVec 512) : Bool := fld p 9 1 = 1
def pkFence (p : BitVec 512) : Bool := fld p 8 1 = 1

/-- The completion record (R314). -/
def completionRecord (tag clock : Nat) (r : Result) : Nat :=
  r.status % 2 ^ 16 + 2 ^ 16 * (r.det % 2 ^ 16) + 2 ^ 32 * (tag % 2 ^ 32) + 2 ^ 64 * r.fpsum.toNat +
    2 ^ 96 * r.smask.toNat + 2 ^ 192 * (clock % 2 ^ 64) + 2 ^ 256 * (r.nsm % 2 ^ 64) + 2 ^ 320 * (r.item % 2 ^ 64)

/-- The three steps of completion: record, flag, interrupt (R312). Without a flag address there is no record (log 20). -/
def completeCommand (q ix : Nat) (p : BitVec 512) (asn root : Nat) (r : Result) (s : State) : State :=
  let a := pkFlag p
  let x : Option CpFail × State :=
    if pkRec p ∧ a ≠ 0 then cpWrite asn root (a + 8) (leBytes 48 (completionRecord (pkTag p) s.clock r)) s else (none, s)
  let y : Option CpFail × State := if a ≠ 0 then cpWrite asn root a (leBytes 8 (pkCval p)) x.2 else (none, x.2)
  let s := if x.1.isSome || y.1.isSome || r.recFault then queueError q 0x42 ix y.2 else y.2
  if pkIrq p ∧ qIen (qcbOf s q) then { s with msix := qVec (qcbOf s q) :: s.msix } else s

/-- A command in progress completes. -/
def finishCmd (id : Nat) (r : Result) (s : State) : State :=
  match lookup id s.cmds with
  | none => s
  | some c => completeCommand c.queue c.ix c.pkt c.asn c.root r { s with cmds := erase id s.cmds }

/-! ## The packet in hand (R310) -/

/-- What a command starts with: its queue, ring index, packet and the queue's block. -/
structure CmdCtx where
  q : Nat
  ix : Nat
  p : BitVec 512
  b : BitVec 512
deriving Repr

def CmdCtx.asn (c : CmdCtx) : Nat := qAsn c.b
def CmdCtx.root (c : CmdCtx) : Nat := qRoot c.b

/-- A field of the packet. -/
def CmdCtx.f (c : CmdCtx) (lo n : Nat) : Nat := fld c.p lo n

/-- The command completes at its start. -/
def CmdCtx.done (c : CmdCtx) (r : Result) (s : State) : State := completeCommand c.q c.ix c.p c.asn c.root r s

/-- The command goes on after its start. -/
def CmdCtx.begin (c : CmdCtx) (w : CmdWork) (s : State) : State :=
  { s with cmds := put s.nextCmd { queue := c.q, ix := c.ix, pkt := c.p, asn := c.asn, root := c.root, rpld := qRpld c.b,
                                   work := w, since := s.clock, order := s.nextCmd } s.cmds,
           nextCmd := s.nextCmd + 1 }

/-- Every bit of the packet outside the listed fields is 0: the header's reserved bits, GREC but for LAUNCH, and the bits
of `[425:64]` that the command does not list (R311, R318). -/
def bitsListed (grec : Bool) (fields : List (Nat × Nat)) (p : BitVec 512) : Bool :=
  let keep := fields.foldl (fun b x => setFld b x.1 x.2 0) p
  fld keep 64 362 = 0 && fld p 12 20 = 0 && (grec || !pkGrec p)

/-- Starting the packet in hand (R310): the command processor in focus carries out `f` on it. -/
def command (p : Packet) (f : CmdCtx → State → State) (s : State) : Host.Outcome State Fault Refusal :=
  match s.focus with
  | .command =>
    match s.taken with
    | none => .fault .notIssuing
    | some t => .next (f { q := t.1, ix := t.2.1, p := p, b := qcbOf s t.1 } { s with taken := none })
  | _ => .fault .noAgent

end Sys2Proof.Machine
end

