-- ==== Sys2Proof/Machine/Finish.lean ====
section
/-! DEFINITION. Commands that wait for launches to end: UNPIN (R39, R40), PREEMPT (R379), CKPT (R319, R396), SCANT (R392);
and what a launch frees as it ends (R286, R303). -/

namespace Sys2Proof.Machine

/-! ## Handles (R37, R39, R40) -/

/-- The handle a launch packet names (R315). -/
def pkRhnd (p : BitVec 512) : Nat := fld p 398 12

/-- A launch, placed or waiting, names a handle (R40). -/
def handleUsed (s : State) (h : Nat) : Bool :=
  s.launches.any (fun l => pkRhnd l.2.pkt = h) ||
  s.cmds.any (fun c => pkRhnd c.2.pkt = h && (match c.2.work with | .launching _ _ => true | _ => false))

/-- The vault bytes of an extent all zero; writes that still wait there go before, and nothing older is read there (R39). -/
def zeroExtent (e : Nat × Nat × Nat × Bool) (s : State) : State :=
  let lo := e.1 * 2 ^ 22 + e.2.1 * 32768
  let hi := lo + e.2.2.1 * 32768
  let s := settlePlace (.vault lo) (hi - lo) s
  { s with
    stale := s.stale.filter (fun x => !overlaps (.vault lo) (hi - lo) x.place x.data.length),
    vault := s.vault.clear lo hi,
    badVault := s.badVault.filter (fun g => !decide (lo ≤ g * 8 ∧ g * 8 < hi)) }

/-- Unowned kept banks that a test names are discarded (R185). -/
def discardKept (f : KeepKey → Bool) (s : State) : State :=
  { s with parts := s.parts.map (fun p =>
      (p.1, { p.2 with kept := p.2.kept.filter (fun b => match b.key with | some k => !f k | none => false) })) }

/-- The handle goes: its blocks are zeroed and its kept banks discarded (R39, R185). -/
def dropHandle (h : Nat) (s : State) : State :=
  match lookup h s.handles with
  | none => s
  | some x =>
    let s := x.extents.foldl (fun s e => zeroExtent e s) s
    discardKept (fun k => k.rhnd = h) { s with handles := erase h s.handles }

/-! ## Commands offered their end -/

/-- A launch has gangs or loose warps on the package. -/
def launchPlaced (s : State) (l : Nat) : Bool := s.gangs.any (fun g => g.2.launch = l) || s.warps.any (fun w => w.2.launch = l)

/-- A launch is switched out: something of it is in the save pool. -/
def launchSaved (s : State) (l : Nat) : Bool :=
  s.saved.any (fun g => g.2.gang.launch = l) || s.savedLoose.any (fun w => w.2.warp.launch = l)

/-- A core holds no gang, loose warp or reserve (R392). -/
def coreEmpty (s : State) (core : Nat) : Bool :=
  (gangsOn s core).isEmpty && !(s.warps.any (fun w => coreOfWarp w.1 = core)) && (reservesOn s core).isEmpty

/-- Some of the weir operations and messages a MAP waits for are still going (R237). -/
def weirsMoving (s : State) (ops : List (Nat × Nat)) (msgs : List (Nat × Nat × Nat)) : Bool :=
  s.weirs.any (fun w =>
    w.2.ops.any (fun o => ops.contains (w.1, o.id)) || w.2.msgs.any (fun m => msgs.contains (w.1, m.cn, m.seq)))

/-- One waiting command looked at again. -/
def offerCmd (s : State) (x : Nat × Cmd) : State :=
  match lookup x.1 s.cmds with
  | none => s
  | some c =>
    match c.work with
    | .unpinning h =>
      if (lookup h s.handles).isNone then finishCmd x.1 { status := 0x32 } s
      else if handleUsed s h then s
      else finishCmd x.1 { status := 0 } (dropHandle h s)
    | .mapping ops msgs => if weirsMoving s ops msgs then s else finishCmd x.1 { status := 0 } s
    | .switching l => if s.gangs.any (fun g => g.2.launch = l) then s else finishCmd x.1 { status := 0 } s
    | .checkpoint false =>
      if s.gangs.isEmpty && s.warps.isEmpty then
        if s.saved.isEmpty && s.savedLoose.isEmpty then
          discardKept (fun _ => true) { s with cmds := put x.1 { c with work := .checkpoint true } s.cmds }
        else finishCmd x.1 { status := 0x38 } s
      else s
    | .scanning core false =>
      if coreEmpty s core then { s with cmds := put x.1 { c with work := .scanning core true } s.cmds } else s
    | _ => s

/-- Every waiting command looked at again, in the order of taking. -/
def offerCmds (s : State) : State := s.cmds.foldl offerCmd s

/-- A launch of class 6 or above became runnable: every scan is aborted and its core is back in service (R392). -/
def abortScans (s : State) : State :=
  s.cmds.foldl (fun s x =>
    match x.2.work with
    | .scanning core _ => finishCmd x.1 { status := 0x39 } { s with scanning := s.scanning.filter (fun c => c ≠ core) }
    | _ => s) s

/-- Deadline class of a launch (R315). -/
def Launch.cls (l : Launch) : Nat := fld l.pkt 363 3

/-- Gangs of a launch's grid (R315). -/
def Launch.total (l : Launch) : Nat := fld l.pkt 309 16 * fld l.pkt 325 16 * fld l.pkt 341 16

/-- The launch has work that a dispatcher may place: unplaced or switched-out gangs, or queued tasks (R325). -/
def runnable (s : State) (l : Nat) : Bool :=
  match lookup l s.launches with
  | none => false
  | some x => !x.held && x.kill.isNone &&
      (decide (x.next < x.total) || !x.tasks.isEmpty || s.saved.any (fun g => g.2.gang.launch = l))

/-- A launch of class 6 or above that was not runnable and now is aborts the scans (R392). -/
def rouse (l : Nat) (was : Bool) (s : State) : State :=
  if !was && runnable s l && (lookup l s.launches).any (fun x => decide (6 ≤ x.cls)) then abortScans s else s

/-! ## The end of a launch (R303, R312) -/

/-- The launch leaves its context, and its command completes, with every write performed: a release of every path (R312,
R348, log 58). -/
def endLaunch (l : Nat) (r : Result) (s : State) : State :=
  match lookup l s.launches with
  | none => s
  | some x =>
    let s := performAll s
    let r := { r with nsm := x.nsm, smask := x.smask, fpsum := x.fpsum, recFault := x.recFault }
    let s := { s with launches := erase l s.launches, reservedFor := s.reservedFor.filter (fun y => y.2 ≠ l),
                      riskSince := erase l s.riskSince }
    let s := match s.cmds.find? (fun c => c.2.work = .running l) with
      | some c => finishCmd c.1 r s
      | none => s
    offerCmds s

/-- Nothing of the launch is left (R303). -/
def launchDone (s : State) (l : Nat) (x : Launch) : Bool :=
  x.kill.isNone && decide (x.total ≤ x.next) && !launchPlaced s l && !launchSaved s l && x.tasks.isEmpty &&
  decide (x.ringLen = 0) && x.holds.isEmpty && !(s.entering.any (fun e => e.launch = l)) &&
  !(s.queues.any (fun q => decide (q.2.launch = l) && !q.2.recs.isEmpty))

/-- LAUNCH_COMPLETION (R303): the completion record is written and the context is free. -/
def launchCompletion (l : Nat) (s : State) : State :=
  match lookup l s.launches with
  | none => s
  | some x => if launchDone s l x then endLaunch l { status := 0 } s else s
def execLaunchCompletion (launch : Nat) (s : State) : Host.Outcome State Fault Refusal := .next (launchCompletion launch s)

end Sys2Proof.Machine
end

