-- ==== Sys2Proof/Machine/Sync.lean ====
section
/-! DEFINITION. Acquires, releases, fences, regions and flags (R337 to R339, R349 to R357). Every store of a run is
performed at its place when the run commits, or waits in the buffer until a release performs it (log 58); an acquire is what
it does to the core's L1 (log 14). -/

namespace Sys2Proof.Machine

/-! ## Acquires (R341, R352, R353, R356) -/

/-- An acquire of a path set at a scope: nothing older is read from then on; any path but L invalidates the core's L1 at
every scope, path L from the die on. -/
def acquirePaths (k : Nat) (paths : BitVec 6) (scope : Nat) (s : State) : State :=
  let s := acquireAll s
  if 1 < paths.toNat ∨ 3 ≤ scope then flushL1 (coreOfWarp k) s else s

/-- What a satisfied flag wait acquires: an object for ACQ.GE, whose path set is empty here, else the path set. -/
def acquireFlag (k va : Nat) (paths : BitVec 6) (scope : Nat) (s : State) : State :=
  if paths = 0 then acquireObject k va scope s else acquirePaths k paths scope s

/-- The lanes' pair operands. -/
def Ctx.pairs (c : Ctx) : List (Nat × BitVec 128) := c.act.map (fun l => (l, BitVec.ofNat 128 (c.b 2 3 l)))

/-- The lanes' object or flag addresses. -/
def Ctx.objects (c : Ctx) : List (Nat × Nat) := c.act.map (fun l => (l, c.a 2 l))

/-- ACQ (R349, R350, R357). -/
def acqEff (c : Ctx) (s : State) : Eff × State :=
  pendAccess c 8 false c.objects { c.pend with b := if c.mx = 1 then c.pairs else [] } s
def execAcq (w : Word) (s : State) : Host.Outcome State Fault Refusal := simt 0xB4 w acqEff s

/-- A wait on a flag or object that is satisfied: its acquire, and no older copy of the word left in the core's L1 (R344,
R346). -/
def acquireWord (k va : Nat) (paths : BitVec 6) (scope : Nat) (s : State) : State :=
  dropL1At k va (acquireFlag k va paths scope s)

/-- One lane of a flag wait at commit, after the warp's own writes of the word: satisfied at once, with its acquire and
result, or parked (R343, R350, R356). -/
def waitLane (k lane : Nat) (p : Place) (va cmp : Nat) (val : W64) (dst : Option Nat) (paths : BitVec 6) (scope : Nat)
    (s : State) : State :=
  let s := settleOwn k p 8 s
  let v := read64 s p
  if flagHolds cmp v val then
    acquireWord k va paths scope
      (match dst with
       | some d => writeRegs k (regWrites (BitVec.ofNat 8 d) 2 lane v.toNat) s
       | none => s)
  else parkLanes k [lane] (.flag p va cmp val dst paths scope none) s

/-- ACQ at commit, lane by lane; an `s` destination takes the first lane's value (R350). -/
def acqEnd (f : Fin) (s : State) : State :=
  let sDst := (regOf f.p.w.d).isS
  f.p.place.foldl (fun s x =>
    let dst := if f.p.w.sx && (!sDst || f.p.lanes.head? = some x.1) then some f.p.w.d.toNat else none
    let val := BitVec.setWidth 64 (lookupD x.1 0 f.p.b)
    waitLane f.key x.1 x.2 (lookupD x.1 0 f.p.addr) 0 (if f.p.w.mx = 1 then val else 0) dst 0 f.p.w.sop.toNat s) s

/-- REL.INC (R351, R357). -/
def relIncEff (c : Ctx) (s : State) : Eff × State := pendAccess c 8 true c.objects c.pend s
def execRelInc (w : Word) (s : State) : Host.Outcome State Fault Refusal := simt 0xB5 w relIncEff s

/-- Each object of a list of lanes changed by one access, with the lanes that name it (R351, R355, R166); the core keeps no
older copy of it (R343). -/
def forObjects (f : Fin) (g : List Nat → Place → State → State) (s : State) : State :=
  (byAddress f.p.addr).foldl (fun s a =>
    match a.2.head?.bind (fun l => lookup l f.p.place) with
    | none => s
    | some p => dropL1At f.key a.1 (g a.2 p s)) s

/-- The release before a strong write: the stores of the warp, and of every path it names, are at their places (R341, R351,
R355). -/
def releaseFirst (f : Fin) (paths : BitVec 6) (s : State) : State :=
  if f.p.lanes.isEmpty then s else releasePaths f.key (paths ||| 1) s

/-- Each object goes up by the number of lanes that name it (R351). -/
def relIncEnd (f : Fin) (s : State) : State :=
  forObjects f (fun ls p s => (rmw64 p (fun v => v + BitVec.ofNat 64 ls.length) s).2) (releaseFirst f 1 s)

/-- REL.SET (R351). -/
def relSetEff (c : Ctx) (s : State) : Eff × State := pendAccess c 8 true c.objects { c.pend with b := c.pairs } s
def execRelSet (w : Word) (s : State) : Host.Outcome State Fault Refusal := simt 0xB5 w relSetEff s
/-- The highest lane's value stands (R351). -/
def setHighest (f : Fin) (ls : List Nat) (p : Place) (s : State) : State :=
  match ls.getLast? with
  | none => s
  | some l => writePlace p (leBytes 8 (lookupD l 0 f.p.b).toNat) s
def relSetEnd (f : Fin) (s : State) : State := forObjects f (setHighest f) (releaseFirst f 1 s)

/-! ## Fences (R352, R353) -/

/-- A fence: performed once for the warp. -/
def fenceEff (c : Ctx) : Eff := { term := some c.pend }

/-- FENCE (R352). -/
def execFence (w : Word) (s : State) : Host.Outcome State Fault Refusal := simtP 0xB6 w fenceEff s
/-- The release part puts the core's stores at their places; the acquire part leaves nothing older to read and, from the die
on, invalidates the core's L1 (R352). -/
def fenceEnd (f : Fin) (s : State) : State :=
  if f.p.lanes.isEmpty then s
  else
    let s := if f.p.w.mx = 1 then s else releaseStores f.key s
    if f.p.w.mx = 2 then s else acquirePaths f.key 0 f.p.w.sop.toNat s

/-- FENCESC (R352, R347): the order S is the order of the steps. -/
def execFencesc (w : Word) (s : State) : Host.Outcome State Fault Refusal := simtP 0xB7 w fenceEff s
def fencescEnd (f : Fin) (s : State) : State :=
  if f.p.lanes.isEmpty then s else acquirePaths f.key 0 f.p.w.sop.toNat (releaseStores f.key s)

/-- FENCEX (R353). -/
def execFencex (w : Word) (s : State) : Host.Outcome State Fault Refusal := simtP 0xB8 w fenceEff s
/-- The writes of the from-paths are performed, and no path reads older bytes; with L in the to-set the core's L1 is
invalidated: at every scope for other from-paths, from the die on for L. -/
def fencexEnd (f : Fin) (s : State) : State :=
  if f.p.lanes.isEmpty then s
  else
    let paths : BitVec 6 := BitVec.setWidth 6 f.p.w.b
    let s := releasePaths f.key paths s
    if f.p.w.c.toNat % 2 = 0 then acquireAll s else acquirePaths f.key paths f.p.w.sop.toNat s

/-! ## Regions (R337, R338, R354) -/

/-- A descriptor with V 1 is malformed beside the others of its table (R338). -/
def regionMalformed (others : List (BitVec 256)) (r : BitVec 256) : Bool :=
  let inside := fun (o : Nat) (q : BitVec 256) => decide (rgBase q ≤ o ∧ o < rgBase q + rgSize q)
  let vs := others.filter rgValid
  fld r 160 32 ≠ 0 || fld r 64 64 ≠ 0 || fld r 4 11 ≠ 0 || 6 ≤ rgWscp r || rgSize r = 0 ||
  decide (2 ^ 57 < rgBase r + rgSize r) || decide (2 ^ 57 ≤ rgBase r) ||
  rgObj r = 0 || rgObj r % 8 ≠ 0 || decide (2 ^ 57 ≤ rgObj r) ||
  inside (rgObj r) r || vs.any (inside (rgObj r)) || vs.any (fun q => inside (rgObj q) r) ||
  vs.any (fun q => decide (rgBase q < rgBase r + rgSize r ∧ rgBase r < rgBase q + rgSize q))

/-- Region `n` of a launch. -/
def Launch.region (l : Launch) (n : Nat) : BitVec 256 := lookupD n 0 l.regions

/-- RBIND: the image is read and checked at issue (R354, R357). -/
def rbindEff (c : Ctx) (s : State) : Eff × State :=
  if c.act.isEmpty then ({ term := some c.pend }, s)
  else if c.a 2 0 % 32 ≠ 0 then (Eff.cause 6 c.op c.act, s)
  else
    match tensorRead (userOf c s .L) false (c.a 2 0) 32 s with
    | (.error f, s) => ({ faults := [f] }, s)
    | (.ok r, s) =>
      let n := c.w.c.toNat
      let img := BitVec.ofNat 256 r.1
      let others := ((launchOf s c.wp).regions.filter (fun x => x.1 ≠ n)).map (·.2)
      (if r.2 then { ue := some 0 }
       else if rgValid img && regionMalformed others img then Eff.cause 8 n c.act
       else { term := some { c.pend with b := [(0, BitVec.setWidth 128 img), (1, BitVec.setWidth 128 (img >>> 128))] } }, s)
def execRbind (w : Word) (s : State) : Host.Outcome State Fault Refusal := simt 0xB9 w rbindEff s
/-- A fence at the wider WSCP, then the descriptor is replaced (R354). -/
def rbindEnd (f : Fin) (s : State) : State :=
  if f.p.lanes.isEmpty then s
  else
    match lookup f.key s.warps with
    | none => s
    | some w =>
      let n := f.p.w.c.toNat
      let img : BitVec 256 := BitVec.setWidth 128 (lookupD 1 0 f.p.b) ++ BitVec.setWidth 128 (lookupD 0 0 f.p.b)
      let wide := fun (r : BitVec 256) => if rgValid r then rgWscp r else 0
      let old := (launchOf s w).region n
      modLaunch w.launch (fun l => { l with regions := put n (if rgValid img then img else 0) l.regions })
        (acquirePaths f.key 0 (max (wide old) (wide img)) (releaseStores f.key s))

/-! ## Flags (R349, R355, R356) -/

/-- Path set and scope of SIGF and WAITF (R349). -/
def flagPaths (w : Word) : BitVec 6 := BitVec.ofNat 6 w.ext.toNat
def flagScope (w : Word) : Nat := w.ext.toNat / 256 % 8

/-- SIGF (R355, R357). -/
def sigfEff (c : Ctx) (s : State) : Eff × State := pendAccess c 8 true c.objects { c.pend with b := c.pairs } s
def execSigf (w : Word) (s : State) : Host.Outcome State Fault Refusal := simt 0xC6 w sigfEff s
/-- Each flag is set to the highest lane's value, or goes up by its lanes' values (R355). -/
def sigfEnd (f : Fin) (s : State) : State :=
  let s := releaseFirst f (flagPaths f.p.w) s
  if f.p.w.sop = 0 then forObjects f (setHighest f) s
  else
    forObjects f (fun ls p s =>
      (rmw64 p (fun v => ls.foldl (fun v l => v + BitVec.setWidth 64 (lookupD l 0 f.p.b)) v) s).2) s

/-- WAITF (R356, R357). -/
def waitfEff (c : Ctx) (s : State) : Eff × State := pendAccess c 8 false c.objects { c.pend with b := c.pairs } s
def execWaitf (w : Word) (s : State) : Host.Outcome State Fault Refusal := simt 0xC7 w waitfEff s
/-- Lanes whose comparison holds go on with their acquire; the others park (R356). -/
def waitfEnd (f : Fin) (s : State) : State :=
  f.p.place.foldl (fun s x =>
    waitLane f.key x.1 x.2 (lookupD x.1 0 f.p.addr) f.p.w.sop.toNat (BitVec.setWidth 64 (lookupD x.1 0 f.p.b)) none
      (flagPaths f.p.w) (flagScope f.p.w) s) s

end Sys2Proof.Machine
end

