-- ==== Sys2Proof/Machine/Spawn.lean ====
section
/-! DEFINITION. Spawn, joins and tasks (chapter 11): the instructions (R280, R289, R290, R300), the confluence (R282 to
R284), the backwater (R285, R287), holds and continuations (R291, R292), and successor counters (R299). -/

namespace Sys2Proof.Machine

/-! ## Fields -/

/-- Fields of a spawn record (R279). -/
def srKind (r : BitVec 256) : Nat := fld r 0 2
def srCore (r : BitVec 256) : Nat := fld r 24 8
def srEntry (r : BitVec 256) : Nat := fld r 32 32
def srJoin (r : BitVec 256) : BitVec 64 := BitVec.ofNat 64 (fld r 64 64)
def srP (r : BitVec 256) (i : Nat) : Nat := fld r (128 + 32 * i) 32

/-- A spawn record (R279). -/
def spawnRecord (kind core entry join : Nat) (payload : Nat) : BitVec 256 :=
  BitVec.ofNat 256 (kind + core % 256 * 2 ^ 24 + entry % 2 ^ 32 * 2 ^ 32 + join % 2 ^ 64 * 2 ^ 64 + payload % 2 ^ 128 * 2 ^ 128)

/-- Backwater of a launch: base, slots, flush timeout (R283, R285, R315). -/
def Launch.bwBase (l : Launch) : Nat := 4096 * fld l.pkt 259 45
def Launch.bwSlots (l : Launch) : Nat := 2 ^ fld l.pkt 304 5
def Launch.flush (l : Launch) : Nat := if fld l.pkt 410 16 = 0 then 256 else fld l.pkt 410 16

/-! ## The backwater (R285) -/

/-- A fault of the device on a backwater page is fatal (R285). -/
def backwaterFault (l : Nat) (x : Launch) (core : Nat) (f : AccFault) (s : State) : State :=
  (raiseFault (.launch l x.order) x.asn core 0 0 (dieClock s (dieOfCore core)) { f with rpl := false } false s).2

/-- A record written to a slot of the backwater: slots 0 to N − 1 the ring, N to 2N − 1 the hold area. -/
def bwWrite (l core slot : Nat) (r : BitVec 256) (s : State) : State :=
  match lookup l s.launches with
  | none => s
  | some x =>
    match translate (.core core) (spaceOf x) (x.bwBase + 32 * slot) true false .L s with
    | (.error f, s) => backwaterFault l x core f s
    | (.ok p, s) => writePlace p.1 (leBytes 32 r.toNat) s

/-- A record read from a slot; none where it faults or is corrupt, which kills the launch (R285). -/
def bwRead (l core slot : Nat) (s : State) : Option (BitVec 256) × State :=
  match lookup l s.launches with
  | none => (none, s)
  | some x =>
    match translate (.core core) (spaceOf x) (x.bwBase + 32 * slot) false false .L s with
    | (.error f, s) => (none, backwaterFault l x core f s)
    | (.ok p, s) =>
      let r : BitVec 256 := leBits 256 (readPlace s p.1 32)
      if isPoisoned s p.1 32 then (none, killLaunch l 0x22 allOnes64 0 s)
      else if 2 ≤ srKind r ∨ fld r 2 22 ≠ 0 then (none, killLaunch l 0x25 allOnes64 0 s)
      else (some r, s)

/-- Ring slots neither holding a record nor set aside for one (R281). -/
def ringFree (s : State) (l : Nat) : Nat :=
  match lookup l s.launches with
  | none => 0
  | some x => x.bwSlots - x.ringLen - (s.entering.filter (fun e => e.launch = l ∧ e.queue = none)).length

/-- A record put at the tail of the ring. -/
def ringPush (l core : Nat) (r : BitVec 256) (s : State) : State :=
  match lookup l s.launches with
  | none => s
  | some x =>
    modLaunch l (fun x => { x with ringLen := x.ringLen + 1 }) (bwWrite l core ((x.ringHead + x.ringLen) % x.bwSlots) r s)

/-! ## Gathering queues (R281, R282) -/

/-- Records of a queue, those placed and not yet entered counted. -/
def queueCount (s : State) (core q : Nat) : Nat :=
  (match lookup (core, q) s.queues with | some x => x.recs.length | none => 0) +
    (s.entering.filter (fun e => e.core = core ∧ e.queue = some q)).length

/-- No warp of the launch on the core counts for issue (R283). -/
def coreQuiet (s : State) (core l : Nat) : Bool :=
  !(s.warps.any (fun x => coreOfWarp x.1 = core && decide (x.2.launch = l) && x.2.counts))

/-- A gang of the launch is being switched out on the core (R376). -/
def leavingCore (s : State) (core l : Nat) : Bool :=
  s.gangs.any (fun g => g.2.core = core && decide (g.2.launch = l) && decide (g.2.state = .switching))

/-- A gang of the launch was switched out of the core, and none of its gangs is there (R304). -/
def leftCore (s : State) (core l : Nat) : Bool :=
  s.saved.any (fun g => g.2.gang.core = core && decide (g.2.gang.launch = l)) &&
  !s.gangs.any (fun g => g.2.core = core && decide (g.2.launch = l))

/-- The launch of a queue is pre-empted on the core: it is being switched out there, or has been and is not yet back whole.
The queue forms no warp (R283, R304). -/
def GQueue.held (s : State) (core : Nat) (x : GQueue) : Bool :=
  leavingCore s core x.launch || leftCore s core x.launch ||
  x.preempted && ((lookup x.launch s.launches).any (·.held) || s.saved.any (fun g => g.2.gang.launch = x.launch) ||
    s.savedLoose.any (fun w => w.2.warp.launch = x.launch))

/-- A queue is due (R283): it has been found so, its timeout has passed, its launch has no warp on the core that counts, or
is pre-empted there. -/
def queueDue (s : State) (core : Nat) (x : GQueue) : Bool :=
  let t := match lookup x.launch s.launches with | some l => l.flush | none => 256
  x.due || (!x.recs.isEmpty && (decide (x.first + t ≤ s.clock) || coreQuiet s core x.launch || x.held s core))

/-- The queue a record of a key is placed in: one of its key with room that is not due, else an empty one (R281, R282). -/
def queueFor (s : State) (core l entry : Nat) : Option Nat :=
  match (List.range 8).find? (fun q =>
      match lookup (core, q) s.queues with
      | some x => decide (x.entry = entry ∧ x.launch = l ∧ queueCount s core q < 32) && !queueDue s core x
      | none => false) with
  | some q => some q
  | none => (List.range 8).find? (fun q => (lookup (core, q) s.queues).isNone)

/-- A record enters a queue, which takes its key if it was empty (R282). -/
def enterQueue (core q l : Nat) (r : BitVec 256) (s : State) : State :=
  let x : GQueue := (lookup (core, q) s.queues).getD { entry := srEntry r, launch := l, recs := [], first := s.clock }
  let y : GQueue := { x with recs := x.recs ++ [r], first := if x.recs.isEmpty then s.clock else x.first,
                             due := x.due || decide (31 ≤ x.recs.length) }
  { s with queues := put (core, q) y s.queues }

/-- A record on its way into a queue of a core, which takes its key if it was empty, or into the ring (R281, R282). -/
def enterAt (core l : Nat) (q : Option Nat) (r : BitVec 256) (s : State) : State :=
  let s := match q with
    | some q =>
      let x : GQueue := (lookup (core, q) s.queues).getD { entry := srEntry r, launch := l, recs := [], first := s.clock }
      { s with queues := put (core, q) x s.queues }
    | none => s
  { s with entering := s.entering ++ [{ launch := l, core := core, queue := q, image := r }] }

/-- One record placed: in a queue, in a ring slot, or nowhere (R281). -/
def placeRecord (core l : Nat) (r : BitVec 256) (s : State) : Bool × State :=
  let q := queueFor s core l (srEntry r)
  if q.isNone ∧ ringFree s l = 0 then (false, s) else (true, enterAt core l q r s)

/-- Records placed in order; the lanes whose record has nowhere to go (R281). -/
def placeRecords (core l : Nat) : List (Nat × BitVec 256) → State → List Nat × State
  | [], s => ([], s)
  | (lane, r) :: rest, s =>
    let x := placeRecord core l r s
    let t := placeRecords core l rest x.2
    (if x.1 then t.1 else lane :: t.1, t.2)

/-! ## Freed ring slots (R281, R292) -/

/-- The holds of a launch that are marked ready. Which of several takes a freed slot first is the model's choice: the lowest
hold slot (log 76). -/
def readyHolds (x : Launch) : List Hold :=
  (x.holds.filter (·.marked)).mergeSort (fun a b => decide (a.slot ≤ b.slot))

/-- The lanes of a launch parked in SPAWN, in the order in which they parked: order number, warp, lane, record. -/
def spawnParked (s : State) (l : Nat) : List (Nat × Nat × Nat × BitVec 256) :=
  (s.warps.flatMap (fun x =>
    if x.2.launch ≠ l then []
    else allLanes.filterMap (fun i =>
      match x.2.parkOf (fun p => match p with | .spawn _ _ => true | _ => false) i with
      | some (.spawn r n, _) => some (n, x.1, i, r)
      | _ => none))).mergeSort (fun a b => decide (a.1 ≤ b.1))

/-- One freed ring slot filled: by a hold that is marked ready, else by the lane that parked first. -/
def fillSlot (l core : Nat) (s : State) : State :=
  match lookup l s.launches with
  | none => s
  | some x =>
    if ringFree s l = 0 then s
    else
      match readyHolds x with
      | h :: _ =>
        let r := bwRead l core (x.bwSlots + h.slot) s
        let s := modLaunch l (fun x => { x with holds := x.holds.filter (fun y => y.slot ≠ h.slot) }) r.2
        (match r.1 with | some im => ringPush l core im s | none => s)
      | [] =>
        match spawnParked s l with
        | (n, k, i, im) :: _ =>
          settle k (modWarp k (fun w => w.wakeLane s.clock (fun p => p = .spawn im n) i) (ringPush l core im s))
        | [] => s

/-- Every freed slot filled while something waits for one. -/
def fillRing (l core : Nat) : Nat → State → State
  | 0, s => s
  | n + 1, s => fillRing l core n (fillSlot l core s)

/-- Free slots offered to all that waits for one: holds marked ready and lanes parked in SPAWN (R281, R292, R380). -/
def offerRing (l core : Nat) (s : State) : State :=
  match lookup l s.launches with
  | none => s
  | some x => fillRing l core ((readyHolds x).length + (spawnParked s l).length) s

/-! ## Forming warps (R284, R294) -/

/-- The warp of `n` records: its first lanes take them, the others are Exited. -/
def formWarp (x : Launch) (l clock : Nat) (recs : List (BitVec 256)) (slice : Nat) (reserve : Bool) : Warp :=
  let w := newWarp l x.hdrAt x.hdr x.cls clock
  let lane := fun (i : Nat) =>
    match recs[i]? with
    | none => ({ state := .exited } : Lane)
    | some r => { lpc := normLpc (x.hdrAt + srEntry r), state := .ready, join := srJoin r }
  { w with lanes := (List.range 32).map lane, sliceAt := slice, reserve := reserve,
           v := (recs.mapIdx (fun i r => (List.range 4).map (fun j => ((j, i), BitVec.ofNat 32 (srP r j))))).flatten }

/-- A loose warp formed from records in the context given, with its slice empty and zero; an acquire of their releases
(R42, R284, R294). -/
def formIn (core l : Nat) (c : Nat × Nat × Bool) (recs : List (BitVec 256)) (s : State) : State :=
  match lookup l s.launches with
  | none => s
  | some x =>
    let s := clearLines (core * 4096 + c.2.1) 32 s
    acquireCore core { s with warps := put c.1 (formWarp x l s.clock recs c.2.1 c.2.2) s.warps }

/-! ## Continuations (R291) -/

/-- Free hold slots of a launch, ascending. -/
def freeHolds (x : Launch) (n : Nat) : List Nat :=
  ((List.range (x.holds.length + n)).filter (fun i => decide (i < x.bwSlots) && !(x.holds.any (fun h => h.slot = i)))).take n

/-- Every parked lane of a join-blocked loose warp becomes a hold, and the warp ends (R291). -/
def convertWarp (k : Nat) (w : Warp) (x : Launch) (s : State) : State :=
  let lanes := (List.range 32).filterMap (fun i =>
    match (w.lane i).state with
    | .parked (.join p c fr r met) => some (i, p, c, fr, r, met)
    | _ => none)
  let slots := freeHolds x lanes.length
  if slots.length < lanes.length then s
  else
    let core := coreOfWarp k
    let s := (slots.zip lanes).foldl (fun s y =>
      let (slot, i, p, c, fr, r, met) := y
      let im := spawnRecord 1 core r (w.lane i).join.toNat (fr.toNat + 2 ^ 64 * c.toNat)
      let ready := met || (match p with | some q => decide (read64 s q = 0) | none => true)
      modLaunch w.launch (fun x => { x with holds := x.holds ++ [{ slot := slot, place := p, addr := c, ready := ready }] })
        (bwWrite w.launch core (x.bwSlots + slot) im s)) s
    freeReserves (modLaunch w.launch (fun x => { x with fpsum := x.fpsum ||| BitVec.setWidth 7 w.fpst })
      { s with warps := erase k s.warps })

/-- Every join-blocked loose warp of a core is offered its conversion: a due queue or a pop found no free context there
(R291). -/
def convertBlocked (core : Nat) (s : State) : State :=
  s.warps.foldl (fun s x =>
    if coreOfWarp x.1 = core ∧ x.2.gang.isNone ∧ x.2.joinBlocked then
      (match lookup x.2.launch s.launches with | some l => convertWarp x.1 x.2 l s | none => s)
    else s) s


/-! ## Due queues (R283) -/

/-- The queue with records left in it, which leave it due; without any it is empty, and keeps its key only for a record on its
way into it (R282). -/
def leaveQueue (core q : Nat) (x : GQueue) (left : List (BitVec 256)) (s : State) : State :=
  if left.isEmpty && !s.entering.any (fun e => decide (e.core = core ∧ e.queue = some q)) then { s with queues := erase (core, q) s.queues }
  else { s with queues := put (core, q) { x with recs := left, due := !left.isEmpty, bad := x.bad && !left.isEmpty } s.queues }

/-- The records of a queue move to the tail of its launch's ring; those that find no slot stay, and the queue stays due
(R283). -/
def drainQueue (core q : Nat) (s : State) : State :=
  match lookup (core, q) s.queues with
  | none => s
  | some x =>
    let n := min x.recs.length (ringFree s x.launch)
    freeReserves (leaveQueue core q x (x.recs.drop n) ((x.recs.take n).foldl (fun s r => ringPush x.launch core r s) s))

/-- A due queue forms a warp of the records that have entered it, or moves them to the ring; join-blocked warps of the core
give up their contexts when it finds none (R283, R291). An uncorrectable error in a record ends the launch (R372, R374). -/
def serveQueue (core q : Nat) (s : State) : State :=
  match lookup (core, q) s.queues with
  | none => s
  | some x =>
    if !x.due then s
    else if x.recs.isEmpty then freeReserves (leaveQueue core q x [] s)
    else if x.bad then killLaunch x.launch 0x22 allOnes64 0 s
    else if x.held s core then drainQueue core q s
    else
      match looseContext s core x.launch with
      | some c => formIn core x.launch c x.recs (leaveQueue core q x [] s)
      | none => convertBlocked core (drainQueue core q s)

/-- A queue found due stays so (R283). -/
def markDue (core q : Nat) (s : State) : State :=
  match lookup (core, q) s.queues with
  | none => s
  | some x => if queueDue s core x then { s with queues := put (core, q) { x with due := true } s.queues } else s

/-- The confluence of a core for one clock: dueness, then the due queues in order. -/
def confluence (core : Nat) (s : State) : State :=
  (List.range 8).foldl (fun s q => serveQueue core q s) ((List.range 8).foldl (fun s q => markDue core q s) s)

/-! ## SPAWN and SPAWNT (R280, R281) -/

/-- Counter addresses checked and translated for writing; those that are 0 name none (R280, R290). -/
def counterAccess (c : Ctx) (p : Pending) (s : State) : Eff × State :=
  let addrs := c.act.map (fun l => (l, c.a 2 l))
  match misaligned 8 (addrs.filter (fun x => x.2 ≠ 0)) with
  | [] =>
    let r := translateLanes c true .L (addrs.filter (fun x => x.2 ≠ 0)) s
    ({ term := some { p with addr := addrs, place := r.1.1.map (fun x => (x.1, x.2.1)) }, faults := r.1.2,
       ue := if r.1.1.any (fun x => isPoisoned r.2 x.2.1 8) then some 0 else none }, r.2)
  | bad => (Eff.cause 6 c.op bad, s)

/-- SPAWN and SPAWNT at issue. -/
def spawnEff (c : Ctx) (s : State) : Eff × State :=
  counterAccess c { c.pend with b := c.act.map (fun l => (l, BitVec.ofNat 128 (c.reg c.w.b 4 l))) } s
def execSpawn (w : Word) (s : State) : Host.Outcome State Fault Refusal := simt 0xC0 w spawnEff s
def execSpawnt (w : Word) (s : State) : Host.Outcome State Fault Refusal := simt 0xC1 w spawnEff s

/-- The records an instruction builds, in lane order (R281). -/
def spawnRecords (f : Fin) : List (Nat × BitVec 256) :=
  f.p.lanes.map (fun l =>
    (l, spawnRecord 0 (coreOfWarp f.key) f.p.w.ext.toNat (lookupD l 0 f.p.addr) (lookupD l 0 f.p.b).toNat))

/-- SPAWN of a warp in a reserve context: the lanes whose record has nowhere to go (R281). -/
def spawnOverflow (f : Fin) (s : State) : List Nat :=
  match lookup f.key s.warps with
  | none => []
  | some w =>
    if f.p.op = 0xC0 ∧ w.reserve then (placeRecords (coreOfWarp f.key) w.launch (spawnRecords f) s).1 else []

/-- The counters of the lanes given go up by one each, lanes of one counter together (R281, R288); every spawn releases the
warp's stores (R294). -/
def countSpawns (f : Fin) (lanes : List Nat) (s : State) : State :=
  if lanes.isEmpty then s
  else countLanes f.key true (f.p.addr.filter (fun x => lanes.contains x.1)) f.p.place s

/-- SPAWN at commit (R281). -/
def spawnEnd (f : Fin) (s : State) : State :=
  match lookup f.key s.warps with
  | none => s
  | some w =>
    let recs := spawnRecords f
    let r := placeRecords (coreOfWarp f.key) w.launch recs s
    let s := countSpawns f f.p.lanes r.2
    r.1.foldl (fun s i =>
      let n := match lookup w.launch s.launches with | some x => x.spawnSeq | none => 0
      modLaunch w.launch (fun x => { x with spawnSeq := n + 1 })
        (parkLanes f.key [i] (.spawn (lookupD i 0 recs) n) s)) s

/-- SPAWNT at commit: the lanes with nowhere to go lose their mask bit (R281). -/
def spawntEnd (f : Fin) (s : State) : State :=
  match lookup f.key s.warps with
  | none => s
  | some w =>
    let r := placeRecords (coreOfWarp f.key) w.launch (spawnRecords f) s
    writeRegs f.key (maskWrites f.p.w.d (r.1.map (fun i => (i, false))))
      (countSpawns f (f.p.lanes.filter (fun i => !r.1.contains i)) r.2)

/-- SPAWN_RECORD_ENTRY (R281, R282): the core's first placed record enters its queue or ring slot. -/
def spawnRecordEntry (core : Nat) (s : State) : State :=
  match s.entering.find? (fun e => e.core = core) with
  | none => s
  | some e =>
    let s := { s with entering := s.entering.eraseP (fun e => e.core = core) }
    match e.queue with
    | some q => enterQueue core q e.launch e.image s
    | none => ringPush e.launch core e.image s
def execSpawnRecordEntry (core : Nat) (s : State) : Host.Outcome State Fault Refusal :=
  .next (confluence core (spawnRecordEntry core s))

/-- FLUSH_TIMEOUT (R283): a queue whose timeout has passed is due, and forms a warp or empties into the ring. -/
def execFlushTimeout (core queue : Nat) (s : State) : Host.Outcome State Fault Refusal :=
  .next (serveQueue core queue (markDue core queue s))

/-! ## JINC and JDEC (R289) -/

def jincEff (c : Ctx) (s : State) : Eff × State :=
  pendAccess c 8 true (c.loaders.map (fun l => (l, c.a 2 l)))
    { c.pend with lanes := c.loaders, b := c.loaders.map (fun l => (l, BitVec.ofNat 128 (c.b 1 1 l))) } s
def execJinc (w : Word) (s : State) : Host.Outcome State Fault Refusal := simt 0xC2 w jincEff s
def execJdec (w : Word) (s : State) : Host.Outcome State Fault Refusal := simt 0xC4 w jincEff s

/-- One counter changed by the lanes that name it, each seeing what the lanes before it left (R166, R289). -/
def jincGroup (f : Fin) (ls : List Nat) (v : W64) : W64 × List (Nat × Nat) :=
  ls.foldl (fun acc l =>
    let d := BitVec.setWidth 64 (lookupD l 0 f.p.b)
    (if f.p.op = 0xC4 then acc.1 - d else acc.1 + d, acc.2 ++ [(l, acc.1.toNat)])) (v, [])

/-- JINC and JDEC at commit: the old values, seen from the next run. -/
def jincEnd (f : Fin) (s : State) : State :=
  let go := fun (acc : List (Nat × Nat) × State) (g : Nat × List Nat) =>
    match g.2.head?.bind (fun l => lookup l f.p.place) with
    | none => acc
    | some p =>
      let r := rmw64 p (fun v => (jincGroup f g.2 v).1) acc.2
      (acc.1 ++ (jincGroup f g.2 r.1).2, dropL1At f.key g.1 r.2)
  let out := (byAddress f.p.addr).foldl go ([], if f.p.lanes.isEmpty then s else releaseStores f.key s)
  let olds := f.p.lanes.filterMap (fun l => out.1.find? (fun x => x.1 = l))
  writeRegs f.key (f.dst 2 olds) out.2

/-! ## JOINW (R290, R291) -/

def joinwEff (c : Ctx) (s : State) : Eff × State :=
  counterAccess c { c.pend with b := c.act.map (fun l => (l, BitVec.ofNat 128 (c.reg c.w.b 2 l))) } s
def execJoinw (w : Word) (s : State) : Host.Outcome State Fault Refusal := simt 0xC3 w joinwEff s

/-- JOINW at commit: each lane parks on its counter with its resume address; a counter that reads zero, and the address 0,
release it (R290). -/
def joinwEnd (f : Fin) (s : State) : State :=
  let resume := f.p.w.ext.toNat % 2 ^ 32
  f.p.lanes.foldl (fun s l =>
    let p := lookup l f.p.place
    let s := match p with | some q => settleOwn f.key q 8 s | none => s
    let met := match p with | none => true | some q => read64 s q = 0
    let why : Park := .join p (BitVec.ofNat 64 (lookupD l 0 f.p.addr)) (BitVec.setWidth 64 (lookupD l 0 f.p.b)) resume met
    modWarp f.key (fun w => w.setLpcs [(l, w.hdrAt + resume)]) (parkLanes f.key [l] why s)) s

/-- A join whose counter an access has left zero, of any counter or of one. -/
def metJoin (on : Option (BitVec 64)) : Park → Bool
  | .join _ c _ _ met => met && (on.isNone || on = some c)
  | _ => false

/-- What a released lane receives: the frame pointer and the counter's address (R290). -/
def joinResult (i : Nat) : Park → List (Loc × W32)
  | .join _ c fr _ _ => regWrites 0 2 i fr.toNat ++ regWrites 2 2 i c.toNat
  | _ => []

/-- JOIN_RELEASE (R290, R294): a lane whose join is met takes the frame pointer and the counter's address, and goes on,
with the lanes of its warp that wait on the same counter (R255); one whose counter holds an uncorrectable error consumes it
(R385). -/
def joinRelease (k lane : Nat) (s : State) : State :=
  match lookup k s.warps with
  | none => s
  | some w =>
    match w.parkOf (metJoin none) lane with
    | some (.join _ c _ _ true, _) =>
      acquireCore (coreOfWarp k) (settle k (modWarp k (Warp.endParks s.clock joinResult (w.parks (metJoin (some c)))) s))
    | _ => consumeWait k lane w s
def execJoinRelease (warp lane : Nat) (s : State) : Host.Outcome State Fault Refusal := .next (joinRelease warp lane s)

/-- A due queue, or a pop, of a launch on the core finds no free context now (R291). -/
def contextWanted (s : State) (core : Nat) : Bool :=
  (s.queues.any (fun q => q.1.1 = core && q.2.due && (looseContext s core q.2.launch).isNone)) ||
  s.launches.any (fun l => hasReserves l.2 core && decide (0 < l.2.ringLen) && (looseContext s core l.1).isNone)

/-- CONTINUATION_CONVERSION (R291): after 512 clocks, or when a context is wanted; in its handler as elsewhere. -/
def continuationConversion (k : Nat) (s : State) : State :=
  match lookup k s.warps with
  | none => s
  | some w =>
    match w.gang, w.joinSince, lookup w.launch s.launches with
    | none, some t, some x =>
      if w.joinBlocked && (decide (t + 512 ≤ s.clock) || contextWanted s (coreOfWarp k)) then convertWarp k w x s else s
    | _, _, _ => s
def execContinuationConversion (warp : Nat) (s : State) : Host.Outcome State Fault Refusal :=
  .next (continuationConversion warp s)

/-- HOLD_RELEASE (R292): the record of a released hold is placed behind those placed before it, in the confluence of its
core where that keeps reserves, else at the ring's tail; else the hold is marked ready and stays. -/
def holdRelease (l slot : Nat) (s : State) : State :=
  match lookup l s.launches with
  | none => s
  | some x =>
    match x.holds.find? (fun h => h.slot = slot && h.ready && !h.marked) with
    | none => s
    | some _ =>
      match bwRead l ((x.reserves.head?.map (·.1)).getD 0) (x.bwSlots + slot) s with
      | (none, s) => s
      | (some r, s) =>
        let q := if hasReserves x (srCore r) then queueFor s (srCore r) l (srEntry r) else none
        if q.isNone ∧ ringFree s l = 0 then
          modLaunch l (fun x => { x with holds := x.holds.map (fun h => if h.slot = slot then { h with marked := true } else h) }) s
        else
          modLaunch l (fun x => { x with holds := x.holds.filter (fun h => h.slot ≠ slot) })
            (enterAt (srCore r) l q r s)
def execHoldRelease (launch slot : Nat) (s : State) : Host.Outcome State Fault Refusal := .next (holdRelease launch slot s)

/-! ## Popping the ring (R287) -/

/-- The records at the ring's head with the head's entry, at most `n`; none where one is corrupt. -/
def ringTake (l core entry : Nat) : Nat → Nat → State → Option (List (BitVec 256)) × State
  | 0, _, s => (some [], s)
  | n + 1, i, s =>
    match lookup l s.launches with
    | none => (none, s)
    | some x =>
      if x.ringLen ≤ i then (some [], s)
      else
        match bwRead l core ((x.ringHead + i) % x.bwSlots) s with
        | (none, s) => (none, s)
        | (some r, s) =>
          if i ≠ 0 ∧ srEntry r ≠ entry then (some [], s)
          else
            match ringTake l core (if i = 0 then srEntry r else entry) n (i + 1) s with
            | (none, s) => (none, s)
            | (some rs, s) => (some (r :: rs), s)

/-- RING_POP (R287): one warp formed from the records at the ring's head; the freed slots are filled (R281). A pop that
finds no free context has the core's join-blocked warps converted (R291). -/
def ringPop (core l : Nat) (s : State) : State :=
  match lookup l s.launches with
  | none => s
  | some x =>
    if !hasReserves x core || x.ringLen = 0 || leavingCore s core l || s.queues.any (fun q => q.1.1 = core && q.2.launch = l && q.2.due) then s
    else
      match looseContext s core l with
      | none => convertBlocked core s
      | some c =>
        match ringTake l core 0 32 0 s with
        | (none, s) => s
        | (some rs, s) =>
          let s := modLaunch l (fun x => { x with ringHead := (x.ringHead + rs.length) % x.bwSlots, ringLen := x.ringLen - rs.length }) s
          freeReserves (fillRing l core rs.length (formIn core l c rs s))
def execRingPop (core launch : Nat) (s : State) : Host.Outcome State Fault Refusal := .next (ringPop core launch s)

/-- SPAWN_EXHAUSTION (R297). -/
def spawnExhaustion (l : Nat) (s : State) : State :=
  match lookup l s.launches with
  | none => s
  | some x =>
    if (decide (0 < x.ringLen) || x.holds.any (·.marked)) && decide (x.bwSlots ≤ x.holds.length) &&
        (x.reserves.flatMap (·.2)).all (fun r =>
          match lookup r.1 s.warps with | some w => w.joinBlocked | none => false) then
      killLaunch l 0x24 allOnes64 0 s
    else s
def execSpawnExhaustion (launch : Nat) (s : State) : Host.Outcome State Fault Refusal := .next (spawnExhaustion launch s)

/-! ## Tasks (R298 to R300) -/

/-- A task record linked at the tail of a launch's task list, unless it is queued already; LINK is the device's, with a
value the spec does not give (R298, R300, log 4). It may make its launch runnable (R392). -/
def linkTask (l addr : Nat) (p : Place) (s : State) : State :=
  let w0 := read64 s p
  if w0.getLsbD 0 then s
  else
    let t := writePlace p (leBytes 8 (w0 ||| 1).toNat) s
    let t := writePlace (p.plus 56) (leBytes 8 (Config.freeWord s.free).toNat) { t with free := t.free + 1 }
    rouse l (runnable s l) (modLaunch l (fun x => { x with tasks := x.tasks ++ [(addr, p)] }) t)

/-- The record a successor counter names is enqueued; where its address does not translate the fault is fatal (log 18). -/
def linkNext (core l next : Nat) (s : State) : State :=
  match lookup l s.launches with
  | none => s
  | some x =>
    match translate (.core core) (spaceOf x) next true false .L s with
    | (.error f, s) => backwaterFault l x core f s
    | (.ok p, s) => linkTask l next p.1 s

/-- A successor counter at a place goes down by one; left zero, it enqueues the record it names (R299). -/
def decSuccessor (core l : Nat) (p : Place) (s : State) : State :=
  let r := rmw64 p (fun v => v - 1) s
  let next := (read64 r.2 (p.plus 8)).toNat
  if r.1 = 1 ∧ next ≠ 0 then linkNext core l next r.2 else r.2

/-- TASK and TASK.DEC at issue. -/
def taskEff (c : Ctx) (s : State) : Eff × State := pendAccess c 64 true c.objects c.pend s
def taskDecEff (c : Ctx) (s : State) : Eff × State := pendAccess c 16 true c.objects c.pend s
def execTask (w : Word) (s : State) : Host.Outcome State Fault Refusal := simt 0xC5 w taskEff s
def execTaskDec (w : Word) (s : State) : Host.Outcome State Fault Refusal := simt 0xC5 w taskDecEff s

/-- TASK at commit, lane by lane, after the release of the warp's stores; the core keeps no older copy of a record (R294,
R300). -/
def taskEnd (f : Fin) (s : State) : State :=
  match lookup f.key s.warps with
  | none => s
  | some w => f.p.place.foldl (fun s x =>
      let a := lookupD x.1 0 f.p.addr
      dropL1At f.key a (linkTask w.launch a x.2 s)) (releaseFirst f 1 s)

/-- TASK.DEC at commit, lane by lane, after the release of the warp's stores (R294, R300). -/
def taskDecEnd (f : Fin) (s : State) : State :=
  match lookup f.key s.warps with
  | none => s
  | some w => f.p.place.foldl (fun s x =>
      dropL1At f.key (lookupD x.1 0 f.p.addr) (decSuccessor (coreOfWarp f.key) w.launch x.2 s)) (releaseFirst f 1 s)

end Sys2Proof.Machine
end

