-- ==== Sys2Proof/Machine/Gangs.lean ====
section
/-! DEFINITION. Gangs and launches between runs: phases (R275, R387), wakes (R255, R265, R356), stalls (R49), gang ends
(R252, R302), launch contexts (R316), the shared order and placement (R301, R325 to R328). -/

namespace Sys2Proof.Machine

/-! ## Barrier phases (R275, R387) -/

/-- Every warp of the gang that has not exited arrived in the phase by BARS (R387). -/
def allByBars (s : State) (g : Nat) (b : Barrier) : Bool := (gangWarps g s).all (fun w => b.bars.contains w.2.num)

/-- The next phase of a barrier. -/
def Barrier.flip (b : Barrier) : Barrier := { b with phase := !b.phase, count := 0, marks := [], bars := [] }

/-- A lane whose wait on one barrier has ended, and which now waits for the shadow (R387). -/
def toShadow (bars : List (Nat × Barrier)) (st : LaneState) : LaneState :=
  if endedPhase bars st = st then st else .parked .shadow

/-- BARRIER_PHASE_COMPLETE (R275): at the start of a clock that finds the count at the expectation, the phase bit flips and
the barrier's lanes are released with an acquire (R276), or wait for the shadow (R387). What is posted in the clock in hand counts from the
next. -/
def barrierPhaseComplete (g b : Nat) (s : State) : State :=
  match lookup g s.gangs with
  | none => s
  | some x =>
    match lookup b x.barriers with
    | none => s
    | some y =>
      if x.rolling || (gangWarps g s).isEmpty || decide (y.count < y.expect) || decide (s.clock ≤ y.touched) then s
      else
        let shadow := hdrRb x.hdr && allByBars s g y
        let s := modBarrier g b Barrier.flip s
        let bars := [(b, y.flip)]
        if shadow then takeShadow g (modGangWarps g (fun w => w.mapStates (toShadow bars)) s)
        else modGangWarps g (fun w => w.release s.clock (endedPhase bars)) (acquireAll s)
def execBarrierPhaseComplete (gang bar : Nat) (s : State) : Host.Outcome State Fault Refusal :=
  .next (barrierPhaseComplete gang bar s)

/-! ## Wakes (R255, R265, R350, R356) -/

/-- SLEEP_WAKE (R265, R255): the die's clock has reached the lane's wake clock; every lane of the warp that is due goes on
with it. -/
def sleepWake (k lane : Nat) (s : State) : State :=
  let now := dieClock s (dieOfCore (coreOfWarp k))
  let due := fun (p : Park) => match p with | .sleep t => decide (t ≤ now) | _ => false
  modWarp k (fun w =>
    if (w.parkOf due lane).isNone then w else w.endParks s.clock (fun _ _ => []) (w.parks due)) s
def execSleepWake (warp lane : Nat) (s : State) : Host.Outcome State Fault Refusal := .next (sleepWake warp lane s)

/-- A flag wait that a write has met, on any place or on one. -/
def metFlag (on : Option Place) : Park → Bool
  | .flag p _ _ _ _ _ _ (some _) => on.isNone || on = some p
  | _ => false

/-- What a lane of a flag wait receives (R350). -/
def flagResult (i : Nat) : Park → List (Loc × W32)
  | .flag _ _ _ _ (some d) _ _ (some v) => regWrites (BitVec.ofNat 8 d) 2 i v.toNat
  | _ => []

/-- FLAG_WAIT_RELEASE (R350, R356): a lane whose flag has met its comparison acquires, takes its value, and goes on, with
the lanes of its warp that the same flag has met (R255); one whose flag holds an uncorrectable error consumes it (R385). -/
def flagWaitRelease (k lane : Nat) (s : State) : State :=
  match lookup k s.warps with
  | none => s
  | some w =>
    match w.parkOf (metFlag none) lane with
    | some (.flag p _ _ _ _ _ _ _, _) =>
      let ps := w.parks (metFlag (some p))
      ps.foldl (fun s x => match x.2.2 with | .flag _ va _ _ _ paths scope _ => acquireWord k va paths scope s | _ => s)
        (modWarp k (Warp.endParks s.clock flagResult ps) s)
    | _ => consumeWait k lane w s
def execFlagWaitRelease (warp lane : Nat) (s : State) : Host.Outcome State Fault Refusal :=
  .next (flagWaitRelease warp lane s)

/-! ## Gang stall (R49) -/

/-- A lane state no event but its own gang's can move: exited, or parked in an unended barrier phase, an unmet tag wait or a
mask wait. -/
def stalledState (bars : List (Nat × Barrier)) (st : LaneState) : Bool :=
  match st with
  | .exited => true
  | .parked (.barrier b ph) => (match lookup b bars with | some y => decide (y.phase = ph) | none => false)
  | .parked (.tag m _) => m ≠ 0
  | .parked (.mask _) => true
  | _ => false

/-- A lane no event but its own gang's can move: it waits for a line that is not full, or is in such a state. -/
def stalledLane (s : State) (base : Nat) (bars : List (Nat × Barrier)) (l : Lane) : Bool :=
  l.loads.any (fun q => !lineFull s (base + q.line)) || (l.loads.isEmpty && stalledState bars l.state)

/-- The gang stalls: no lane of it can move, no phase is due, and no copy of it is running (R49). -/
def gangStalled (s : State) (g : Nat) (x : Gang) : Bool :=
  !(gangWarps g s).isEmpty && x.state = .placed && !x.rolling &&
  (gangWarps g s).all (fun w => w.2.run.isNone && w.2.post.isEmpty && w.2.faultWait.isEmpty &&
    w.2.lanes.all (stalledLane s (x.core * 4096 + x.scrAt) x.barriers)) &&
  x.barriers.all (fun b => decide (b.2.count < b.2.expect)) &&
  !(s.copies.any (fun c => match c.2.owner with | .gang h _ => decide (h = g) && !c.2.dead | .command _ => false))

/-- GANG_STALL (R49): the launch is killed. -/
def gangStall (g : Nat) (s : State) : State :=
  match lookup g s.gangs with
  | none => s
  | some x => if gangStalled s g x then killGang g 0x23 0 s else s
def execGangStall (gang : Nat) (s : State) : Host.Outcome State Fault Refusal := .next (gangStall gang s)

/-! ## The end of a gang (R47, R69, R185, R252, R302, R314) -/

/-- A copy of the gang is not complete. -/
def copiesOf (s : State) (g : Nat) : Bool :=
  s.copies.any (fun c => match c.2.owner with | .gang h _ => decide (h = g) | .command _ => false)

/-- A matrix instruction of the gang is not complete. -/
def matrixOf (s : State) (g : Nat) : Bool := s.parts.any (fun p => p.2.queue.any (fun o => o.gang = g))

/-- The gang's rows go, and its banks: the kept ones become unowned kept banks of their partition (R181, R185). -/
def freeMatrix (g : Nat) (s : State) : State :=
  { s with parts := s.parts.map (fun p =>
      (p.1, { p.2 with
        rows := p.2.rows.filter (fun r => r.1 / 128 ≠ g),
        banks := p.2.banks.filter (fun b => b.1 / 4 ≠ g),
        kept := p.2.kept ++ ((p.2.banks.filter (fun b => b.1 / 4 = g ∧ b.2.key.isSome)).map (·.2)) })) }

/-- The gang record of a launch with GREC (R314). -/
def gangRecord (x : Gang) (status : Nat) (s : State) : State :=
  match x.index, lookup x.launch s.launches with
  | some i, some l =>
    if pkGrec l.pkt ∧ pkFlag l.pkt ≠ 0 then
      let r := cpWrite l.asn l.root (pkFlag l.pkt + 64 + 8 * i) (leBytes 8 (x.smaskUnion.toNat + 2 ^ 32 * status)) s
      if r.1.isSome then modLaunch x.launch (fun l => { l with recFault := true }) r.2 else r.2
    else s
  | _, _ => s

/-- The gang's flags and mask join the launch's sums (R314). -/
def sumGang (x : Gang) (s : State) : State :=
  modLaunch x.launch (fun l => { l with smask := l.smask ||| x.smaskUnion,
                                        nsm := if x.smaskUnion ≠ 0 then l.nsm + 1 else l.nsm }) s

/-- The pool room of a gang's shadows given back (R387). -/
def freeShadow (x : Gang) (s : State) : State :=
  if hdrRb x.hdr then { s with poolUsed := s.poolUsed - 2 * shadowBytes x.hdr x.warps } else s

/-- A gang's place is free: it leaves the table, and the package may have none left (R397). -/
def dropGang (g : Nat) (s : State) : State :=
  let s := { s with gangs := erase g s.gangs }
  if s.gangs.isEmpty then { s with idleSince := s.clock } else s

/-- Bytes a saved gang takes: registers, scalar and mask state, tables, scratchpad, rows and banks (R377). -/
def saveBytes (h : BitVec 512) (n : Nat) : Nat :=
  n * (hdrRegs h * 128 + 640 + hdrPpt h * 1280) + hdrScrl h * 128 + hdrScrl h / 8 +
  ((List.range 4).filter (fun p => decide (0 < warpsOnPart h n p))).length * (hdrRows h * 1040 + hdrBanks h * 98304)

/-- GANG_END (R252, R302): every warp has exited and every copy and matrix instruction is complete. -/
def gangEnd (g : Nat) (s : State) : State :=
  match lookup g s.gangs with
  | none => s
  | some x =>
    let killed := match lookup x.launch s.launches with | some l => l.kill.isSome | none => true
    if killed || (x.state ≠ .ending && x.state ≠ .switching) || !(gangWarps g s).isEmpty || copiesOf s g || matrixOf s g ||
        x.rolling then s
    else
      let s := releaseStores (x.core * 64) { s with poolUsed := s.poolUsed - x.room }
      let s := gangRecord x (if x.rollbacks = 0 then 0 else 0x80) s
      let s := dropGang g (freeShadow x (freeMatrix g (sumGang x s)))
      let s := match x.task with
        | none => s
        | some r =>
          if fld r 320 64 = 0 then s
          else
            match lookup x.launch s.launches with
            | none => s
            | some l =>
              match translate (.core x.core) (spaceOf l) (fld r 320 64) true false .L s with
              | (.error f, s) => backwaterFault x.launch l x.core f s
              | (.ok p, s) => decSuccessor x.core x.launch p.1 s
      offerCmds (freeReserves s)
def execGangEnd (gang : Nat) (s : State) : Host.Outcome State Fault Refusal := .next (gangEnd gang s)

/-! ## Launch contexts (R20, R75, R316, R337) -/

/-- Tensor entries and region descriptors of a launch image (R315). -/
def imageTensors (p : BitVec 512) (image : List Byte) : List (Nat × BitVec 512) :=
  (List.range (fld p 243 9)).map (fun i => (i, leBits 512 ((image.drop (64 * i)).take 64)))
def imageRegions (p : BitVec 512) (image : List Byte) : List (Nat × BitVec 256) :=
  (List.range (fld p 252 7)).map (fun i => (i, leBits 256 ((image.drop (64 * fld p 243 9 + 32 * i)).take 32)))

/-- The oldest launch that waits for a context. -/
def waitingLaunch (s : State) : Option (Nat × Cmd × BitVec 512 × List Byte) :=
  s.cmds.foldl (fun b c =>
    match c.2.work, b with
    | .launching h im, none => some (c.1, c.2, h, im)
    | .launching h im, some o => if c.2.order < o.2.1.order then some (c.1, c.2, h, im) else some o
    | _, _ => b) none

/-- The tables of a launch as it takes its context: an entry with V 0 is as TDEF leaves it. -/
def makeLaunch (c : Cmd) (hdr : BitVec 512) (image args : List Byte) : Launch :=
  { queue := c.queue, pkt := c.pkt, asn := c.asn, root := c.root, rpld := c.rpld, hdr := hdr, args := args,
    arrival := c.since, order := c.order, tensors := imageTensors c.pkt image, regions := imageRegions c.pkt image }

/-- LAUNCH_CONTEXT_TAKE (R20, R316): the oldest waiting launch takes one of the 1,024 contexts; its argument block is
captured, and its gangs are runnable. -/
def launchContextTake (s : State) : State :=
  match waitingLaunch s with
  | none => s
  | some (id, c, hdr, image) =>
    if 1024 ≤ s.launches.length then s
    else
      match launchRead c.asn c.root (64 * fld c.pkt 124 51) (fld c.pkt 175 17) s with
      | (.error e, s) => offerCmds (finishCmd id e.result s)
      | (.ok args, s) =>
        let l := freshKey s.launches
        let s := { s with launches := put l (makeLaunch c hdr image args) s.launches,
                          cmds := put id { c with work := .running l } s.cmds }
        if 6 ≤ fld c.pkt 363 3 then abortScans s else s
def execLaunchContextTake (s : State) : Host.Outcome State Fault Refusal := .next (launchContextTake s)

/-! ## The shared order (R324, R325) -/

/-- What a dispatcher may place next of a launch. -/
inductive Work where
  /-- A switched-out gang. -/
  | saved (g : Nat)
  /-- A queued task: its address, place and record. -/
  | task (addr : Nat) (p : Place) (image : BitVec 512)
  /-- The next unplaced gang. -/
  | fresh (index : Nat)
deriving DecidableEq, Repr

/-- Runnable work with its launch, class, deadline and order (R325). -/
structure Item where
  launch : Nat
  cls : Nat
  deadline : Nat
  order : Nat
  work : Work
deriving DecidableEq, Repr

/-- Deadline `d` is earlier than `e` (R324). -/
def deadlineBefore (d e : Nat) : Bool :=
  if d = 0 then false else if e = 0 then true else 2 ^ 31 ≤ (d + 2 ^ 32 - e) % 2 ^ 32

/-- The order of R325. -/
def itemBefore (a b : Item) : Bool :=
  if a.cls ≠ b.cls then decide (b.cls < a.cls)
  else if deadlineBefore a.deadline b.deadline then true
  else if deadlineBefore b.deadline a.deadline then false
  else decide (a.order ≤ b.order)

/-- The deadline class a task takes: its own up to the queue's CMAX, or its launch context's (R298, R307, log 22). -/
def taskClass (s : State) (l : Launch) (r : BitVec 512) : Nat :=
  if fld r 1 1 = 1 then l.cls else min (fld r 8 3) (qCmax (qcbOf s l.queue))
def taskDeadline (l : Launch) (r : BitVec 512) : Nat := if fld r 1 1 = 1 then fld l.pkt 366 32 else fld r 128 32

/-- The first queued task of each class (R301); one whose record has no place in its launch's space is passed over. -/
def taskItems (s : State) (key : Nat) (l : Launch) : List Item :=
  ((l.tasks.filter (fun t => !s.awayFor key t.1)).foldl (fun (acc : List Item) t =>
    let r : BitVec 512 := leBits 512 (readPlace s t.2 64)
    let c := taskClass s l r
    if acc.any (fun i => i.cls = c) then acc
    else acc ++ [{ launch := key, cls := c, deadline := taskDeadline l r, order := l.order, work := .task t.1 t.2 r }]) [])

/-- Switched-out gangs of a launch, oldest first. -/
def savedItems (s : State) (key : Nat) (l : Launch) : List Item :=
  (s.saved.filter (fun g => g.2.gang.launch = key)).map (fun g =>
    { launch := key, cls := g.2.gang.cls, deadline := g.2.gang.deadline, order := l.order, work := .saved g.1 })

/-- Runnable work of a launch: its switched-out gangs before its unplaced ones (R325). -/
def launchItems (s : State) (key : Nat) (l : Launch) : List Item :=
  if l.held || l.kill.isSome then []
  else
    let old := savedItems s key l
    let new : List Item :=
      if old.isEmpty ∧ l.next < l.total then
        [{ launch := key, cls := l.cls, deadline := fld l.pkt 366 32, order := l.order, work := .fresh l.next }]
      else []
    old ++ taskItems s key l ++ new

/-- The shared order of runnable work (R325). -/
def sharedOrder (s : State) : List Item := (s.launches.flatMap (fun l => launchItems s l.1 l.2)).mergeSort itemBefore

/-! ## Launches at risk (R329) -/

/-- The gang of an item that can be a launch's head gang: its header and warps, and whether it comes back from the save
pool (R329). -/
def headGang (s : State) (i : Item) : Option (BitVec 512 × Nat × Bool) :=
  match i.work with
  | .fresh _ => (lookup i.launch s.launches).map (fun l => (l.hdr, fld l.pkt 357 6, false))
  | .saved g => (lookup g s.saved).map (fun v => (v.gang.hdr, v.gang.warps, true))
  | .task _ _ _ => none

/-- The head gang of each launch of class 7: its first switched-out gang, else its next unplaced one (R325, R329). -/
def riskHeads (s : State) : List (Item × Launch × BitVec 512 × Nat × Bool) :=
  (sharedOrder s).foldl (fun acc i =>
    match lookup i.launch s.launches, headGang s i with
    | some l, some h =>
      if l.cls ≠ 7 ∨ acc.any (fun x => x.1.launch = i.launch) then acc else acc ++ [(i, l, h)]
    | _, _ => acc) []

/-- Class-7 launches whose head gang fits no core of the package, dated (R329). -/
def noteRisk (s : State) : State :=
  (riskHeads s).foldl (fun s x =>
    if (List.range 256).any (fun c => coreFits s c x.2.1 x.2.2.1 x.2.2.2.1 x.2.2.2.2) then
      { s with riskSince := erase x.1.launch s.riskSince }
    else { s with riskSince := put x.1.launch (lookupD x.1.launch s.clock s.riskSince) s.riskSince }) s

/-- Where the item is its launch's head gang, about to be placed, nothing is kept for it any longer and its wait is over
(R329). -/
def dropRisk (i : Item) (s : State) : State :=
  if (riskHeads s).any (fun x => x.1.launch = i.launch && x.1.work = i.work) then
    { s with reservedFor := s.reservedFor.filter (fun y => y.2 ≠ i.launch), riskSince := erase i.launch s.riskSince }
  else s

/-- The state with gangs gone from a core, and their launches' loose warps with them: for fitting only. -/
def without (core : Nat) (gs : List (Nat × Gang)) (s : State) : State :=
  { s with gangs := s.gangs.filter (fun g => !(gs.any (fun x => x.1 = g.1))),
           warps := s.warps.filter (fun w => !(gs.any (fun x => decide (w.2.gang = some x.1) ||
             (w.2.gang.isNone && coreOfWarp w.1 = core && decide (w.2.launch = x.2.launch))))) }

/-- The state with a gang of a launch tried on a core: for fitting only. -/
def tryOn (core launch : Nat) (h : BitVec 512) (n : Nat) (s : State) : State :=
  let x : Gang := { launch := launch, index := none, core := core, hdrAt := 0, hdr := h, warps := n, cls := 0 }
  placeOn core s.nextGang x ((List.range n).map (fun i => (i, newWarp launch 0 h 0 s.clock))) s

/-- A gang put on a core leaves what is kept there for the head gang of a launch at risk: that gang still fits once the gangs
that are leaving have gone (R329, log 78). -/
def spares (s : State) (core : Nat) (i : Item) (h : BitVec 512) (n : Nat) : Bool :=
  match lookup core s.reservedFor with
  | none => true
  | some m =>
    match (riskHeads s).find? (fun x => x.1.launch = m) with
    | none => true
    | some (j, _, g) =>
      let t := without core ((gangsOn s core).filter (fun x => x.2.state = .switching)) (tryOn core i.launch h n s)
      decide (j.launch = i.launch ∧ j.work = i.work) ||
        (match lookup m t.launches with | some l => coreFits t core l g.1 g.2.1 g.2.2 | none => true)

/-! ## Fitting (R326, R328, R392) -/

/-- The cores of a die. -/
def dieCores (die : Nat) : List Nat := (List.range 64).map (fun i => die * 64 + i)

/-- The cores of a die that fit an item's gang and may take it. -/
def fitCores (s : State) (die : Nat) (i : Item) (l : Launch) (hdr : BitVec 512) (warps : Nat) (back : Bool) : List Nat :=
  (dieCores die).filter (fun c => coreFits s c l hdr warps back && spares s c i hdr warps)

/-- The vaults a handle has extents in. -/
def handleVaults (s : State) (h : Nat) : List Nat :=
  match lookup h s.handles with | some x => x.extents.map (·.1) | none => []

/-- The cores that fit, narrowed to those R328 prefers for a handle. -/
def preferCores (s : State) (rhnd : Nat) (cores : List Nat) : List Nat :=
  let vs := if rhnd = 0 then [] else handleVaults s rhnd
  let under := cores.filter (fun c => vs.contains c)
  if !under.isEmpty then under
  else
    let near := cores.filter (fun c => vs.any (fun v => v / 64 = dieOfCore c))
    if !near.isEmpty then near else cores

/-- One of the cores: which of equals is not given (R328, log 23). -/
def pickCore (s : State) (cores : List Nat) : Option Nat :=
  cores[(Config.freeWord s.free).toNat % max 1 cores.length]?

/-- The core of a die for an item's gang with a header, warps and handle. -/
def coreFor (s : State) (die : Nat) (i : Item) (l : Launch) (hdr : BitVec 512) (warps rhnd : Nat) (back : Bool) : Option Nat :=
  pickCore s (preferCores s rhnd (fitCores s die i l hdr warps back))

/-! ## Tasks taken (R298, R301) -/

/-- A task record breaks R298: its address, which a NEXT may give misaligned, or its fields. -/
def taskMalformed (l : Launch) (addr : Nat) (r : BitVec 512) : Bool :=
  addr % 64 ≠ 0 || fld r 160 32 ≠ 0 || fld r 112 16 ≠ 0 || fld r 44 20 ≠ 0 || fld r 22 10 ≠ 0 || fld r 11 5 ≠ 0 || fld r 2 6 ≠ 0 ||
  fld r 16 6 = 0 || 32 < fld r 16 6 || fld r 320 64 % 16 ≠ 0 ||
  (fld r 1 1 = 0 && fld r 32 12 ≠ 0 && fld r 32 12 ≠ pkRhnd l.pkt) || fld r 192 64 % 128 ≠ 0

/-- The header of a task read in the launch's space; a fault is fatal to the launch, poison ends it (log 18). -/
def taskHeader (key : Nat) (l : Launch) (addr : Nat) (s : State) : Option (BitVec 512) × State :=
  match translate (.die 0) (spaceOf l) addr false false .L s with
  | (.error f, s) => (none, backwaterFault key l 0 f s)
  | (.ok p, s) =>
    if isPoisoned s p.1 64 then (none, killLaunch key 0x22 allOnes64 0 s)
    else (some (leBits 512 (readPlace s p.1 64)), s)

/-- The task leaves its launch's list with Q clear (R301). -/
def unlinkTask (key addr : Nat) (p : Place) (s : State) : State :=
  let w := read64 s p
  modLaunch key (fun x => { x with tasks := x.tasks.filter (fun t => t.1 ≠ addr) })
    (writePlace p (leBytes 8 (w &&& ~~~1#64).toNat) s)

/-- The gang of a task (R301): its constant space is the record with LINK and Q zero. -/
def taskGang (key cls deadline : Nat) (hdr r : BitVec 512) : Gang :=
  let r := setFld (setFld r 448 64 0) 0 1 0
  { launch := key, index := none, task := some r, core := 0, hdrAt := fld r 192 64, hdr := hdr, warps := fld r 16 6,
    cls := cls, deadline := deadline, const := leBytes 64 r.toNat }

/-! ## Placement (R106, R301, R326, R327) -/

/-- Some warp or gang of the package runs a code object. -/
def codeRuns (s : State) (asn hdrAt : Nat) : Bool :=
  s.gangs.any (fun g => g.2.hdrAt = hdrAt && decide (((lookup g.2.launch s.launches).elim 0 (·.asn)) = asn)) ||
  s.warps.any (fun w => w.2.hdrAt = hdrAt && decide ((launchOf s w.2).asn = asn)) ||
  s.launches.any (fun l => l.2.hdrAt = hdrAt && decide (l.2.asn = asn) && decide (0 < l.2.next))

/-- A code object that nothing runs: its lines leave every instruction cache before its first gang is placed (R106). -/
def freshCode (asn hdrAt len : Nat) (s : State) : State :=
  if codeRuns s asn hdrAt then s
  else
    { s with icache := s.icache.filter (fun x =>
        !(decide (x.1.2.1 = asn) && decide (hdrAt / 128 ≤ x.1.2.2) && decide (x.1.2.2 ≤ (hdrAt + len - 1) / 128))) }

/-- A new gang placed on a core of its own launch. -/
def placeFresh (core key : Nat) (l : Launch) (x : Gang) (s : State) : State :=
  let s := freshCode l.asn x.hdrAt (hdrCodelen x.hdr) s
  let s := placeNew core x { s with free := s.free + 1 }
  { modLaunch key (fun l => { l with skips := 0 }) s with power := .d0active }

/-- How one item fares on a die. -/
inductive Offer where
  | placed (s : State)
  /-- Nothing was placed, and the step is over: the launch is being ended, or the item is the other placement event's. -/
  | ended (s : State)
  | noFit (s : State)
deriving Repr

/-- One item offered to the cores of a die for GANG_PLACEMENT: a saved gang that fits is GANG_RESTORE's, and comes first; a
malformed task kills its launch (R301). A well-formed task that not even an empty core could hold stays queued: the spec
gives it no other end (log 74). -/
def offerItem (die : Nat) (i : Item) (s : State) : Offer :=
  match lookup i.launch s.launches with
  | none => .noFit s
  | some l =>
    match i.work with
    | .saved g =>
      match lookup g s.saved with
      | some v =>
        if (fitCores s die i l v.gang.hdr v.gang.warps true).isEmpty then .noFit s else .ended s
      | none => .noFit s
    | .fresh n =>
      let x : Gang := { launch := i.launch, index := some n, core := 0, hdrAt := l.hdrAt, hdr := l.hdr,
                        warps := fld l.pkt 357 6, cls := l.cls, deadline := fld l.pkt 366 32 }
      match coreFor s die i l l.hdr x.warps (pkRhnd l.pkt) false with
      | none => .noFit s
      | some c =>
        .placed (modLaunch i.launch (fun l => { l with next := n + 1 }) (placeFresh c i.launch l x (dropRisk i s)))
    | .task addr p r =>
      if taskMalformed l addr r then .ended (killLaunch i.launch 0x26 allOnes64 0 (unlinkTask i.launch addr p s))
      else
        match taskHeader i.launch l (fld r 192 64) s with
        | (none, s) => .ended s
        | (some h, s) =>
          if hdrMalformed h then .ended (killLaunch i.launch 0x26 allOnes64 0 (unlinkTask i.launch addr p s))
          else
            let rhnd := if fld r 1 1 = 1 then pkRhnd l.pkt else fld r 32 12
            match coreFor s die i l h (fld r 16 6) rhnd false with
            | none => .noFit s
            | some c =>
              .placed (placeFresh c i.launch l (taskGang i.launch i.cls i.deadline h r) (unlinkTask i.launch addr p s))

/-- Age limit of a launch (R307). -/
def ageOf (s : State) (i : Item) : Nat :=
  match lookup i.launch s.launches with
  | some l => qAge (qcbOf s l.queue)
  | none => 32

/-- Another item was placed while the highest-ranked one fits no core of the die: a skip against that one's launch, whose
count a placement of its own returns to 0 (R327). -/
def countSkip (first : Option Item) (placed : Item) (s : State) : State :=
  match first with
  | some i => if i.launch = placed.launch then s else modLaunch i.launch (fun l => { l with skips := l.skips + 1 }) s
  | none => s

/-- The items in order: the first that fits is placed; an item that fits nowhere and whose launch has reached its age limit
holds all below it (R327). `first` is the highest-ranked item, where it fitted no core of the die. -/
def placeFirst (offer : Item → State → Offer) : List Item → Option Item → Bool → State → State
  | [], _, _, s => s
  | i :: rest, first, isFirst, s =>
    match offer i s with
    | .placed s' => countSkip first i s'
    | .ended s' => s'
    | .noFit s' =>
      let drains := match lookup i.launch s'.launches with | some l => decide (ageOf s' i ≤ l.skips) | none => false
      if drains then s' else placeFirst offer rest (if isFirst then some i else first) false s'

/-- A checkpoint holds every placement (R319). -/
def placementsHeld (s : State) : Bool :=
  s.cmds.any (fun c => match c.2.work with | .checkpoint _ => true | _ => false) || s.power = .d3hot || s.power = .d3cold

/-- A queued task record that holds an uncorrectable error ends its launch as the dispatcher reads it (R372, R385). -/
def consumeTasks (s : State) : State :=
  s.launches.foldl (fun s l =>
    if runnable s l.1 && l.2.tasks.any (fun t => !s.awayFor l.1 t.1 && isPoisoned s t.2 64) then killLaunch l.1 0x22 allOnes64 0 s
    else s) s

/-- What a dispatcher finds as a placement step begins. -/
def beforePlacement (s : State) : State := noteRisk (freeReserves (consumeTasks s))

/-- GANG_PLACEMENT (R327): one placement step of a die's dispatcher. -/
def gangPlacement (die : Nat) (s : State) : State :=
  if placementsHeld s || decide (4 ≤ die) then s
  else
    let s := beforePlacement s
    placeFirst (offerItem die) (sharedOrder s) none true s
def execGangPlacement (die : Nat) (s : State) : Host.Outcome State Fault Refusal := .next (gangPlacement die s)

end Sys2Proof.Machine
end

