-- ==== Sys2Proof/Machine/Switch.lean ====
section
/-! DEFINITION. Pre-emption (R375 to R382), at-risk launches (R329), restoring a gang (R380) and killing a launch
(R370). -/

namespace Sys2Proof.Machine

/-! ## The save pool (R377, R379) -/

/-- Bytes a saved loose warp takes, with its slice. -/
def looseBytes (h : BitVec 512) : Nat := hdrRegs h * 128 + 640 + hdrPpt h * 1280 + 4096 + 4

/-- The loose warps of a launch on a core (R375). -/
def looseOn (s : State) (core l : Nat) : List (Nat × Warp) :=
  s.warps.filter (fun w => coreOfWarp w.1 = core && w.2.gang.isNone && decide (w.2.launch = l))

/-- Room the switch-out of a gang needs, its launch's loose warps on the core included. -/
def switchBytes (s : State) (x : Gang) : Nat :=
  saveBytes x.hdr x.warps + ((looseOn s x.core x.launch).map (fun w => looseBytes w.2.hdr)).sum

/-! ## Beginning a switch-out (R376) -/

/-- A target gang: its launch is held (R375). -/
def isTarget (s : State) (x : Gang) : Bool :=
  match lookup x.launch s.launches with
  | none => false
  | some l => l.kill.isNone && l.held

/-- The partitions stop choosing the gang's warps and its launch's loose warps on the core, and room in the pool is set
aside for all of them; with too little room nothing changes (R376, R379). -/
def beginSwitch (g : Nat) (s : State) : State :=
  match lookup g s.gangs with
  | none => s
  | some x =>
    if x.state = .switching || decide (poolRoom s < switchBytes s x) then s
    else
      let room := switchBytes s x
      let s := modGang g (fun x => { x with state := .switching, room := room }) s
      { s with poolUsed := s.poolUsed + room,
               warps := s.warps.map (fun w =>
                 if w.2.gang = some g ∨ (w.2.gang.isNone ∧ coreOfWarp w.1 = x.core ∧ w.2.launch = x.launch) then
                   (w.1, { w.2 with stopping := true })
                 else w) }

/-- The gang and the loose warps that go with it are at run boundaries, its engines have drained, and no shadow of it is
being written (R58, R206, R376, R387). -/
def drained (s : State) (g : Nat) (x : Gang) : Bool :=
  !(x.shadow.any (·.writing)) &&
  (gangWarps g s).all (fun w => w.2.run.isNone) && (looseOn s x.core x.launch).all (fun w => w.2.run.isNone) &&
  s.copies.all (fun c => match c.2.owner with | .gang h _ => h ≠ g || c.2.stopped.isSome | .command _ => true) &&
  s.parts.all (fun p => p.2.queue.all (fun o => o.gang ≠ g) ||
    (match p.2.queue with | o :: _ => o.gang = g && o.stopped.isSome | [] => true))

/-! ## Saving (R304, R376 to R379, R382) -/

/-- Fault records wait for the launch instead of for what goes to the pool. -/
def relabel (f : Requester → Bool) (l : Nat) (s : State) : State :=
  let n := (lookup l s.launches).elim 0 (·.order)
  let toLaunch := fun (rs : List Requester) => (rs.map (fun r => if f r then .launch l n else r)).eraseDups
  { s with faultWaits := s.faultWaits.map (fun x => { x with who := toLaunch x.who, last := toLaunch x.last }) }

/-- The requesters that are a gang's. -/
def ofGang (s : State) (g : Nat) (r : Requester) : Bool :=
  match r with
  | .warp k => (lookup k s.warps).elim false (fun w => decide (w.gang = some g))
  | .copy id => (lookup id s.copies).elim false (fun c => match c.owner with | .gang h _ => decide (h = g) | .command _ => false)
  | .matrix p => (match (lookupD p {} s.parts).queue with | o :: _ => decide (o.gang = g) | [] => false)
  | _ => false

/-- The contents of a stretch of scratchpad, moved to 0. -/
def scrSlice (s : State) (lo n : Nat) : Mem × List Nat :=
  (s.scr.slice (lo * 128) ((lo + n) * 128),
   (s.scrFull.filter (fun l => decide (lo ≤ l ∧ l < lo + n))).map (fun l => l - lo))

/-- The matrix instructions of a gang, the issuing warp by number (32 where it has exited). -/
def savedQueue (s : State) (g : Nat) (p : Part) : List MatOp :=
  (p.queue.filter (fun o => o.gang = g)).map (fun o =>
    { o with warp := match lookup o.warp s.warps with
        | some w => if w.gang = some g then w.num else 32
        | none => 32 })

/-- What a gang's save holds (R377). -/
def saveOf (s : State) (g : Nat) (x : Gang) : Saved :=
  let c := scrSlice s (x.core * 4096 + x.scrAt) (hdrScrl x.hdr)
  let parts := (List.range 4).map (fun p => (p, lookupD (x.core * 4 + p) ({} : Part) s.parts))
  { gang := { x with state := .switchedOut, room := 0 }, scrBytes := c.1, scrFull := c.2,
    warps := (gangWarps g s).map (fun w => (w.2.num, { w.2 with stopping := false })),
    rows := parts.flatMap (fun p => (p.2.rows.filter (fun r => r.1 / 128 = g)).map (fun r => ((p.1, r.1 % 128), r.2))),
    banks := parts.flatMap (fun p => (p.2.banks.filter (fun b => b.1 / 4 = g)).map (fun b => ((p.1, b.1 % 4), b.2))),
    queues := parts.map (fun p => (p.1, savedQueue s g p.2)),
    copies := s.copies.filter (fun c => match c.2.owner with | .gang h _ => decide (h = g) | .command _ => false) }

/-- What is about to be saved has an uncorrectable error in it (R379, R382). -/
def badSave (s : State) (g : Nat) (x : Gang) : Bool :=
  badSources s (gangWarps g s) ((x.core * 4096 + x.scrAt) * 128) (hdrScrl x.hdr * 128) ||
  (looseOn s x.core x.launch).any (fun w => badSources s [w] ((x.core * 4096 + w.2.sliceAt) * 128) 4096) ||
  s.parts.any (fun p => p.2.rows.any (fun r => decide (r.1 / 128 = g) && r.2.bad) || p.2.banks.any (fun b => decide (b.1 / 4 = g) && b.2.bad))

/-- The records placed on a core for a launch enter where they were going, in the order of their placement (R281, R304). -/
def enterAll (core l : Nat) (s : State) : State :=
  let mine := fun (e : Entering) => decide (e.core = core ∧ e.launch = l)
  (s.entering.filter mine).foldl (fun s e =>
    match e.queue with
    | some q => enterQueue core q l e.image s
    | none => ringPush l core e.image s) { s with entering := s.entering.filter (fun e => !mine e) }

/-- Records of a launch's queues on a core moved to its ring, those still on their way included; what finds no slot stays,
due, and forms no warp. An error in a record ends the launch (R283, R304, R372). -/
def emptyQueues (core l : Nat) (s : State) : State :=
  (List.range 8).foldl (fun s q =>
    match lookup (core, q) s.queues with
    | none => s
    | some x =>
      if x.launch ≠ l then s
      else if x.bad then killLaunch l 0x22 allOnes64 0 s
      else drainQueue core q { s with queues := put (core, q) { x with preempted := true, due := true } s.queues }) (enterAll core l s)

/-- A loose warp leaves the core: as continuations where it is join-blocked, in its handler too, and the hold area has room,
else into the pool (R304). -/
def saveLoose (s : State) (w : Nat × Warp) : State :=
  match lookup w.1 s.warps, lookup w.2.launch s.launches with
  | some x, some l =>
    let s1 := if x.joinBlocked then convertWarp w.1 x l s else s
    if (lookup w.1 s1.warps).isNone then s1
    else
      let at_ := coreOfWarp w.1 * 4096 + x.sliceAt
      let c := scrSlice s at_ 32
      let v : SavedLoose := { warp := { x with stopping := false }, scrBytes := c.1, scrFull := c.2 }
      let s := relabel (fun r => r = .warp w.1) x.launch s
      { s with savedLoose := s.savedLoose ++ [(s.nextGang, v)], nextGang := s.nextGang + 1,
               poolUsed := s.poolUsed + looseBytes x.hdr, warps := erase w.1 s.warps }
  | _, _ => s

/-- The gang leaves its core. -/
def dropSaved (g : Nat) (s : State) : State :=
  { dropGang g s with
    warps := s.warps.filter (fun w => w.2.gang ≠ some g),
    copies := s.copies.filter (fun c => match c.2.owner with | .gang h _ => h ≠ g | .command _ => true),
    parts := s.parts.map (fun p =>
      (p.1, { p.2 with queue := p.2.queue.filter (fun o => o.gang ≠ g),
                       rows := p.2.rows.filter (fun r => r.1 / 128 ≠ g),
                       banks := p.2.banks.filter (fun b => b.1 / 4 ≠ g) })) }

/-- The save of a drained gang: the pool takes its state in the room set aside, its resources are free, and the kept banks
of its core's partitions are discarded (R185, R376). The form of a save in the pool's memory is not given: State holds what it
holds, and the pool gives up its room (R379, log 88). An error in what is saved kills the launch (R382). -/
def saveGang (g : Nat) (x : Gang) (s : State) : State :=
  if badSave s g x then killGang g 0x22 6 s
  else
    let was := runnable s x.launch
    let s := releaseStores (x.core * 64) s
    let v := saveOf s g x
    let s := relabel (ofGang s g) x.launch { s with poolUsed := s.poolUsed - x.room + saveBytes x.hdr x.warps }
    let s := emptyQueues x.core x.launch s
    let s := (looseOn s x.core x.launch).foldl saveLoose s
    let s := dropSaved g s
    let s := { s with saved := s.saved ++ [(g, v)],
                      parts := s.parts.map (fun p => if p.1 / 4 = x.core then (p.1, { p.2 with kept := [] }) else p) }
    offerCmds (rouse x.launch was (freeReserves s))

/-- SWITCH_OUT (R375, R376, R379, R382): a target gang begins to stop once the pool has room, and is saved once it has
drained; a gang all of whose warps have exited, while its engines still work. A gang whose launch is being killed is not
saved. -/
def switchOut (g : Nat) (s : State) : State :=
  match lookup g s.gangs with
  | none => s
  | some x =>
    let killed := match lookup x.launch s.launches with | some l => l.kill.isSome | none => true
    let live := !(gangWarps g s).isEmpty || copiesOf s g || matrixOf s g
    if killed || x.rolling then s
    else if x.state = .switching then (if live && drained s g x then saveGang g x s else s)
    else if isTarget s x && live then beginSwitch g s
    else s
def execSwitchOut (gang : Nat) (s : State) : Host.Outcome State Fault Refusal := .next (switchOut gang s)

/-! ## Restoring (R304, R380, R382) -/

/-- A restored warp's waits re-armed: barriers, flags, joins (R357, R380). -/
def rearmWarp (k : Nat) (s : State) : State :=
  wakeFlags (modWarp k (fun w => w.mapStates (retestJoin s (s.awayFor w.launch))) s)

/-- Partition state of a restored gang; the probe row reads 0 until an MMA completes, on every partition of the core (R203,
R206, log 81). -/
def restorePart (core g : Nat) (v : Saved) (s : State) (p : Nat) : State :=
  let key := fun (n : Nat) =>
    match (gangWarps g s).find? (fun w => w.2.num = n) with | some w => w.1 | none => 1048576
  modPart (core * 4 + p) (fun x =>
    { x with
      rows := x.rows ++ (v.rows.filter (fun r => r.1.1 = p)).map (fun r => (g * 128 + r.1.2, r.2)),
      banks := x.banks ++ (v.banks.filter (fun b => b.1.1 = p)).map (fun b => (g * 4 + b.1.2, b.2)),
      queue := x.queue ++ (lookupD p [] v.queues).map (fun o => { o with warp := key o.warp }), probe := {} }) s

/-- The saved gang comes back on a core that fits it, and what it waited for is looked at again (R380); an error in the
save kills its launch (R379). -/
def restoreGang (core g : Nat) (v : Saved) (s : State) : State :=
  if v.bad then killLaunch v.gang.launch 0x22 (v.gang.index.getD allOnes64) 6 s
  else
    let x := { v.gang with shadow := v.gang.shadow.map (fun sh =>
      { sh with warps := sh.warps.map (fun w => (core * 64 + w.1 % 64, w.2)) }) }
    let s := { s with saved := erase g s.saved, poolUsed := s.poolUsed - saveBytes x.hdr x.warps, power := .d0active }
    let s := freeShadow x s
    let s := placeOn core g x (v.warps.map (fun w => (w.1, { w.2 with readySince := s.clock }))) s
    let at_ := match lookup g s.gangs with | some y => core * 4096 + y.scrAt | none => 0
    let s := { s with scr := s.scr.paste (at_ * 128) v.scrBytes,
                      scrFull := v.scrFull.foldl (fun l a => insertNat (at_ + a) l) s.scrFull,
                      copies := s.copies ++ v.copies.map (fun c => (c.1, { c.2 with core := core })) }
    let s := (List.range 4).foldl (restorePart core g v) s
    let s := modGang g (fun y => { y with state := if y.warps ≤ y.exitedWarps.length then .ending else .placed }) s
    let s := modLaunch x.launch (fun l => { l with skips := 0 }) s
    let s := (gangWarps g s).foldl (fun s w => wakeMatrix w.1 s) s
    offerRing x.launch core (rearmGang g s)

/-- A saved loose warp comes back in a context (R284, R304). -/
def restoreLoose (id : Nat) (v : SavedLoose) (core : Nat) (c : Nat × Nat × Bool) (s : State) : State :=
  if v.bad then killLaunch v.warp.launch 0x22 allOnes64 6 s
  else
    let at_ := core * 4096 + c.2.1
    let s := clearLines at_ 32 s
    let w := { v.warp with sliceAt := c.2.1, reserve := c.2.2, readySince := s.clock }
    let s := { s with savedLoose := erase id s.savedLoose, poolUsed := s.poolUsed - looseBytes v.warp.hdr,
                      warps := put c.1 w s.warps, scr := s.scr.paste (at_ * 128) v.scrBytes,
                      scrFull := v.scrFull.foldl (fun l a => insertNat (at_ + a) l) s.scrFull }
    offerRing v.warp.launch core (settle c.1 (rearmLines at_ 32 (rearmWarp c.1 (acquireCore core s))))

/-- The first core of a die with a context for a saved loose warp. -/
def looseCore (s : State) (die : Nat) (l : Nat) : Option (Nat × Nat × Nat × Bool) :=
  ((List.range 64).map (fun i => die * 64 + i)).foldl (fun b core =>
    match b with
    | some x => some x
    | none =>
      if s.coresOut.contains core || s.scanning.contains core then none
      else (looseContext s core l).map (fun c => (core, c))) none

/-- Saved loose warps of launches that are not held come back where a context is free. -/
def restoreLooseOnes (die : Nat) (s : State) : State :=
  s.savedLoose.foldl (fun s x =>
    match lookup x.2.warp.launch s.launches with
    | none => s
    | some l =>
      if l.held || l.kill.isSome then s
      else
        match looseCore s die x.2.warp.launch with
        | some (core, c) => restoreLoose x.1 x.2 core c s
        | none => s) s

/-- One item offered to the cores of a die for GANG_RESTORE: a saved gang that fits comes back; a new gang or a task that
fits is GANG_PLACEMENT's, and comes first (R325, R327). -/
def restoreItem (die : Nat) (i : Item) (s : State) : Offer :=
  match lookup i.launch s.launches with
  | none => .noFit s
  | some l =>
    match i.work with
    | .saved g =>
      match lookup g s.saved with
      | none => .noFit s
      | some v =>
        match coreFor s die i l v.gang.hdr v.gang.warps (pkRhnd l.pkt) true with
        | none => .noFit s
        | some c => .placed (restoreGang c g v (dropRisk i { s with free := s.free + 1 }))
    | .fresh _ => if (fitCores s die i l l.hdr (fld l.pkt 357 6) false).isEmpty then .noFit s else .ended s
    | .task addr _ r =>
      if taskMalformed l addr r then .ended s
      else
        match taskHeader i.launch l (fld r 192 64) s with
        | (none, s) => .ended s
        | (some h, s) =>
          if hdrMalformed h || !(fitCores s die i l h (fld r 16 6) false).isEmpty then .ended s else .noFit s

/-- GANG_RESTORE (R327, R380): one placement step of a die's dispatcher whose item is a switched-out gang, placed on a
fitting core with its warps in the states they were saved in; loose warps come back with it (R304). -/
def gangRestore (die : Nat) (s : State) : State :=
  if placementsHeld s || decide (4 ≤ die) then s
  else
    let s := beforePlacement s
    restoreLooseOnes die (placeFirst (restoreItem die) (sharedOrder s) none true s)
def execGangRestore (die : Nat) (s : State) : Host.Outcome State Fault Refusal := .next (gangRestore die s)

/-! ## At-risk launches (R329) -/

/-- Sublists of a length. -/
def choices {α : Type} : Nat → List α → List (List α)
  | 0, _ => [[]]
  | _ + 1, [] => []
  | n + 1, a :: t => (choices n t).map (fun l => a :: l) ++ choices (n + 1) t

/-- A choice of gangs is better than another: fewer, then lower class, then later deadline (R329). -/
def betterChoice (a b : List (Nat × Gang)) : Bool :=
  let cls := fun (l : List (Nat × Gang)) => l.foldl (fun m g => max m g.2.cls) 0
  let first := fun (l : List (Nat × Gang)) =>
    l.foldl (fun (m : Nat) g => if deadlineBefore g.2.deadline m then g.2.deadline else m) 0
  if a.length ≠ b.length then decide (a.length < b.length)
  else if cls a ≠ cls b then decide (cls a < cls b)
  else deadlineBefore (first b) (first a)

/-- The best of some choices. -/
def bestChoice (l : List (List (Nat × Gang))) : Option (List (Nat × Gang)) :=
  l.foldl (fun b c =>
    match b with
    | none => some c
    | some y => if betterChoice c y then some c else b) none

/-- The fewest gangs below class 7 of a core whose switch-out makes a fit for a header and warps (R329). -/
def fewest (s : State) (core : Nat) (l : Launch) (h : BitVec 512) (warps : Nat) (back : Bool) : Option (List (Nat × Gang)) :=
  let gs := (gangsOn s core).filter (fun g => g.2.cls < 7 && (g.2.state = .placed || g.2.state = .ending))
  let fits := fun (c : List (Nat × Gang)) => coreFits (without core c s) core l h warps back
  (List.range (gs.length + 1)).foldl (fun b n =>
    match b with
    | some x => some x
    | none => bestChoice ((choices n gs).filter fits)) none

/-- The core of a die to pre-empt for a head gang, and its gangs; one reserved for another launch is left alone. -/
def riskChoice (s : State) (die key : Nat) (l : Launch) (h : BitVec 512) (warps : Nat) (back : Bool) : Option (Nat × List (Nat × Gang)) :=
  ((dieCores die).filter (fun c => !s.reservedFor.any (fun r => r.1 = c && decide (r.2 ≠ key)))).foldl (fun b core =>
    match fewest s core l h warps back, b with
    | some c, none => some (core, c)
    | some c, some y => if betterChoice c y.2 then some (core, c) else some y
    | none, _ => b) none

/-- The launch is at risk: its head gang fits no core, and its deadline is near or past, or it has waited (R329). -/
def atRisk (s : State) (key : Nat) (l : Launch) : Bool :=
  match lookup key s.riskSince with
  | none => false
  | some t =>
    let d := fld l.pkt 366 32
    let ahead := (d + 2 ^ 32 - s.clock / 1000 % 2 ^ 32) % 2 ^ 32
    decide (t + 16384 ≤ s.clock) || (d ≠ 0 && decide (2 ^ 31 ≤ ahead ∨ ahead * 1000 ≤ 65536 + s.clock % 1000))

/-- AT_RISK_PREEMPTION (R329): the die chooses a core for the head gang of the first launch at risk, which may be a
switched-out one, keeps room for it there (`spares`), and pre-empts the gangs in its way. -/
def atRiskPreemption (die : Nat) (s : State) : State :=
  if placementsHeld s || decide (4 ≤ die) then s
  else
    let s := noteRisk s
    match (riskHeads s).find? (fun x => atRisk s x.1.launch x.2.1 &&
        !(s.reservedFor.any (fun r => r.2 = x.1.launch && dieOfCore r.1 = die))) with
    | none => s
    | some (i, l, h, warps, back) =>
      match riskChoice s die i.launch l h warps back with
      | none => s
      | some (core, gs) =>
        if poolRoom s < (gs.map (fun g => switchBytes s g.2)).sum then s
        else gs.foldl (fun s g => beginSwitch g.1 s) { s with reservedFor := (core, i.launch) :: s.reservedFor }
def execAtRiskPreemption (die : Nat) (s : State) : Host.Outcome State Fault Refusal := .next (atRiskPreemption die s)

/-! ## Killing a launch (R283, R314, R370, R382) -/

/-- What the kill of a launch leaves of a partition: its queue, rows and banks gone, and the kept banks it owned. -/
def killPart (gs : List Nat) (p : Part) : Part :=
  { p with queue := p.queue.filter (fun o => !gs.contains o.gang), rows := p.rows.filter (fun r => !gs.contains (r.1 / 128)),
           banks := p.banks.filter (fun b => !gs.contains (b.1 / 4)) }

/-- The gang's mask sum as the kill finds it: warps that have not exited included. -/
def killedMask (s : State) (g : Nat) (x : Gang) : Gang :=
  { x with smaskUnion := (gangWarps g s).foldl (fun m w => m ||| w.2.smask) x.smaskUnion }

/-- Every gang of the launch that was placed and has not ended writes its record and joins the sums (R314). -/
def killRecords (l status : Nat) (s : State) : State :=
  let live := (s.gangs.filter (fun g => g.2.launch = l)).map (fun g => killedMask s g.1 g.2)
  let saved := (s.saved.filter (fun g => g.2.gang.launch = l)).map (fun v =>
    { v.2.gang with smaskUnion := v.2.warps.foldl (fun m w => m ||| w.2.smask) v.2.gang.smaskUnion })
  (live ++ saved).foldl (fun s x => sumGang x (gangRecord x status s)) s

/-- The flags of the launch's warps join its summary as they are ended (R69). -/
def killFlags (l : Nat) (s : State) : State :=
  let ws := (s.warps.map (·.2)) ++ (s.saved.flatMap (fun v => v.2.warps.map (·.2))) ++ (s.savedLoose.map (fun v => v.2.warp))
  modLaunch l (fun x => { x with fpsum := (ws.filter (fun w => w.launch = l)).foldl (fun m w => m ||| BitVec.setWidth 7 w.fpst) x.fpsum }) s

/-- Everything of the launch in flight is discarded and its resources are free (R370). -/
def discardLaunch (l : Nat) (s : State) : State :=
  let gs := (s.gangs.filter (fun g => g.2.launch = l)).map (·.1)
  let shadows := ((s.gangs.filter (fun g => g.2.launch = l && hdrRb g.2.hdr)).map (fun g => 2 * shadowBytes g.2.hdr g.2.warps)).sum +
    ((s.saved.filter (fun g => g.2.gang.launch = l && hdrRb g.2.gang.hdr)).map (fun g => 2 * shadowBytes g.2.gang.hdr g.2.gang.warps)).sum
  let pool := ((s.saved.filter (fun g => g.2.gang.launch = l)).map (fun g => saveBytes g.2.gang.hdr g.2.gang.warps)).sum +
    ((s.gangs.filter (fun g => g.2.launch = l)).map (fun g => g.2.room)).sum +
    ((s.savedLoose.filter (fun g => g.2.warp.launch = l)).map (fun g => looseBytes g.2.warp.hdr)).sum
  { s with
    gangs := s.gangs.filter (fun g => g.2.launch ≠ l), warps := s.warps.filter (fun w => w.2.launch ≠ l),
    copies := s.copies.filter (fun c => match c.2.owner with | .gang h _ => !gs.contains h | .command _ => true),
    parts := s.parts.map (fun p => (p.1, killPart gs p.2)),
    queues := s.queues.filter (fun q => q.2.launch ≠ l), entering := s.entering.filter (fun e => e.launch ≠ l),
    saved := s.saved.filter (fun g => g.2.gang.launch ≠ l), savedLoose := s.savedLoose.filter (fun w => w.2.warp.launch ≠ l),
    poolUsed := s.poolUsed - shadows - pool }

/-- LAUNCH_KILL (R370): the launch's work is stopped and discarded, and it completes with its status. -/
def launchKill (l : Nat) (s : State) : State :=
  match lookup l s.launches with
  | none => s
  | some x =>
    match x.kill with
    | none => s
    | some (status, item, det) =>
      let had := s.gangs.any (fun g => g.2.launch = l)
      let s := discardLaunch l (killFlags l (killRecords l status s))
      let s := if had && s.gangs.isEmpty then { s with idleSince := s.clock } else s
      endLaunch l { status := status, det := det, item := item } s
def execLaunchKill (launch : Nat) (s : State) : Host.Outcome State Fault Refusal := .next (launchKill launch s)

end Sys2Proof.Machine
end

