-- ==== Sys2Proof/Machine/Take.lean ====
section
/-! DEFINITION. Taking a packet (R310), its capture (R393), and the hook machine (R321 to R323). -/

namespace Sys2Proof.Machine

/-! ## Capture (R393) -/

/-- Bytes padded to a multiple of 64. -/
def pad64 (l : List Byte) : List Byte := l ++ List.replicate ((64 - l.length % 64) % 64) 0

/-- The capture of a queue stops: its command completes, and what is written stays (R319, R416). -/
def stopCapture (q : Nat) (r : Result) (s : State) : State :=
  let s := { s with captures := erase q s.captures }
  match s.cmds.find? (fun c => c.2.work = .capturing q) with
  | some c => finishCmd c.1 r s
  | none => s

/-- The head of an entry: clock, queue, ring index, lengths of the copies (R393, log 24). -/
def captureHead (clock q ix args image : Nat) : List Byte :=
  pad64 (leBytes 8 clock ++ leBytes 4 q ++ leBytes 4 ix ++ leBytes 4 args ++ leBytes 4 image)

/-- Addresses and lengths of a launch's argument block and image; none of another command. -/
def captureParts (p : BitVec 512) : (Nat × Nat) × (Nat × Nat) :=
  if fld p 0 8 = 1 then
    ((64 * fld p 124 51, fld p 175 17), (64 * fld p 192 51, 64 * fld p 243 9 + 32 * fld p 252 7))
  else ((0, 0), (0, 0))

/-- An entry written to a capture's ring, its control updated afterwards (R393). -/
def writeEntry (q : Nat) (c : Capture) (e : List Byte) (s : State) : State :=
  if c.len < 64 + e.length then s
  else
    let wrap := c.len < c.next + e.length
    let at_ := if wrap then 64 else c.next
    let c' := { c with next := at_ + e.length, wraps := if wrap then c.wraps + 1 else c.wraps }
    match cpWrite c.asn c.root (c.buf + at_) e s with
    | (some f, s) => stopCapture q f.result s
    | (none, s) =>
      match cpWrite c.asn c.root c.buf (leBytes 8 c'.next ++ leBytes 8 c'.wraps) s with
      | (some f, s) => stopCapture q f.result s
      | (none, s) => { s with captures := put q c' s.captures }

/-- The packet taken is captured, where its queue is (R393). -/
def captureTaken (q ix : Nat) (p b : BitVec 512) (s : State) : State :=
  match lookup q s.captures with
  | none => s
  | some c =>
    let parts := captureParts p
    match cpRead (qAsn b) (qRoot b) parts.1.1 parts.1.2 s with
    | (.error f, s) => stopCapture q f.result s
    | (.ok args, s) =>
      match cpRead (qAsn b) (qRoot b) parts.2.1 parts.2.2 s with
      | (.error f, s) => stopCapture q f.result s
      | (.ok image, s) =>
        writeEntry q c (captureHead s.clock q ix args.length image.length ++ leBytes 64 p.toNat ++ pad64 args ++ pad64 image) s

/-! ## Taking (R310) -/

/-- The packet starts: CONS moves on, and the command processor has it in hand. -/
def startPacket (q ix : Nat) (p : BitVec 512) (s : State) : State :=
  let s := modQcb q (fun b => setFld b 160 32 (ix + 1)) s
  captureTaken q ix p (qcbOf s q) { s with taken := some (q, ix, p) }

/-- The packet completes without starting: CONS moves on. -/
def refusePacket (q ix : Nat) (p : BitVec 512) (r : Result) (s : State) : State :=
  let s := modQcb q (fun b => setFld b 160 32 (ix + 1)) s
  let s := captureTaken q ix p (qcbOf s q) s
  completeCommand q ix p (qAsn (qcbOf s q)) (qRoot (qcbOf s q)) r s

/-- A command of the queue is in progress, or a WAIT of it. -/
def queueBusy (s : State) (q : Nat) : Bool := s.cmds.any (fun c => c.2.queue = q)
def queueWaits (s : State) (q : Nat) : Bool :=
  s.cmds.any (fun c => c.2.queue = q && (match c.2.work with | .waiting _ _ _ _ => true | _ => false))

/-- The packet that a block would take next holds an uncorrectable error (R385). -/
def packetPoisoned (s : State) (b : BitVec 512) : Bool := isPoisoned s (ringSlot b (qCons b)) 64

/-- A packet of the queue can be taken now: its block is cached and its segment valid, it is enabled, has work, and neither a
WAIT nor a FENCE holds it (R306, R310). -/
def canTake (s : State) (q : Nat) : Bool :=
  match lookup q s.eddy with
  | none => false
  | some e =>
    (segEntry s q).isSome && hasWork e.qcb && !queueWaits s q &&
    !(pkFence (leBits 512 (readPlace s (ringSlot e.qcb (qCons e.qcb)) 64)) && queueBusy s q)

/-- How far a queue is from its turn: queues follow the one served last in the order of their numbers (R310, log 21). -/
def turnOf (s : State) (q : Nat) : Nat := (q + 2 ^ 20 - (s.lastQueue + 1)) % 2 ^ 20

/-- No queue with a packet to take comes before this one (R310). -/
def itsTurn (s : State) (q : Nat) : Bool := s.eddy.all (fun x => decide (turnOf s q ≤ turnOf s x.1) || !canTake s x.1)

/-- The next packet of a queue taken in its turn, its hook begun where it has one (R310, R321); from here on nothing older is
read (R312). An uncorrectable error in the packet puts the queue into error instead (R385, log 84). -/
def takePacket (q : Nat) (s : State) : State :=
  match lookup q s.eddy with
  | none => s
  | some e =>
    let b := e.qcb
    if s.taken.isSome || s.hook.isSome || !canTake s q || !itsTurn s q then s
    else if e.bad then useQcb q s
    else if packetPoisoned s b then queueError q 0x22 (qCons b) s
    else
      let s := acquireAll s
      let p : BitVec 512 := leBits 512 (readPlace s (ringSlot b (qCons b)) 64)
      let s := { s with lastQueue := q }
      match (if qHookv b then lookup q s.hookStore else none) with
      | some words =>
        { s with hook := some { queue := q, ix := qCons b, words := words, orig := p, pkt := p,
                                hw := (List.range 4).map (qHw b) } }
      | none => startPacket q (qCons b) p s

/-! ## The hook machine (R321, R322) -/

/-- One hook word executed: the next word, or the head of the repeat it ends. -/
def hookNext (skip : Nat) (h : HookVM) : HookVM :=
  let pc := h.pc + 1 + skip
  let h := { h with steps := h.steps + 1 }
  match h.rep with
  | none => { h with pc := pc }
  | some r =>
    if pc < r.start + r.len then { h with pc := pc }
    else if r.left = 0 then { h with pc := pc, rep := none }
    else { h with pc := r.start, rep := some { r with left := r.left - 1 } }

/-- A hook register. -/
def HookVM.r (h : HookVM) (i : BitVec 3) : W64 := h.h.getD i.toNat 0

/-- A hook register written. -/
def HookVM.w (h : HookVM) (i : BitVec 3) (x : W64) : HookVM := { h with h := h.h.set i.toNat x }

/-- A hook word: the hook machine in focus executes it. -/
def hookStep (f : HookVM → State → HookVM) (skip : HookVM → Nat) (s : State) : Host.Outcome State Fault Refusal :=
  match s.focus with
  | .hook =>
    match s.hook with
    | none => .fault .notIssuing
    | some h => .next { s with hook := some (hookNext (skip h) (f h s)) }
  | _ => .fault .noAgent

/-- A word that computes a register. -/
def hookReg (d : BitVec 3) (f : HookVM → State → W64) (s : State) : Host.Outcome State Fault Refusal :=
  hookStep (fun h s => h.w d (f h s)) (fun _ => 0) s

/-- LDP (R322). -/
def hookLdpOf (off : BitVec 9) (wid : BitVec 7) (h : HookVM) : W64 := BitVec.ofNat 64 (fld h.pkt off.toNat wid.toNat)
def execHookLdp (d : BitVec 3) (off : BitVec 9) (wid : BitVec 7) (s : State) : Host.Outcome State Fault Refusal :=
  hookReg d (fun h _ => hookLdpOf off wid h) s

/-- STP (R322). -/
def hookStpOf (a : BitVec 3) (off : BitVec 9) (wid : BitVec 7) (h : HookVM) : HookVM :=
  { h with pkt := setFld h.pkt off.toNat wid.toNat (h.r a).toNat }
def execHookStp (a : BitVec 3) (off : BitVec 9) (wid : BitVec 7) (s : State) : Host.Outcome State Fault Refusal :=
  hookStep (fun h _ => hookStpOf a off wid h) (fun _ => 0) s

/-- LDQ (R322). -/
def hookLdqOf (sel : BitVec 3) (h : HookVM) (s : State) : W64 :=
  match sel.toNat with
  | 4 => BitVec.ofNat 64 h.queue
  | 5 => BitVec.ofNat 64 (s.clock % 2 ^ 64 / 1000 % 2 ^ 32)
  | 6 => BitVec.ofNat 64 (qAsn (qcbOf s h.queue))
  | 7 => BitVec.ofNat 64 (qCmax (qcbOf s h.queue))
  | n => BitVec.setWidth 64 (h.hw.getD n 0)
def execHookLdq (d sel : BitVec 3) (s : State) : Host.Outcome State Fault Refusal := hookReg d (hookLdqOf sel) s

/-- STQ (R322). -/
def hookStqOf (a sel : BitVec 3) (h : HookVM) : HookVM := { h with hw := h.hw.set sel.toNat (BitVec.setWidth 32 (h.r a)) }
def execHookStq (a sel : BitVec 3) (s : State) : Host.Outcome State Fault Refusal :=
  hookStep (fun h _ => hookStqOf a sel h) (fun _ => 0) s

/-- The signed value of a 22-bit immediate (R322). -/
def hookImm (imm : BitVec 22) : W64 := imm.signExtend 64

/-- MOVI (R322). -/
def execHookMovi (d : BitVec 3) (imm : BitVec 22) (s : State) : Host.Outcome State Fault Refusal :=
  hookReg d (fun _ _ => hookImm imm) s
/-- ADD (R322). -/
def execHookAdd (d a b : BitVec 3) (s : State) : Host.Outcome State Fault Refusal := hookReg d (fun h _ => h.r a + h.r b) s
/-- SUB (R322). -/
def execHookSub (d a b : BitVec 3) (s : State) : Host.Outcome State Fault Refusal := hookReg d (fun h _ => h.r a - h.r b) s
/-- ADDI (R322). -/
def execHookAddi (d a : BitVec 3) (imm : BitVec 22) (s : State) : Host.Outcome State Fault Refusal :=
  hookReg d (fun h _ => h.r a + hookImm imm) s
/-- AND (R322). -/
def execHookAnd (d a b : BitVec 3) (s : State) : Host.Outcome State Fault Refusal := hookReg d (fun h _ => h.r a &&& h.r b) s
/-- SHR (R322). -/
def execHookShr (d a : BitVec 3) (cnt : BitVec 6) (s : State) : Host.Outcome State Fault Refusal :=
  hookReg d (fun h _ => h.r a >>> cnt.toNat) s
/-- MIN (R322). -/
def execHookMin (d a b : BitVec 3) (s : State) : Host.Outcome State Fault Refusal :=
  hookReg d (fun h _ => if (h.r a).toNat ≤ (h.r b).toNat then h.r a else h.r b) s
/-- SKIPLT (R322). -/
def execHookSkiplt (a b : BitVec 3) (cnt : BitVec 8) (s : State) : Host.Outcome State Fault Refusal :=
  hookStep (fun h _ => h) (fun h => if (h.r a).toNat < (h.r b).toNat then cnt.toNat else 0) s
/-- SKIPEQ (R322). -/
def execHookSkipeq (a b : BitVec 3) (cnt : BitVec 8) (s : State) : Host.Outcome State Fault Refusal :=
  hookStep (fun h _ => h) (fun h => if h.r a = h.r b then cnt.toNat else 0) s

/-- REP: the next words run `cnt` times (R322). -/
def hookRepOf (cnt : BitVec 5) (len : BitVec 8) (h : HookVM) : HookVM :=
  { h with rep := if len = 0 then none else some { start := h.pc + 1, len := len.toNat, left := cnt.toNat - 1 } }
def execHookRep (cnt : BitVec 5) (len : BitVec 8) (s : State) : Host.Outcome State Fault Refusal :=
  hookStep (fun h _ => hookRepOf cnt len h) (fun _ => 0) s

/-- The queue's hook words as the hook leaves them (R321). -/
def keepHookWords (h : HookVM) (s : State) : State :=
  modQcb h.queue (fun b => (List.range 4).foldl (fun b i => setFld b (384 + 32 * i) 32 (h.hw.getD i 0).toNat) b) s

/-- A word that ends the hook. -/
def hookEnd (f : HookVM → State → State) (s : State) : Host.Outcome State Fault Refusal :=
  match s.focus with
  | .hook =>
    match s.hook with
    | none => .fault .notIssuing
    | some h => .next (f h { s with hook := none })
  | _ => .fault .noAgent

/-- ACCEPT: the edits and the hook words stand, and the packet proceeds (R321, R322). -/
def hookAccept (h : HookVM) (s : State) : State := startPacket h.queue h.ix h.pkt (keepHookWords h s)
def execHookAccept (s : State) : Host.Outcome State Fault Refusal := hookEnd hookAccept s

/-- REJECT: the hook words stand, and the packet as taken completes with 0x0004 (R321, R322). -/
def hookReject (code : BitVec 16) (h : HookVM) (s : State) : State :=
  refusePacket h.queue h.ix h.orig { status := 4, det := code.toNat } (keepHookWords h s)
def execHookReject (code : BitVec 16) (s : State) : Host.Outcome State Fault Refusal := hookEnd (hookReject code) s

/-- HOOK_BUDGET_EXCEEDED (R321): 64 steps without an end; nothing of the hook stands. -/
def hookBudgetExceeded (s : State) : State :=
  match s.hook with
  | none => s
  | some h => if h.steps < 64 then s else refusePacket h.queue h.ix h.orig { status := 5 } { s with hook := none }
def execHookBudgetExceeded (s : State) : Host.Outcome State Fault Refusal := .next (hookBudgetExceeded s)

/-! ## Verification (R323) -/

/-- What verification asks of a word: the skip distance of a skip, the body length of a REP, an end. -/
structure HookShape where
  skip : Option Nat := none
  body : Option Nat := none
  ends : Bool := false
deriving DecidableEq, Repr

/-- The shape of a word whose fields lie within R322, and whose packet field lies within the packet. -/
def hookShape (x : W32) : Option HookShape :=
  match decodeHook x with
  | some (.hookLdp _ off wid) =>
    if 1 ≤ wid.toNat ∧ wid.toNat ≤ 64 ∧ off.toNat + wid.toNat ≤ 512 then some {} else none
  | some (.hookStp _ off wid) =>
    if 1 ≤ wid.toNat ∧ wid.toNat ≤ 64 ∧ 64 ≤ off.toNat ∧ off.toNat + wid.toNat ≤ 512 then some {} else none
  | some (.hookStq _ sel) => if sel.toNat ≤ 3 then some {} else none
  | some (.hookSkiplt _ _ n) => some { skip := some n.toNat }
  | some (.hookSkipeq _ _ n) => some { skip := some n.toNat }
  | some (.hookRep cnt len) => if 1 ≤ cnt.toNat ∧ cnt.toNat ≤ 16 then some { body := some len.toNat } else none
  | some .hookAccept => some { ends := true }
  | some (.hookReject _) => some { ends := true }
  | some _ => some {}
  | none => none

/-- Word `i` of a program passes verification, given the shapes of all. -/
def hookWordOk (l : List (Option HookShape)) (i : Nat) : Bool :=
  let n := l.length
  let bodies := (l.zipIdx).filterMap (fun x => (x.1.bind (·.body)).map (fun b => (x.2 + 1, x.2 + 1 + b)))
  let inside := fun (b : Nat × Nat) (j : Nat) => decide (b.1 ≤ j ∧ j < b.2)
  match l[i]?.getD none with
  | none => false
  | some x =>
    (match x.skip with
     | none => true
     | some k => decide (i + 1 + k < n) && bodies.all (fun b => inside b i == inside b (i + 1 + k))) &&
    (match x.body with
     | none => true
     | some k => decide (i + 1 + k ≤ n) && !(bodies.any (fun b => b.1 - 1 ≠ i && inside (i + 1, i + 1 + k) (b.1 - 1)))) &&
    (i + 1 ≠ n || x.ends)

/-- The first failing word of a hook image; none where it is accepted (R323). -/
def hookFails (words : List W32) : Option Nat :=
  let l := words.map hookShape
  (List.range words.length).find? (fun i => !hookWordOk l i)

end Sys2Proof.Machine
end

