-- ==== Sys2Proof/Machine/Commands.lean ====
section
/-! DEFINITION. The commands that need no weir and no encode engine (R316, R318 to R320), with the events that end COPY,
FILL, WAIT, CKPT and SCANT. -/

namespace Sys2Proof.Machine

/-! ## Checks common to commands (R311, R320) -/

/-- The command goes on when its packet keeps its layout (0x0002) and, for a privileged one, its queue is privileged
(0x0003). -/
def CmdCtx.checked (c : CmdCtx) (layout priv : Bool) (f : CmdCtx → State → State) (s : State) : State :=
  if !layout then c.done { status := 2 } s
  else if priv && !qPriv c.b then c.done { status := 3 } s
  else f c s

/-- The operand read, or the command ended (R416). -/
def CmdCtx.operand (c : CmdCtx) (va n : Nat) (f : List Byte → State → State) (s : State) : State :=
  match cpRead c.asn c.root va n s with
  | (.error e, s) => c.done e.result s
  | (.ok b, s) => f b s

/-- The result written, and the command complete (R319, R416). -/
def CmdCtx.answer (c : CmdCtx) (va : Nat) (data : List Byte) (s : State) : State :=
  match cpWrite c.asn c.root va data s with
  | (some e, s) => c.done e.result s
  | (none, s) => c.done { status := 0 } s

/-! ## LAUNCH (R315, R316) -/

/-- Fields of a launch outside their limits, but for those with a status of their own. -/
def launchLayout (p : BitVec 512) : Bool :=
  bitsListed true [(64, 50), (124, 302)] p &&
  decide (1 ≤ fld p 309 16 ∧ 1 ≤ fld p 325 16 ∧ 1 ≤ fld p 341 16) && decide (1 ≤ fld p 357 6 ∧ fld p 357 6 ≤ 32) &&
  decide (fld p 252 7 ≤ 64 ∧ fld p 243 9 ≤ 256 ∧ fld p 175 17 ≤ 65536) && decide (fld p 410 16 = 0 ∨ 16 ≤ fld p 410 16)

/-- The backwater's exponent and end (R316). -/
def backwaterOk (p : BitVec 512) : Bool :=
  decide (8 ≤ fld p 304 5 ∧ fld p 304 5 ≤ 22 ∧ 4096 * fld p 259 45 + 64 * 2 ^ fld p 304 5 ≤ 2 ^ 57)

/-- The status of the handle a launch names; none where it stands (R38, R40). -/
def handleStatus (s : State) (h asn : Nat) : Option Nat :=
  if h = 0 then none
  else
    match lookup h s.handles with
    | none => some 0x13
    | some x => if x.asn ≠ asn then some 0x13 else if x.unpinning then some 0x14 else none

/-- Some region of an image is malformed beside the others (R338). -/
def regionsMalformed (l : List (Nat × BitVec 256)) : Bool :=
  l.any (fun r => rgValid r.2 && regionMalformed ((l.filter (fun q => q.1 ≠ r.1)).map (·.2)) r.2)

/-- What LAUNCH checks of its header and image, and the launch queued for a context (R316). -/
def launchImage (hdr : BitVec 512) (c : CmdCtx) (image : List Byte) (s : State) : State :=
  if (imageTensors c.p image).any (fun t => tnValid t.2 && tnMalformed t.2) then c.done { status := 0x11 } s
  else if regionsMalformed (imageRegions c.p image) then c.done { status := 0x12 } s
  else
    match handleStatus s (pkRhnd c.p) c.asn with
    | some st => c.done { status := st } s
    | none =>
      if !placeable hdr (c.f 357 6) then c.done { status := 0x15 } s else c.begin (.launching hdr image) s

/-- LAUNCH (R316): the checks in order, the first that fails completing it. -/
def launchOn (c : CmdCtx) (s : State) : State :=
  if !launchLayout c.p then c.done { status := 2 } s
  else if !backwaterOk c.p then c.done { status := 0x16 } s
  else if qCmax c.b < c.f 363 3 then c.done { status := 0x17 } s
  else
    match launchRead c.asn c.root (128 * c.f 64 50) 64 s with
    | (.error e, s) => c.done e.result s
    | (.ok h, s) =>
      let hdr : BitVec 512 := leBits 512 h
      if hdrMalformed hdr then c.done { status := 0x10 } s
      else
        match launchRead c.asn c.root (64 * c.f 192 51) (64 * c.f 243 9 + 32 * c.f 252 7) s with
        | (.error e, s) => c.done e.result s
        | (.ok image, s) => launchImage hdr c image s
def execLaunch (p : Packet) (s : State) : Host.Outcome State Fault Refusal := command p launchOn s

/-! ## TASKQ (R300, R319) -/

/-- A launch of a queue by its tag, in a context. -/
def launchOfTag (s : State) (q tag : Nat) : Option (Nat × Launch) :=
  s.launches.find? (fun l => l.2.queue = q && pkTag l.2.pkt = tag && l.2.kill.isNone)

def taskqOn (c : CmdCtx) (s : State) : State :=
  c.checked (bitsListed false [(64, 51), (128, 32)] c.p) false (fun c s =>
    match launchOfTag s c.q (c.f 128 32) with
    | none => c.done { status := 0x3C } s
    | some l =>
      let a := 64 * c.f 64 51
      match cpPlaces c.asn c.root a 64 true s with
      | (.error e, s) => c.done e.result s
      | (.ok ps, s) =>
        if ps.any (fun x => isPoisoned s x.2.1 x.1) then c.done { status := 0x22, det := 7 } s
        else
          match ps with
          | x :: _ => c.done { status := 0 } (linkTask l.1 a x.2.1 s)
          | [] => s) s
def execTaskq (p : Packet) (s : State) : Host.Outcome State Fault Refusal := command p taskqOn s

/-! ## COPY and FILL (R59, R319) -/

/-- The handle of a vault side is missing, not pinned or another space's. -/
def vaultSideBad (s : State) (h asn : Nat) : Bool :=
  match lookup h s.handles with | some x => decide (x.asn ≠ asn) || h = 0 | none => true

/-- The copy engine that carries a command out: firmware's choice (R59, log 23). -/
def beginCopy (c : CmdCtx) (x : Copy) (s : State) : State :=
  let s1 := c.begin (.copying s.nextCopy) s
  { s1 with copies := put s.nextCopy { x with owner := .command s.nextCmd, rpld := qRpld c.b,
                                              core := (Config.freeWord s.free).toNat % 256 } s1.copies,
            nextCopy := s.nextCopy + 1, free := s.free + 1 }

def copyOn (c : CmdCtx) (s : State) : State :=
  let ok := bitsListed false [(64, 59), (128, 59), (192, 24), (216, 12)] c.p && decide (c.f 121 2 ≤ 1 ∧ c.f 185 2 ≤ 1) &&
    decide (c.f 64 57 % 128 = 0 ∧ c.f 128 57 % 128 = 0 ∧ 1 ≤ c.f 192 24)
  c.checked ok false (fun c s =>
    if (c.f 121 2 = 1 ∨ c.f 185 2 = 1) ∧ vaultSideBad s (c.f 216 12) c.asn then c.done { status := 0x13 } s
    else
      beginCopy c { owner := .command 0, core := 0, asn := c.asn, root := c.root, rhnd := c.f 216 12, fromSp := c.f 121 2,
                    toSp := c.f 185 2,
                    lines := (List.range (c.f 192 24)).map (fun i => (c.f 64 57 + 128 * i, c.f 128 57 + 128 * i)) } s) s
def execCopy (p : Packet) (s : State) : Host.Outcome State Fault Refusal := command p copyOn s

def fillOn (c : CmdCtx) (s : State) : State :=
  let ok := bitsListed false [(64, 59), (128, 24), (152, 12), (192, 64)] c.p && decide (c.f 121 2 ≤ 1) &&
    decide (c.f 64 57 % 128 = 0 ∧ 1 ≤ c.f 128 24)
  c.checked ok false (fun c s =>
    if c.f 121 2 = 1 ∧ vaultSideBad s (c.f 152 12) c.asn then c.done { status := 0x13 } s
    else
      beginCopy c { owner := .command 0, core := 0, asn := c.asn, root := c.root, rhnd := c.f 152 12, fromSp := 0,
                    toSp := c.f 121 2, fill := some (BitVec.ofNat 64 (c.f 192 64)),
                    lines := (List.range (c.f 128 24)).map (fun i => (0, c.f 64 57 + 128 * i)) } s) s
def execFill (p : Packet) (s : State) : Host.Outcome State Fault Refusal := command p fillOn s

/-- COPY_COMPLETE (R53, R55, R312, R319): every line is performed; the tag is ready, or the command completes. One that ended
early has its lines that landed performed too, before its completion (R312). -/
def copyComplete (id : Nat) (s : State) : State :=
  match lookup id s.copies with
  | none => s
  | some c =>
    match c.owner with
    | .gang _ _ => copyReady id s
    | .command cmd =>
      match c.ended with
      | some (st, det, item) =>
        finishCmd cmd { status := st, det := det, item := item } { performCopy id s with copies := erase id s.copies }
      | none =>
        if !c.lines.isEmpty || c.dead then s
        else finishCmd cmd { status := 0 } { performCopy id s with copies := erase id s.copies }
def execCopyComplete (copy : Nat) (s : State) : Host.Outcome State Fault Refusal := .next (copyComplete copy s)

/-! ## SIGNAL and WAIT (R319) -/

/-- The place of a command's flag, or the command ended (R416). -/
def CmdCtx.flagPlace (c : CmdCtx) (write reads : Bool) (f : Place → State → State) (s : State) : State :=
  match cpPlaces c.asn c.root (c.f 64 57) 8 write s with
  | (.error e, s) => c.done e.result s
  | (.ok [], s) => s
  | (.ok (x :: _), s) => if reads && isPoisoned s x.2.1 8 then c.done { status := 0x22, det := 7 } s else f x.2.1 s

/-- SIGNAL is a release of every path at system scope (R319, R348). -/
def signalOn (c : CmdCtx) (s : State) : State :=
  c.checked (bitsListed false [(64, 58), (128, 64)] c.p && decide (c.f 64 57 % 8 = 0)) false (fun c s =>
    let v := BitVec.ofNat 64 (c.f 128 64)
    c.flagPlace true (c.f 121 1 = 1) (fun p s =>
      let s := performAll s
      c.done { status := 0 } (if c.f 121 1 = 1 then (rmw64 p (fun x => x + v) s).2 else writePlace p (leBytes 8 v.toNat) s)) s) s
def execSignal (p : Packet) (s : State) : Host.Outcome State Fault Refusal := command p signalOn s

def waitOn (c : CmdCtx) (s : State) : State :=
  c.checked (bitsListed false [(64, 59), (128, 64), (192, 32)] c.p && decide (c.f 121 2 ≤ 2 ∧ c.f 64 57 % 8 = 0)) false
    (fun c s =>
      let v := BitVec.ofNat 64 (c.f 128 64)
      c.flagPlace false true (fun p s => c.begin (.waiting p (c.f 121 2) v (flagHolds (c.f 121 2) (read64 s p) v)) s) s) s
def execWait (p : Packet) (s : State) : Host.Outcome State Fault Refusal := command p waitOn s

/-- WAIT_CONDITION_MET (R319): an acquire of every path (R348); a flag that holds an uncorrectable error ends the command
(R385, R416). -/
def waitConditionMet (cmd : Nat) (s : State) : State :=
  match lookup cmd s.cmds with
  | some c =>
    (match c.work with
     | .waiting _ _ _ true => finishCmd cmd { status := 0 } (acquireAll s)
     | .waiting p _ _ false =>
       if !s.away c.asn c.root (fld c.pkt 64 57) && isPoisoned s p 8 then finishCmd cmd { status := 0x22, det := 7 } s else s
     | _ => s)
  | none => s
def execWaitConditionMet (cmd : Nat) (s : State) : Host.Outcome State Fault Refusal := .next (waitConditionMet cmd s)

/-- WAIT_TIMEOUT (R319): the timeout of an unmet WAIT has passed. -/
def waitTimeout (cmd : Nat) (s : State) : State :=
  match lookup cmd s.cmds with
  | some c =>
    (match c.work with
     | .waiting _ _ _ false =>
       let t := fld c.pkt 192 32
       if t ≠ 0 ∧ c.since + 1000 * t ≤ s.clock then finishCmd cmd { status := 0x3B } s else s
     | _ => s)
  | none => s
def execWaitTimeout (cmd : Nat) (s : State) : Host.Outcome State Fault Refusal := .next (waitTimeout cmd s)

/-! ## MAP (R27) -/

/-- Translations, and the lines held under them, of a range of an address space are gone; runs in flight there are
abandoned and start again (R27, R98, log 25). -/
def invalidate (asn lo hi : Nat) (s : State) : State :=
  let out := fun (e : TlbEntry) => !(decide (e.asn = asn ∧ e.base < hi ∧ lo < e.base + e.size))
  let line := fun (k : Nat × Nat × Nat) => !(decide (k.2.1 = asn ∧ 128 * k.2.2 < hi ∧ lo < 128 * k.2.2 + 128))
  { s with coreTlb := s.coreTlb.filter (fun x => out x.2), dieTlb := s.dieTlb.filter (fun x => out x.2),
           l1 := s.l1.filter (fun x => line x.1), icache := s.icache.filter (fun x => line x.1),
           warps := s.warps.map (fun w => if (launchOf s w.2).asn = asn then (w.1, { w.2 with run := none }) else w) }

/-- The place an address has under the tables as they stand, if they give it one. -/
def placeAnew (s : State) (root va : Nat) : Option Place :=
  match walkFrom s va false false 3 root [] with
  | .leaf level e seen => ((leafPlace va false .L (tlbOf 0 va level e (seen.head?.getD (0, 0)).1)).toOption).map (·.1)
  | .fail _ _ _ _ => none

/-- The walk that a wait's access makes: one that yields its translation sets A (R25). -/
def walkAnew (root va : Nat) (s : State) : State :=
  match walkFrom s va false false 3 root [] with
  | .leaf _ _ seen => if (placeAnew s root va).isSome then setAccessed false seen s else s
  | .fail _ _ _ _ => s

/-- A place that was translated. -/
def Place.mapped (p : Place) : Bool := match p with | .dev _ => true | .host _ => true | _ => false

/-- A place held for an address of a range, translated again; where the tables give none it is looked at no more. -/
def remap (s : State) (root lo hi va : Nat) (p : Place) : Place :=
  if p.mapped && decide (lo ≤ va ∧ va < hi) then (placeAnew s root va).getD p else p

/-- The address that a parked lane waits on and holds a place for. -/
def waitVa (st : LaneState) : Option Nat :=
  match st with
  | .parked (.flag p va _ _ _ _ _ none) => if p.mapped then some va else none
  | .parked (.join (some p) c _ _ false) => if p.mapped then some c.toNat else none
  | _ => none

/-- The addresses that a warp waits on, those of its trap save too. -/
def Warp.waitVas (w : Warp) : List Nat :=
  (w.lanes.filterMap (fun l => waitVa l.state)) ++
  (match w.handler with | some h => h.lanes.filterMap (fun x => waitVa x.2) | none => [])

/-- Every address of a space that something waits on or holds the place of, with its root table: of warps, on cores and
saved, of holds and tasks, of WAIT commands and weir contexts (R27). -/
def waitsOf (asn : Nat) (s : State) : List (Nat × Nat) :=
  let warp := fun (w : Warp) => let l := launchOf s w
    if l.asn = asn then w.waitVas.map (fun va => (l.root, va)) else []
  s.warps.flatMap (fun w => warp w.2) ++ s.saved.flatMap (fun v => v.2.warps.flatMap (fun w => warp w.2)) ++
  s.savedLoose.flatMap (fun v => warp v.2.warp) ++
  s.launches.flatMap (fun x => if x.2.asn ≠ asn then [] else
    x.2.holds.filterMap (fun h => h.place.bind (fun p => if p.mapped then some (x.2.root, h.addr.toNat) else none)) ++
    x.2.tasks.map (fun t => (x.2.root, t.1))) ++
  s.cmds.filterMap (fun c => match c.2.work with
    | .waiting p _ _ false => if c.2.asn = asn ∧ p.mapped then some (c.2.root, fld c.2.pkt 64 57) else none
    | _ => none) ++
  s.weirs.filterMap (fun w => match w.2.wait with
    | some (.flag p va _ _ false) => if w.2.asn = asn ∧ p.mapped then some (w.2.root, va) else none
    | _ => none)

/-- A parked lane's flag or counter at its new place, and looked at there (R27). -/
def remapLane (s : State) (root lo hi : Nat) (away : Nat → Bool) (st : LaneState) : LaneState :=
  match st with
  | .parked (.flag p va cmp val dst paths scope none) =>
    meetFlagLane s away (.parked (.flag (remap s root lo hi va p) va cmp val dst paths scope none))
  | .parked (.join (some p) c f r false) =>
    retestJoin s away (.parked (.join (some (remap s root lo hi c.toNat p)) c f r false))
  | _ => st

/-- A launch's holds and queued tasks at their new places (R27). -/
def remapLaunch (s : State) (lo hi : Nat) (x : Launch) : Launch :=
  { x with
    holds := x.holds.map (fun h =>
      match h.place with
      | none => h
      | some p =>
        let q := remap s x.root lo hi h.addr.toNat p
        { h with place := some q, ready := h.ready || (!s.away x.asn x.root h.addr.toNat && counterZero s q) }),
    tasks := x.tasks.map (fun t => (t.1, remap s x.root lo hi t.1 t.2)) }

/-- Every wait of an address space for an address of a range, translated again: lanes, on cores and saved, holds, tasks,
WAIT commands and weir contexts (R27). Where the tables give an address no place, its page is noted: nothing looks at the
old place, and the translation is tried again in every clock (log 25). -/
def remapWaits (asn lo hi : Nat) (s : State) : State :=
  let vas := (waitsOf asn s).filter (fun x => decide (lo ≤ x.2 ∧ x.2 < hi))
  let s := vas.foldl (fun s x => walkAnew x.1 x.2 s) s
  let gone := ((vas.filter (fun x => (placeAnew s x.1 x.2).isNone)).map (fun x => (asn, x.1, x.2 / pageBytes))).eraseDups
  let s := { s with unmapped := s.unmapped.filter (fun u =>
    !decide (u.1 = asn ∧ u.2.2 * pageBytes < hi ∧ lo < u.2.2 * pageBytes + pageBytes)) ++ gone }
  let warp := fun (w : Warp) =>
    if (launchOf s w).asn = asn then w.mapStates (remapLane s (launchOf s w).root lo hi (s.awayFor w.launch)) else w
  { s with
    warps := s.warps.map (fun w => (w.1, warp w.2)),
    saved := s.saved.map (fun v => (v.1, { v.2 with warps := v.2.warps.map (fun w => (w.1, warp w.2)) })),
    savedLoose := s.savedLoose.map (fun v => (v.1, { v.2 with warp := warp v.2.warp })),
    launches := s.launches.map (fun x => if x.2.asn = asn then (x.1, remapLaunch s lo hi x.2) else x),
    cmds := s.cmds.map (fun c =>
      match c.2.work with
      | .waiting p cmp val false =>
        if c.2.asn = asn then
          (c.1, meetWait s { c.2 with work := .waiting (remap s c.2.root lo hi (fld c.2.pkt 64 57) p) cmp val false })
        else c
      | _ => c),
    weirs := s.weirs.map (fun w =>
      match w.2.wait with
      | some (.flag p va cmp val false) =>
        if w.2.asn = asn then
          (w.1, meetWeir s { w.2 with wait := some (.flag (remap s w.2.root lo hi va p) va cmp val false) })
        else w
      | _ => w) }

/-- The pages that a MAP found unmapped, tried again: what waits there goes on once the tables give it a place (R25, R27,
log 25). -/
def retryUnmapped (s : State) : State :=
  s.unmapped.foldl (fun s u =>
    let lo := u.2.2 * pageBytes
    let mine := (waitsOf u.1 s).filter (fun x => decide (x.1 = u.2.1 ∧ x.2 / pageBytes = u.2.2))
    if mine.isEmpty || (placeAnew s u.2.1 lo).isSome then remapWaits u.1 lo (lo + pageBytes) s else s) s

/-- The fields of MAP keep their layout. -/
def mapFields (c : CmdCtx) : Bool := bitsListed false [(64, 14), (128, 57), (192, 32)] c.p && decide (c.f 64 2 ≤ 1)

/-- Weir operations and messages that have begun to move bytes of a range (R237). -/
def movingOps (s : State) (asn lo hi : Nat) : List (Nat × Nat) :=
  (s.weirs.filter (fun w => w.2.asn = asn)).flatMap (fun w =>
    (w.2.ops.filter (fun o => o.begun && !o.chunk.inVault &&
      o.chunk.parts.any (fun x => decide (x.2.1 < hi ∧ lo < x.2.1 + x.2.2)))).map (fun o => (w.1, o.id)))
def movingMsgs (s : State) (asn lo hi : Nat) : List (Nat × Nat × Nat) :=
  (s.weirs.filter (fun w => w.2.asn = asn)).flatMap (fun w =>
    (w.2.msgs.filter (fun m => m.begun && !m.asp && decide (m.addr.toNat < hi ∧ lo < m.addr.toNat + m.mlen))).map
      (fun m => (w.1, m.cn, m.seq)))

/-- The invalidation: writes made under the old translations are performed, and it is complete once what moves under them
has moved (R27, R237). -/
def mapOn (c : CmdCtx) (asn lo hi : Nat) (s : State) : State :=
  offerCmds (c.begin (.mapping (movingOps s asn lo hi) (movingMsgs s asn lo hi)) (remapWaits asn lo hi (invalidate asn lo hi (performAll s))))

def mapRangeOn (c : CmdCtx) (s : State) : State :=
  c.checked (mapFields c && decide (c.f 128 57 % pageBytes = 0 ∧ 1 ≤ c.f 192 32)) (c.f 66 12 ≠ c.asn) (fun c s =>
    mapOn c (c.f 66 12) (c.f 128 57) (c.f 128 57 + pageBytes * c.f 192 32) s) s
def execMapInvalidateRange (p : Packet) (s : State) : Host.Outcome State Fault Refusal := command p mapRangeOn s

def mapAllOn (c : CmdCtx) (s : State) : State :=
  c.checked (mapFields c) (c.f 66 12 ≠ c.asn) (fun c s => mapOn c (c.f 66 12) 0 (2 ^ 57) s) s
def execMapInvalidateAll (p : Packet) (s : State) : Host.Outcome State Fault Refusal := command p mapAllOn s

/-! ## PIN and UNPIN (R37 to R40) -/

/-- An extent of a list: vault, first block, count, read-write. -/
def extentOf (x : Nat) : Nat × Nat × Nat × Bool := (x % 256, x / 256 % 128, x / 2 ^ 15 % 128, x / 2 ^ 22 % 2 = 1)

/-- An extent breaks its limits. -/
def extentBad (x : Nat) : Bool :=
  let e := extentOf x
  x / 2 ^ 23 ≠ 0 || e.2.2.1 = 0 || 96 < e.2.2.1 || 95 < e.2.1 || 96 < e.2.1 + e.2.2.1

/-- Two extents share a block. -/
def extentsMeet (a b : Nat × Nat × Nat × Bool) : Bool :=
  decide (a.1 = b.1 ∧ a.2.1 < b.2.1 + b.2.2.1 ∧ b.2.1 < a.2.1 + a.2.2.1)

/-- Two extents of a list share a block. -/
def extentsClash : List (Nat × Nat × Nat × Bool) → Bool
  | [] => false
  | e :: t => t.any (extentsMeet e) || extentsClash t

/-- The words of an operand. -/
def words64 (n : Nat) (l : List Byte) : List Nat := (List.range n).map (fun i => leNat ((l.drop (8 * i)).take 8))

def pinList (c : CmdCtx) (list : List Byte) (s : State) : State :=
  let xs := words64 (c.f 88 7) list
  let es := xs.map extentOf
  if xs.any extentBad || (lookup (c.f 64 12) s.handles).isSome then c.done { status := 0x30 } s
  else if s.handles.any (fun h => h.2.extents.any (fun a => es.any (extentsMeet a))) || extentsClash es then
    c.done { status := 0x31 } s
  else
    let s := es.foldl (fun s e => zeroExtent e s) s
    c.done { status := 0 } { s with handles := put (c.f 64 12) { asn := c.f 76 12, extents := es } s.handles }
def pinOn (c : CmdCtx) (s : State) : State :=
  let ok := bitsListed false [(64, 31), (128, 57)] c.p && decide (c.f 64 12 ≠ 0 ∧ 1 ≤ c.f 88 7 ∧ c.f 88 7 ≤ 64)
  c.checked ok true (fun c s => c.operand (c.f 128 57) (8 * c.f 88 7) (pinList c) s) s
def execPin (p : Packet) (s : State) : Host.Outcome State Fault Refusal := command p pinOn s

def unpinOn (c : CmdCtx) (s : State) : State :=
  c.checked (bitsListed false [(64, 12)] c.p) true (fun c s =>
    match lookup (c.f 64 12) s.handles with
    | none => c.done { status := 0x32 } s
    | some h =>
      offerCmds (c.begin (.unpinning (c.f 64 12))
        { s with handles := put (c.f 64 12) { h with unpinning := true } s.handles })) s
def execUnpin (p : Packet) (s : State) : Host.Outcome State Fault Refusal := command p unpinOn s

/-! ## HOOKLD (R319, R323) -/

/-- The hook of a queue removed, or installed with its words: HOOK names firmware's copy, whose address is its own (log 4). -/
def installHook (q : Nat) (words : List W32) (hw : BitVec 128) (s : State) : State :=
  let s := { s with hookStore := if words.isEmpty then erase q s.hookStore else put q words s.hookStore,
                    free := s.free + 1 }
  modQcb q (fun b => setFld (setFld (setFld b 125 1 (if words.isEmpty then 0 else 1)) 384 128 hw.toNat) 198 34
    (Config.freeWord (s.free - 1)).toNat) s

def hookldOn (c : CmdCtx) (s : State) : State :=
  let ok := bitsListed false [(64, 57), (128, 28), (256, 128)] c.p && decide (c.f 64 57 % 64 = 0 ∧ c.f 148 8 ≤ 128)
  c.checked ok true (fun c s =>
    let hw := BitVec.ofNat 128 (c.f 256 128)
    if c.f 148 8 = 0 then c.done { status := 0 } (installHook (c.f 128 20) [] hw s)
    else
      c.operand (c.f 64 57) (4 * c.f 148 8) (fun l s =>
        let words := (List.range (c.f 148 8)).map (fun i => (leBits 32 ((l.drop (4 * i)).take 4) : W32))
        match hookFails words with
        | some i => c.done { status := 0x33, det := i } s
        | none => c.done { status := 0 } (installHook (c.f 128 20) words hw s)) s) s
def execHookld (p : Packet) (s : State) : Host.Outcome State Fault Refusal := command p hookldOn s

/-! ## QUERY of the clock and of a block (R319) -/

/-- The fields of QUERY keep their layout. -/
def queryFields (c : CmdCtx) : Bool :=
  bitsListed false [(64, 38), (128, 57), (192, 64)] c.p && decide (c.f 64 4 ≤ 4 ∧ c.f 128 57 % 64 = 0)

def queryClknowOn (c : CmdCtx) (s : State) : State :=
  c.checked (queryFields c) true (fun c s => c.answer (c.f 128 57) (leBytes 8 s.clock) s) s
def execQueryClknow (p : Packet) (s : State) : Host.Outcome State Fault Refusal := command p queryClknowOn s

/-- The block that QUERY would show has an uncorrectable error (R384, R385). -/
def qcbBroken (s : State) (q : Nat) : Bool :=
  (segEntry s q).isSome && (match lookup q s.eddy with | some e => e.bad | none => qcbPoisoned s q)

def queryQcbOn (c : CmdCtx) (s : State) : State :=
  c.checked (queryFields c) true (fun c s =>
    if qcbBroken s (c.f 82 20) then c.done { status := 0x22, det := 7 } s
    else c.answer (c.f 128 57) (leBytes 64 (qcbShown s (c.f 82 20)).toNat) s) s
def execQueryQcb (p : Packet) (s : State) : Host.Outcome State Fault Refusal := command p queryQcbOn s

/-! ## PREEMPT (R319, R375) -/

/-- The launch a PREEMPT names, or the command ended. -/
def preempt (f : CmdCtx → Nat → Launch → State → State) (c : CmdCtx) (s : State) : State :=
  c.checked (bitsListed false [(64, 22), (96, 32)] c.p && decide (c.f 84 2 ≤ 2)) (c.f 64 20 ≠ c.q) (fun c s =>
    match launchOfTag s (c.f 64 20) (c.f 96 32) with
    | none => c.done { status := 0x3C } s
    | some l => f c l.1 l.2 s) s

def preemptSwitchOutOn (c : CmdCtx) (s : State) : State :=
  preempt (fun c key l s =>
    if l.held then c.done { status := 0 } s
    else offerCmds (c.begin (.switching key) (modLaunch key (fun l => { l with held := true }) s))) c s
def execPreemptSwitchOut (p : Packet) (s : State) : Host.Outcome State Fault Refusal := command p preemptSwitchOutOn s

def preemptResumeOn (c : CmdCtx) (s : State) : State :=
  preempt (fun c key l s =>
    c.done { status := 0 } (if l.held then rouse key false (modLaunch key (fun l => { l with held := false }) s) else s)) c s
def execPreemptResume (p : Packet) (s : State) : Host.Outcome State Fault Refusal := command p preemptResumeOn s

def preemptKillOn (c : CmdCtx) (s : State) : State :=
  preempt (fun c key _ s => c.done { status := 0 } (killLaunch key 0x27 allOnes64 0 s)) c s
def execPreemptKill (p : Packet) (s : State) : Host.Outcome State Fault Refusal := command p preemptKillOn s

/-! ## CKPT (R247, R319, R396) -/

/-- A weir context that refuses a checkpoint: Running, Waiting, Faulted or Stopped (R247). -/
def weirBusy (s : State) : Bool :=
  s.weirs.any (fun w => w.2.state = .running || w.2.state = .waiting || w.2.state = .faulted || w.2.state = .stopped)

/-- A checkpoint is refused, or waits until no launch is placed. -/
def checkpoint (c : CmdCtx) (s : State) : State :=
  c.checked (bitsListed false [(64, 1), (76, 52)] c.p && decide (c.f 76 52 % 4096 = 0)) true (fun c s =>
    if weirBusy s || !s.saved.isEmpty || !s.savedLoose.isEmpty then c.done { status := 0x38 } s
    else offerCmds (c.begin (.checkpoint false) s)) s
def ckptSaveOn (c : CmdCtx) (s : State) : State := checkpoint c s
def ckptRestoreOn (c : CmdCtx) (s : State) : State := checkpoint c s
def execCkptSave (p : Packet) (s : State) : Host.Outcome State Fault Refusal := command p ckptSaveOn s
def execCkptRestore (p : Packet) (s : State) : Host.Outcome State Fault Refusal := command p ckptRestoreOn s

/-- The header of a checkpoint of this package: its ROM version and its fuse configuration, and bytes the spec does not give
(R396, log 26). -/
def ckptHeaderBytes : List Byte :=
  leBytes 4 Config.romVersion.toNat ++ leBytes 32 Config.fuseConfig.toNat ++ (List.range 4060).map Config.ckptHeader

/-- A header is of another ROM version or fuse configuration (R396). -/
def ckptForeign (h : List Byte) : Bool := decide (h.take 36 ≠ leBytes 4 Config.romVersion.toNat ++ leBytes 32 Config.fuseConfig.toNat)

/-- Bytes of a vault (R35). -/
def vaultBytes : Nat := 96 * 32768

/-- Where device memory and vault `v` lie in the safe tier (R396). -/
def ckptDev (base : Nat) : Nat := base + 4096
def ckptVault (base v : Nat) : Nat := base + 4096 + dpaLimit + v * vaultBytes

/-- A checkpoint's bytes in the safe tier hold an uncorrectable error. -/
def ckptBroken (base : Nat) (s : State) : Bool := hitsGranule 32 base (4096 + dpaLimit + 256 * vaultBytes) s.badHost

/-- Header, device memory in DPA order, and the 256 vaults in order, written to the safe tier; held host lines go (R317,
R396). -/
def ckptSaved (base : Nat) (s : State) : State :=
  let stop := ckptVault base 256
  let h := (s.host.clear base stop).setBytes base ckptHeaderBytes
  let h := (List.range 256).foldl (fun h v =>
    h.paste (ckptVault base v) (s.vault.slice (v * 2 ^ 22) (v * 2 ^ 22 + vaultBytes))) (h.paste (ckptDev base) s.dev)
  wakeFlags { s with host := h, badHost := s.badHost.filter (fun g => !decide (base ≤ g * 32 ∧ g * 32 + 32 ≤ stop)),
                     launchLines := s.launchLines.filter (fun l => l % 2 = 0 || !decide (base < l / 2 * 128 + 128 ∧ l / 2 * 128 < stop)) }

/-- The same layout read back (R396). -/
def ckptRestored (base : Nat) (s : State) : State :=
  let v := (List.range 256).foldl (fun (m : Mem) v =>
    Mem.paste m (v * 2 ^ 22) (s.host.slice (ckptVault base v) (ckptVault base (v + 1)))) ([] : Mem)
  wakeFlags { s with dev := s.host.slice (ckptDev base) (ckptVault base 0), vault := v, badDev := [], badVault := [],
                     launchLines := [] }

/-- CKPT_TRANSFER_COMPLETE (R396): a header of another ROM version or fuse configuration refuses the restore; an
uncorrectable error in what is read ends the command with 0x0022 and nothing written (R372, log 26). -/
def ckptTransferComplete (cmd : Nat) (s : State) : State :=
  match lookup cmd s.cmds with
  | none => s
  | some c =>
    match c.work with
    | .checkpoint true =>
      let base := fld c.pkt 76 52
      let s := performAll s
      if fld c.pkt 64 1 = 0 then
        (if !s.badDev.isEmpty || !s.badVault.isEmpty then finishCmd cmd { status := 0x22 } s
         else finishCmd cmd { status := 0 } (ckptSaved base s))
      else if ckptBroken base s then finishCmd cmd { status := 0x22 } s
      else if ckptForeign (s.host.bytes base 4096) then finishCmd cmd { status := 0x38 } s
      else finishCmd cmd { status := 0 } (ckptRestored base s)
    | _ => s
def execCkptTransferComplete (cmd : Nat) (s : State) : Host.Outcome State Fault Refusal :=
  .next (ckptTransferComplete cmd s)

/-! ## SCANT (R392) -/

def scantOn (c : CmdCtx) (s : State) : State :=
  c.checked (bitsListed false [(64, 8)] c.p) true (fun c s =>
    offerCmds (c.begin (.scanning (c.f 64 8) false) { s with scanning := insertNat (c.f 64 8) s.scanning })) s
def execScant (p : Packet) (s : State) : Host.Outcome State Fault Refusal := command p scantOn s

/-- SCAN_COMPLETE (R7, R392): a core whose signature differs leaves the logical core map; another SCANT of the core keeps
it held. -/
def scanComplete (core : Nat) (good : Bool) (s : State) : State :=
  match s.cmds.find? (fun c => c.2.work = .scanning core true) with
  | none => s
  | some c =>
    let other := s.cmds.any (fun d => d.1 ≠ c.1 && (match d.2.work with | .scanning k _ => decide (k = core) | _ => false))
    let s := if other then s else { s with scanning := s.scanning.filter (fun x => x ≠ core) }
    if good then finishCmd c.1 { status := 0 } s
    else finishCmd c.1 { status := 0x3A } { s with coresOut := insertNat core s.coresOut }
def execScanComplete (core : Nat) (good : Bool) (s : State) : Host.Outcome State Fault Refusal :=
  .next (scanComplete core good s)

/-! ## CAPTURE (R319, R393) -/

/-- The fields of CAPTURE keep their layout. -/
def captureFields (c : CmdCtx) : Bool :=
  bitsListed false [(64, 22), (128, 57), (192, 32)] c.p && decide (c.f 84 2 ≤ 1)

def captureStartOn (c : CmdCtx) (s : State) : State :=
  c.checked (captureFields c && decide (1 ≤ c.f 192 32)) true (fun c s =>
    let q := c.f 64 20
    let s := stopCapture q { status := 0 } s
    match cpWrite c.asn c.root (c.f 128 57) (leBytes 8 64 ++ leBytes 8 0) s with
    | (some e, s) => c.done e.result s
    | (none, s) =>
      c.begin (.capturing q)
        { s with captures := put q { buf := c.f 128 57, len := 4096 * c.f 192 32, asn := c.asn, root := c.root } s.captures }) s
def execCaptureStart (p : Packet) (s : State) : Host.Outcome State Fault Refusal := command p captureStartOn s

def captureStopOn (c : CmdCtx) (s : State) : State :=
  c.checked (captureFields c) true (fun c s => c.done { status := 0 } (stopCapture (c.f 64 20) { status := 0 } s)) s
def execCaptureStop (p : Packet) (s : State) : Host.Outcome State Fault Refusal := command p captureStopOn s

/-! ## An unlisted command (R313) -/

def unlistedOn (c : CmdCtx) (s : State) : State := c.done { status := 1 } s
def execUnlistedCommand (p : Packet) (s : State) : Host.Outcome State Fault Refusal := command p unlistedOn s

end Sys2Proof.Machine
end

