-- ==== Sys2Proof/Machine/Control.lean ====
section
/-! DEFINITION. Control and system instructions (R103, R262 to R267): at issue each leaves its terminal effect with the
operands it read; the effect itself is the function named after it, performed at commit (R97). -/

namespace Sys2Proof.Machine

/-- NOP (R103). -/
def nopEff (_ : Ctx) : Eff := {}
def execNop (w : Word) (s : State) : Host.Outcome State Fault Refusal := simtP 0x00 w nopEff s

/-- A terminal effect with nothing read. -/
def bareTerm (c : Ctx) : Eff := { term := some c.pend }

/-- A terminal effect with operand A read in each lane. -/
def termA (c : Ctx) : Eff := { term := some { c.pend with addr := c.act.map (fun l => (l, c.a 1 l)) } }

/-- BRA (R263). -/
def execBra (w : Word) (s : State) : Host.Outcome State Fault Refusal := simtP 0x01 w bareTerm s
/-- The target of BRA and CALL. -/
def Fin.relative (f : Fin) : Nat := wrap 64 ((f.at : Int) + sx 32 f.p.w.ext.toNat)
def braEnd (f : Fin) (s : State) : State :=
  modWarp f.key (fun w => w.setLpcs (f.p.lanes.map (fun l => (l, f.relative)))) s

/-- BRX (R263). -/
def execBrx (w : Word) (s : State) : Host.Outcome State Fault Refusal := simtP 0x02 w termA s
def brxEnd (f : Fin) (s : State) : State :=
  modWarp f.key (fun w => w.setLpcs (f.p.addr.map (fun x => (x.1, w.hdrAt + x.2)))) s

/-- CALL (R263). -/
def execCall (w : Word) (s : State) : Host.Outcome State Fault Refusal := simtP 0x03 w bareTerm s
def callEnd (f : Fin) (s : State) : State :=
  modWarp f.key (fun w =>
    (f.dst 1 (f.p.lanes.map (fun l => (l, wrap 32 ((f.after : Int) - w.hdrAt))))).foldl archWrite
      (w.setLpcs (f.p.lanes.map (fun l => (l, f.relative))))) s

/-- RET (R263). -/
def execRet (w : Word) (s : State) : Host.Outcome State Fault Refusal := simtP 0x04 w termA s
def retEnd (f : Fin) (s : State) : State :=
  modWarp f.key (fun w => w.setLpcs (f.p.addr.map (fun x => (x.1, w.hdrAt + x.2)))) s

/-- EXIT: a loose warp's join counters are translated for writing before the run commits (R264). -/
def exitEff (c : Ctx) (s : State) : Eff × State :=
  if c.wp.gang.isSome then (bareTerm c, s)
  else
    let js := (c.act.map (fun l => (l, (c.wp.lane l).join.toNat))).filter (fun x => x.2 ≠ 0)
    let r := translateLanes c true .L js s
    ({ term := some { c.pend with addr := js, place := r.1.1.map (fun x => (x.1, x.2.1)) }, faults := r.1.2,
       ue := if r.1.1.any (fun x => isPoisoned r.2 x.2.1 8) then some 0 else none }, r.2)
def execExit (w : Word) (s : State) : Host.Outcome State Fault Refusal := simt 0x05 w exitEff s
/-- Each counter goes down by the lanes that name it, and the lanes are Exited (R264, R288). -/
def exitEnd (f : Fin) (s : State) : State :=
  let s := if f.p.place.isEmpty then s else countLanes f.key false f.p.addr f.p.place s
  modWarp f.key (exitLanes s.clock f.p.lanes) s

/-- YIELD (R258). -/
def execYield (w : Word) (s : State) : Host.Outcome State Fault Refusal := simtP 0x06 w bareTerm s
def yieldEnd (f : Fin) (s : State) : State :=
  if f.p.lanes.isEmpty then s
  else modWarp f.key (fun w => { w.setStates f.p.lanes .yielding with readySince := s.clock }) s

/-- The cause a run enters after its commit (R266, R364). -/
def postCause (f : Fin) (code detail : Nat) (w : Warp) : Warp :=
  if f.p.lanes.isEmpty then w
  else
    { w with post := w.post ++ [(f.run.addr,
        { off := f.p.off, code := code, detail := detail, lanes := maskOf f.p.lanes,
          tdst := tdstOf f.p.op f.p.w (hdrRegs w.hdr) })] }

/-- TRAP (R266). -/
def execTrap (w : Word) (s : State) : Host.Outcome State Fault Refusal := simtP 0x07 w bareTerm s
def trapEnd (f : Fin) (s : State) : State := modWarp f.key (postCause f 2 f.p.w.c.toNat) s

/-- BPT (R266, R383). -/
def execBpt (w : Word) (s : State) : Host.Outcome State Fault Refusal := simtP 0x08 w bareTerm s
def bptEnd (f : Fin) (s : State) : State := modWarp f.key (postCause f 3 f.p.w.c.toNat) s

/-- TRET (R267, R368). Outside the handler the run is refused as illegal before it issues (RUN_ISSUE). -/
def execTret (w : Word) (s : State) : Host.Outcome State Fault Refusal := simtP 0x09 w bareTerm s
def tretEnd (f : Fin) (s : State) : State :=
  if f.p.lanes.isEmpty then s else modWarp f.key (trapReturn s.clock f.p.w.sop.toNat) s

/-- SLEEP (R265). -/
def sleepEff (c : Ctx) : Eff := { term := some { c.pend with b := c.act.map (fun l => (l, BitVec.ofNat 128 (c.b 1 1 l))) } }
def execSleep (w : Word) (s : State) : Host.Outcome State Fault Refusal := simtP 0x0A w sleepEff s
/-- Each lane with a nonzero count parks until its wake clock. -/
def sleepEnd (f : Fin) (s : State) : State :=
  let now := dieClock s (dieOfCore (coreOfWarp f.key))
  f.p.b.foldl (fun s x => if x.2 = 0 then s else parkLanes f.key [x.1] (.sleep (now + x.2.toNat)) s) s

end Sys2Proof.Machine
end

