-- ==== Sys2Proof/Machine/Weir.lean ====
section
/-! DEFINITION. The weirs' sequencers: contexts (R216, R217), chunks (R219 to R221), the weir instructions (R222 to R228)
and the commands that load and look at contexts (R240 to R244). -/

namespace Sys2Proof.Machine

/-! ## Contexts (R213, R216, R217) -/

/-- A weir context; one never loaded is Empty. -/
def weirOf (s : State) (c : Nat) : WeirCtx := lookupD c {} s.weirs

def modWeir (c : Nat) (f : WeirCtx → WeirCtx) (s : State) : State := { s with weirs := put c (f (weirOf s c)) s.weirs }

/-- The die of a context's rill (R7). -/
def dieOfCtx (c : Nat) : Nat := dieOfRill (c / 4)

def WeirCtx.reg (x : WeirCtx) (r : BitVec 4) : W64 := lookupD r.toNat 0 x.w

/-- A `w` or `d` register written; an error it held goes with the old value (R384). -/
def WeirCtx.setW (x : WeirCtx) (n : Nat) (v : W64) : WeirCtx :=
  { x with w := put n v x.w, bad := x.bad.filter (fun b => b ≠ 4096 + n) }
def WeirCtx.setD (x : WeirCtx) (n : Nat) (v : BitVec 256) : WeirCtx :=
  { x with d := put n v x.d, bad := x.bad.filter (fun b => b ≠ 8192 + n) }

/-- A connection's entry (R213). -/
def WeirCtx.conn (x : WeirCtx) (n : Nat) : BitVec 64 := x.conns.getD n 0
def cnValid (e : BitVec 64) : Bool := fld e 18 1 = 1
def cnFmask (e : BitVec 64) : Nat := fld e 32 16
/-- Package, rill and context a connection names. -/
def cnRemote (e : BitVec 64) : Nat × Nat × Nat := (fld e 0 12, fld e 12 4, fld e 16 2)

/-- The address space and rights of a context (R216). -/
def WeirCtx.space (x : WeirCtx) : Space := { asn := x.asn, root := x.root, rpld := x.rpld, rhnd := x.rhnd }

/-- Entry `n` of a context's tensor table; all zero beyond its image (R243). -/
def WeirCtx.tensor (x : WeirCtx) (n : Nat) : TEntry := lookupD n 0 x.tensors

/-- The slot the context stands at, as an instruction; none where it fails with cause illegal instruction (R224). -/
def WeirCtx.instr (x : WeirCtx) : Option Instr :=
  match x.slots[x.pc]? with
  | none => none
  | some w =>
    match decodeWeir w with
    | some (.dsel v) => if v.imm.toNat < x.tpls.length then some (.dsel v) else none
    | i => i

/-- Registers, connections and templates that an instruction reads, numbered as `WeirCtx.bad` numbers them (R225 to R228). -/
def weirReads (i : Instr) : List Nat :=
  let conn := fun (w : WeirWord) => 12288 + w.cn.toNat
  let two := fun (w : WeirWord) => [4096 + w.wa.toNat, 4096 + w.wb.toNat]
  let chunk := fun (w : WeirWord) => [4096 + w.wa.toNat, 8192 + w.ds.toNat]
  match i with
  | .weirAdd w => two w
  | .weirAddm w => two w
  | .weirSub w => two w
  | .weirMul w => two w
  | .weirAnd w => two w
  | .weirBeq w => two w
  | .weirBne w => two w
  | .weirWaitf w => two w
  | .weirSigf w => two w
  | .ratm w => conn w :: two w
  | .weirAddi w => [4096 + w.wa.toNat]
  | .weirShl w => [4096 + w.wa.toNat]
  | .dsel w => [4096 + w.wa.toNat, 16384 + w.imm.toNat]
  | .weirLoop w => [4096 + w.wd.toNat]
  | .xmit w => conn w :: chunk w
  | .recv w => conn w :: chunk w
  | .rcmb w => conn w :: chunk w
  | .rcfw w => (12288 + w.wd.toNat) :: conn w :: chunk w
  | .rput w => (4096 + w.wb.toNat) :: conn w :: chunk w
  | .rget w => (4096 + w.wb.toNat) :: conn w :: chunk w
  | _ => []

/-- The slot the context stands at, or a register, connection or template its instruction reads, has an uncorrectable error (R372, R384). -/
def WeirCtx.badNow (x : WeirCtx) : Bool :=
  x.bad.contains x.pc || (match x.instr with | some i => (weirReads i).any (fun r => x.bad.contains r) | none => false)

/-- The context is at an enabled breakpoint (R240, R242). -/
def WeirCtx.atBreak (x : WeirCtx) : Bool :=
  (x.wdbg.getLsbD 11 && decide (fld x.wdbg 0 11 = x.pc)) || (x.wdbg.getLsbD 23 && decide (fld x.wdbg 12 11 = x.pc))

/-- The context fails (R238), and a MAP waiting for its operations may complete (R237). -/
def failCtx (c cause : Nat) (s : State) : State := offerCmds (failWeir c cause s)

/-- The instruction in hand is complete and the context goes on at `pc`; with STEP set it stops there (R225, R242). -/
def weirGo (c pc : Nat) (s : State) : State :=
  modWeir c (fun x => { x with pc := pc, passing := false, faultRuns := [], wait := none,
                               state := if x.wdbg.getLsbD 24 then .stopped else .running }) s

/-- The context waits in the middle of its instruction, which it executes again when the wait ends (R217). -/
def weirWait (c : Nat) (why : WeirWait) (s : State) : State :=
  modWeir c (fun x => { x with state := .waiting, wait := some why, passing := true }) s

/-- A fault of a context (R30, R235, R236): the key it waits on, and the faults counted. -/
def weirFault (c : Nat) (runs : List (Nat × Nat)) (f : AccFault) (s : State) : (Nat × List (Nat × Nat)) × State :=
  let runs := countFaults [f.va / pageBytes] runs
  let r := raiseFault (.weir c) (weirOf s c).asn (c / 4) 0 (c % 4) (dieClock s (dieOfCtx c)) f
    (sixteenth runs (f.va / pageBytes)) s
  ((r.1, runs), offerCmds r.2)

/-- A fault at an instruction leaves the context Faulted there, unless firmware has already failed it (R235). -/
def faultInstr (c : Nat) (f : AccFault) (s : State) : State :=
  let r := weirFault c (weirOf s c).faultRuns f s
  if (weirOf r.2 c).state = .failed then r.2
  else modWeir c (fun x => { x with state := .faulted, faultWait := some r.1.1, faultRuns := r.1.2, passing := true }) r.2

/-- One weir instruction: the context in focus executes it. -/
def weirInstr (f : Nat → WeirCtx → State → State) (s : State) : Host.Outcome State Fault Refusal :=
  match s.focus with
  | .weir c => if (weirOf s c).state = .running then .next (f c (weirOf s c) s) else .fault .notIssuing
  | _ => .fault .noAgent

/-! ## Register and control instructions (R225) -/

/-- wD takes a value. -/
def weirSet (w : WeirWord) (f : WeirCtx → W64) : State → Host.Outcome State Fault Refusal :=
  weirInstr (fun c x s => weirGo c (x.pc + 1) (modWeir c (fun y => y.setW w.wd.toNat (f x)) s))

/-- The immediate, sign-extended. -/
def weirImm (w : WeirWord) : W64 := w.imm.signExtend 64

/-- The branch target. -/
def weirTarget (w : WeirWord) : Nat := w.imm.toNat % 2048

def execWeirNop (_w : WeirWord) (s : State) : Host.Outcome State Fault Refusal :=
  weirInstr (fun c x s => weirGo c (x.pc + 1) s) s
def execWeirMovi (w : WeirWord) (s : State) : Host.Outcome State Fault Refusal := weirSet w (fun _ => weirImm w) s
def execWeirAdd (w : WeirWord) (s : State) : Host.Outcome State Fault Refusal :=
  weirSet w (fun x => x.reg w.wa + x.reg w.wb) s
def execWeirAddi (w : WeirWord) (s : State) : Host.Outcome State Fault Refusal :=
  weirSet w (fun x => x.reg w.wa + weirImm w) s
def execWeirAddm (w : WeirWord) (s : State) : Host.Outcome State Fault Refusal :=
  weirSet w (fun x => BitVec.ofNat 64 (((x.reg w.wa).toNat + (x.reg w.wb).toNat) % w.imm.toNat)) s
def execWeirSub (w : WeirWord) (s : State) : Host.Outcome State Fault Refusal :=
  weirSet w (fun x => x.reg w.wa - x.reg w.wb) s
def execWeirMul (w : WeirWord) (s : State) : Host.Outcome State Fault Refusal :=
  weirSet w (fun x => x.reg w.wa * x.reg w.wb) s
def execWeirShl (w : WeirWord) (s : State) : Host.Outcome State Fault Refusal :=
  weirSet w (fun x => x.reg w.wa <<< w.imm.toNat) s
def execWeirAnd (w : WeirWord) (s : State) : Host.Outcome State Fault Refusal :=
  weirSet w (fun x => x.reg w.wa &&& x.reg w.wb) s

def execWeirJmp (w : WeirWord) (s : State) : Host.Outcome State Fault Refusal :=
  weirInstr (fun c _ s => weirGo c (weirTarget w) s) s
def execWeirBeq (w : WeirWord) (s : State) : Host.Outcome State Fault Refusal :=
  weirInstr (fun c x s => weirGo c (if x.reg w.wa = x.reg w.wb then weirTarget w else x.pc + 1) s) s
def execWeirBne (w : WeirWord) (s : State) : Host.Outcome State Fault Refusal :=
  weirInstr (fun c x s => weirGo c (if x.reg w.wa ≠ x.reg w.wb then weirTarget w else x.pc + 1) s) s
def execWeirLoop (w : WeirWord) (s : State) : Host.Outcome State Fault Refusal :=
  weirInstr (fun c x s =>
    let v := x.reg w.wd - 1
    weirGo c (if v ≠ 0 then weirTarget w else x.pc + 1) (modWeir c (fun y => y.setW w.wd.toNat v) s)) s

/-- DSEL: a template with its BASE moved on by wA; a missing template is an illegal word (R224). -/
def execDsel (w : WeirWord) (s : State) : Host.Outcome State Fault Refusal :=
  weirInstr (fun c x s =>
    match x.tpls[w.imm.toNat]? with
    | none => failCtx c 1 s
    | some t =>
      let d := setFld t 0 64 (fld t 0 64 + (x.reg w.wa).toNat)
      weirGo c (x.pc + 1) (modWeir c (fun y => y.setD w.ds.toNat d) s)) s

/-- The context enters Halted, and sends DONE to the root that started it (R246). -/
def haltCtx (c : Nat) (x : WeirCtx) (s : State) : State :=
  let s := modWeir c (fun x => { x with state := .halted, pc := x.pc + 1, passing := false, wait := none }) s
  match x.starter with
  | none => s
  | some r =>
    (routePkt { kind := 0x09, dpkg := r.1, drill := r.2.1, dctx := r.2.2, spkg := s.packageNo, srill := c / 4, sctx := c % 4 } s).2

/-- HALT: Halted once every operation posted has completed. -/
def execWeirHalt (_w : WeirWord) (s : State) : Host.Outcome State Fault Refusal :=
  weirInstr (fun c x s => if x.ops.isEmpty then haltCtx c x s else weirWait c .ops s) s

/-- WEIR_ILLEGAL_INSTRUCTION (R224): the context reaches no instruction. -/
def weirIllegal (c : Nat) (s : State) : State :=
  if (weirOf s c).state = .running && (weirOf s c).instr.isNone then failCtx c 1 s else s
def execWeirIllegalInstruction (ctx : Nat) (s : State) : Host.Outcome State Fault Refusal := .next (weirIllegal ctx s)

/-! ## Flags (R226, R227) -/

/-- The flag at a global address: aligned, translated on path W, free of error. -/
def weirFlag (c : Nat) (x : WeirCtx) (va : Nat) (write : Bool) (f : Place → State → State) (s : State) : State :=
  if va % 8 ≠ 0 then failCtx c 5 s
  else
    match translate (.die (dieOfCtx c)) x.space va write false .W s with
    | (.error e, s) => faultInstr c e s
    | (.ok p, s) => if isPoisoned s p.1 8 then failCtx c 11 s else f p.1 s

/-- The writes of a context on path W performed: by a completed operation or message, and by a release (R227, R229, R231). -/
def settleWeir (c : Nat) (s : State) : State := performSome (fun b => b.path = .W && decide (b.unit = c)) s

/-- WAITF (R226). -/
def execWeirWaitf (w : WeirWord) (s : State) : Host.Outcome State Fault Refusal :=
  weirInstr (fun c x s =>
    let v := x.reg w.wb
    weirFlag c x (x.reg w.wa).toNat false (fun p s =>
      if flagHolds w.fn.toNat (read64 s p) v then weirGo c (x.pc + 1) (acquireAll s)
      else weirWait c (.flag p (x.reg w.wa).toNat w.fn.toNat v false) s) s) s

/-- WEIR_FLAG_WAKE (R226): the awaited flag was met, and the context acquires; a flag that holds an uncorrectable error fails
it (R238, R385). -/
def weirFlagWake (c : Nat) (s : State) : State :=
  let x := weirOf s c
  match x.wait with
  | some (.flag _ _ _ _ true) => if x.state = .waiting then weirGo c (x.pc + 1) (acquireAll s) else s
  | some (.flag p va _ _ false) =>
    if x.state = .waiting && !s.away x.asn x.root va && isPoisoned s p 8 then failCtx c 11 s else s
  | _ => s
def execWeirFlagWake (ctx : Nat) (s : State) : Host.Outcome State Fault Refusal := .next (weirFlagWake ctx s)

/-- The connections an operation is posted on. -/
def WOp.conns (o : WOp) : List Nat := match o.kind with | .rcfw _ _ out => [o.cn, out] | _ => [o.cn]

/-- SIGF (R227): once the operations it covers have completed, the flag is written, as a release. -/
def execWeirSigf (w : WeirWord) (s : State) : Host.Outcome State Fault Refusal :=
  weirInstr (fun c x s =>
    if w.fl && !cnValid (x.conn w.cn.toNat) then failCtx c 3 s
    else
      weirFlag c x (x.reg w.wa).toNat true (fun p s =>
        if x.ops.any (fun o => !w.fl || o.conns.contains w.cn.toNat) then weirWait c .ops s
        else
          let v := x.reg w.wb
          let s := settleWeir c s
          weirGo c (x.pc + 1) (if w.fn = 0 then writePlace p (leBytes 8 v.toNat) s else (rmw64 p (fun o => o + v) s).2)) s) s

/-! ## Chunks (R219 to R221) -/

/-- Rows of a tensor in linear order that bytes `b` to `b + n` meet, as parts (R76, R220). -/
def rowParts (e : TEntry) (b n : Nat) : List (Nat × Nat × Nat) :=
  let row := max 1 (tnDim e 0 * elemBits (tnFmt e) / 8)
  let rows := tnDim e 1 * tnDim e 2 * tnDim e 3
  (List.range (n / row + 2)).filterMap (fun i =>
    let r := b / row + i
    let lo := max b (r * row)
    let hi := min (b + n) ((r + 1) * row)
    if r < rows ∧ lo < hi then
      some (lo - b, elemAddr e [0, r % tnDim e 1, r / tnDim e 1 % tnDim e 2, r / (tnDim e 1 * tnDim e 2)] + (lo - r * row), hi - lo)
    else none)

/-- Chunk `ix` of a descriptor (R220). -/
def chunkOf (x : WeirCtx) (d : BitVec 256) (ix : W64) : Chunk :=
  let b := (fld d 0 64 + ix.toNat * fld d 192 64) % 2 ^ 64
  let n := fld d 160 25
  if fld d 141 1 = 1 then
    let e := x.tensor (fld d 144 8)
    { inVault := tnVault e, size := n, parts := rowParts e b n, fmt := tnFmt e, tid := some (fld d 144 8) }
  else { inVault := fld d 140 1 = 1, size := n, parts := [(0, b, n)], fmt := fld d 156 4 }

/-- The chunk a remote address names (R231). -/
def plainChunk (inVault : Bool) (a n : Nat) : Chunk := { inVault := inVault, size := n, parts := [(0, a, n)] }

/-- The first address of a vault range that is refused (R38). -/
def vaultRefused (s : State) (rhnd : Nat) (write : Bool) (a n : Nat) : Option Nat :=
  ((List.range (n / pageBytes + 2)).map (fun i => if i = 0 then a else (a / pageBytes + i) * pageBytes)).find?
    (fun o => decide (o < a + n) && !vaultOk s rhnd o write)

/-- Lengths of pages turned into offsets in the chunk. -/
def withOffsets : Nat → List (Nat × Place × Nat) → List (Nat × Nat × Place)
  | _, [] => []
  | off, (n, p, _) :: t => (off, n, p) :: withOffsets (off + n) t

/-- The places of one part on path W. -/
def partPlaces (c : Nat) (x : WeirCtx) (inVault write : Bool) (off a n : Nat) (s : State) :
    Except AccFault (List (Nat × Nat × Place)) × State :=
  if inVault then
    match vaultRefused s x.rhnd write a n with
    | some o => (.error (vaultFault o write .W), s)
    | none => (.ok [(off, n, .vault a)], s)
  else if 2 ^ 57 < a + n then
    (.error { va := max a (2 ^ 57), kind := 5, level := 0, wr := write, rpl := false, eaddr := 0, path := .W }, s)
  else
    let r := translateRange (.die (dieOfCtx c)) x.space write .W (n / pageBytes + 2) a n s
    match r.1.2 with
    | f :: _ => (.error f, r.2)
    | [] => (.ok (withOffsets off r.1.1), r.2)

/-- The places of every part: every page translates, or the first fault (R228, R236). -/
def partsPlaces (c : Nat) (x : WeirCtx) (inVault write : Bool) :
    List (Nat × Nat × Nat) → State → Except AccFault (List (Nat × Nat × Place)) × State
  | [], s => (.ok [], s)
  | (off, a, n) :: t, s =>
    match partPlaces c x inVault write off a n s with
    | (.error f, s) => (.error f, s)
    | (.ok l, s) =>
      match partsPlaces c x inVault write t s with
      | (.error f, s) => (.error f, s)
      | (.ok l', s) => (.ok (l ++ l'), s)

/-- The places of a chunk; of refusals in vault space, the fault of the lowest offset (R38). -/
def chunkPlaces (c : Nat) (ch : Chunk) (write : Bool) (s : State) : Except AccFault (List (Nat × Nat × Place)) × State :=
  let x := weirOf s c
  match (if ch.inVault then (ch.parts.filterMap (fun p => vaultRefused s x.rhnd write p.2.1 p.2.2)).min? else none) with
  | some o => (.error (vaultFault o write .W), s)
  | none => partsPlaces c x ch.inVault write ch.parts s

/-- The pieces of a chunk's places that `n` bytes from `off` meet: place, offset from `off`, bytes. -/
def pieces (l : List (Nat × Nat × Place)) (off n : Nat) : List (Place × Nat × Nat) :=
  l.filterMap (fun x =>
    let lo := max off x.1
    let hi := min (off + n) (x.1 + x.2.1)
    if lo < hi then some (x.2.2.plus (lo - x.1), lo - off, hi - lo) else none)

/-- Bytes of a chunk, each piece as `rd` reads it; beyond the last element, zero. -/
def chunkBytes (rd : Place → Nat → List Byte) (l : List (Nat × Nat × Place)) (off n : Nat) : List Byte :=
  let b := (pieces l off n).flatMap (fun x => rd x.1 x.2.2)
  b ++ List.replicate (n - b.length) 0

/-- Some byte read is in a poisoned granule. -/
def chunkPoisoned (s : State) (l : List (Nat × Nat × Place)) (off n : Nat) : Bool :=
  (pieces l off n).any (fun x => isPoisoned s x.1 x.2.2)

/-- Some byte to be written lies in a poisoned granule that the write does not cover whole (R238, R385). -/
def chunkBroken (s : State) (l : List (Nat × Nat × Place)) (off n : Nat) : Bool :=
  (pieces l off n).any (fun x => partPoisoned s x.1 x.2.2)

/-- The number under which the stores of an operation wait, and of a message; 0 is that of every combine, whose order with
other writes is fixed (R230, R234). -/
def opTag (id : Nat) : Nat := 2 * id + 2
def msgTag (cn seq : Nat) : Nat := 2 * (cn * 65536 + seq) + 1

/-- Bytes of a chunk written on path W by context `c`, under a number; beyond the last element, dropped. -/
def chunkStore (c tag : Nat) (l : List (Nat × Nat × Place)) (off : Nat) (data : List Byte) (s : State) : State :=
  (pieces l off data.length).foldl (fun s x =>
    makeWrite { path := .W, unit := c, op := tag, place := x.1, data := (data.drop x.2.1).take x.2.2 } s) s

/-- Writes of others to bytes that are read, combined and written come before that (R230). -/
def chunkSettle (l : List (Nat × Nat × Place)) (off n : Nat) (s : State) : State :=
  (pieces l off n).foldl (fun s x => settlePlace x.1 x.2.2 s) s

/-! ## Elements (R221, R230) -/

/-- Two elements combined in a format: 0 add, 1 minimum, 2 maximum (R230). -/
def combElem (fmt fn l a : Nat) : Nat :=
  if isFloat fmt then
    (if fn = 0 then ((fmtOf fmt).add 0 false l a).1 else ((fmtOf fmt).minmax (fn = 2) l a).1)
  else
    let x := intVal fmt l
    let y := intVal fmt a
    wrap (intWidth fmt) (match fn with | 0 => x + y | 1 => min x y | _ => max x y)

/-- The value an element of a tensor offers (R221). -/
def elemValue (e : TEntry) (x : Nat) : FVal :=
  if isFloat (tnFmt e) then timesVal ((fmtOf (tnFmt e)).decode x) (tnT e) else ofInt (intVal (tnFmt e) x) 0

/-- The exact sum of two values; NaN of any NaN and of opposite infinities. -/
def exactSum (rm : Nat) (a b : FVal) : FVal :=
  match a, b with
  | .nan _, _ => .nan false
  | _, .nan _ => .nan false
  | .inf x, .inf y => if x = y then .inf x else .nan false
  | .inf x, _ => .inf x
  | _, .inf y => .inf y
  | .num x m e, .num y n g =>
    let r := exactAdd x m e y n g
    if r.1 = 0 then .num (if m = 0 ∧ n = 0 ∧ x = y then x else rm = 3) 0 0 else .num (r.1 < 0) r.1.natAbs r.2

/-- The exact combination of two elements' offered values (R221, R230). -/
def combValue (e : TEntry) (fn l a : Nat) : FVal :=
  if isFloat (tnFmt e) then
    (if fn = 0 then exactSum (tnRnd e) (elemValue e l) (elemValue e a)
     else elemValue e ((fmtOf (tnFmt e)).minmax (fn = 2) l a).1)
  else
    let x := intVal (tnFmt e) l
    let y := intVal (tnFmt e) a
    ofInt (match fn with | 0 => x + y | 1 => min x y | _ => max x y) 0

/-- What one arriving element makes: `fn` none stores it, else it is combined with the one that stands in the chunk. The
result's bits, and the counters of its tensor. -/
def weirElem (c : Nat) (ch : Chunk) (l : List (Nat × Nat × Place)) (fn : Option Nat) (off a : Nat) (s : State) : Nat × State :=
  let w := elemBits ch.fmt / 8
  let old := leNat (chunkBytes (readPlace s) l off w)
  match ch.tid with
  | none => (match fn with | none => a | some f => combElem ch.fmt f old a, s)
  | some t =>
    let e := (weirOf s c).tensor t
    let o := writeElem e (tnT e) (match fn with | none => elemValue e a | some f => combValue e f old a) (!isFloat (tnFmt e))
    let one := fun (b : Bool) => if b then 1 else 0
    if (pieces l off w).isEmpty then (o.bits, s)
    else
      (o.bits, modWeir c (fun x =>
        { x with tensors := put t (bumpCounters (one o.viol) (one o.satc) (one o.ufc) o.emax (x.tensor t)) x.tensors }) s)

/-- What the elements of arriving bytes make, one after another; `n` bounds their count. -/
def weirElems (c : Nat) (ch : Chunk) (l : List (Nat × Nat × Place)) (fn : Option Nat) :
    Nat → Nat → List Byte → State → List Byte × State
  | 0, _, _, s => ([], s)
  | n + 1, off, data, s =>
    let w := max 1 (elemBits ch.fmt / 8)
    if data.isEmpty then ([], s)
    else
      let r := weirElem c ch l fn off (leNat (data.take w)) s
      let t := weirElems c ch l fn n (off + w) (data.drop w) r.2
      (leBytes w r.1 ++ t.1, t.2)

/-- The bytes that arriving bytes make of a chunk, stored (`fn` none) or combined (R221, R230). -/
def chunkMake (c : Nat) (ch : Chunk) (l : List (Nat × Nat × Place)) (fn : Option Nat) (off : Nat) (data : List Byte) (s : State) :
    List Byte × State :=
  if ch.tid.isNone ∧ fn.isNone then (data, s)
  else weirElems c ch l fn data.length off data (if fn.isSome then chunkSettle l off data.length s else s)

/-- Arriving bytes taken into a chunk by operation `id`: what they make is written where `keep` says so; its bytes. A store
waits under the operation's number, a combine under none of its own (R221, R230, R234). -/
def chunkTake (c id : Nat) (ch : Chunk) (l : List (Nat × Nat × Place)) (fn : Option Nat) (keep : Bool) (off : Nat)
    (data : List Byte) (s : State) : List Byte × State :=
  let r := chunkMake c ch l fn off data s
  (r.1, if keep then chunkStore c (if fn.isNone then opTag id else 0) l off r.1 r.2 else r.2)

/-! ## Posting (R228) -/

/-- What a chunk instruction's descriptor gives, or the cause it fails with (R219 to R221, R228); which of several causes is
the model's choice (log 86). -/
def descCheck (x : WeirCtx) (w : WeirWord) (stores : Bool) : Except Nat Chunk :=
  let d := lookupD w.ds.toNat 0 x.d
  let e := x.tensor (fld d 144 8)
  if fld d 160 25 = 0 then .error 2
  else if fld d 0 64 % 32 ≠ 0 ∨ fld d 192 64 % 32 ≠ 0 then .error 5
  else if fld d 141 1 = 1 ∧ !tnUsable e then .error 4
  else if fld d 141 1 = 1 ∧ stores ∧ (tnSgran e ≠ 0 ∨ tnFmt e = 0xC) then .error 2
  else .ok (chunkOf x d (x.reg w.wa))

/-- A remote address: the cause it fails with before posting (R231). -/
def remoteCheck (a : W64) (align : Nat) : Option Nat :=
  if (if a.getLsbD 63 then fld a 30 33 ≠ 0 else fld a 57 6 ≠ 0) then some 2
  else if a.toNat % align ≠ 0 then some 5 else none

/-- The operation takes the next outbound number of a connection (R214). -/
def takeSeq (x : WeirCtx) (cn : Nat) : Nat × WeirCtx :=
  let n := lookupD cn 0 x.outSeq
  (n, { x with outSeq := put cn ((n + 1) % 65536) x.outSeq })

/-- Posting limits (R228): 8 on a connection, 16 in the context. -/
def postFull (x : WeirCtx) (o : WOp) : Bool :=
  decide (16 ≤ x.ops.length) || o.conns.any (fun cn => decide (8 ≤ (x.ops.filter (fun p => p.conns.contains cn)).length))

/-- The connection whose outbound number an operation takes, if it sends a message (R214). -/
def WOp.outConn (o : WOp) : Option Nat :=
  match o.kind with
  | .recv => none
  | .rcmb _ => none
  | .rcfw _ _ out => some out
  | _ => some o.cn

/-- Steps 2 to 5 of posting. -/
def postOp (c : Nat) (x : WeirCtx) (wait : Bool) (o : WOp) (write : Bool) (s : State) : State :=
  match chunkPlaces c o.chunk write s with
  | (.error f, s) => faultInstr c f s
  | (.ok _, s) =>
    if postFull x o then weirWait c .ops s
    else
      let y := match o.outConn with | some cn => takeSeq x cn | none => (0, x)
      let id := x.nextOp
      let s := weirGo c (x.pc + 1) (modWeir c (fun _ =>
        { y.2 with ops := y.2.ops ++ [{ o with id := id, seq := y.1 }], nextOp := id + 1 }) s)
      if wait then modWeir c (fun z => { z with state := .waiting, wait := some (.op id) }) s else s

/-- Step 1: the connections, the descriptor and the remote address, if any, checked in this order. -/
def postChunk (w : WeirWord) (kind : WeirCtx → WOpKind) (write stores : Bool) (remote : WeirCtx → Option Nat) :
    State → Host.Outcome State Fault Refusal :=
  weirInstr (fun c x s =>
    let o : WOp := { id := 0, kind := kind x, cn := w.cn.toNat }
    if o.conns.any (fun cn => !cnValid (x.conn cn)) then failCtx c 3 s
    else
      match descCheck x w stores with
      | .error cause => failCtx c cause s
      | .ok ch =>
        match remote x with
        | some cause => failCtx c cause s
        | none => postOp c x w.wt { o with chunk := ch } write s)

def execXmit (w : WeirWord) (s : State) : Host.Outcome State Fault Refusal :=
  postChunk w (fun _ => .xmit) false false (fun _ => none) s
def execRecv (w : WeirWord) (s : State) : Host.Outcome State Fault Refusal :=
  postChunk w (fun _ => .recv) true true (fun _ => none) s
def execRcmb (w : WeirWord) (s : State) : Host.Outcome State Fault Refusal :=
  postChunk w (fun _ => .rcmb w.fn.toNat) true true (fun _ => none) s
def execRcfw (w : WeirWord) (s : State) : Host.Outcome State Fault Refusal :=
  postChunk w (fun _ => .rcfw w.fn.toNat w.fl w.wd.toNat) w.fl true (fun _ => none) s

def execRput (w : WeirWord) (s : State) : Host.Outcome State Fault Refusal :=
  postChunk w (fun x => .rput (x.reg w.wb)) false false (fun x => remoteCheck (x.reg w.wb) 32) s
def execRget (w : WeirWord) (s : State) : Host.Outcome State Fault Refusal :=
  postChunk w (fun x => .rget (x.reg w.wb)) true true (fun x => remoteCheck (x.reg w.wb) 32) s

/-- RATM: no chunk (R229, R231). -/
def execRatm (w : WeirWord) (s : State) : Host.Outcome State Fault Refusal :=
  weirInstr (fun c x s =>
    if !cnValid (x.conn w.cn.toNat) then failCtx c 3 s
    else
      match remoteCheck (x.reg w.wa) 8 with
      | some cause => failCtx c cause s
      | none => postOp c x w.wt { id := 0, kind := .ratm (x.reg w.wa) (x.reg w.wb), cn := w.cn.toNat } false s) s

/-! ## LOADSEQ (R243, R244) -/

/-- A multiple of 64 at or above a size. -/
def up64 (n : Nat) : Nat := (n + 63) / 64 * 64

/-- Where templates, tensor entries and the end of an image lie; the parts before a table are padded for it (R243, R412). -/
def imgTpls (h : BitVec 512) : Nat := up64 (320 + 8 * fld h 48 16)
def imgTens (h : BitVec 512) : Nat := up64 (imgTpls h + 32 * fld h 128 16)
def imgEnd (h : BitVec 512) : Nat :=
  if fld h 144 16 ≠ 0 then imgTens h + 64 * fld h 144 16
  else if fld h 128 16 ≠ 0 then imgTpls h + 32 * fld h 128 16
  else 320 + 8 * fld h 48 16

/-- The image's header breaks R243. -/
def imgHeaderBad (h : BitVec 512) : Bool :=
  fld h 0 32 ≠ 0x57520960 || fld h 32 8 ≠ 1 || fld h 40 8 ≠ 0 || fld h 48 16 = 0 || 2048 < fld h 48 16 ||
  256 < fld h 128 16 || 256 < fld h 144 16 || fld h 172 4 ≠ 0 || fld h 176 336 ≠ 0

/-- A template is invalid or malformed (R219, R244). -/
def tplBad (d : BitVec 256) : Bool :=
  fld d 185 7 ≠ 0 || fld d 152 4 ≠ 0 || fld d 142 2 ≠ 0 || fld d 64 76 ≠ 0 || fld d 160 25 = 0 || 2 ^ 24 < fld d 160 25 ||
  fld d 160 25 % 32 ≠ 0 || fld d 0 64 % 32 ≠ 0 || fld d 192 64 % 32 ≠ 0 ||
  (if fld d 141 1 = 1 then fld d 156 4 ≠ 0 || fld d 140 1 ≠ 0
   else fld d 144 8 ≠ 0 || [6, 7, 0xC, 0xF].contains (fld d 156 4))

/-- Fields of `w` bytes of an image, `n` of them from an offset. -/
def imgItems (m : Nat) (img : List Byte) (off w n : Nat) : List (BitVec m) :=
  (List.range n).map (fun i => leBits m ((img.drop (off + w * i)).take w))

/-- Connection entries keep R213, and no two valid ones name one context. -/
def connsBad (l : List (BitVec 64)) : Bool :=
  l.any (fun e => fld e 48 16 ≠ 0 || fld e 19 13 ≠ 0) ||
  decide (((l.filter cnValid).map cnRemote).eraseDups.length ≠ (l.filter cnValid).length)

/-- The context an image leaves Loaded; none where LOADSEQ rejects it (R244). -/
def loadImage (s : State) (c : CmdCtx) (h : BitVec 512) (img : List Byte) : Option WeirCtx :=
  let conns : List (BitVec 64) := imgItems 64 img 192 8 16
  let tpls : List (BitVec 256) := imgItems 256 img (imgTpls h) 32 (fld h 128 16)
  let tens : List (BitVec 512) := imgItems 512 img (imgTens h) 64 (fld h 144 16)
  let rhnd := fld h 160 12
  let handleOk := rhnd = 0 || (match lookup rhnd s.handles with | some x => decide (x.asn = c.asn) | none => false)
  if connsBad conns || tpls.any tplBad || tens.any (fun t => tnValid t && tnMalformed t) || !handleOk then none
  else
    let w : List W64 := imgItems 64 img 64 8 16
    some { state := .loaded, slots := imgItems 64 img 320 8 (fld h 48 16), tpls := tpls, tensors := tens.mapIdx (fun i t => (i, t)),
           initW := w, tag := BitVec.ofNat 64 (fld h 64 64), rhnd := rhnd, asn := c.asn, root := c.root, rpld := qRpld c.b,
           w := w.mapIdx (fun i v => (i, v)), conns := conns }

def loadseqOn (c : CmdCtx) (s : State) : State :=
  c.checked (bitsListed false [(64, 57), (128, 6)] c.p && decide (c.f 64 57 % 64 = 0)) false (fun c s =>
    let k := c.f 128 4 * 4 + c.f 132 2
    let st := (weirOf s k).state
    if st = .running ∨ st = .waiting ∨ st = .faulted ∨ st = .stopped then c.done { status := 0x34 } s
    else
      c.operand (c.f 64 57) 64 (fun h s =>
        let h : BitVec 512 := leBits 512 h
        if imgHeaderBad h then c.done { status := 0x34 } s
        else
          c.operand (c.f 64 57) (imgEnd h) (fun img s =>
            match loadImage s c h img with
            | none => c.done { status := 0x34 } s
            | some x => c.done { status := 0 } { s with weirs := put k x s.weirs }) s) s) s
def execLoadseq (p : Packet) (s : State) : Host.Outcome State Fault Refusal := command p loadseqOn s

/-! ## QUERY of a weir (R240, R241, R319) -/

/-- The number of a state (R241). -/
def WeirState.code : WeirState → Nat
  | .empty => 0
  | .loaded => 1
  | .running => 2
  | .waiting => 3
  | .faulted => 4
  | .stopped => 5
  | .halted => 6
  | .failed => 7

/-- wdbg as a read returns it (R240). -/
def WeirCtx.debug (x : WeirCtx) : Nat :=
  x.wdbg.toNat % 2 ^ 25 + (if x.state = .stopped then 2 ^ 25 else 0) + x.pc % 2048 * 2 ^ 32

/-- The snapshot (R241). -/
def WeirCtx.snapshot (x : WeirCtx) : List Byte :=
  if x.state = .empty then List.replicate 512 0
  else
    leBytes 8 (x.state.code + (if x.state = .failed then 256 * x.cause else 0) + x.pc % 2048 * 2 ^ 16 + x.ops.length * 2 ^ 32) ++
    leBytes 8 x.debug ++ leBytes 8 x.tag.toNat ++ List.replicate 40 0 ++
    (List.range 16).flatMap (fun i => leBytes 8 (lookupD i 0 x.w).toNat) ++
    (List.range 8).flatMap (fun i => leBytes 32 (lookupD i 0 x.d).toNat) ++ List.replicate 64 0

/-- The context a QUERY names. -/
def queryCtx (c : CmdCtx) : Nat := c.f 68 4 * 4 + c.f 72 2

def queryWeirStateOn (c : CmdCtx) (s : State) : State :=
  c.checked (queryFields c) true (fun c s => c.answer (c.f 128 57) (weirOf s (queryCtx c)).snapshot s) s
def execQueryWeirState (p : Packet) (s : State) : Host.Outcome State Fault Refusal := command p queryWeirStateOn s

/-- wdbg written: breakpoints and STEP are kept, and RESUME lets a Stopped context go on (R240, R242). -/
def setDebug (v : W64) (x : WeirCtx) : WeirCtx :=
  let x := { x with wdbg := BitVec.ofNat 64 (v.toNat % 2 ^ 25) }
  if v.getLsbD 26 ∧ x.state = .stopped then { x with state := .running, passing := true } else x

def queryWriteWdbgOn (c : CmdCtx) (s : State) : State :=
  c.checked (queryFields c) true (fun c s =>
    c.done { status := 0 } (modWeir (queryCtx c) (setDebug (BitVec.ofNat 64 (c.f 192 64))) s)) s
def execQueryWriteWdbg (p : Packet) (s : State) : Host.Outcome State Fault Refusal := command p queryWriteWdbgOn s

/-- The 16 bytes of a weir tensor entry's counters: which byte holds what is not given (log 27). -/
def counterBytes (e : TEntry) : List Byte :=
  (List.range 16).map (Config.weirCounterByte (tnViol e) (tnSatc e) (tnUfc e) (tnEmax e))

def queryWeirCountersOn (c : CmdCtx) (s : State) : State :=
  c.checked (queryFields c) true (fun c s =>
    c.answer (c.f 128 57) (counterBytes ((weirOf s (queryCtx c)).tensor (c.f 74 8))) s) s
def execQueryWeirCounters (p : Packet) (s : State) : Host.Outcome State Fault Refusal := command p queryWeirCountersOn s

end Sys2Proof.Machine
end

