-- ==== Sys2Proof/Machine/Fabric.lean ====
section
/-! DEFINITION. What the rills carry: messages received and one-sided accesses performed (R214, R215, R229 to R233, R236),
packets sent (R218, R228), operations completing (R229), collectives (R245, R246), and the links and the router (R210,
R211). -/

namespace Sys2Proof.Machine

/-! ## Messages of a connection (R214, R232) -/

/-- The context a packet is for, and the one of this package it comes from. -/
def Pkt.dest (p : Pkt) : Nat := p.drill * 4 + p.dctx
def Pkt.source (p : Pkt) : Nat := p.srill * 4 + p.sctx

/-- The valid connection of a context whose remote triple is a packet's source (R214). -/
def connOf (x : WeirCtx) (p : Pkt) : Option Nat :=
  (List.range 16).find? (fun n => cnValid (x.conn n) && cnRemote (x.conn n) = (p.spkg, p.srill, p.sctx))

/-- A packet from a context to the remote of a connection. -/
def connPkt (s : State) (c : Nat) (e : BitVec 64) (kind : Nat) : Pkt :=
  let r := cnRemote e
  { kind := kind, dpkg := r.1, drill := r.2.1, dctx := r.2.2, spkg := s.packageNo, srill := c / 4, sctx := c % 4,
    fmask := cnFmask e }

/-- A packet back to the sender of another. -/
def replyPkt (s : State) (p : Pkt) (kind : Nat) : Pkt :=
  { kind := kind, dpkg := p.spkg, drill := p.srill, dctx := p.sctx, spkg := s.packageNo, srill := p.drill, sctx := p.dctx,
    mseq := p.mseq, mlen := p.mlen }

/-- The next inbound number to complete on a connection, and how far a number lies ahead of it. -/
def WeirCtx.inNext (x : WeirCtx) (cn : Nat) : Nat := lookupD cn 0 x.inSeq
def WeirCtx.ahead (x : WeirCtx) (cn seq : Nat) : Nat := (seq + 65536 - x.inNext cn) % 65536

def WeirCtx.msg (x : WeirCtx) (cn seq : Nat) : Option RcvMsg := x.msgs.find? (fun m => m.cn = cn && m.seq = seq)

def modMsg (c cn seq : Nat) (f : RcvMsg → RcvMsg) (s : State) : State :=
  modWeir c (fun x => { x with msgs := x.msgs.map (fun m => if m.cn = cn ∧ m.seq = seq then f m else m) }) s

def modOp (c id : Nat) (f : WOp → WOp) (s : State) : State :=
  modWeir c (fun x => { x with ops := x.ops.map (fun o => if o.id = id then f o else o) }) s

/-- Bytes counted. -/
def counted (l : List (Nat × Nat)) : Nat := (l.map (·.2)).sum

/-- A payload repeats bytes already counted (R232). -/
def repeats (l : List (Nat × Nat)) (off n : Nat) : Bool := l.any (fun g => decide (g.1 < off + n ∧ off < g.1 + g.2))

def WOp.receives (o : WOp) : Bool := match o.kind with | .recv => true | .rcmb _ => true | .rcfw _ _ _ => true | _ => false

/-- The posted receive that takes a DATA message: the k-th receive takes the k-th DATA message, so every earlier message
must be known (R230). -/
def receiverOf (x : WeirCtx) (cn seq : Nat) : Option WOp :=
  let before := (List.range (x.ahead cn seq)).map (fun i => x.msg cn ((x.inNext cn + i) % 65536))
  if before.any Option.isNone then none
  else
    let rank := (before.filter (fun m => match m with | some m => decide (m.kind = 1) | none => false)).length
    (x.ops.filter (fun o => o.receives && o.cn = cn && !o.received))[rank]?

/-! ## Beginning to move bytes (R236, R237) -/

/-- A posted operation's chunk translated before its first byte; a fault stops the operation. -/
def beginOp (c : Nat) (o : WOp) (write : Bool) (s : State) : Option (List (Nat × Nat × Place)) × State :=
  if o.begun then (some o.places, s)
  else if o.stopped.isSome then (none, s)
  else
    match chunkPlaces c o.chunk write s with
    | (.ok l, s) => (some l, modOp c o.id (fun o => { o with begun := true, places := l, faultRuns := [] }) s)
    | (.error f, s) =>
      let r := weirFault c o.faultRuns f s
      (none, if (weirOf r.2 c).state = .failed then r.2
             else modOp c o.id (fun o => { o with stopped := some r.1.1, faultRuns := r.1.2 }) r.2)

/-- The whole range of a one-sided message translated; a fault holds its packets, or its answer. -/
def msgPlaces (c : Nat) (m : RcvMsg) (write : Bool) (s : State) : Option (List (Nat × Nat × Place)) × State :=
  if m.stopped.isSome then (none, s)
  else
    match chunkPlaces c (plainChunk m.asp m.addr.toNat m.mlen) write s with
    | (.ok l, s) => (some l, modMsg c m.cn m.seq (fun m => { m with faultRuns := [] }) s)
    | (.error f, s) =>
      let r := weirFault c m.faultRuns f s
      (none, if (weirOf r.2 c).state = .failed then r.2
             else modMsg c m.cn m.seq (fun m => { m with stopped := some r.1.1, faultRuns := r.1.2 }) r.2)

/-- A one-sided message about to move its first byte: its range is translated then, and no more after that (R236, R237). -/
def beginMsg (c : Nat) (m : RcvMsg) (write : Bool) (s : State) : Option (List (Nat × Nat × Place)) × State :=
  if m.begun then (some m.places, s)
  else
    match msgPlaces c m write s with
    | (some l, s) => (some l, modMsg c m.cn m.seq (fun m => { m with begun := true, places := l }) s)
    | (none, s) => (none, s)

/-! ## Performing (R229 to R231) -/

/-- Bytes of an operation's own message handed to the router (R228). -/
def sendOp (c : Nat) (o : WOp) (cn kind off : Nat) (data : List Byte) (s : State) : State :=
  let e := (weirOf s c).conn cn
  let addr : W64 := match o.kind with | .rput a => a | .rget a => a | .ratm f _ => f | _ => 0
  let arg : W64 := match o.kind with | .ratm _ v => v | _ => 0
  let r := routePkt { connPkt s c e kind with
    mseq := o.seq, mlen := o.chunk.size, off := off, asp := addr.getLsbD 63, addr := addr &&& 0x7FFFFFFFFFFFFFFF, arg := arg,
    data := data } s
  modOp c o.id (fun o => { o with sent := o.sent + max 1 data.length }) r.2

/-- An own DATA packet sent whole on a rill, or taken by a destination rill of this package: the sender's bytes are accepted,
once (R211, R229). No other packet carries an operation's accepted bytes. -/
def acceptLocal (p : Pkt) (s : State) : State :=
  if p.kind ≠ 1 || p.spkg ≠ s.packageNo || p.accepted then s
  else
    modWeir p.source (fun x => { x with ops := x.ops.map (fun o =>
      match o.kind, o.outConn with
      | .rput _, _ => o
      | .rget _, _ => o
      | .ratm _ _, _ => o
      | _, some cn =>
        if o.seq = p.mseq ∧ cnRemote (x.conn cn) = (p.dpkg, p.drill, p.dctx) then { o with accepted := o.accepted + p.data.length }
        else o
      | _, none => o) }) s

/-- Arriving bytes taken into a posted receive (R230); an error in the chunk fails the context (R238). -/
def performData (c : Nat) (o : WOp) (l : List (Nat × Nat × Place)) (p : Pkt) (s : State) : State :=
  let s := modMsg c o.cn p.mseq (fun m => { m with got := (p.off, p.data.length) :: m.got }) s
  match o.kind with
  | .recv =>
    if chunkBroken s l p.off p.data.length then failCtx c 11 s else (chunkTake c o.id o.chunk l none true p.off p.data s).2
  | .rcmb f =>
    if chunkPoisoned s l p.off p.data.length then failCtx c 11 s
    else (chunkTake c o.id o.chunk l (some f) true p.off p.data s).2
  | .rcfw f st _ =>
    if chunkPoisoned s l p.off p.data.length then failCtx c 11 s
    else
      let r := chunkTake c o.id o.chunk l (some f) st p.off p.data s
      modOp c o.id (fun o => { o with forward := o.forward ++ [(p.off, r.1)] }) r.2
  | _ => s

/-- An operation writes its chunk. -/
def WOp.writes (o : WOp) : Bool :=
  match o.kind with | .recv => true | .rcmb _ => true | .rcfw _ st _ => st | .rget _ => true | _ => false

/-- A packet performed if it can be now; it says whether it was, and where it was not, the packet is to be held (R215). One
that repeats bytes performed already fails the context (R232). -/
def tryPerform (c cn : Nat) (p : Pkt) (s : State) : Bool × State :=
  let x := weirOf s c
  match p.kind, x.msg cn p.mseq with
  | 1, some m =>
    match receiverOf x cn p.mseq with
    | none => (false, s)
    | some o =>
      if o.chunk.size ≠ p.mlen then (true, failCtx c 8 s)
      else if repeats m.got p.off p.data.length then (true, failCtx c 9 s)
      else
        match beginOp c o o.writes s with
        | (none, s) => (false, s)
        | (some l, s) => (true, performData c o l p s)
  | 2, some m =>
    if repeats m.got p.off p.data.length then (true, failCtx c 9 s)
    else
      match beginMsg c m true s with
      | (none, s) => (false, s)
      | (some l, s) =>
        if chunkBroken s l p.off p.data.length then (true, failCtx c 11 s)
        else
          (true, chunkStore c (msgTag cn p.mseq) l p.off p.data
            (modMsg c cn p.mseq (fun m => { m with got := (p.off, p.data.length) :: m.got }) s))
  | 3, some m =>
    match msgPlaces c m false s with
    | (none, s) => (false, s)
    | (some _, s) => (true, modMsg c cn p.mseq (fun m => { m with asked := true }) s)
  | 4, _ =>
    match x.ops.find? (fun o => o.cn = cn && o.seq = p.mseq && (match o.kind with | .rget _ => true | _ => false)) with
    | none => (true, s)
    | some o =>
      if o.chunk.size ≠ p.mlen ∨ p.mlen < p.off + p.data.length ∨ repeats o.got p.off p.data.length then (true, failCtx c 9 s)
      else
        match beginOp c o true s with
        | (none, s) => (false, s)
        | (some l, s) =>
          if chunkBroken s l p.off p.data.length then (true, failCtx c 11 s)
          else
            (true, modOp c o.id (fun o => { o with got := (p.off, p.data.length) :: o.got })
              (chunkTake c o.id o.chunk l none true p.off p.data s).2)
  | _, _ => (true, s)

/-- The access of an ATM (R231): the flag goes up, as a release covering every earlier message, and ACK leaves. -/
def performAtm (c : Nat) (m : RcvMsg) (s : State) : Bool × State :=
  if m.stopped.isSome then (false, s)
  else if m.addr.toNat % 8 ≠ 0 then (false, failCtx c 5 s)
  else
    match chunkPlaces c (plainChunk m.asp m.addr.toNat 8) true s with
    | (.ok ((_, _, p) :: _), s) =>
      if isPoisoned s p 8 then (false, failCtx c 11 s) else (true, (rmw64 p (fun o => o + m.arg) (settleWeir c s)).2)
    | (.ok [], s) => (false, s)
    | (.error f, s) =>
      let r := weirFault c m.faultRuns f s
      (false, if (weirOf r.2 c).state = .failed then r.2
              else modMsg c m.cn m.seq (fun m => { m with stopped := some r.1.1, faultRuns := r.1.2 }) r.2)

/-- The message is complete, its bytes performed: the next number may complete, and a MAP that waited for it (R237). -/
def messageDone (c : Nat) (m : RcvMsg) (s : State) : State :=
  let s := settleWeir c s
  offerCmds (modWeir c (fun x => { x with msgs := x.msgs.filter (fun n => !(n.cn = m.cn && n.seq = m.seq)),
                                          inSeq := put m.cn ((m.seq + 1) % 65536) x.inSeq }) s)

/-- The ACK of a message. -/
def sendAck (c : Nat) (m : RcvMsg) (s : State) : State :=
  (routePkt { connPkt s c ((weirOf s c).conn m.cn) 0x06 with mseq := m.seq } s).2

/-- Messages of a connection complete in the order of their numbers, each once its bytes are all performed (R229, R232);
`n` bounds how many. -/
def advanceMsgs (c cn : Nat) : Nat → State → State
  | 0, s => s
  | n + 1, s =>
    let x := weirOf s c
    if x.state = .failed then s
    else
      match x.msg cn (x.inNext cn) with
      | none => s
      | some m =>
        match m.kind with
        | 1 =>
          match receiverOf x cn m.seq with
          | some o =>
            if counted m.got = m.mlen then
              advanceMsgs c cn n (messageDone c m (modOp c o.id (fun o => { o with received := true }) s))
            else s
          | none => s
        | 2 => if counted m.got = m.mlen then advanceMsgs c cn n (sendAck c m (messageDone c m s)) else s
        | 3 => if m.asked ∧ m.sent = m.mlen then advanceMsgs c cn n (messageDone c m s) else s
        | _ =>
          match performAtm c m s with
          | (true, s) => advanceMsgs c cn n (sendAck c m (messageDone c m s))
          | (false, s) => s

/-- The messages of a connection offered their completion. -/
def settleConn (c cn : Nat) (s : State) : State := advanceMsgs c cn ((weirOf s c).msgs.length + 1) s

/-- The messages of every connection offered their completion: an ATM that a fault stopped is performed after service
(R236). -/
def settleConns (s : State) : State :=
  s.weirs.foldl (fun s x => ((x.2.msgs.map (·.cn)).eraseDups).foldl (fun s cn => settleConn x.1 cn s) s) s

/-! ## Held packets (R215) -/

/-- Payload bytes held on a connection: what counts towards its 16 KiB (log 87). -/
def heldBytes (x : WeirCtx) (cn : Nat) : Nat :=
  ((x.held.filter (fun p => connOf x p = some cn)).map (fun p => p.data.length)).sum

/-- A packet that cannot be performed: held while its connection has room, else refused at the link layer, the sender
keeping it until ROOM (R215). -/
def holdPkt (c cn : Nat) (p : Pkt) (s : State) : State :=
  if heldBytes (weirOf s c) cn + p.data.length ≤ 16384 then acceptLocal p (modWeir c (fun x => { x with held := x.held ++ [p] }) s)
  else
    let s := modWeir c (fun x => { x with refusing := insertNat cn x.refusing }) s
    if p.spkg = s.packageNo then modWeir p.source (fun x => { x with kept := x.kept ++ [p] }) s else s

/-- A connection that refused packets and has room again reports it (R215). -/
def reportRoom (c cn : Nat) (s : State) : State :=
  let x := weirOf s c
  if x.refusing.contains cn && decide (heldBytes x cn < 16384) then
    (routePkt (connPkt s c (x.conn cn) 0x0C)
      (modWeir c (fun x => { x with refusing := x.refusing.filter (fun n => n ≠ cn) }) s)).2
  else s

/-- A held packet tried again (R215, R236). -/
def retryHeld (c n : Nat) (s : State) : State :=
  let x := weirOf s c
  match x.held[n]? with
  | none => s
  | some p =>
    match connOf x p with
    | none => s
    | some cn =>
      match tryPerform c cn p s with
      | (false, s) => s
      | (true, s) => reportRoom c cn (settleConn c cn (modWeir c (fun x => { x with held := x.held.eraseIdx n }) s))

/-! ## Arrivals (R214) -/

/-- A packet of a kind, bound for this package, leaves the package to be performed. -/
def onPkt (kind n : Nat) (f : Pkt → State → State) (s : State) : Host.Outcome State Fault Refusal :=
  match lookup n s.pkts with
  | none => .next s
  | some p => .next (if p.kind = kind ∧ p.dpkg = s.packageNo then f p { s with pkts := erase n s.pkts } else s)

/-- A context that takes packets. -/
def WeirCtx.accepts (x : WeirCtx) : Bool := !(x.state = .empty || x.state = .failed)

/-- A packet of a message: to its connection, or discarded and answered with REFUSE; checked against the message's earlier
packets (R214, R232), and performed or held. -/
def arriveMsg (p : Pkt) (s : State) : State :=
  let c := p.dest
  let x := weirOf s c
  match (if x.accepts then connOf x p else none) with
  | none => (routePkt (replyPkt s p 0x07) (acceptLocal p s)).2
  | some cn =>
    let m := (x.msg cn p.mseq).getD
      { cn := cn, seq := p.mseq, kind := p.kind, mlen := p.mlen, asp := p.asp, addr := p.addr, arg := p.arg }
    if 32768 ≤ x.ahead cn p.mseq ∨ m.mlen ≠ p.mlen ∨ m.kind ≠ p.kind ∨ p.mlen < p.off + p.data.length ∨
        repeats m.got p.off p.data.length then
      failCtx c 9 s
    else
      let s := if (x.msg cn p.mseq).isNone then modWeir c (fun x => { x with msgs := x.msgs ++ [m] }) s else s
      match tryPerform c cn p s with
      | (true, s) => settleConn c cn (acceptLocal p s)
      | (false, s) => if (weirOf s c).state = .failed then s else holdPkt c cn p s

/-- DATA (R230). -/
def execData (pkt : Nat) (s : State) : Host.Outcome State Fault Refusal := onPkt 1 pkt arriveMsg s
/-- PUT (R231). -/
def execPut (pkt : Nat) (s : State) : Host.Outcome State Fault Refusal := onPkt 2 pkt arriveMsg s
/-- GETQ (R231). -/
def execGetq (pkt : Nat) (s : State) : Host.Outcome State Fault Refusal := onPkt 3 pkt arriveMsg s
/-- ATM (R231). -/
def execAtm (pkt : Nat) (s : State) : Host.Outcome State Fault Refusal := onPkt 5 pkt arriveMsg s

/-- GETR, ACK or ROOM, for a connection of a context that takes packets; else discarded and answered with REFUSE (R214). -/
def arriveReply (f : Nat → Nat → Pkt → State → State) (p : Pkt) (s : State) : State :=
  let x := weirOf s p.dest
  match (if x.accepts then connOf x p else none) with
  | none => (routePkt (replyPkt s p 0x07) s).2
  | some cn => f p.dest cn p s

/-- GETR (R229, R231). -/
def getrTake (c cn : Nat) (p : Pkt) (s : State) : State :=
  match tryPerform c cn p s with
  | (true, s) => s
  | (false, s) => if (weirOf s c).state = .failed then s else holdPkt c cn p s
def execGetr (pkt : Nat) (s : State) : Host.Outcome State Fault Refusal := onPkt 4 pkt (arriveReply getrTake) s

/-- ACK (R229): the RPUT or RATM of its number is received. -/
def ackTake (c cn : Nat) (p : Pkt) (s : State) : State :=
  modWeir c (fun x => { x with ops := x.ops.map (fun o =>
    match o.kind with
    | .rput _ => if o.cn = cn ∧ o.seq = p.mseq then { o with received := true } else o
    | .ratm _ _ => if o.cn = cn ∧ o.seq = p.mseq then { o with received := true } else o
    | _ => o) }) s
def execAck (pkt : Nat) (s : State) : Host.Outcome State Fault Refusal := onPkt 6 pkt (arriveReply ackTake) s

/-- REFUSE (R214): the context that sent fails. -/
def execRefuse (pkt : Nat) (s : State) : Host.Outcome State Fault Refusal :=
  onPkt 7 pkt (fun p s => if (weirOf s p.dest).accepts then failCtx p.dest 10 s else s) s

/-- ROOM (R215): the packets its receiver refused leave again. -/
def roomTake (c cn : Nat) (_p : Pkt) (s : State) : State :=
  let r := cnRemote ((weirOf s c).conn cn)
  let mine := fun (q : Pkt) => decide ((q.dpkg, q.drill, q.dctx) = r)
  let ks := (weirOf s c).kept.filter mine
  ks.foldl (fun s q => (routePkt q s).2) (modWeir c (fun x => { x with kept := x.kept.filter (fun q => !mine q) }) s)
def execRoom (pkt : Nat) (s : State) : Host.Outcome State Fault Refusal := onPkt 0x0C pkt (arriveReply roomTake) s

/-! ## The data engine (R218, R228, R231) -/

/-- The operation has a packet to send. -/
def WOp.ready (o : WOp) : Bool :=
  o.stopped.isNone &&
  (match o.kind with
   | .xmit => decide (o.sent < o.chunk.size)
   | .rput _ => decide (o.sent < o.chunk.size)
   | .rget _ => o.sent = 0
   | .ratm _ _ => o.sent = 0
   | .rcfw _ _ _ => !o.forward.isEmpty
   | .recv => false
   | .rcmb _ => false)

/-- The answer to a GETQ has a packet to send: every earlier message has completed (R231). -/
def WeirCtx.answers (x : WeirCtx) (m : RcvMsg) : Bool :=
  m.kind = 3 && m.asked && m.stopped.isNone && x.ahead m.cn m.seq = 0 && decide (m.sent < m.mlen)

/-- Connections of a context with packets to send. -/
def sendingConns (x : WeirCtx) : List Nat :=
  (x.ops.filter (·.ready)).filterMap (·.outConn) ++ (x.msgs.filter x.answers).map (·.cn)

/-- How far a connection is from its turn at its rill: connections follow the one served last (R218, log 52). -/
def sendDist (s : State) (c cn : Nat) : Nat := (c % 4 * 16 + cn + 64 - (lookupD (c / 4) 63 s.sendTurn + 1)) % 64

/-- No connection of the rill with packets to send comes before this one (R218). -/
def sendFirst (s : State) (c cn : Nat) : Bool :=
  (List.range 4).all (fun i => (sendingConns (weirOf s (c / 4 * 4 + i))).all (fun n =>
    decide (sendDist s c cn ≤ sendDist s (c / 4 * 4 + i) n)))

/-- The connection takes its turn. -/
def sendTaken (c cn : Nat) (s : State) : State := { s with sendTurn := put (c / 4) (c % 4 * 16 + cn) s.sendTurn }

/-- The packet an operation sends next: up to 4 KiB of DATA or PUT, each read as it leaves; a combined packet of RCFW; or the
one packet of GETQ or ATM. An uncorrectable error ends the operation before its bytes are sent (R238). -/
def sendPacket (c cn : Nat) (o : WOp) (s : State) : State :=
  match o.kind with
  | .rget _ => sendOp c o cn 3 0 [] s
  | .ratm _ _ => sendOp c o cn 5 0 [] s
  | .recv => s
  | .rcmb _ => s
  | .rcfw _ _ _ =>
    match o.forward with
    | [] => s
    | x :: rest => modOp c o.id (fun o => { o with forward := rest }) (sendOp c o cn 1 x.1 x.2 s)
  | k =>
    let n := min 4096 (o.chunk.size - o.sent)
    match beginOp c o false s with
    | (none, s) => s
    | (some l, s) =>
      if chunkPoisoned s l o.sent n then failCtx c 11 s
      else sendOp c o cn (match k with | .xmit => 1 | _ => 2) o.sent (chunkBytes (readOn .W s) l o.sent n) s

/-- The next packet of a posted operation, in its connection's turn (R218). -/
def sendNext (c id : Nat) (s : State) : State :=
  match (weirOf s c).ops.find? (fun o => o.id = id) with
  | none => s
  | some o =>
    match o.outConn with
    | none => s
    | some cn => if o.ready && sendFirst s c cn then sendPacket c cn o (sendTaken c cn s) else s

/-- The next packet of the answer to a GETQ, in its connection's turn (R218, R231). -/
def answerNext (c cn seq : Nat) (s : State) : State :=
  let x := weirOf s c
  match x.msg cn seq with
  | none => s
  | some m =>
    let n := min 4096 (m.mlen - m.sent)
    if !x.answers m || !sendFirst s c cn then s
    else
      match beginMsg c m false s with
      | (none, s) => s
      | (some l, s) =>
        if chunkPoisoned s l m.sent n then failCtx c 11 s
        else
          let s := sendTaken c cn s
          let s := (routePkt { connPkt s c (x.conn cn) 0x04 with
            mseq := seq, mlen := m.mlen, off := m.sent, data := chunkBytes (readOn .W s) l m.sent n } s).2
          settleConn c cn (modMsg c cn seq (fun m => { m with sent := m.sent + n }) s)

/-! ## Completion (R229) -/

/-- The condition of R229 holds. -/
def WOp.complete (o : WOp) : Bool :=
  match o.kind with
  | .xmit => decide (o.accepted = o.chunk.size)
  | .recv => o.received
  | .rcmb _ => o.received
  | .rcfw _ _ _ => o.received && decide (o.accepted = o.chunk.size)
  | .rput _ => o.received
  | .rget _ => decide (counted o.got = o.chunk.size)
  | .ratm _ _ => o.received

/-- No earlier receive of its connection is still posted (R229). -/
def inTurn (x : WeirCtx) (o : WOp) : Bool :=
  !o.receives || !(x.ops.any (fun p => p.receives && p.cn = o.cn && decide (p.id < o.id)))

/-- WEIR_OPERATION_COMPLETE (R229): the operation leaves, and a context that waits for it, or for room, goes on (R217). -/
def operationComplete (c id : Nat) (s : State) : State :=
  let x := weirOf s c
  match x.ops.find? (fun o => o.id = id) with
  | none => s
  | some o =>
    if !o.complete || !inTurn x o then s
    else
      let s := settleWeir c (modWeir c (fun x => { x with ops := x.ops.filter (fun o => o.id ≠ id) }) s)
      let s := if x.state = .waiting ∧ x.wait = some (.op id) then weirGo c x.pc s
        else if x.state = .waiting ∧ x.wait = some .ops then modWeir c (fun x => { x with state := .running, wait := none }) s
        else s
      offerCmds s
def execWeirOperationComplete (ctx op : Nat) (s : State) : Host.Outcome State Fault Refusal :=
  .next (operationComplete ctx op s)

/-! ## Collectives (R245, R246) -/

/-- A member's START, ABORT: a packet from the root, as if of its context 0 of rill 0 (log 85). -/
def rootPkt (s : State) (kind : Nat) (m : Nat × Nat × Nat × BitVec 64) : Pkt :=
  { kind := kind, dpkg := m.1, drill := m.2.1, dctx := m.2.2.1, spkg := s.packageNo, srill := 0, sctx := 0 }

/-- COLL at the root: the group table read and checked, and START sent to each member (R245). -/
def collGroup (c : CmdCtx) (table : List Byte) (s : State) : State :=
  let es : List (BitVec 128) := imgItems 128 table 0 16 (c.f 128 16)
  let ms := es.map (fun e => (fld e 0 12, fld e 12 4, fld e 16 2, BitVec.ofNat 64 (fld e 64 64)))
  if es.any (fun e => fld e 18 46 ≠ 0) || decide ((ms.map (fun m => (m.1, m.2.1, m.2.2.1))).eraseDups.length ≠ ms.length) then
    c.done { status := 0x35 } s
  else
    let id := s.nextCmd
    let tag := BitVec.ofNat 64 (c.f 192 64)
    let s := c.begin (.collective id) s
    let s := { s with colls := put id { cmd := id, tag := tag, members := ms, since := s.clock, timeout := 1000 * c.f 144 32 } s.colls }
    ms.foldl (fun s m => (routePkt { rootPkt s 0x08 m with addr := tag, arg := m.2.2.2 } s).2) s
def collOn (c : CmdCtx) (s : State) : State :=
  let ok := bitsListed false [(64, 57), (128, 48), (192, 64)] c.p && decide (c.f 64 57 % 16 = 0 ∧ 1 ≤ c.f 128 16)
  c.checked ok false (fun c s => c.operand (c.f 64 57) (16 * c.f 128 16) (collGroup c) s) s
def execColl (p : Packet) (s : State) : Host.Outcome State Fault Refusal := command p collOn s

/-- START (R245): a Loaded or Halted member of the tag begins at slot 0; any other answers FAIL, start refused. -/
def startTake (p : Pkt) (s : State) : State :=
  let c := p.dest
  let x := weirOf s c
  if (x.state = .loaded ∨ x.state = .halted) ∧ x.tag = p.addr then
    modWeir c (fun x => { x with state := .running, pc := 0, w := put 0 p.arg (x.initW.mapIdx (fun i v => (i, v))), d := [],
                                 wait := none, passing := false, faultRuns := [], starter := some (p.spkg, p.srill, p.sctx) }) s
  else (routePkt { replyPkt s p 0x0A with mseq := 0, mlen := 0, arg := 13 } s).2
def execStart (pkt : Nat) (s : State) : Host.Outcome State Fault Refusal := onPkt 8 pkt startTake s

/-- The collective completes at the root (R246). -/
def collFinish (id : Nat) (k : Coll) (s : State) : State :=
  let r : Result :=
    if !k.aborted then { status := 0 }
    else match k.failure with | some f => { status := 0x36, det := f.2, item := f.1 } | none => { status := 0x37 }
  finishCmd k.cmd r { s with colls := erase id s.colls }

/-- The root aborts every member (R246). -/
def collAbort (id : Nat) (k : Coll) (failure : Option (Nat × Nat)) (s : State) : State :=
  k.members.foldl (fun s m => (routePkt (rootPkt s 0x0B m) s).2)
    { s with colls := put id { k with aborted := true, failure := failure } s.colls }

/-- Complete on N DONE, and after an abort once every member has answered (R246). -/
def collOffer (id : Nat) (s : State) : State :=
  match lookup id s.colls with
  | none => s
  | some k =>
    if k.answered.length = k.members.length ∧ (k.aborted ∨ k.doneBy.length = k.members.length) then collFinish id k s else s

/-- The index of a packet's sender in a group table. -/
def memberIx (k : Coll) (p : Pkt) : Option Nat :=
  (List.range k.members.length).find? (fun i =>
    match k.members[i]? with | some m => decide ((m.1, m.2.1, m.2.2.1) = (p.spkg, p.srill, p.sctx)) | none => false)

/-- The collective of this root that an answer is for: one that has no answer from the member yet, the last started for a
refused START, else the first (log 29). -/
def collFor (s : State) (p : Pkt) : Option (Nat × Coll × Nat) :=
  let l := s.colls.filterMap (fun k =>
    match memberIx k.2 p with
    | some i => if k.2.answered.contains i then none else some (k.1, k.2, i)
    | none => none)
  if p.kind = 0x0A ∧ p.arg.toNat % 256 = 13 then l.getLast? else l.head?

/-- DONE (R246). -/
def doneTake (p : Pkt) (s : State) : State :=
  match collFor s p with
  | none => s
  | some (id, k, i) =>
    collOffer id { s with colls := put id { k with answered := insertNat i k.answered, doneBy := insertNat i k.doneBy } s.colls }
def execDone (pkt : Nat) (s : State) : Host.Outcome State Fault Refusal := onPkt 9 pkt doneTake s

/-- FAIL (R246): the first one aborts the collective. -/
def failTake (p : Pkt) (s : State) : State :=
  match collFor s p with
  | none => s
  | some (id, k, i) =>
    let k := { k with answered := insertNat i k.answered }
    collOffer id
      (if k.aborted then { s with colls := put id k s.colls } else collAbort id k (some (i, p.arg.toNat % 256)) s)
def execFail (pkt : Nat) (s : State) : Host.Outcome State Fault Refusal := onPkt 0x0A pkt failTake s

/-- ABORT (R238, R246): the member enters Failed. -/
def execAbort (pkt : Nat) (s : State) : Host.Outcome State Fault Refusal :=
  onPkt 0x0B pkt (fun p s => if (weirOf s p.dest).accepts then failCtx p.dest 12 s else s) s

/-- COLL_TIMEOUT (R246). -/
def collTimeout (id : Nat) (s : State) : State :=
  match lookup id s.colls with
  | none => s
  | some k =>
    if k.timeout ≠ 0 ∧ !k.aborted ∧ k.since + k.timeout ≤ s.clock then collOffer id (collAbort id k none s) else s
def execCollTimeout (coll : Nat) (s : State) : Host.Outcome State Fault Refusal := .next (collTimeout coll s)

/-- COLL_TWICE_TIMEOUT (R246). -/
def collTwiceTimeout (id : Nat) (s : State) : State :=
  match lookup id s.colls with
  | none => s
  | some k => if k.timeout ≠ 0 ∧ k.aborted ∧ k.since + 2 * k.timeout ≤ s.clock then collFinish id k s else s
def execCollTwiceTimeout (coll : Nat) (s : State) : Host.Outcome State Fault Refusal := .next (collTwiceTimeout coll s)

/-! ## Links and the router (R210, R211) -/

def modRill (r : Nat) (f : Rill → Rill) (s : State) : State := { s with rills := put r (f (lookupD r {} s.rills)) s.rills }

/-- LINK_TRAINED (R210): a rill not declared down becomes up. -/
def linkTrained (r : Nat) (s : State) : State :=
  modRill r (fun x => if x.state = .untrained then { x with state := .up } else x) s
def execLinkTrained (rill : Nat) (s : State) : Host.Outcome State Fault Refusal := .next (linkTrained rill s)

/-- A response (R211): every kind but DATA, PUT, GETQ, ATM and START. -/
def Pkt.isResponse (p : Pkt) : Bool := !([1, 2, 3, 5, 8].contains p.kind)

/-- The oldest request or response of a rill's queue, and the queue without it. -/
def takeQueued (response : Bool) (l : List Pkt) : Option (Pkt × List Pkt) :=
  match l.findIdx? (fun p => p.isResponse = response) with
  | none => none
  | some i => l[i]?.map (fun p => (p, l.eraseIdx i))

/-- A flit passes its check: what follows of failed resends is another flit's (R210). -/
def flitPassed (r : Nat) (s : State) : State :=
  if (lookupD r {} s.rills).state = .up then modRill r (fun x => { x with resends := 0 }) s else s

/-- The last flit of a rill's oldest request, or response, has been sent: the packet is accepted, and stays in the replay
buffer until it is delivered (R210, R229). -/
def transmitPkt (r : Nat) (response : Bool) (s : State) : State :=
  let x := lookupD r {} s.rills
  match takeQueued response x.queued with
  | none => s
  | some (p, rest) =>
    if x.state ≠ .up then s
    else acceptLocal p (modRill r (fun x => { x with queued := rest, replay := x.replay ++ [{ p with accepted := true }] }) s)

/-- The packet of a class at the front of a rill's link layer sent, unless one is sent already. -/
def sendFront (r : Nat) (response : Bool) (s : State) : State :=
  if (takeQueued response (lookupD r {} s.rills).replay).isSome then s else transmitPkt r response s

/-- The link layer delivers a packet to the neighbour, at most once (R210). -/
def deliverPkt (r : Nat) (response : Bool) (s : State) : State :=
  let s := sendFront r response s
  let x := lookupD r {} s.rills
  match takeQueued response x.replay with
  | none => s
  | some (p, rest) =>
    if x.state ≠ .up then s
    else { s with rills := put r { x with replay := rest, resends := 0 } s.rills, outbox := (r, p) :: s.outbox }

/-- The receiver refuses an own packet of a connection, once sent, for want of room: the sending context keeps it (R215). -/
def giveBack (r : Nat) (response : Bool) (s : State) : State :=
  match takeQueued response (lookupD r {} (sendFront r response s).rills).replay with
  | none => s
  | some (p, rest) =>
    if p.spkg ≠ s.packageNo ∨ (lookupD r {} s.rills).state ≠ .up ∨ !([1, 2, 3, 4, 5].contains p.kind) then s
    else modWeir p.source (fun y => if y.accepts then { y with kept := y.kept ++ [p] } else y)
      (modRill r (fun x => { x with replay := rest }) (sendFront r response s))

/-- RILL_DOWN (R210): after 16 consecutive failed resends; what it had not delivered leaves by another rill. -/
def rillDown (r : Nat) (s : State) : State :=
  let x := lookupD r {} s.rills
  if x.state = .up ∧ 16 ≤ x.resends then
    (x.replay ++ x.queued).foldl (fun s p => (routePkt p s).2)
      (modRill r (fun x => { x with state := .down, queued := [], replay := [], resends := 0 }) s)
  else s
def execRillDown (rill : Nat) (s : State) : Host.Outcome State Fault Refusal := .next (rillDown rill s)

/-- TRANSIT_FORWARD (R211): a packet for another package goes through the router, and touches neither memory nor a weir. -/
def transitForward (n : Nat) (s : State) : State :=
  match lookup n s.pkts with
  | none => s
  | some p => if p.dpkg = s.packageNo then s else (routePkt p { s with pkts := erase n s.pkts }).2
def execTransitForward (pkt : Nat) (s : State) : Host.Outcome State Fault Refusal := .next (transitForward pkt s)

end Sys2Proof.Machine
end

