-- ==== Sys2Proof/Machine/Encode.lean ====
section
/-! DEFINITION. The encode engines (R330 to R333): sessions, ENCFRAME, a frame started and a frame completed. -/

namespace Sys2Proof.Machine

/-! ## Session descriptors (R331) -/

/-- A field of a descriptor's bytes. -/
def descField (d : List Byte) (off n : Nat) : Nat := leNat ((d.drop off).take n)

def descTensor (d : List Byte) : TEntry := BitVec.ofNat 512 (descField d 0 64)
def descBuf (d : List Byte) : Nat := descField d 64 8
def descBufSize (d : List Byte) : Nat := descField d 72 4
def descKeyInterval (d : List Byte) : Nat := descField d 88 2
def descRing (d : List Byte) : Nat := descField d 96 8

/-- Width and height of a frame. -/
def descFrame (d : List Byte) : Nat × Nat := (tnDim (descTensor d) 0, tnDim (descTensor d) 1)

/-- The descriptor breaks R331. -/
def descMalformed (d : List Byte) : Bool :=
  let e := descTensor d
  let codec := descField d 76 1
  !tnUsable e || !tnImg e || tnRank e ≠ 3 || tnDimField e 2 ≠ 2 || 2 < codec || tnFmt e ≠ (if codec = 0 then 0xE else 8) ||
  descBuf d % 128 ≠ 0 || descBufSize d % 128 ≠ 0 || 2 < descField d 77 1 || 255 < descField d 78 2 ||
  descKeyInterval d = 0 || descField d 90 6 ≠ 0 || descRing d % 64 ≠ 0 || descField d 104 24 ≠ 0

/-- The frame fits one slot, or the whole engine (R330). -/
def fitsSlot (d : List Byte) : Bool := decide ((descFrame d).1 ≤ 1920 ∧ (descFrame d).2 ≤ 1088)
def fitsEngine (d : List Byte) : Bool := decide ((descFrame d).1 ≤ 3840 ∧ (descFrame d).2 ≤ 2176)

/-! ## Slots (R333) -/

def modSlot (k : Nat) (f : EncSlot → EncSlot) (s : State) : State := { s with encSlots := adjust k f s.encSlots }

/-- The session that holds a slot: its own, or the whole engine's at slot 0. -/
def holderOf (s : State) (k : Nat) : Option (Nat × EncSlot) :=
  match lookup k s.encSlots with
  | some x => some (k, x)
  | none =>
    match lookup (k / 4 * 4) s.encSlots with
    | some x => if x.whole then some (k / 4 * 4, x) else none
    | none => none

/-- The die and space an engine's accesses use (R7, R26). -/
def encDie (k : Nat) : Nat := k / 8
def cmdSpace (c : Cmd) : Space := { asn := c.asn, root := c.root, rpld := c.rpld, rhnd := 0 }

/-- The report status of a frame that a fatal fault, or an uncorrectable page-table entry, has ended (R30, R332, R374). -/
def encEnd (s : State) (k : Nat) : Option Nat :=
  if s.encError.contains k then some 3 else if s.encFault.contains k then some 2 else none

/-- A fault of an engine (R30): a replayable one stops the slot; a fatal one ends the frame once firmware has acted. -/
def encFault (k : Nat) (x : EncSlot) (f : AccFault) (s : State) : State :=
  let runs := countFaults [f.va / pageBytes] x.faultRuns
  let r := raiseFault (.enc k) x.asn (k / 4) 0 0 (dieClock s (encDie k)) f (sixteenth runs (f.va / pageBytes)) s
  modSlot k (fun x => { x with stopped := if (encEnd r.2 k).isSome then none else some r.1, faultRuns := runs }) r.2

/-- Bytes of a global range on path E: their places, or the first fault. -/
def encPlaces (k : Nat) (sp : Space) (va n : Nat) (write : Bool) (s : State) :
    Except AccFault (List (Nat × Place × Nat)) × State :=
  let r := translateRange (.die (encDie k)) sp write .E (n / pageBytes + 2) va n s
  match r.1.2 with
  | [] => (.ok r.1.1, r.2)
  | f :: _ => (.error f, r.2)

/-- The session of a slot ends: the slot is free, or, where later frames are queued on it, begins their session (R333). -/
def sessionEnd (k : Nat) (s : State) : State :=
  match lookup k s.encSlots with
  | none => s
  | some x =>
    if x.frames.isEmpty then { s with encSlots := erase k s.encSlots }
    else { s with encSlots := put k { desc := x.desc, asn := x.asn, frames := x.frames } s.encSlots }

/-- The frame at the head of a slot leaves, its command completes, and its session ends with it or goes on (R332, R333). -/
def frameOut (k cmd : Nat) (last : Bool) (r : Result) (s : State) : State :=
  let s := modSlot k (fun x => { x with frames := x.frames.drop 1, stopped := none, faultRuns := [] }) s
  let s := { s with encFault := s.encFault.filter (fun n => n ≠ k), encError := s.encError.filter (fun n => n ≠ k) }
  finishCmd cmd r (if last then sessionEnd k s else s)

/-- A session's descriptor read and checked, at its first frame: malformed 0x0002; beyond capacity, or 2160p where the
engine is not free, 0x003D (R330, R331, R333). A slot whose first frame is refused is free again. -/
def openSession (k : Nat) (s : State) : State :=
  match lookup k s.encSlots with
  | none => s
  | some x =>
    match x.frames with
    | [] => s
    | f :: rest =>
      match lookup f.cmd s.cmds with
      | none => s
      | some c =>
        if x.image.isSome ∨ x.stopped.isSome then s
        else
          let refuse := fun (r : Result) (s : State) => frameOut k f.cmd rest.isEmpty r s
          match encEnd s k with
          | some st => refuse { status := if st = 3 then 0x22 else 0x20 } s
          | none =>
            match encPlaces k (cmdSpace c) x.desc 128 false s with
            | (.error e, s) => encFault k x e s
            | (.ok l, s) =>
              if l.any (fun p => isPoisoned s p.2.1 p.1) then refuse { status := 0x22 } s
              else
                let d := gatherBytes s l
                let others := [1, 2, 3].any (fun i => (lookup (k / 4 * 4 + i) s.encSlots).isSome)
                if descMalformed d then refuse { status := 2 } s
                else if !fitsEngine d || (!fitsSlot d && (k % 4 ≠ 0 || others)) then refuse { status := 0x3D } s
                else modSlot k (fun x => { x with image := some d, whole := !fitsSlot d, faultRuns := [] }) s

/-! ## ENCFRAME (R332) -/

def encframeOn (c : CmdCtx) (s : State) : State :=
  let ok := bitsListed false [(64, 7), (78, 50), (128, 57), (192, 64), (256, 57), (320, 64)] c.p &&
    decide (c.f 128 57 % 8 = 0 ∧ c.f 256 57 % 8 = 0)
  c.checked ok false (fun c s =>
    let k := c.f 64 3 * 4 + c.f 67 2
    let desc := 128 * c.f 78 50
    let frame : EncFrame := { cmd := s.nextCmd }
    match holderOf s k with
    | some (h, x) =>
      if h = k ∧ x.desc = desc ∧ x.asn = c.asn then
        openSession k (modSlot k (fun x => { x with frames := x.frames ++ [frame] }) (c.begin (.encoding k) s))
      else c.done { status := 0x3D } s
    | none =>
      let s := c.begin (.encoding k) s
      openSession k { s with encSlots := put k { desc := desc, asn := c.asn, frames := [frame] } s.encSlots }) s
def execEncframe (p : Packet) (s : State) : Host.Outcome State Fault Refusal := command p encframeOn s

/-! ## A frame started (R332, steps 1 and 2) -/

/-- Rows of the frame, in linear order. -/
def frameRows (e : TEntry) : List (Nat × Nat × Nat) :=
  rowParts e 0 (tnDim e 0 * tnDim e 1 * tnDim e 2 * elemBits (tnFmt e) / 8)

/-- The bytes of rows read on path E, with poison, or the first fault. -/
def readRows (k : Nat) (sp : Space) (inVault : Bool) :
    List (Nat × Nat × Nat) → State → Except AccFault (List Byte × Bool) × State
  | [], s => (.ok ([], false), s)
  | (_, a, n) :: t, s =>
    let r : Except AccFault (List (Nat × Place × Nat)) × State :=
      if inVault then (match vaultRefused s sp.rhnd false a n with
        | some o => (.error (vaultFault o false .E), s)
        | none => (.ok [(n, .vault a, 0)], s))
      else encPlaces k sp a n false s
    match r with
    | (.error f, s) => (.error f, s)
    | (.ok l, s) =>
      match readRows k sp inVault t s with
      | (.error f, s) => (.error f, s)
      | (.ok x, s) =>
        (.ok (l.flatMap (fun p => readOn .E s p.2.1 p.1) ++ x.1, l.any (fun p => isPoisoned s p.2.1 p.1) || x.2), s)

/-- The elements that carry the granular scales of a frame, one for each scale (R70, R71). -/
def scaleSpots (e : TEntry) : List (List Nat) :=
  if tnSgran e = 0 then []
  else
    let step := if tnSgran e = 3 then 128 else 1
    (List.range ((tnDim e 0 + 127) / 128)).flatMap (fun i => (List.range ((tnDim e 1 + step - 1) / step)).flatMap (fun j =>
      (List.range (tnDim e 2)).map (fun l => [128 * i, step * j, l])))

/-- The granular scales read on path E, by their addresses, with poison, or the first fault (R71, R332). -/
def readScales (k : Nat) (sp : Space) (e : TEntry) :
    List (List Nat) → State → Except AccFault (List (Nat × FVal) × Bool) × State
  | [], s => (.ok ([], false), s)
  | ix :: t, s =>
    match readScale { x := .die (encDie k), sp := sp, path := .E, warp := none } e ix s with
    | (.error f, s) => (.error f, s)
    | (.ok g, s) =>
      match readScales k sp e t s with
      | (.error f, s) => (.error f, s)
      | (.ok x, s) => (.ok (((scaleAddr e ix).1, g.1) :: x.1, g.2 || x.2), s)

/-- A sample's value: an 8-bit integer, or 1,023 times an FP16 element with its scales; 0 outside the frame (R70, R76,
R331). -/
def sampleOf (e : TEntry) (bytes : List Byte) (scales : List (Nat × FVal)) (x y layer : Nat) : FVal :=
  if !tnInside e [x, y, layer] then .num false 0 0
  else
    let w := elemBits (tnFmt e) / 8
    let raw := leNat ((bytes.drop (w * (x + tnDim e 0 * (y + tnDim e 1 * layer)))).take w)
    if isFloat (tnFmt e) then
      let g := lookupD (scaleAddr e [x, y, layer]).1 (.num false 1 0) scales
      timesVal (timesVal ((fmtOf (tnFmt e)).decode raw) (timesVal g (tnT e))) (.num false 1023 0)
    else ofInt raw 0

/-- A value rounded to the nearest integer, ties to even; a NaN and an infinity have none, and the sample is free (log 31). -/
def sampleInt (free : Nat) (v : FVal) : Int :=
  match v with
  | .num neg m e => if neg then -((roundInt 0 neg m e false).1 : Int) else (roundInt 0 neg m e false).1
  | _ => ((Config.freeWord free).toNat % 1024 : Nat)

/-- The mean of the 2 × 2 block of a layer at (2x, 2y) (R331). -/
def chromaMean (e : TEntry) (bytes : List Byte) (scales : List (Nat × FVal)) (layer x y : Nat) : FVal :=
  let at_ := fun (i j : Nat) => sampleOf e bytes scales (2 * x + i) (2 * y + j) layer
  timesVal (exactSum 0 (exactSum 0 (at_ 0 0) (at_ 1 0)) (exactSum 0 (at_ 0 1) (at_ 1 1))) (.num false 1 (-2))

/-- The reduced frame: luma as it is, each chroma layer by the means of its 2 × 2 blocks, rounded to nearest-even (R331). -/
def reducedFrame (free : Nat) (e : TEntry) (bytes : List Byte) (scales : List (Nat × FVal)) : List Int :=
  let w := tnDim e 0
  let h := tnDim e 1
  ((List.range h).flatMap (fun y => (List.range w).map (fun x => sampleInt free (sampleOf e bytes scales x y 0)))) ++
  [1, 2].flatMap (fun layer => (List.range ((h + 1) / 2)).flatMap (fun y => (List.range ((w + 1) / 2)).map (fun x =>
    sampleInt free (chromaMean e bytes scales layer x y))))

/-- The head frame's reading. -/
def setRead (k : Nat) (r : FrameRead) (s : State) : State :=
  modSlot k (fun x => { x with frames := match x.frames with | f :: t => { f with read := some r } :: t | [] => [],
                               faultRuns := [] }) s

/-- The vault offsets of a frame and its scales that may not be read (R38). -/
def frameRefused (s : State) (sp : Space) (t : TEntry) : List AccFault :=
  let rows := if tnVault t then (frameRows t).filterMap (fun r => vaultRefused s sp.rhnd false r.2.1 r.2.2) else []
  let scales := if tnSVault t then
    ((scaleSpots t).map (fun ix => (scaleAddr t ix).1)).filter (fun a => !vaultOk s sp.rhnd a false) else []
  (rows ++ scales).map (fun a => vaultFault a false .E)

/-- The head frame of a slot changed. -/
def modFrame (k : Nat) (f : EncFrame → EncFrame) (s : State) : State :=
  modSlot k (fun x => { x with frames := match x.frames with | y :: t => f y :: t | [] => [] }) s

/-- The frame read, elements and scales (R332, step 2). -/
def frameRead (k : Nat) (x : EncSlot) (sp : Space) (d : List Byte) (s : State) : State :=
  let t := descTensor d
  match readRows k sp (tnVault t) (frameRows t) s with
  | (.error e, s) => encFault k x (lowestRefused e (frameRefused s sp t)) s
  | (.ok r, s) =>
    match readScales k sp t (scaleSpots t) s with
    | (.error e, s) => encFault k x (lowestRefused e (frameRefused s sp t)) s
    | (.ok g, s) =>
      setRead k (if r.2 || g.2 then .uncorrectable else .samples (reducedFrame s.free t r.1 g.1)) { s with free := s.free + 1 }

/-- ENCODE_START: the start flag is at or above SVAL, an acquire of path E, and the frame is read: with it, or, where path E
lags, in a later step of its own (R13, R332). -/
def encodeStart (k : Nat) (s : State) : State :=
  let s := openSession k s
  match lookup k s.encSlots with
  | none => s
  | some x =>
    match x.image, x.frames with
    | some d, f :: _ =>
      match lookup f.cmd s.cmds with
      | none => s
      | some c =>
        if f.read.isSome ∨ x.stopped.isSome then s
        else
          match encEnd s k with
          | some st => setRead k (if st = 3 then .uncorrectable else .fatal) s
          | none =>
            if f.started then frameRead k x (cmdSpace c) d s
            else
              match encPlaces k (cmdSpace c) (fld c.pkt 128 57) 8 false s with
              | (.error e, s) => encFault k x e s
              | (.ok l, s) =>
                if l.any (fun p => isPoisoned s p.2.1 p.1) then setRead k .uncorrectable s
                else if leNat (gatherBytes s l) < fld c.pkt 192 64 then s
                else
                  let s := acquireAll s
                  if s.lag.contains .E then modFrame k (fun f => { f with started := true }) s else frameRead k x (cmdSpace c) d s
    | _, _ => s
def execEncodeStart (slot : Nat) (s : State) : Host.Outcome State Fault Refusal := .next (encodeStart slot s)

/-! ## A frame completed (R332, steps 3 to 6) -/

/-- The frame is a key frame (R333). -/
def isKey (x : EncSlot) (d : List Byte) (c : Cmd) : Bool :=
  decide (x.frameNo = 0) || decide (fld c.pkt 69 1 = 1) || decide (descKeyInterval d ≤ x.sinceKey)

/-- The report (R332): offset, length, frame number, key frame, status, clock. -/
def reportBytes (off len no : Nat) (key : Bool) (status clock : Nat) : List Byte :=
  leBytes 8 off ++ leBytes 4 len ++ leBytes 4 no ++ leBytes 1 (if key then 1 else 0) ++ leBytes 1 status ++ List.replicate 6 0 ++
  leBytes 8 clock

/-- The places of several ranges, all or the first fault. -/
def placesOf (k : Nat) (sp : Space) : List (Nat × Nat) → State → Except AccFault (List (List (Nat × Place × Nat))) × State
  | [], s => (.ok [], s)
  | (va, n) :: t, s =>
    match (if n = 0 then (.ok [], s) else encPlaces k sp va n true s) with
    | (.error f, s) => (.error f, s)
    | (.ok l, s) =>
      match placesOf k sp t s with
      | (.error f, s) => (.error f, s)
      | (.ok ls, s) => (.ok (l :: ls), s)

/-- Bytes written to the places of a range on path E. -/
def encWrite (k : Nat) : List (Nat × Place × Nat) → List Byte → State → State
  | [], _, s => s
  | (n, p, _) :: rest, data, s => encWrite k rest (data.drop n) (laterWrite .E k false p (data.take n) s)

/-- Several ranges written in turn. -/
def writeRanges (k : Nat) : List (List (Nat × Place × Nat)) → List (List Byte) → State → State
  | l :: ls, d :: ds, s => writeRanges k ls ds (encWrite k l d s)
  | _, _, s => s

/-- The frame ends with a report status: the session moves on, and the command completes (R333). -/
def frameEnd (k : Nat) (c : Cmd) (cmd : Nat) (status : Nat) (key : Bool) (next : Nat) (s : State) : State :=
  let s := modSlot k (fun x => { x with frameNo := x.frameNo + 1, sinceKey := if key then 1 else x.sinceKey + 1,
                                        offset := if status = 0 then next else x.offset }) s
  frameOut k cmd (fld c.pkt 70 1 = 1)
    { status := match status with | 0 => 0 | 1 => 0x3E | 2 => 0x20 | _ => 0x22 } s

/-- The done flag stored, as a release of path E, and the frame's end (R332, steps 5 and 6). -/
def frameDone (k : Nat) (c : Cmd) (cmd : Nat) (w : Nat × Bool × Nat) (flag : List (Nat × Place × Nat)) (s : State) : State :=
  frameEnd k c cmd w.1 w.2.1 w.2.2 (scatterBytes flag (leBytes 8 (fld c.pkt 320 64)) (performPath .E s))

/-- Bitstream and report are written: the done flag follows at once, or, where path E lags, in a later step (R13). -/
def frameWrote (k : Nat) (c : Cmd) (cmd : Nat) (w : Nat × Bool × Nat) (flag : List (Nat × Place × Nat)) (s : State) : State :=
  if s.lag.contains .E then modFrame k (fun f => { f with wrote := some w }) s else frameDone k c cmd w flag s

/-- The done flag of a frame: a 64-bit word. -/
def doneFlag (c : Cmd) : Nat × Nat := (fld c.pkt 256 57, 8)

/-- What the frame writes, and its report's status (R332): bitstream and report, in this order, once every page of them and of
the done flag translates; a fault fatal while they are written ends the frame with status 2 and writes what translates of
report and flag (log 31). What the report of a failed frame gives for offset and length is free (log 31). -/
def frameWrite (k : Nat) (x : EncSlot) (d : List Byte) (cmd : Nat) (c : Cmd) (read : FrameRead) (s : State) : State :=
  let key := isKey x d c
  let stream := match read with | .samples b => Config.bitstream s.free key d b | _ => []
  let ended := (encEnd s k).isSome
  let status := match encEnd s k with
    | some st => st
    | none => match read with
    | .samples _ => if descBufSize d < stream.length then 1 else 0
    | .fatal => 2
    | .uncorrectable => 3
  let off := if descBufSize d < x.offset + stream.length then 0 else x.offset
  let rep := (if status = 0 then reportBytes off stream.length else
      reportBytes (Config.freeWord (s.free + 1)).toNat (Config.freeWord (s.free + 2)).toNat) x.frameNo key status s.clock
  let s := { s with free := s.free + 3 }
  let report := (descRing d + 32 * (x.frameNo % 16), 32)
  let w := (status, key, if status = 0 then off + stream.length else 0)
  let ranges := if status = 0 then [(descBuf d + off, stream.length), report] else [report]
  let data := if status = 0 then [stream, rep] else [rep]
  match placesOf k (cmdSpace c) (ranges ++ [doneFlag c]) s with
  | (.ok ls, s) => frameWrote k c cmd w (ls.getLast?.getD []) (writeRanges k ls.dropLast data s)
  | (.error e, s) =>
    if ended then
      match placesOf k (cmdSpace c) [doneFlag c] s with
      | (.error _, s) => frameEnd k c cmd status key 0 s
      | (.ok ls, s) => frameDone k c cmd w (ls.getLast?.getD []) s
    else encFault k x e s

/-- The done flag of a frame whose bitstream and report are written: a fatal fault of its own leaves it unwritten. -/
def frameFlag (k : Nat) (x : EncSlot) (cmd : Nat) (c : Cmd) (w : Nat × Bool × Nat) (s : State) : State :=
  match placesOf k (cmdSpace c) [doneFlag c] s with
  | (.ok ls, s) => frameDone k c cmd w (ls.getLast?.getD []) s
  | (.error e, s) => if (encEnd s k).isSome then frameEnd k c cmd 2 w.2.1 0 (performPath .E s) else encFault k x e s

/-- ENCODE_COMPLETE: bitstream, report and done flag, in this order. -/
def encodeComplete (k : Nat) (s : State) : State :=
  match lookup k s.encSlots with
  | none => s
  | some x =>
    match x.image, x.frames with
    | some d, f :: _ =>
      match lookup f.cmd s.cmds, f.read with
      | some c, some read =>
        if x.stopped.isSome then s
        else
          match f.wrote with
          | some w => frameFlag k x f.cmd c w s
          | none => frameWrite k x d f.cmd c read s
      | _, _ => s
    | _, _ => s
def execEncodeComplete (slot : Nat) (s : State) : Host.Outcome State Fault Refusal := .next (encodeComplete slot s)

end Sys2Proof.Machine
end

