-- ==== Sys2Proof/Machine/Exchange.lean ====
section
/-! DEFINITION. Exchange between lanes: SHFL, REDUX, SCANX, MATCH, VOTE, SSINT (R145 to R150). -/

namespace Sys2Proof.Machine

/-- The source lane of SHFL, and whether there is one (R146). -/
def shflLane (mode l b : Nat) : Nat × Bool :=
  match mode with
  | 0 => (b % 32, true)
  | 1 => if b ≤ l then (l - b, true) else (l, false)
  | 2 => if l + b ≤ 31 then (l + b, true) else (l, false)
  | _ => (l ^^^ (b % 32), true)

/-- SHFL (R146). -/
def shflEff (c : Ctx) : Eff :=
  let n := regsOf c.ty
  { writes := c.dst n (c.act.map (fun l => (l, c.a n (shflLane c.sop l (c.b 1 1 l)).1))) ++
      (if c.w.sx then maskWrites c.w.c (c.act.map (fun l => (l, (shflLane c.sop l (c.b 1 1 l)).2))) else []) }
def execShfl (w : Word) (s : State) : Host.Outcome State Fault Refusal := simtP 0x60 w shflEff s

/-- The identity of a reduction (R147). -/
def reduxIdentity (ty op : Nat) : Nat :=
  if ty = 4 then (match op with | 0 => 0 | 1 => fp32.infBits | _ => 2 ^ 31 + fp32.infBits)
  else
    match op with
    | 1 => wrap 32 (intMax ty)
    | 2 => wrap 32 (intMin ty)
    | 3 => 2 ^ 32 - 1
    | _ => 0

/-- One step of a reduction (R147). -/
def reduxStep (ty op rm : Nat) (a b : Nat) : FRes :=
  if ty = 4 then
    (match op with | 0 => fp32.add rm false a b | 1 => fp32.minmax false a b | _ => fp32.minmax true a b)
  else
    (match op with
      | 0 => (a + b) % 2 ^ 32
      | 1 => if intVal ty b < intVal ty a then b else a
      | 2 => if intVal ty a < intVal ty b then b else a
      | 3 => a &&& b
      | 4 => a ||| b
      | _ => a ^^^ b, 0)

/-- The values combined in order, with the flags of every step. -/
def reduxOf (ty op rm : Nat) : List Nat → FRes
  | [] => (reduxIdentity ty op, 0)
  | v :: rest => rest.foldl (fun acc x =>
      let r := reduxStep ty op rm acc.1 x
      (r.1, acc.2 ||| r.2)) (v, 0)

/-- REDUX (R147): flags gathered once for the warp. -/
def reduxEff (c : Ctx) : Eff :=
  let r := reduxOf c.ty c.sop c.rm (c.act.map (c.a 1))
  { writes := c.dst 1 (c.act.map (fun l => (l, r.1))), flags := (c.act.take 1).map (fun l => (l, r.2)) }
def execRedux (w : Word) (s : State) : Host.Outcome State Fault Refusal := simtP 0x61 w reduxEff s

/-- SCANX (R147); in uniform form the first active lane's combination, with its flags (R115, log 8). -/
def scanxEff (c : Ctx) : Eff :=
  let f := fun l => reduxOf c.ty c.sop c.rm
    ((c.act.filter (fun m => if c.mx = 1 then m < l else m ≤ l)).map (c.a 1))
  { writes := c.dst 1 (c.act.map (fun l => (l, (f l).1))), flags := c.act.map (fun l => (l, (f (c.once l)).2)) }
def execScanx (w : Word) (s : State) : Host.Outcome State Fault Refusal := simtP 0x62 w scanxEff s

/-- MATCH.ANY (R148). -/
def matchAnyEff (c : Ctx) : Eff :=
  let v := c.a (regsOf c.ty)
  c.perLane 1 (fun l => (maskOf (c.act.filter (fun m => v m = v l))).toNat)
def execMatchAny (w : Word) (s : State) : Host.Outcome State Fault Refusal := simtP 0x63 w matchAnyEff s

/-- MATCH.ALL (R148). -/
def matchAllEff (c : Ctx) : Eff :=
  let v := c.a (regsOf c.ty)
  c.perLaneK (fun l => c.act.all (fun m => v m = v l))
def execMatchAll (w : Word) (s : State) : Host.Outcome State Fault Refusal := simtP 0x63 w matchAllEff s

/-- VOTE.ALL, .ANY and .UNI (R149). -/
def voteOf (mode : Nat) (ps : List Bool) : Bool :=
  match mode with
  | 0 => ps.all id
  | 1 => ps.any id
  | _ => ps.all id || !ps.any id
def voteEff (c : Ctx) : Eff := c.perLaneK (fun _ => voteOf c.sop (c.act.map (c.kBit c.w.a)))
def execVote (w : Word) (s : State) : Host.Outcome State Fault Refusal := simtP 0x16 w voteEff s

/-- VOTE.BAL (R149). -/
def voteBalEff (c : Ctx) : Eff := c.perLane 1 (fun _ => (maskOf (c.act.filter (c.kBit c.w.a))).toNat)
def execVoteBal (w : Word) (s : State) : Host.Outcome State Fault Refusal := simtP 0x16 w voteBalEff s

/-- SSINT (R150). -/
def ssintEff (c : Ctx) : Eff :=
  match c.act.getLast? with
  | none => {}
  | some top =>
    let a := c.a 1
    let b := c.b 1 1
    let x := (c.act.filter (fun l => a l ≤ b top)).length
    let y := (c.act.filter (fun l => b l ≤ a top)).length
    { writes :=
        maskWrites c.w.d (c.act.map (fun l => (l, c.act.any (fun m => b m = a l)))) ++
        maskWrites c.w.c (c.act.map (fun l => (l, c.act.any (fun m => a m = b l)))) ++
        regWrites (BitVec.ofNat 8 c.w.ext.toNat) 1 0 x ++ regWrites (BitVec.ofNat 8 (c.w.ext.toNat / 256)) 1 0 y }
def execSsint (w : Word) (s : State) : Host.Outcome State Fault Refusal := simtP 0x64 w ssintEff s

end Sys2Proof.Machine
end

