-- ==== Sys2Proof/Machine/HostSide.lean ====
section
/-! DEFINITION. What the host and the package's surroundings do: FQCONS (R32), the management mailbox (R395 to R400),
scrubbing and predictive counters (R384 to R386), power and reset (R397, R398), CXL traffic (R33, R34), and failed
resends (R210). -/

namespace Sys2Proof.Machine

/-! ## FQCONS (R32) -/

/-- A warp no longer waits on a fault; with its last one gone it is ready to start its run again (R29). -/
def warpServiced (clock key : Nat) (w : Warp) : Warp :=
  if w.faultWait.contains key then
    let l := w.faultWait.filter (fun x => x ≠ key)
    { w with faultWait := l, readySince := if l.isEmpty then clock else w.readySince }
  else w

def matServiced (key : Nat) (o : MatOp) : MatOp := if o.stopped = some key then { o with stopped := none } else o
def copyServiced (key : Nat) (c : Copy) : Copy := if c.stopped = some key then { c with stopped := none } else c

/-- A context Faulted on the key goes on at its instruction; its operations and messages go on (R235, R236). -/
def weirServiced (key : Nat) (x : WeirCtx) : WeirCtx :=
  let x := if x.faultWait = some key then
      { x with faultWait := none, state := if x.state = .faulted then .running else x.state } else x
  { x with ops := x.ops.map (fun o => if o.stopped = some key then { o with stopped := none } else o),
           msgs := x.msgs.map (fun m => if m.stopped = some key then { m with stopped := none } else m) }

/-- Every requester parked on a record is released (R29, R32). -/
def releaseKey (key : Nat) (s : State) : State :=
  { s with
    warps := s.warps.map (fun x => (x.1, warpServiced s.clock key x.2)),
    parts := s.parts.map (fun x => (x.1, { x.2 with queue := x.2.queue.map (matServiced key) })),
    copies := s.copies.map (fun x => (x.1, copyServiced key x.2)),
    weirs := s.weirs.map (fun x => (x.1, weirServiced key x.2)),
    encSlots := s.encSlots.map (fun x => (x.1, if x.2.stopped = some key then { x.2 with stopped := none } else x.2)),
    saved := s.saved.map (fun x => (x.1, { x.2 with
      warps := x.2.warps.map (fun w => (w.1, warpServiced s.clock key w.2)),
      queues := x.2.queues.map (fun q => (q.1, q.2.map (matServiced key))),
      copies := x.2.copies.map (fun c => (c.1, copyServiced key c.2)) })),
    savedLoose := s.savedLoose.map (fun x => (x.1, { x.2 with warp := warpServiced s.clock key x.2.warp })) }

/-- FQCONS passes record `i`: its KILL bit read, its requesters ended or released, and what was waiting for its page
performed (R30, R32, R236). -/
def passRecord (base i : Nat) (s : State) : State :=
  match s.faultWaits.find? (fun f => f.ix = some i) with
  | none => s
  | some f =>
    let kill := ((s.dev.get (base + 32 * (i % 4096) + 8)).getLsbD 0)
    let s := { s with faultWaits := s.faultWaits.filter (fun g => g.key ≠ f.key) }
    let s := if kill then f.who.foldl (fun s r => if waitsOn s f.key r then endRequester i 1 f.kind r s else s) s else s
    settleConns (releaseKey f.key s)

/-- FQCONS_WRITE: a write that moves backwards or past FQPROD is ignored. -/
def fqconsWrite (v : W32) (s : State) : State :=
  let n := (v - s.fqCons).toNat
  if (s.fqProd - s.fqCons).toNat < n then s
  else
    let base := s.fqBase.getD 0
    let s' := (List.range n).foldl (fun s i => passRecord base ((s.fqCons.toNat + i) % 2 ^ 32) s) { s with fqArmed := true }
    offerCmds (flushFaults { s' with fqCons := v })
def execFqconsWrite (val : BitVec 64) (s : State) : Host.Outcome State Fault Refusal :=
  .next (fqconsWrite (BitVec.setWidth 32 val) s)

/-! ## Registers of BAR 2 (R308) -/

/-- What a read of BAR 2 returns: CLKNOW, FQPROD and FQCONS; zero everywhere else. -/
def bar2Read (off : Nat) (s : State) : W64 :=
  match off with
  | 0 => BitVec.ofNat 64 s.clock
  | 8 => BitVec.setWidth 64 s.fqProd
  | 16 => BitVec.setWidth 64 s.fqCons
  | _ => 0

/-! ## The mailbox (R395) -/

/-- A standard command: what identify and the log give is the package's own; the event commands read the event log, and
clear its oldest records (R385, R395, log 26). -/
def mailStandard (c : MailCommand) (s : State) : State :=
  match c with
  | .identify => { s with mailReply := some (.report Config.identifyData) }
  | .getLog => { s with mailReply := some (.report Config.logData) }
  | .getEvents => { s with mailReply := some (.events s.mailLog) }
  | .clearEvents n => { s with mailLog := s.mailLog.drop n, mailReply := some .success }

/-- A launch is placed: one of its gangs or warps is on a core. -/
def anyPlaced (s : State) : Bool := !s.gangs.isEmpty || !s.warps.isEmpty

/-- A vendor command with its effect, or refused with "invalid input". -/
def mailbox (ok : Bool) (f : State → State) (s : State) : Host.Outcome State Fault Refusal :=
  .next (if ok then { f s with mailReply := some .success } else { s with mailReply := some .invalidInput })

def execSetPackageNumber (num : Nat) (s : State) : Host.Outcome State Fault Refusal :=
  mailbox (!anyPlaced s && decide (num < 4096)) (fun s => { s with packageNo := num }) s

def execWriteRouteTable (first : Nat) (masks : List (BitVec 16)) (s : State) : Host.Outcome State Fault Refusal :=
  mailbox (!anyPlaced s && decide (first + masks.length ≤ 4096)) (fun s =>
    { s with routes := (masks.mapIdx (fun i m => (first + i, m))).foldl (fun l x => put x.1 x.2 l) s.routes }) s

def execSetSegmentDirectoryBase (dpa : Nat) (s : State) : Host.Outcome State Fault Refusal :=
  mailbox (!anyPlaced s && decide (dpa % 131072 = 0 ∧ dpa < dpaLimit)) (fun s => { s with segDir := some dpa }) s

def execSetSavePool (base size : Nat) (s : State) : Host.Outcome State Fault Refusal :=
  mailbox (!anyPlaced s && decide (base % 2 ^ 20 = 0 ∧ size % 2 ^ 20 = 0 ∧ base + size ≤ dpaLimit))
    (fun s => { s with savePool := some (base, size) }) s

/-- The interval is in milliseconds (R386, log 15). -/
def execSetPredictiveMarks (kind mark interval : Nat) (s : State) : Host.Outcome State Fault Refusal :=
  mailbox (!anyPlaced s && decide (kind < 5 ∧ 1 ≤ mark ∧ mark < 65536 ∧ 1 ≤ interval ∧ interval ≤ 65000)) (fun s =>
    { s with marks := put kind mark s.marks, drainInterval := 1050000 * interval }) s

/-- The map of the cores in service (R392). -/
def coreMap (s : State) : BitVec 256 :=
  (List.range 256).foldl (fun m c => if s.coresOut.contains c then m else m ||| (1#256 <<< c)) 0

/-- The attestation report (R399). -/
def attestation (s : State) (nonce : BitVec 256) : List Byte :=
  let body := leBytes 4 0x56415254 ++ leBytes 4 Config.romVersion.toNat ++ leBytes 32 nonce.toNat ++
    leBytes 32 Config.fuseConfig.toNat ++ leBytes 32 (coreMap s).toNat ++
    leBytes 32 (match s.patch with | some p => p.1.toNat | none => 0) ++
    leBytes 4 (match s.patch with | some p => p.2 | none => 0) ++
    (List.range 64).map Config.identityKey ++ List.replicate 244 0
  body ++ (List.range 64).map (Config.signature body)
def execGetAttestationReport (nonce : BitVec 256) (s : State) : Host.Outcome State Fault Refusal :=
  .next { s with mailReply := some (.report (attestation s nonce)) }

/-- The bytes of a patch image (R400, log 26). -/
def patchImage (image : Nat) (s : State) : List Byte := readPlace s (.dev image) Config.patchLength

/-- LOAD_PATCH_SET (R400): signed, its version at least the fuses' minimum, and no launch placed. -/
def execLoadPatchSet (image : Nat) (s : State) : Host.Outcome State Fault Refusal :=
  let b := patchImage image s
  mailbox (!anyPlaced s && Config.patchSigned b && decide (Config.patchMinimum ≤ Config.patchVersion b))
    (fun s => { s with patch := some (Config.patchHash b, Config.patchVersion b) }) s

def execSetPowerCap (watts : Nat) (s : State) : Host.Outcome State Fault Refusal :=
  mailbox (decide (1200 ≤ watts ∧ watts ≤ 3000)) (fun s => { s with powerCap := watts }) s

/-- SET_FAULT_QUEUE_BASE (R32): both indices 0, and the faults that waited for a base get their records. -/
def setFaultBase (dpa : Nat) (s : State) : State :=
  offerCmds (flushFaults { s with
    fqBase := some dpa, fqProd := 0, fqCons := 0, fqArmed := true,
    faultWaits := s.faultWaits.map (fun f => { f with ix := none }) })
def execSetFaultQueueBase (dpa : Nat) (s : State) : Host.Outcome State Fault Refusal :=
  mailbox (!anyPlaced s && decide (dpa % 131072 = 0 ∧ dpa + 131072 ≤ dpaLimit)) (setFaultBase dpa) s

/-- MAILBOX_UNSUPPORTED (R395). -/
def execMailboxUnsupported (_opcode : BitVec 16) (s : State) : Host.Outcome State Fault Refusal :=
  .next { s with mailReply := some .unsupported }

/-! ## Scrubbing and predictive failure (R384 to R386) -/

/-- The unit of a memory bank counter: 16 banks to each stack channel, then the vaults (R386, log 15). -/
def bankUnit (inVault : Bool) (a : Nat) : Nat :=
  if inVault then 16384 + a / 2 ^ 22
  else
    let o := a % 0x1800000000
    let ch := (o / 2 ^ 7 % 128) ^^^ (o / 2 ^ 14 % 128) ^^^ (o / 2 ^ 21 % 128)
    16 * (128 * (a / 0x1800000000) + ch) + Config.bankOf a % 16

/-- PATROL_SCRUB: a corrected error is counted; an uncorrectable granule is poisoned and reported, and stops nothing. -/
def patrolScrub (inVault : Bool) (a : Nat) (found : ScrubResult) (s : State) : State :=
  match found with
  | .clean => s
  | .corrected => bumpCounter 0 (bankUnit inVault a) 1 s
  | .uncorrectable =>
    if inVault then { s with badVault := insertNat (a / 8) s.badVault, mailLog := s.mailLog ++ [.poisonedVault (a / 8 * 8)] }
    else { s with badDev := insertNat (a / 32) s.badDev, mailLog := s.mailLog ++ [.poisonedDev (a / 32 * 32)] }
def execPatrolScrub (vault : Bool) (addr : Nat) (found : ScrubResult) (s : State) : Host.Outcome State Fault Refusal :=
  .next (patrolScrub vault addr found s)

/-- A drain interval has passed since the counters drained last (R386). -/
def drainDue (s : State) : Bool := decide (0 < s.drainInterval ∧ s.drainedAt + s.drainInterval ≤ s.clock)

/-- PREDICTIVE_DRAIN (R386): every drain interval takes 1 from every counter. -/
def predictiveDrain (s : State) : State :=
  if drainDue s then
    { s with counters := s.counters.map (fun x => (x.1, x.2 - 1)), drainedAt := s.drainedAt + s.drainInterval }
  else s
def execPredictiveDrain (s : State) : Host.Outcome State Fault Refusal := .next (predictiveDrain s)

/-- FLIT_RESEND (R210): a failed resend of a flit not yet delivered is counted, 16 in a row at most. -/
def flitResend (r : Nat) (s : State) : State :=
  let x := lookupD r {} s.rills
  if x.state = .up ∧ ¬ (x.queued = [] ∧ x.replay = []) ∧ x.resends < 16 then
    bumpCounter 4 r 1 (modRill r (fun x => { x with resends := x.resends + 1 }) s)
  else s
def execFlitResend (rill : Nat) (s : State) : Host.Outcome State Fault Refusal := .next (flitResend rill s)

/-! ## Power (R397) -/

/-- THERMAL_THROTTLE: one issue slot more in 16 is withheld, at most 15; then the stacks are rate-limited. -/
def thermalThrottle (s : State) : State :=
  if s.withheld < 15 then { s with withheld := s.withheld + 1 } else { s with rateLimited := true }
def execThermalThrottle (s : State) : Host.Outcome State Fault Refusal := .next (thermalThrottle s)

/-- THROTTLE_RELEASE. -/
def execThrottleRelease (s : State) : Host.Outcome State Fault Refusal :=
  .next { s with withheld := 0, rateLimited := false }

/-- THERMAL_SHUTDOWN: every launch, those waiting for a context too, is killed with 0x0022; DET is not given (log 32). A
package that is off has nothing to shut down. -/
def thermalShutdown (s : State) : State :=
  let det := (Config.freeWord s.free).toNat % 65536
  let t := { s with power := .d3hot, free := s.free + 1 }
  let t := t.launches.foldl (fun s l => killLaunch l.1 0x22 allOnes64 det s) t
  if s.power = .d3cold then s else t.cmds.foldl (fun s c =>
    match c.2.work with
    | .launching _ _ => finishCmd c.1 { status := 0x22, det := det } s
    | _ => s) t
def execThermalShutdown (s : State) : Host.Outcome State Fault Refusal := .next (thermalShutdown s)

/-- IDLE_ENTRY: no gang placed for 10 ms. -/
def idleEntry (s : State) : State :=
  if s.power = .d0active ∧ s.gangs.isEmpty ∧ s.idleSince + 10500000 ≤ s.clock then { s with power := .d0idle } else s
def execIdleEntry (s : State) : Host.Outcome State Fault Refusal := .next (idleEntry s)

/-- PACKAGE_RESET (R398): every reset value again; device and vault memory with their errors stay, as does what lies
outside the package (log 33). Out of D3cold, which lost that memory, it holds what it holds at reset (R397). -/
def packageReset (s : State) : State :=
  let kept := if s.power = .d3cold then State.reset else s
  { State.reset with dev := kept.dev, vault := kept.vault, host := s.host, badDev := kept.badDev, badVault := kept.badVault,
                     badHost := s.badHost, outbox := s.outbox, agenda := s.agenda, free := s.free }
def execPackageReset (s : State) : Host.Outcome State Fault Refusal := .next (packageReset s)

/-- POWER_OFF (R397, R398): D3cold; vault and device memory are lost, and the counter stands until package reset. -/
def powerOff (s : State) : State :=
  { State.reset with power := .d3cold, clock := s.clock, host := s.host, badHost := s.badHost, outbox := s.outbox,
                     agenda := s.agenda, free := s.free }
def execPowerOff (s : State) : Host.Outcome State Fault Refusal := .next (powerOff s)

/-! ## CXL (R33, R34) -/

/-- CXL_MEM_ACCESS (R34): a host write performed at the owning L2; a host read changes nothing. In D3cold there is no memory
to write (R397). -/
def cxlMemAccess (write : Bool) (a : Nat) (bytes : List Byte) (s : State) : State :=
  if write ∧ a + bytes.length ≤ dpaLimit ∧ s.power ≠ .d3cold then writePlace (.dev a) bytes s else s
def execCxlMemAccess (write : Bool) (addr : Nat) (bytes : List Byte) (s : State) : Host.Outcome State Fault Refusal :=
  .next (cxlMemAccess write addr bytes s)

/-- CXL_CACHE_SNOOP (R33, R317): the 128-byte host line leaves the launch-line cache; an update is the line's new bytes. -/
def cxlCacheSnoop (line : Nat) (update : Option (List Byte)) (s : State) : State :=
  match update with
  | none => { s with launchLines := s.launchLines.filter (fun l => l ≠ 2 * line + 1) }
  | some b => writePlace (.host (128 * line)) (b.take 128) { s with launchLines := s.launchLines.filter (fun l => l ≠ 2 * line + 1) }
def execCxlCacheSnoop (line : Nat) (update : Option (List Byte)) (s : State) : Host.Outcome State Fault Refusal :=
  .next (cxlCacheSnoop line update s)

end Sys2Proof.Machine
end

