-- ==== Sys2Proof/Machine/IntArith.lean ====
section
/-! DEFINITION. Integer arithmetic (R118 to R123): operands as exact integers, one narrowing at the end. -/

namespace Sys2Proof.Machine

/-- Operand A as an integer of the instruction's type. -/
def Ctx.intA (c : Ctx) (l : Nat) : Int := intVal c.ty (c.a (regsOf c.ty) l)

/-- Operand B as an integer of the instruction's type. -/
def Ctx.intB (c : Ctx) (l : Nat) : Int := intVal c.ty (c.b (regsOf c.ty) c.ty l)

/-- Operand C as an integer of the instruction's type. -/
def Ctx.intC (c : Ctx) (l : Nat) : Int := intVal c.ty (c.c (regsOf c.ty) l)

/-- The result pattern: clamped to the type under SAT, else its low bits (R119). -/
def narrow (ty : Nat) (sat : Bool) (x : Int) : Nat := wrap (intWidth ty) (if sat then satInt ty x else x)

/-- A result of the instruction's type, computed exactly lane by lane. -/
def Ctx.intResult (c : Ctx) (f : Nat → Int) : Eff := c.perLane (regsOf c.ty) (fun l => narrow c.ty c.w.sat (f l))

/-- IADD: x := a + b (R119). -/
def iaddEff (c : Ctx) : Eff := c.intResult (fun l => c.intA l + c.intB l)
def execIadd (w : Word) (s : State) : Host.Outcome State Fault Refusal := simtP 0x20 w iaddEff s

/-- ISUB: x := a − b (R119). -/
def isubEff (c : Ctx) : Eff := c.intResult (fun l => c.intA l - c.intB l)
def execIsub (w : Word) (s : State) : Host.Outcome State Fault Refusal := simtP 0x21 w isubEff s

/-- The lane whose mask bit a uniform form takes is the lowest active one (log 8). -/
def Ctx.maskLane (c : Ctx) (l : Nat) : Nat := if c.dScalar then c.act.headD l else l

/-- The exact sum of IADDC: a + b + carry in (R120). -/
def iaddcSum (c : Ctx) (l : Nat) : Nat :=
  c.a 1 l + c.b 1 1 l + (if c.kBit c.w.c (c.maskLane l) then 1 else 0)

/-- IADDC: the low 32 bits to D, bit 32 to the carry-out mask (R120). -/
def iaddcEff (c : Ctx) : Eff :=
  { writes := c.dst 1 (c.act.map (fun l => (l, iaddcSum c l % 2 ^ 32))) ++
      (if c.w.sop = 15 then []
       else maskWrites (BitVec.setWidth 8 c.w.sop) (c.act.map (fun l => (l, decide (2 ^ 32 ≤ iaddcSum c l))))) }
def execIaddc (w : Word) (s : State) : Host.Outcome State Fault Refusal := simtP 0x22 w iaddcEff s

/-- IMUL: x := a × b (R119). -/
def imulEff (c : Ctx) : Eff := c.intResult (fun l => c.intA l * c.intB l)
def execImul (w : Word) (s : State) : Host.Outcome State Fault Refusal := simtP 0x23 w imulEff s

/-- IMULH: x := ⌊a × b / 2^w⌋ (R119). -/
def imulhEff (c : Ctx) : Eff := c.intResult (fun l => c.intA l * c.intB l / 2 ^ intWidth c.ty)
def execImulh (w : Word) (s : State) : Host.Outcome State Fault Refusal := simtP 0x24 w imulhEff s

/-- IMAD: x := a × b + c (R119). -/
def imadEff (c : Ctx) : Eff := c.intResult (fun l => c.intA l * c.intB l + c.intC l)
def execImad (w : Word) (s : State) : Host.Outcome State Fault Refusal := simtP 0x25 w imadEff s

/-- IMADW: 32 by 32 bits plus 64; c and the result are s64 for TY 0, u64 for TY 1 (R119). -/
def imadwEff (c : Ctx) : Eff :=
  c.perLane 2 (fun l => narrow (c.ty + 2) c.w.sat (c.intA l * c.intB l + intVal (c.ty + 2) (c.c 2 l)))
def execImadw (w : Word) (s : State) : Host.Outcome State Fault Refusal := simtP 0x26 w imadwEff s

/-- IMIN (R119). -/
def iminEff (c : Ctx) : Eff := c.intResult (fun l => min (c.intA l) (c.intB l))
def execImin (w : Word) (s : State) : Host.Outcome State Fault Refusal := simtP 0x27 w iminEff s

/-- IMAX (R119). -/
def imaxEff (c : Ctx) : Eff := c.intResult (fun l => max (c.intA l) (c.intB l))
def execImax (w : Word) (s : State) : Host.Outcome State Fault Refusal := simtP 0x28 w imaxEff s

/-- IABS: x := |a| (R119). -/
def iabsEff (c : Ctx) : Eff := c.intResult (fun l => ((c.intA l).natAbs : Int))
def execIabs (w : Word) (s : State) : Host.Outcome State Fault Refusal := simtP 0x29 w iabsEff s

/-- INEG: x := −a (R119). -/
def inegEff (c : Ctx) : Eff := c.intResult (fun l => - c.intA l)
def execIneg (w : Word) (s : State) : Host.Outcome State Fault Refusal := simtP 0x2A w inegEff s

/-- The condition of ICMP (R122). -/
def intCond (cc : Nat) (a b : Int) : Bool :=
  match cc with
  | 0 => a = b
  | 1 => a ≠ b
  | 2 => a < b
  | 3 => a ≤ b
  | 4 => b < a
  | _ => b ≤ a

/-- ICMP (R122). -/
def icmpEff (c : Ctx) : Eff := c.perLaneK (fun l => intCond c.sop (c.intA l) (c.intB l))
def execIcmp (w : Word) (s : State) : Host.Outcome State Fault Refusal := simtP 0x2B w icmpEff s

/-- LEA: D := (A + e × 2^C) mod 2^64, e the extended index (R121). -/
def leaEff (c : Ctx) : Eff := c.perLane 2 (fun l => wrap 64 ((c.a 2 l : Int) + c.intB l * 2 ^ c.w.c.toNat))
def execLea (w : Word) (s : State) : Host.Outcome State Fault Refusal := simtP 0x2C w leaEff s

/-- Quotient and remainder of R123: truncating, with its fixed results for b = 0 and for the one overflow. -/
def intDivRem (ty : Nat) (sat : Bool) (a b : Int) : Int × Int :=
  if b = 0 then (2 ^ intWidth ty - 1, a)
  else if intMax ty < a.tdiv b then (if sat then intMax ty else intMin ty, 0)
  else (a.tdiv b, a.tmod b)

/-- IDIV (R123). -/
def idivEff (c : Ctx) : Eff :=
  c.perLane (regsOf c.ty) (fun l => wrap (intWidth c.ty) (intDivRem c.ty c.w.sat (c.intA l) (c.intB l)).1)
def execIdiv (w : Word) (s : State) : Host.Outcome State Fault Refusal := simtP 0x2D w idivEff s

/-- IREM (R123). -/
def iremEff (c : Ctx) : Eff :=
  c.perLane (regsOf c.ty) (fun l => wrap (intWidth c.ty) (intDivRem c.ty c.w.sat (c.intA l) (c.intB l)).2)
def execIrem (w : Word) (s : State) : Host.Outcome State Fault Refusal := simtP 0x2E w iremEff s

end Sys2Proof.Machine
end

