-- ==== Sys2Proof/Machine/Logic.lean ====
section
/-! DEFINITION. Logic, shifts and bit fields (R124, R125). -/

namespace Sys2Proof.Machine

/-- Operand A as an unsigned pattern of the instruction's width. -/
def Ctx.pa (c : Ctx) (l : Nat) : Nat := c.a (regsOf c.ty) l
/-- Operand B as an unsigned pattern of the instruction's width. -/
def Ctx.pb (c : Ctx) (l : Nat) : Nat := c.b (regsOf c.ty) c.ty l
/-- The unsigned 32-bit count of a shift or bit-field instruction (R125). -/
def Ctx.count (c : Ctx) (l : Nat) : Nat := c.b 1 1 l
/-- The width in bits. -/
def Ctx.bits (c : Ctx) : Nat := intWidth c.ty

/-- AND (R124). -/
def andEff (c : Ctx) : Eff := c.perLane (regsOf c.ty) (fun l => c.pa l &&& c.pb l)
def execAnd (w : Word) (s : State) : Host.Outcome State Fault Refusal := simtP 0x30 w andEff s

/-- OR (R124). -/
def orEff (c : Ctx) : Eff := c.perLane (regsOf c.ty) (fun l => c.pa l ||| c.pb l)
def execOr (w : Word) (s : State) : Host.Outcome State Fault Refusal := simtP 0x31 w orEff s

/-- XOR (R124). -/
def xorEff (c : Ctx) : Eff := c.perLane (regsOf c.ty) (fun l => c.pa l ^^^ c.pb l)
def execXor (w : Word) (s : State) : Host.Outcome State Fault Refusal := simtP 0x32 w xorEff s

/-- NOT: the complement of each bit (R124). -/
def notEff (c : Ctx) : Eff := c.perLane (regsOf c.ty) (fun l => 2 ^ c.bits - 1 - c.pa l)
def execNot (w : Word) (s : State) : Host.Outcome State Fault Refusal := simtP 0x33 w notEff s

/-- A × 2^n modulo 2^w; 0 from n = w on (R125). -/
def shiftLeft (w a n : Nat) : Nat := if w ≤ n then 0 else a * 2 ^ n % 2 ^ w
/-- ⌊A / 2^n⌋ unsigned; 0 from n = w on (R125). -/
def shiftRight (w a n : Nat) : Nat := if w ≤ n then 0 else a / 2 ^ n
/-- ⌊A / 2^n⌋ signed; all copies of the sign from n = w on (R125). -/
def shiftArith (w : Nat) (a : Int) (n : Nat) : Nat := wrap w (a / 2 ^ min n w)
/-- A rotated left by n mod w (R125). -/
def rotate (w a n : Nat) : Nat := a * 2 ^ (n % w) % 2 ^ w + a / 2 ^ (w - n % w)

/-- SHL (R125). -/
def shlEff (c : Ctx) : Eff := c.perLane (regsOf c.ty) (fun l => shiftLeft c.bits (c.pa l) (c.count l))
def execShl (w : Word) (s : State) : Host.Outcome State Fault Refusal := simtP 0x34 w shlEff s

/-- SHR (R125). -/
def shrEff (c : Ctx) : Eff := c.perLane (regsOf c.ty) (fun l => shiftRight c.bits (c.pa l) (c.count l))
def execShr (w : Word) (s : State) : Host.Outcome State Fault Refusal := simtP 0x35 w shrEff s

/-- SAR (R125). -/
def sarEff (c : Ctx) : Eff := c.perLane (regsOf c.ty) (fun l => shiftArith c.bits (intVal c.ty (c.pa l)) (c.count l))
def execSar (w : Word) (s : State) : Host.Outcome State Fault Refusal := simtP 0x36 w sarEff s

/-- ROT (R125). -/
def rotEff (c : Ctx) : Eff := c.perLane (regsOf c.ty) (fun l => rotate c.bits (c.pa l) (c.count l))
def execRot (w : Word) (s : State) : Host.Outcome State Fault Refusal := simtP 0x37 w rotEff s

/-- Position and effective length of a bit field (R125). -/
def fieldOf (w b : Nat) : Nat × Nat := (b % 256, if w ≤ b % 256 then 0 else min (b / 256 % 256) (w - b % 256))

/-- BFX: the field, zero- or sign-extended by the type (R125). -/
def bfxOf (ty a b : Nat) : Nat :=
  let f := fieldOf (intWidth ty) b
  if f.2 = 0 then 0
  else if intSigned ty then wrap (intWidth ty) (sx f.2 (a / 2 ^ f.1)) else a / 2 ^ f.1 % 2 ^ f.2
def bfxEff (c : Ctx) : Eff := c.perLane (regsOf c.ty) (fun l => bfxOf c.ty (c.pa l) (c.count l))
def execBfx (w : Word) (s : State) : Host.Outcome State Fault Refusal := simtP 0x38 w bfxEff s

/-- BFI: C with the field replaced by the low bits of A (R125). -/
def bfiOf (w a b c : Nat) : Nat :=
  let f := fieldOf w b
  c / 2 ^ (f.1 + f.2) * 2 ^ (f.1 + f.2) + a % 2 ^ f.2 * 2 ^ f.1 + c % 2 ^ f.1
def bfiEff (c : Ctx) : Eff :=
  c.perLane (regsOf c.ty) (fun l =>
    if (fieldOf c.bits (c.count l)).2 = 0 then c.c (regsOf c.ty) l
    else bfiOf c.bits (c.pa l) (c.count l) (c.c (regsOf c.ty) l))
def execBfi (w : Word) (s : State) : Host.Outcome State Fault Refusal := simtP 0x39 w bfiEff s

/-- The number of one bits among the low `w`. -/
def popcount : Nat → Nat → Nat
  | 0, _ => 0
  | w + 1, a => a % 2 + popcount w (a / 2)

/-- POPC (R124). -/
def popcEff (c : Ctx) : Eff := c.perLane 1 (fun l => popcount c.bits (c.pa l))
def execPopc (w : Word) (s : State) : Host.Outcome State Fault Refusal := simtP 0x3A w popcEff s

/-- CLZ: w for a zero operand (R124). -/
def clzEff (c : Ctx) : Eff := c.perLane 1 (fun l => c.bits - bitLen (c.pa l))
def execClz (w : Word) (s : State) : Host.Outcome State Fault Refusal := simtP 0x3B w clzEff s

/-- The low `w` bits in reverse order. -/
def reverseBits : Nat → Nat → Nat
  | 0, _ => 0
  | w + 1, a => a % 2 * 2 ^ w + reverseBits w (a / 2)

/-- BREV (R124). -/
def brevEff (c : Ctx) : Eff := c.perLane (regsOf c.ty) (fun l => reverseBits c.bits (c.pa l))
def execBrev (w : Word) (s : State) : Host.Outcome State Fault Refusal := simtP 0x3C w brevEff s

/-- SEL: A where the mask bit is 1, else B (R124); a uniform form takes the lowest active lane's bit (log 8). -/
def selEff (c : Ctx) : Eff :=
  c.perLane (regsOf c.ty) (fun l =>
    if c.kBit c.w.c (if c.dScalar then c.act.headD l else l) then c.pa l else c.pb l)
def execSel (w : Word) (s : State) : Host.Outcome State Fault Refusal := simtP 0x3D w selEff s

/-- Bit i of the result is bit A_i + 2·B_i + 4·C_i of the table (R125). -/
def ternOf (tbl : Nat) : Nat → Nat → Nat → Nat → Nat
  | 0, _, _, _ => 0
  | w + 1, a, b, c => tbl / 2 ^ (a % 2 + 2 * (b % 2) + 4 * (c % 2)) % 2 + 2 * ternOf tbl w (a / 2) (b / 2) (c / 2)

/-- TERN (R125). -/
def ternEff (c : Ctx) : Eff :=
  c.perLane (regsOf c.ty) (fun l => ternOf (c.w.ext.toNat % 256) c.bits (c.pa l) (c.pb l) (c.c (regsOf c.ty) l))
def execTern (w : Word) (s : State) : Host.Outcome State Fault Refusal := simtP 0x3E w ternEff s

/-- One result byte of BPICK under its control byte (R125). -/
def bpickByte (x ctl : Nat) : Nat :=
  if ctl / 16 % 2 = 1 then 0
  else
    let b := x / 2 ^ (8 * (ctl % 8)) % 256
    if ctl / 8 % 2 = 1 then reverseBits 8 b else b

/-- BPICK: bytes picked from A:B under C (R125). -/
def bpickOf (a b c : Nat) : Nat :=
  (List.range 4).foldr (fun j acc => bpickByte (a * 2 ^ 32 + b) (c / 2 ^ (8 * j) % 256) + 256 * acc) 0
def bpickEff (c : Ctx) : Eff := c.perLane 1 (fun l => bpickOf (c.a 1 l) (c.b 1 1 l) (c.c 1 l))
def execBpick (w : Word) (s : State) : Host.Outcome State Fault Refusal := simtP 0x3F w bpickEff s

end Sys2Proof.Machine
end

