-- ==== Sys2Proof/Machine/Masks.lean ====
section
/-! DEFINITION. Mask registers, serial sections and elections (R268 to R271). -/

namespace Sys2Proof.Machine

/-- Every bit of a mask register, for a form performed once for the warp when it has an active lane (R269). -/
def Ctx.allK (c : Ctx) (x : Nat) : Eff :=
  if c.act.isEmpty then {} else { writes := maskWrites c.w.d (allLanes.map (fun l => (l, x.testBit l))) }

/-- MJOIN (R269). -/
def mjoinEff (c : Ctx) : Eff := c.perLaneK (fun _ => true)
def execMjoin (w : Word) (s : State) : Host.Outcome State Fault Refusal := simtP 0x10 w mjoinEff s

/-- MLEAVE (R269). -/
def mleaveEff (c : Ctx) : Eff := c.perLaneK (fun _ => false)
def execMleave (w : Word) (s : State) : Host.Outcome State Fault Refusal := simtP 0x11 w mleaveEff s

/-- MWAIT (R270). -/
def mwaitEff (c : Ctx) : Eff := { term := some c.pend }
def execMwait (w : Word) (s : State) : Host.Outcome State Fault Refusal := simtP 0x12 w mwaitEff s
/-- Lanes whose bit is 1 as the commit leaves the mask park on it (log 11). -/
def mwaitEnd (f : Fin) (s : State) : State :=
  modWarp f.key (fun w =>
    w.setStates (f.p.lanes.filter (fun l => (lookupD f.p.w.a.toNat 0 w.k).getLsbD l))
      (.parked (.mask f.p.w.a.toNat))) s

/-- KSET (R269). -/
def ksetEff (c : Ctx) : Eff :=
  if c.w.sx then c.allK (c.b 1 1 (c.act.headD 0)) else c.perLaneK (fun l => (c.b 1 1 l).testBit l)
def execKset (w : Word) (s : State) : Host.Outcome State Fault Refusal := simtP 0x13 w ksetEff s

/-- KSET.LANE (R269). -/
def ksetLaneEff (c : Ctx) : Eff := c.perLaneK (fun l => (c.a 1 l).testBit 0)
def execKsetLane (w : Word) (s : State) : Host.Outcome State Fault Refusal := simtP 0x13 w ksetLaneEff s

/-- The operation of KLOG on one bit (R268). -/
def klogBit (op : Nat) (a b : Bool) : Bool :=
  match op with
  | 0 => a && b
  | 1 => a || b
  | 2 => a != b
  | 3 => a && !b
  | _ => !a

/-- KLOG (R269). -/
def klogEff (c : Ctx) : Eff :=
  let f := fun l => klogBit c.sop (c.kBit c.w.a l) (c.kBit c.w.b l)
  if c.w.sx then
    (if c.act.isEmpty then {} else { writes := maskWrites c.w.d (allLanes.map (fun l => (l, f l))) })
  else c.perLaneK f
def execKlog (w : Word) (s : State) : Host.Outcome State Fault Refusal := simtP 0x14 w klogEff s

/-- KMOV (R269). -/
def kmovEff (c : Ctx) : Eff := c.perLane 1 (fun _ => (c.kWord c.w.a).toNat)
def execKmov (w : Word) (s : State) : Host.Outcome State Fault Refusal := simtP 0x15 w kmovEff s

/-- SERB: the resource-bound cause while a section is open (R271). -/
def serbEff (c : Ctx) : Eff :=
  if c.act.isEmpty then { term := some c.pend }
  else if c.wp.serial.isSome then Eff.cause 5 c.op c.act else { term := some c.pend }
def execSerb (w : Word) (s : State) : Host.Outcome State Fault Refusal := simtP 0x17 w serbEff s
/-- The lowest lane becomes current and the others park (R271). -/
def serbEnd (f : Fin) (s : State) : State :=
  match f.p.lanes with
  | [] => s
  | l :: rest => modWarp f.key (fun w => { w.setStates rest (.parked .serial) with serial := some (maskOf rest, l) }) s

/-- SERE (R271). -/
def sereEff (c : Ctx) : Eff := { term := some c.pend }
def execSere (w : Word) (s : State) : Host.Outcome State Fault Refusal := simtP 0x18 w sereEff s
def sereEnd (f : Fin) (s : State) : State := modWarp f.key (serialLeave s.clock f.p.lanes) s

/-- ELECT (R269). -/
def electEff (c : Ctx) : Eff :=
  match c.act with
  | [] => {}
  | l :: _ => if c.w.sx then c.allK (2 ^ l) else c.perLaneK (fun i => i = l)
def execElect (w : Word) (s : State) : Host.Outcome State Fault Refusal := simtP 0x19 w electEff s

end Sys2Proof.Machine
end

