-- ==== Sys2Proof/Machine/Moves.lean ====
section
/-! DEFINITION. Moves and special registers (R140 to R143). -/

namespace Sys2Proof.Machine

/-- MOV (R140). -/
def movEff (c : Ctx) : Eff := c.perLane (regsOf c.ty) (fun l => c.a (regsOf c.ty) l)
def execMov (w : Word) (s : State) : Host.Outcome State Fault Refusal := simtP 0x65 w movEff s

/-- MOVI (R140, R86). -/
def moviEff (c : Ctx) : Eff := c.perLane (regsOf c.ty) (fun l => c.b (regsOf c.ty) c.ty l)
def execMovi (w : Word) (s : State) : Host.Outcome State Fault Refusal := simtP 0x66 w moviEff s

/-- SMOV: D once, from one lane, active or not (R140). -/
def smovEff (c : Ctx) : Eff :=
  if c.act.isEmpty then {}
  else
    let n := regsOf c.ty
    { writes := regWrites c.w.d n 0 (c.a n (c.b 1 1 0 % 32)) }
def execSmov (w : Word) (s : State) : Host.Outcome State Fault Refusal := simtP 0x67 w smovEff s

/-- Grid coordinates of a gang index (R141, R315). -/
def tileOf (pkt : BitVec 512) (ix : Nat) : Nat × Nat × Nat :=
  let gx := max 1 (fld pkt 309 16)
  let gy := max 1 (fld pkt 325 16)
  (ix % gx, ix / gx % gy, ix / (gx * gy))

/-- The value of a special register in a lane (R141). -/
def srValue (c : Ctx) (s : State) (code lane : Nat) : Nat :=
  let g := gangOf s c.wp
  let tile : Nat × Nat × Nat :=
    match g with
    | none => (2 ^ 32 - 1, 2 ^ 32 - 1, 2 ^ 32 - 1)
    | some g =>
      match g.task with
      | some t => (fld t 64 16, fld t 80 16, fld t 96 16)
      | none => tileOf (launchOf s c.wp).pkt (g.index.getD 0)
  match code with
  | 0x00 => lane
  | 0x01 => if c.wp.gang.isSome then c.wp.num else 2 ^ 31 + ctxOfWarp c.key
  | 0x02 => (match g with | none => allOnes64 | some g => g.index.getD 0)
  | 0x03 => tile.1
  | 0x04 => tile.2.1
  | 0x05 => tile.2.2
  | 0x06 => c.core
  | 0x07 => partOfWarp c.key % 4
  | 0x08 => max c.wp.clockRead (dieClock s (dieOfCore c.core))
  | 0x09 => (c.read (.sr 0x09 0)).toNat
  | 0x0A => (c.read (.sr 0x0A 0)).toNat
  | 0x0B => if c.wp.gang.isSome then 0 else (c.wp.lane lane).join.toNat
  | 0x0C => c.wp.tmask.toNat
  | 0x0D => c.wp.tpc.toNat
  | 0x0E => c.wp.toff.toNat
  | 0x0F => c.wp.tcause.toNat
  | 0x10 => c.wp.tdst.toNat
  | _ => (c.read (.sr 0x11 0)).toNat + 2 ^ 32 * (c.read (.sr 0x11 1)).toNat

/-- SRD (R142); a read of sr.clock is never below the warp's earlier reads (R141). -/
def srdEff (c : Ctx) (s : State) : Eff × State :=
  let code := c.w.a.toNat
  let n := (srRegs code).getD 1
  ({ writes := c.dst n (c.act.map (fun l => (l, srValue c s code l))) },
   if code = 0x08 ∧ !c.act.isEmpty then modWarp c.key (fun w => { w with clockRead := srValue c s code 0 }) s else s)
def execSrd (w : Word) (s : State) : Host.Outcome State Fault Refusal := simt 0x68 w srdEff s

/-- SWR: the value of the lowest active lane; reserved bits of sr.fpst are ignored (R143, R2). -/
def swrEff (c : Ctx) : Eff :=
  match c.act with
  | [] => {}
  | l :: _ =>
    let code := c.w.d.toNat
    if code = 0x11 then
      let v := c.b 2 3 l
      { writes := [(.sr code 0, BitVec.ofNat 32 v), (.sr code 1, BitVec.ofNat 32 (v / 2 ^ 32))] }
    else { writes := [(.sr code 0, BitVec.ofNat 32 (if code = 0x0A then c.b 1 1 l % 128 else c.b 1 1 l))] }
def execSwr (w : Word) (s : State) : Host.Outcome State Fault Refusal := simtP 0x69 w swrEff s

end Sys2Proof.Machine
end

