-- ==== Sys2Proof/Machine/Run.lean ====
section
/-! DEFINITION. The end of a run (R97, R98): what stops it (R363), its commit with the effect of its terminal instruction,
and the causes entered after it (R364). -/

namespace Sys2Proof.Machine

/-! ## Terminal effects (R97, R99) -/

/-- The effect of the run-terminal instruction, by opcode (R101). -/
def terminal (f : Fin) (s : State) : State :=
  match f.p.op with
  | 0x01 => braEnd f s
  | 0x02 => brxEnd f s
  | 0x03 => callEnd f s
  | 0x04 => retEnd f s
  | 0x05 => exitEnd f s
  | 0x06 => yieldEnd f s
  | 0x07 => trapEnd f s
  | 0x08 => bptEnd f s
  | 0x09 => tretEnd f s
  | 0x0A => sleepEnd f s
  | 0x12 => mwaitEnd f s
  | 0x17 => serbEnd f s
  | 0x18 => sereEnd f s
  | 0x80 => atomicEnd f s
  | 0x81 => atomicEnd f s
  | 0x82 => atomicEnd f s
  | 0x83 => atomicEnd f s
  | 0x84 => atomicEnd f s
  | 0x85 => atomicEnd f s
  | 0x90 => copyEnd f s
  | 0x91 => copyEnd f s
  | 0x92 => copyEnd f s
  | 0x93 => tagWaitEnd f s
  | 0x94 => tagWaitEnd f s
  | 0x96 => tclrEnd f s
  | 0x9B => tufcEnd f s
  | 0xA0 => matrixEnd f s
  | 0xA1 => matrixEnd f s
  | 0xA2 => matrixEnd f s
  | 0xA3 => matrixEnd f s
  | 0xA4 => matrixEnd f s
  | 0xA5 => mstatEnd f s
  | 0xB0 => baraEnd f s
  | 0xB1 => barwEnd f s
  | 0xB2 => barsEnd f s
  | 0xB3 => barxEnd f s
  | 0xB4 => acqEnd f s
  | 0xB5 => if f.p.w.mx = 0 then relIncEnd f s else relSetEnd f s
  | 0xB6 => fenceEnd f s
  | 0xB7 => fencescEnd f s
  | 0xB8 => fencexEnd f s
  | 0xB9 => rbindEnd f s
  | 0xC0 => spawnEnd f s
  | 0xC1 => spawntEnd f s
  | 0xC2 => jincEnd f s
  | 0xC3 => joinwEnd f s
  | 0xC4 => jincEnd f s
  | 0xC5 => if f.p.w.sop = 0 then taskEnd f s else taskDecEnd f s
  | 0xC6 => sigfEnd f s
  | 0xC7 => waitfEnd f s
  | _ => s

/-! ## Held effects (R97) -/

/-- Bytes that warp `k` stores on path L: to scratchpad in the clock's order, elsewhere performed now or later (R13, R44,
R344). -/
def storePlace (k : Nat) (p : Place) (data : List Byte) (s : State) : State :=
  match p with
  | .scr a => scrStore k a false data s
  | _ => laterWrite .L k false p data s

/-- A tensor element stored, or half a byte of one beside the other half (R62, R162). -/
def storeElem (k : Nat) (e : ElemWrite) (s : State) : State :=
  if e.nib = 0 then storePlace k e.place (leBytes e.size e.bits) s
  else match e.place with
    | .scr a => scrStore k a false (leBytes 1 (nibbleByte e.nib (readNat s e.place 1) e.bits)) s
    | _ => laterHalf .L k e.nib e.place e.bits s

/-- One held effect released: a store updates the core's L1 copy of its line (R155). Half a byte is written where its byte
stands. A table entry that TDEF replaced is the new one for every core from here on (R78, log 63). -/
def releaseHeld (k core asn launch : Nat) (s : State) (h : Held) : State :=
  match h with
  | .bytes p va l1 data =>
    let s := if l1 then storeL1 core asn va data s else s
    storePlace k p data s
  | .future a data => scrStore k a true data s
  | .line ln full => scrBit k ln full s
  | .elem _ e =>
    let s := storeElem k e s
    if e.l1 then storeL1 core asn e.va (viewPlace s k e.place e.size) s else s
  | .count n viol satc ufc emax => modTensor launch n (bumpCounters viol satc ufc emax) s
  | .tdef n image => modTensor launch n (fun _ => image) s
  | .tbnd n lo hi bact nanok => modTensor launch n (setBounds lo hi bact nanok) s
  | .ppld n vals =>
    modWarp k (fun w => { w with pp := (vals.mapIdx (fun i x => (i, x))).foldl (fun m x => put (320 * n + x.1) x.2 m) w.pp }) s

/-- The held effect makes the interval of a shadow dirty: a store to global or vault memory, a table or its bounds
(R388). -/
def Held.dirties : Held → Bool
  | .bytes (.scr _) _ _ _ => false
  | .bytes _ _ _ _ => true
  | .elem _ _ => true
  | .tdef _ _ => true
  | .tbnd _ _ _ _ _ => true
  | _ => false

/-- The terminal instruction makes the interval dirty (R388). -/
def dirtyOp (op : Nat) : Bool :=
  (0x80 ≤ op && op ≤ 0x85) || (0x90 ≤ op && op ≤ 0x92) || (0xA0 ≤ op && op ≤ 0xA3) || op = 0xB5 || op = 0xB9 ||
  (0xC0 ≤ op && op ≤ 0xC6)

/-- The instruction is a copy, which supplies a slice even with no lane active (R50, R171). -/
def isCopy (op : Nat) : Bool := 0x90 ≤ op && op ≤ 0x92

/-- The terminal instruction in hand makes the interval dirty: with some lane active, or as a copy (R50, R388). -/
def Pending.dirties (p : Pending) : Bool := dirtyOp p.op && (!p.lanes.isEmpty || isCopy p.op)

/-- The run makes its gang's interval dirty as it commits. -/
def Run.dirties (r : Run) : Bool :=
  r.held.any Held.dirties || (match r.term with | some p => p.dirties | none => false)

/-! ## What stops a run at its marker (R363) -/

/-- What the marker checks of the terminal instruction (R52, R172, R198, R281): a handler cause, its code and detail, and
its lanes. A copy with no lane active supplies a slice of no lines, which is checked as well (R52, R171). -/
def markerCause (f : Fin) (s : State) : Option (Nat × Nat × List Nat) :=
  match lookup f.key s.warps with
  | none => none
  | some w =>
    match w.gang, gangOf s w with
    | some g, some x =>
      if isCopy f.p.op then (if sliceRefused x f then some (5, f.p.op, f.p.lanes) else none)
      else if f.p.lanes.isEmpty then none
      else if f.p.op = 0x96 then (if tclrRefused x f then some (5, f.p.op, f.p.lanes) else none)
      else if matrixQueued f.p then (matrixRefused f g s).map (fun c => (c, f.p.op, f.p.lanes))
      else none
    | _, _ =>
      match spawnOverflow f s with
      | [] => none
      | ls => some (0x0B, 0, ls)

/-- Vault lines of a slice that the launch may not name (R52). -/
def markerFaults (f : Fin) (s : State) : List AccFault :=
  match lookup f.key s.warps with
  | none => []
  | some w => if isCopy f.p.op then sliceFaults s (spaceOf (launchOf s w)).rhnd f else []

/-- What a run's terminal instruction takes in turn with others of its clock: a copy slice or TCLR of a gang, by 2 × its
key; a matrix instruction of a partition, by 2 × its number + 1 (R52, R183). -/
def markerTurn (k : Nat) (w : Warp) (p : Pending) : Option Nat :=
  if isCopy p.op || (p.op = 0x96 && !p.lanes.isEmpty) then w.gang.map (fun g => 2 * g)
  else if matrixQueued p then some (2 * partOfWarp k + 1) else none

/-- The run stands at its marker and nothing of its own keeps it there. -/
def Run.atMarker (r : Run) : Bool :=
  decide (r.words.length ≤ r.index) && r.reads.isEmpty && r.causes.isEmpty && r.faults.isEmpty && r.ue.isNone && r.mismatch.isNone

/-- The instruction's turn has not come: a warp of a lower partition or context stands at its marker for the same turn, or
one of a higher has been taken in this clock (R52, R183). -/
def waitsTurn (f : Fin) (s : State) : Bool :=
  match (lookup f.key s.warps).bind (fun w => markerTurn f.key w f.p) with
  | none => false
  | some t =>
    (lookup t s.turns).any (fun k => decide (f.key < k)) ||
    s.warps.any (fun x => decide (x.1 < f.key) &&
      (match lookup x.2.launch s.launches with | some l => l.kill.isNone | none => true) &&
      (match x.2.run with
       | none => false
       | some r => r.atMarker && (match r.term with | some p => markerTurn x.1 x.2 p = some t | none => false)))

/-- The run stays at its marker: its turn has not come (R52, R183), its matrix queue is full (R183), or a release of path M
waits for the warp's matrix instructions (R353, R355). -/
def markerWaits (f : Fin) (s : State) : Bool :=
  waitsTurn f s ||
  (matrixQueued f.p && matrixFull s f.key) ||
  (!f.p.lanes.isEmpty && decide (outstanding s f.key ≠ 0) &&
    ((f.p.op = 0xB8 && f.p.w.b.getLsbD 2) || (f.p.op = 0xC6 && (flagPaths f.p.w).getLsbD 2)))

/-- The cause that is taken: the lowest offset, then the lowest code (R363). -/
def firstCause (l : List Cause) : Option Cause :=
  l.foldl (fun b c =>
    match b with
    | none => some c
    | some d => if c.off < d.off ∨ (c.off = d.off ∧ c.code < d.code) then some c else some d) none

/-- The fatal fault of an attempt: that of the lowest faulting lane, and of vault refusals the one of the lowest offset
(R31, R38). -/
def fatalFault (l : List AccFault) : Option AccFault :=
  match l.find? (fun x => !x.rpl) with
  | none => none
  | some x => some (if x.kind = 7 then l.foldl (fun b f => if f.kind = 7 ∧ !f.rpl ∧ f.va < b.va then f else b) x else x)

/-- The uncorrectable page-table entry that a run consumed before any other error (R28, R373). -/
def Run.errorFault (r : Run) : Option AccFault :=
  (if r.ue.isSome then r.faults.take r.errAt else r.faults).find? (fun f => decide (f.kind = 6) && !f.rpl)

/-- What ends the run instead of its commit: none, or the state it leaves (R98, R363). -/
def stopRun (k : Nat) (w : Warp) (r : Run) (f : Option Fin) (s : State) : Option State :=
  let marker := f.bind (fun f => markerCause f s)
  let causes := r.causes ++ (match f, marker with
    | some f, some c => [{ off := f.p.off, code := c.1, detail := c.2.1, lanes := maskOf c.2.2,
                           tdst := tdstOf f.p.op f.p.w (hdrRegs w.hdr) }]
    | _, _ => [])
  let faults := r.faults ++ (match f with | some f => markerFaults f s | none => [])
  match fatalFault faults with
  | some x => some (fatalRun k x s)
  | none =>
    match firstCause causes with
    | some c => some (enterCause k c r.addr r.lanes r.after false s)
    | none => if faults.isEmpty then none else some (parkOnFaults k r.addr faults s)

/-! ## Commit (R97) -/

/-- Loads of a run that found their lines empty are pending in their lanes, whatever else the run parks the lanes for; they
are tested at the end of the clock (R44, R45). -/
def parkLdf (k : Nat) (r : Run) (s : State) : State :=
  modWarp k (fun w => { w with lanes := w.lanes.mapIdx (fun i l =>
    { l with loads := l.loads ++ (r.ldf.filter (fun x => x.1 = i)).map (·.2) }) }) s

/-- The next waiting post-commit cause is entered, outside the handler, and not by a warp stopped for a switch-out, with
which it is saved as pending (R364, R382). -/
def enterPost (k : Nat) (s : State) : State :=
  match lookup k s.warps with
  | none => s
  | some w =>
    match w.post with
    | [] => s
    | (addr, c) :: rest =>
      if w.handler.isSome || w.stopping then s
      else enterCause k c addr 0 addr true (modWarp k (fun w => { w with post := rest }) s)

/-- The commit of a run (R97, R117): results, held effects, lane counters, and the terminal effect. The warp's next run
begins in a later clock (log 73). -/
def commitRun (k : Nat) (r : Run) (s : State) : State :=
  match lookup k s.warps with
  | none => s
  | some w =>
    let core := coreOfWarp k
    let asn := (launchOf s w).asn
    let inHandler := w.handler.isSome
    let due := w.post
    let s := match r.term.bind (fun p => markerTurn k w p) with
      | some t => { s with turns := put t k s.turns }
      | none => s
    let isTret := (match r.term with | some p => p.op = 0x09 && !p.lanes.isEmpty | none => false)
    let s := if r.dirties then (match w.gang with | some g => dirtyGang g s | none => s) else s
    let s := modWarp k (fun w =>
      let w := r.log.foldr (fun e w => archWrite w (e.loc, e.val)) w
      let w := wakeYields s.clock w
      let w : Warp := { w with lanes := w.lanes.map (fun l => { l with due := s.clock + 1 }) }
      let w := w.setLpcs ((lanesOf r.lanes).map (fun l => (l, r.after)))
      { w with run := none, fpst := w.fpst ||| BitVec.setWidth 32 r.flags, smask := w.smask ||| r.smask,
               post := r.post.map (fun c => (r.addr, c)), faultRuns := w.faultRuns.filter (fun x => x.1.1 ≠ r.addr),
               mismatched := w.mismatched.filter (fun x => x ≠ (r.addr, r.lanes)), readySince := s.clock,
               subst := if w.subAt = r.addr then [] else w.subst }) s
    let s := r.held.foldl (releaseHeld k core asn w.launch) s
    let s := parkLdf k r s
    let s := match r.term with
      | some p => terminal { key := k, run := r, p := p, after := r.after } s
      | none => s
    let mine := match lookup k s.warps with | some w => w.post | none => []
    let s := modWarp k (fun w => { w with post := w.post ++ due }) s
    match inHandler, mine with
    | true, (_, c) :: _ => killLaunch w.launch 0x21 (itemOf s w) (0x100 + c.code) (settle k s)
    | _, _ =>
      let s := settle k s
      if isTret then s else enterPost k s

/-! ## The marker -/

/-- RUN_MARKER (R97, R98, R363, R370, R373, R390): every instruction of the run has issued, and its results have
returned. -/
def runMarker (k : Nat) (s : State) : State :=
  match lookup k s.warps with
  | none => s
  | some w =>
    match w.run with
    | none => s
    | some r =>
      let drop := modWarp k (fun w => { w with run := none })
      let killed := match lookup w.launch s.launches with | some l => l.kill.isSome | none => false
      if r.index < r.words.length || !r.reads.isEmpty then s
      else if killed then drop s
      else
        match r.errorFault, r.ue, r.mismatch with
        | some x, _, _ => fatalRun k x s
        | none, some path, _ => containRun k path (drop s)
        | none, none, some lane =>
          let me := (r.addr, r.lanes)
          let again := w.mismatched.contains me
          let s := drop s
          let s := bumpCounter 1 (partOfWarp k * 32 + lane) 8 s
          let s := modWarp k (fun w =>
            { w with mismatched := if again then w.mismatched.filter (fun x => x ≠ me) else me :: w.mismatched }) s
          if again then containRun k 0 s else s
        | none, none, none =>
          let f : Option Fin := r.term.map (fun p => { key := k, run := r, p := p, after := r.after })
          let waits := r.causes.isEmpty && r.faults.isEmpty && (match f with | some f => markerWaits f s | none => false)
          if waits then s
          else
            match stopRun k w r f s with
            | some s' => s'
            | none => commitRun k r s
def execRunMarker (warp : Nat) (s : State) : Host.Outcome State Fault Refusal := .next (runMarker warp s)

/-- POST_COMMIT_TRAP_ENTRY (R364): a waiting cause is entered between runs, once the handler before it has ended. -/
def postCommitTrapEntry (k : Nat) (s : State) : State :=
  match lookup k s.warps with
  | none => s
  | some w => if w.run.isNone then enterPost k s else s
def execPostCommitTrapEntry (warp : Nat) (s : State) : Host.Outcome State Fault Refusal :=
  .next (postCommitTrapEntry warp s)

end Sys2Proof.Machine
end

