-- ==== Sys2Proof/Machine/Texture.lean ====
section
/-! DEFINITION. The samplers (R176 to R178): texels by address mode, nearest and bilinear filtering, gathers. -/

namespace Sys2Proof.Machine

/-- The texel index an integer coordinate maps to on an axis of a size; none is the border (R177). -/
def addressMode (mode : Nat) (size : Nat) (i : Int) : Option Nat :=
  match mode with
  | 0 => some (i % (size : Int)).toNat
  | 1 => some (min (max i 0) ((size : Int) - 1)).toNat
  | 2 =>
    let q := (i % (2 * size : Int)).toNat
    some (if q < size then q else 2 * size - 1 - q)
  | _ => if 0 ≤ i ∧ i < size then some i.toNat else none

/-- The layer taken (R177). -/
def layerOf (e : TEntry) (x : Nat) : Nat := if tnRank e = 3 then min x (tnDim e 2 - 1) else 0

/-- The FP32 value of a texel's bits with its scale g × T (R177). -/
def texelValue (e : TEntry) (x : Nat) (g : FVal) : Nat :=
  if isFloat (tnFmt e) then (fp32.conv 0 false (timesVal ((fmtOf (tnFmt e)).decode x) g)).1
  else (fp32.convDiv 0 false (timesVal (ofInt (x % 256 : Nat) 0) (tnT e)) (ofInt 255 0)).1

/-- A texel read, with poison (R177). -/
def texel (u : TUser) (e : TEntry) (layer : Nat) (i j : Int) (s : State) : Except (List AccFault) (Nat × Bool) × State :=
  match addressMode (tnAu e) (tnDim e 0) i, addressMode (tnAv e) (tnDim e 1) j with
  | some x, some y =>
    match readElem u e [x, y, layer, 0] s with
    | (.error fs, s) => (.error fs, s)
    | (.ok r, s) => (.ok (texelValue e r.1 r.2.1, r.2.2), s)
  | _, _ => (.ok (if tnBrd e then oneF else 0, false), s)

/-- Texels in order; the faults of those that fail. -/
def texels (u : TUser) (e : TEntry) (layer : Nat) : List (Int × Int) → State → (List Nat × List AccFault × Bool) × State
  | [], s => (([], [], false), s)
  | (i, j) :: rest, s =>
    match texel u e layer i j s with
    | (.error fs, s) =>
      let t := texels u e layer rest s
      ((t.1.1, fs ++ t.1.2.1, t.1.2.2), t.2)
    | (.ok r, s) =>
      let t := texels u e layer rest s
      ((r.1 :: t.1.1, t.1.2.1, r.2 || t.1.2.2), t.2)

/-- A coordinate clamped to ±2^20, as a signed integer over a power of two: numerator and exponent of the denominator
(R178). -/
def texCoord (x : Nat) : Int × Nat :=
  match fp32.decode x with
  | .nan _ => (0, 0)
  | .inf n => (if n then -(2 ^ 20) else 2 ^ 20, 0)
  | .num n m e =>
    let k : Nat := (-e).toNat
    let v : Int := if n then -((m * 2 ^ e.toNat : Nat) : Int) else (m * 2 ^ e.toNat : Nat)
    (max (-(2 ^ (20 + k) : Int)) (min (2 ^ (20 + k)) v), k)

/-- ⌊u × size⌋ (R178). -/
def nearestIndex (x size : Nat) : Int := (texCoord x).1 * size / 2 ^ (texCoord x).2

/-- a / 2^k rounded to the nearest integer, ties to even. -/
def roundDiv (a : Int) (k : Nat) : Int :=
  let q := a / 2 ^ k
  let r := a % 2 ^ k
  if 2 * r > 2 ^ k ∨ (2 * r = 2 ^ k ∧ q % 2 = 1) then q + 1 else q

/-- (u × size − 1/2) rounded to a multiple of 2^-8: its floor and its fraction in units of 2^-8 (R178). -/
def bilinearIndex (x size : Nat) : Int × Nat :=
  let c := texCoord x
  let q := roundDiv (c.1 * size * 256 - 128 * 2 ^ c.2) c.2
  (q / 256, (q % 256).toNat)

/-- A weight of w/256 times a texel. -/
def weighted (w t : Nat) : FVal := timesVal (.num false w (-8)) (fp32.decode t)

/-- (1 − f) × p + f × q rounded once; a term of zero weight is left out (R178). -/
def blend (f p q : Nat) : Nat :=
  if f = 0 then (fp32.conv 0 false (fp32.decode p)).1
  else if f = 256 then (fp32.conv 0 false (fp32.decode q)).1
  else (fp32.addVals 0 false (weighted (256 - f) p) (weighted f q)).1

/-- What a sampler instruction yields in its lanes: values of `n` registers, faults, poison. -/
def sampleLanes (f : Nat → State → (List Nat × List AccFault × Bool) × State) :
    List Nat → State → (List (Nat × Nat) × List AccFault × Bool) × State
  | [], s => (([], [], false), s)
  | l :: rest, s =>
    let r := f l s
    let t := sampleLanes f rest r.2
    (((l, (r.1.1.foldr (fun x acc => x + 2 ^ 32 * acc) 0)) :: t.1.1, r.1.2.1 ++ t.1.2.1, r.1.2.2 || t.1.2.2), t.2)

/-- A sampler instruction: the checks of R176, then each lane on path S; D takes `n` registers. -/
def samplerEff (n : Nat) (f : Ctx → TUser → TEntry → Nat → State → (List Nat × List AccFault × Bool) × State)
    (c : Ctx) (s : State) : Eff × State :=
  let e := (launchOf s c.wp).tensor c.w.c.toNat
  if c.act.isEmpty then ({}, s)
  else if !hdrSmp c.wp.hdr then (Eff.cause 5 c.op c.act, s)
  else if !tnUsable e || !tnImg e then (tensorCause c, s)
  else
    let r := sampleLanes (f c (userOf c s .S) e) c.act s
    canonicalFirst s ({ writes := c.dst n r.1.1, faults := r.1.2.1, ue := if r.1.2.2 then some 4 else none }, r.2)

/-- The four texels of a bilinear footprint (R178). -/
def footprint (i j : Int) : List (Int × Int) := [(i, j), (i + 1, j), (i, j + 1), (i + 1, j + 1)]

/-- TEX2 in one lane (R178). -/
def tex2Lane (c : Ctx) (u : TUser) (e : TEntry) (l : Nat) (s : State) : (List Nat × List AccFault × Bool) × State :=
  let ly := layerOf e (c.coords l)[2]!
  let x := (c.coords l)[0]!
  let y := (c.coords l)[1]!
  if tnFilt e = 0 then texels u e ly [(nearestIndex x (tnDim e 0), nearestIndex y (tnDim e 1))] s
  else
    let p := bilinearIndex x (tnDim e 0)
    let q := bilinearIndex y (tnDim e 1)
    -- texels of zero weight are not fetched
    let need := (footprint p.1 q.1).filter (fun t => (t.1 = p.1 || p.2 ≠ 0) && (t.2 = q.1 || q.2 ≠ 0))
    let r := texels u e ly need s
    match r.1.1 with
    | [t00, t10, t01, t11] => (([blend q.2 (blend p.2 t00 t10) (blend p.2 t01 t11)], r.1.2.1, r.1.2.2), r.2)
    | [t0, t1] =>
      (([if p.2 ≠ 0 then blend p.2 t0 t1
         else blend q.2 (blend 0 t0 0) (blend 0 t1 0)], r.1.2.1, r.1.2.2), r.2)
    | [t0] => (([blend 0 (blend 0 t0 0) 0], r.1.2.1, r.1.2.2), r.2)
    | _ => (([], r.1.2.1, r.1.2.2), r.2)

/-- TEX2 (R178). -/
def tex2Eff (c : Ctx) (s : State) : Eff × State := samplerEff 1 tex2Lane c s
def execTex2 (w : Word) (s : State) : Host.Outcome State Fault Refusal := simt 0xD0 w tex2Eff s

/-- TEXG in one lane (R178). -/
def texgLane (c : Ctx) (u : TUser) (e : TEntry) (l : Nat) (s : State) : (List Nat × List AccFault × Bool) × State :=
  texels u e (layerOf e (c.coords l)[2]!)
    (footprint (bilinearIndex (c.coords l)[0]! (tnDim e 0)).1 (bilinearIndex (c.coords l)[1]! (tnDim e 1)).1) s

/-- TEXG (R178). -/
def texgEff (c : Ctx) (s : State) : Eff × State := samplerEff 4 texgLane c s
def execTexg (w : Word) (s : State) : Host.Outcome State Fault Refusal := simt 0xD1 w texgEff s

/-- TEXL in one lane (R178). -/
def texlLane (c : Ctx) (u : TUser) (e : TEntry) (l : Nat) (s : State) : (List Nat × List AccFault × Bool) × State :=
  texels u e (layerOf e (c.coords l)[2]!) [(sx 32 (c.coords l)[0]!, sx 32 (c.coords l)[1]!)] s

/-- TEXL (R178). -/
def texlEff (c : Ctx) (s : State) : Eff × State := samplerEff 1 texlLane c s
def execTexl (w : Word) (s : State) : Host.Outcome State Fault Refusal := simt 0xD2 w texlEff s

end Sys2Proof.Machine
end

