-- ==== Sys2Proof/Machine/Dispatch.lean ====
section
/-! DEFINITION. One arm per instruction: each calls its own meaning. -/

namespace Sys2Proof.Machine

def exec (i : Instr) (s : State) : Host.Outcome State Fault Refusal :=
  match i with
  | .nop w => Sys2Proof.Machine.execNop w s
  | .bra w => Sys2Proof.Machine.execBra w s
  | .brx w => Sys2Proof.Machine.execBrx w s
  | .call w => Sys2Proof.Machine.execCall w s
  | .ret w => Sys2Proof.Machine.execRet w s
  | .exit w => Sys2Proof.Machine.execExit w s
  | .yield w => Sys2Proof.Machine.execYield w s
  | .trap w => Sys2Proof.Machine.execTrap w s
  | .bpt w => Sys2Proof.Machine.execBpt w s
  | .tret w => Sys2Proof.Machine.execTret w s
  | .sleep w => Sys2Proof.Machine.execSleep w s
  | .mjoin w => Sys2Proof.Machine.execMjoin w s
  | .mleave w => Sys2Proof.Machine.execMleave w s
  | .mwait w => Sys2Proof.Machine.execMwait w s
  | .kset w => Sys2Proof.Machine.execKset w s
  | .ksetLane w => Sys2Proof.Machine.execKsetLane w s
  | .klog w => Sys2Proof.Machine.execKlog w s
  | .kmov w => Sys2Proof.Machine.execKmov w s
  | .serb w => Sys2Proof.Machine.execSerb w s
  | .sere w => Sys2Proof.Machine.execSere w s
  | .elect w => Sys2Proof.Machine.execElect w s
  | .vote w => Sys2Proof.Machine.execVote w s
  | .voteBal w => Sys2Proof.Machine.execVoteBal w s
  | .iadd w => Sys2Proof.Machine.execIadd w s
  | .isub w => Sys2Proof.Machine.execIsub w s
  | .iaddc w => Sys2Proof.Machine.execIaddc w s
  | .imul w => Sys2Proof.Machine.execImul w s
  | .imulh w => Sys2Proof.Machine.execImulh w s
  | .imad w => Sys2Proof.Machine.execImad w s
  | .imadw w => Sys2Proof.Machine.execImadw w s
  | .imin w => Sys2Proof.Machine.execImin w s
  | .imax w => Sys2Proof.Machine.execImax w s
  | .iabs w => Sys2Proof.Machine.execIabs w s
  | .ineg w => Sys2Proof.Machine.execIneg w s
  | .icmp w => Sys2Proof.Machine.execIcmp w s
  | .lea w => Sys2Proof.Machine.execLea w s
  | .idiv w => Sys2Proof.Machine.execIdiv w s
  | .irem w => Sys2Proof.Machine.execIrem w s
  | .and w => Sys2Proof.Machine.execAnd w s
  | .or w => Sys2Proof.Machine.execOr w s
  | .xor w => Sys2Proof.Machine.execXor w s
  | .not w => Sys2Proof.Machine.execNot w s
  | .shl w => Sys2Proof.Machine.execShl w s
  | .shr w => Sys2Proof.Machine.execShr w s
  | .sar w => Sys2Proof.Machine.execSar w s
  | .rot w => Sys2Proof.Machine.execRot w s
  | .bfx w => Sys2Proof.Machine.execBfx w s
  | .bfi w => Sys2Proof.Machine.execBfi w s
  | .popc w => Sys2Proof.Machine.execPopc w s
  | .clz w => Sys2Proof.Machine.execClz w s
  | .brev w => Sys2Proof.Machine.execBrev w s
  | .sel w => Sys2Proof.Machine.execSel w s
  | .tern w => Sys2Proof.Machine.execTern w s
  | .bpick w => Sys2Proof.Machine.execBpick w s
  | .fadd w => Sys2Proof.Machine.execFadd w s
  | .fsub w => Sys2Proof.Machine.execFsub w s
  | .fmul w => Sys2Proof.Machine.execFmul w s
  | .ffma w => Sys2Proof.Machine.execFfma w s
  | .fmin w => Sys2Proof.Machine.execFmin w s
  | .fmax w => Sys2Proof.Machine.execFmax w s
  | .fabs w => Sys2Proof.Machine.execFabs w s
  | .fneg w => Sys2Proof.Machine.execFneg w s
  | .fcmp w => Sys2Proof.Machine.execFcmp w s
  | .fclass w => Sys2Proof.Machine.execFclass w s
  | .frcp w => Sys2Proof.Machine.execFrcp w s
  | .frsq w => Sys2Proof.Machine.execFrsq w s
  | .fsqrt w => Sys2Proof.Machine.execFsqrt w s
  | .fdiv w => Sys2Proof.Machine.execFdiv w s
  | .frnd w => Sys2Proof.Machine.execFrnd w s
  | .fscale w => Sys2Proof.Machine.execFscale w s
  | .hadd2 w => Sys2Proof.Machine.execHadd2 w s
  | .hmul2 w => Sys2Proof.Machine.execHmul2 w s
  | .hfma2 w => Sys2Proof.Machine.execHfma2 w s
  | .hmnx2 w => Sys2Proof.Machine.execHmnx2 w s
  | .cvt w => Sys2Proof.Machine.execCvt w s
  | .cvts w => Sys2Proof.Machine.execCvts w s
  | .pack w => Sys2Proof.Machine.execPack w s
  | .unpk w => Sys2Proof.Machine.execUnpk w s
  | .exp2 w => Sys2Proof.Machine.execExp2 w s
  | .log2 w => Sys2Proof.Machine.execLog2 w s
  | .sin w => Sys2Proof.Machine.execSin w s
  | .cos w => Sys2Proof.Machine.execCos w s
  | .ppe w => Sys2Proof.Machine.execPpe w s
  | .ppld w => Sys2Proof.Machine.execPpld w s
  | .ppst w => Sys2Proof.Machine.execPpst w s
  | .fstk w => Sys2Proof.Machine.execFstk w s
  | .shfl w => Sys2Proof.Machine.execShfl w s
  | .redux w => Sys2Proof.Machine.execRedux w s
  | .scanx w => Sys2Proof.Machine.execScanx w s
  | .matchAny w => Sys2Proof.Machine.execMatchAny w s
  | .matchAll w => Sys2Proof.Machine.execMatchAll w s
  | .ssint w => Sys2Proof.Machine.execSsint w s
  | .mov w => Sys2Proof.Machine.execMov w s
  | .movi w => Sys2Proof.Machine.execMovi w s
  | .smov w => Sys2Proof.Machine.execSmov w s
  | .srd w => Sys2Proof.Machine.execSrd w s
  | .swr w => Sys2Proof.Machine.execSwr w s
  | .ld w => Sys2Proof.Machine.execLd w s
  | .st w => Sys2Proof.Machine.execSt w s
  | .lds w => Sys2Proof.Machine.execLds w s
  | .sts w => Sys2Proof.Machine.execSts w s
  | .ldv w => Sys2Proof.Machine.execLdv w s
  | .stv w => Sys2Proof.Machine.execStv w s
  | .ldf w => Sys2Proof.Machine.execLdf w s
  | .stf w => Sys2Proof.Machine.execStf w s
  | .fest w => Sys2Proof.Machine.execFest w s
  | .ldc w => Sys2Proof.Machine.execLdc w s
  | .pref w => Sys2Proof.Machine.execPref w s
  | .ldt w => Sys2Proof.Machine.execLdt w s
  | .stt w => Sys2Proof.Machine.execStt w s
  | .atom w => Sys2Proof.Machine.execAtom w s
  | .atomf w => Sys2Proof.Machine.execAtomf w s
  | .cas w => Sys2Proof.Machine.execCas w s
  | .cas128 w => Sys2Proof.Machine.execCas128 w s
  | .red w => Sys2Proof.Machine.execRed w s
  | .redf w => Sys2Proof.Machine.execRedf w s
  | .cpy w => Sys2Proof.Machine.execCpy w s
  | .cpyg w => Sys2Proof.Machine.execCpyg w s
  | .cpys w => Sys2Proof.Machine.execCpys w s
  | .twany w => Sys2Proof.Machine.execTwany w s
  | .twall w => Sys2Proof.Machine.execTwall w s
  | .tffr w => Sys2Proof.Machine.execTffr w s
  | .tclr w => Sys2Proof.Machine.execTclr w s
  | .tdef w => Sys2Proof.Machine.execTdef w s
  | .tqry w => Sys2Proof.Machine.execTqry w s
  | .tbnd w => Sys2Proof.Machine.execTbnd w s
  | .tufc w => Sys2Proof.Machine.execTufc w s
  | .tscl w => Sys2Proof.Machine.execTscl w s
  | .mldb w => Sys2Proof.Machine.execMldb w s
  | .mma w => Sys2Proof.Machine.execMma w s
  | .mdrn w => Sys2Proof.Machine.execMdrn w s
  | .mclr w => Sys2Proof.Machine.execMclr w s
  | .mclrBank w => Sys2Proof.Machine.execMclrBank w s
  | .mcor w => Sys2Proof.Machine.execMcor w s
  | .mstat w => Sys2Proof.Machine.execMstat w s
  | .bara w => Sys2Proof.Machine.execBara w s
  | .barw w => Sys2Proof.Machine.execBarw w s
  | .bars w => Sys2Proof.Machine.execBars w s
  | .barx w => Sys2Proof.Machine.execBarx w s
  | .acq w => Sys2Proof.Machine.execAcq w s
  | .relInc w => Sys2Proof.Machine.execRelInc w s
  | .relSet w => Sys2Proof.Machine.execRelSet w s
  | .fence w => Sys2Proof.Machine.execFence w s
  | .fencesc w => Sys2Proof.Machine.execFencesc w s
  | .fencex w => Sys2Proof.Machine.execFencex w s
  | .rbind w => Sys2Proof.Machine.execRbind w s
  | .spawn w => Sys2Proof.Machine.execSpawn w s
  | .spawnt w => Sys2Proof.Machine.execSpawnt w s
  | .jinc w => Sys2Proof.Machine.execJinc w s
  | .joinw w => Sys2Proof.Machine.execJoinw w s
  | .jdec w => Sys2Proof.Machine.execJdec w s
  | .task w => Sys2Proof.Machine.execTask w s
  | .taskDec w => Sys2Proof.Machine.execTaskDec w s
  | .sigf w => Sys2Proof.Machine.execSigf w s
  | .waitf w => Sys2Proof.Machine.execWaitf w s
  | .tex2 w => Sys2Proof.Machine.execTex2 w s
  | .texg w => Sys2Proof.Machine.execTexg w s
  | .texl w => Sys2Proof.Machine.execTexl w s
  | .weirNop w => Sys2Proof.Machine.execWeirNop w s
  | .weirHalt w => Sys2Proof.Machine.execWeirHalt w s
  | .weirJmp w => Sys2Proof.Machine.execWeirJmp w s
  | .weirBeq w => Sys2Proof.Machine.execWeirBeq w s
  | .weirBne w => Sys2Proof.Machine.execWeirBne w s
  | .weirLoop w => Sys2Proof.Machine.execWeirLoop w s
  | .weirMovi w => Sys2Proof.Machine.execWeirMovi w s
  | .weirAdd w => Sys2Proof.Machine.execWeirAdd w s
  | .weirAddi w => Sys2Proof.Machine.execWeirAddi w s
  | .weirAddm w => Sys2Proof.Machine.execWeirAddm w s
  | .weirSub w => Sys2Proof.Machine.execWeirSub w s
  | .weirMul w => Sys2Proof.Machine.execWeirMul w s
  | .weirShl w => Sys2Proof.Machine.execWeirShl w s
  | .weirAnd w => Sys2Proof.Machine.execWeirAnd w s
  | .dsel w => Sys2Proof.Machine.execDsel w s
  | .weirWaitf w => Sys2Proof.Machine.execWeirWaitf w s
  | .weirSigf w => Sys2Proof.Machine.execWeirSigf w s
  | .xmit w => Sys2Proof.Machine.execXmit w s
  | .recv w => Sys2Proof.Machine.execRecv w s
  | .rcmb w => Sys2Proof.Machine.execRcmb w s
  | .rcfw w => Sys2Proof.Machine.execRcfw w s
  | .rput w => Sys2Proof.Machine.execRput w s
  | .rget w => Sys2Proof.Machine.execRget w s
  | .ratm w => Sys2Proof.Machine.execRatm w s
  | .hookLdp d off wid => Sys2Proof.Machine.execHookLdp d off wid s
  | .hookStp a off wid => Sys2Proof.Machine.execHookStp a off wid s
  | .hookLdq d sel => Sys2Proof.Machine.execHookLdq d sel s
  | .hookStq a sel => Sys2Proof.Machine.execHookStq a sel s
  | .hookMovi d imm => Sys2Proof.Machine.execHookMovi d imm s
  | .hookAdd d a b => Sys2Proof.Machine.execHookAdd d a b s
  | .hookSub d a b => Sys2Proof.Machine.execHookSub d a b s
  | .hookAddi d a imm => Sys2Proof.Machine.execHookAddi d a imm s
  | .hookAnd d a b => Sys2Proof.Machine.execHookAnd d a b s
  | .hookShr d a cnt => Sys2Proof.Machine.execHookShr d a cnt s
  | .hookMin d a b => Sys2Proof.Machine.execHookMin d a b s
  | .hookSkiplt a b cnt => Sys2Proof.Machine.execHookSkiplt a b cnt s
  | .hookSkipeq a b cnt => Sys2Proof.Machine.execHookSkipeq a b cnt s
  | .hookRep cnt len => Sys2Proof.Machine.execHookRep cnt len s
  | .hookAccept => Sys2Proof.Machine.execHookAccept s
  | .hookReject code => Sys2Proof.Machine.execHookReject code s
  | .launch p => Sys2Proof.Machine.execLaunch p s
  | .taskq p => Sys2Proof.Machine.execTaskq p s
  | .copy p => Sys2Proof.Machine.execCopy p s
  | .fill p => Sys2Proof.Machine.execFill p s
  | .signal p => Sys2Proof.Machine.execSignal p s
  | .wait p => Sys2Proof.Machine.execWait p s
  | .mapInvalidateRange p => Sys2Proof.Machine.execMapInvalidateRange p s
  | .mapInvalidateAll p => Sys2Proof.Machine.execMapInvalidateAll p s
  | .pin p => Sys2Proof.Machine.execPin p s
  | .unpin p => Sys2Proof.Machine.execUnpin p s
  | .loadseq p => Sys2Proof.Machine.execLoadseq p s
  | .coll p => Sys2Proof.Machine.execColl p s
  | .hookld p => Sys2Proof.Machine.execHookld p s
  | .encframe p => Sys2Proof.Machine.execEncframe p s
  | .queryClknow p => Sys2Proof.Machine.execQueryClknow p s
  | .queryWeirState p => Sys2Proof.Machine.execQueryWeirState p s
  | .queryWriteWdbg p => Sys2Proof.Machine.execQueryWriteWdbg p s
  | .queryWeirCounters p => Sys2Proof.Machine.execQueryWeirCounters p s
  | .queryQcb p => Sys2Proof.Machine.execQueryQcb p s
  | .preemptSwitchOut p => Sys2Proof.Machine.execPreemptSwitchOut p s
  | .preemptResume p => Sys2Proof.Machine.execPreemptResume p s
  | .preemptKill p => Sys2Proof.Machine.execPreemptKill p s
  | .ckptSave p => Sys2Proof.Machine.execCkptSave p s
  | .ckptRestore p => Sys2Proof.Machine.execCkptRestore p s
  | .scant p => Sys2Proof.Machine.execScant p s
  | .captureStart p => Sys2Proof.Machine.execCaptureStart p s
  | .captureStop p => Sys2Proof.Machine.execCaptureStop p s
  | .unlistedCommand p => Sys2Proof.Machine.execUnlistedCommand p s
  | .doorbellRing q val => Sys2Proof.Machine.execDoorbellRing q val s
  | .queueEnable q => Sys2Proof.Machine.execQueueEnable q s
  | .queueDisable q => Sys2Proof.Machine.execQueueDisable q s
  | .queueWriteBack q => Sys2Proof.Machine.execQueueWriteBack q s
  | .fqconsWrite val => Sys2Proof.Machine.execFqconsWrite val s
  | .registerWriteIgnored bar off val => Sys2Proof.Machine.execRegisterWriteIgnored bar off val s
  | .setPackageNumber num => Sys2Proof.Machine.execSetPackageNumber num s
  | .writeRouteTable first masks => Sys2Proof.Machine.execWriteRouteTable first masks s
  | .setSegmentDirectoryBase dpa => Sys2Proof.Machine.execSetSegmentDirectoryBase dpa s
  | .setSavePool base size => Sys2Proof.Machine.execSetSavePool base size s
  | .setPredictiveMarks kind mark interval => Sys2Proof.Machine.execSetPredictiveMarks kind mark interval s
  | .getAttestationReport nonce => Sys2Proof.Machine.execGetAttestationReport nonce s
  | .loadPatchSet image => Sys2Proof.Machine.execLoadPatchSet image s
  | .setPowerCap watts => Sys2Proof.Machine.execSetPowerCap watts s
  | .setFaultQueueBase dpa => Sys2Proof.Machine.execSetFaultQueueBase dpa s
  | .mailboxUnsupported opcode => Sys2Proof.Machine.execMailboxUnsupported opcode s
  | .qcbFetch q => Sys2Proof.Machine.execQcbFetch q s
  | .hookBudgetExceeded => Sys2Proof.Machine.execHookBudgetExceeded s
  | .waitConditionMet cmd => Sys2Proof.Machine.execWaitConditionMet cmd s
  | .waitTimeout cmd => Sys2Proof.Machine.execWaitTimeout cmd s
  | .launchContextTake => Sys2Proof.Machine.execLaunchContextTake s
  | .gangPlacement die => Sys2Proof.Machine.execGangPlacement die s
  | .atRiskPreemption die => Sys2Proof.Machine.execAtRiskPreemption die s
  | .runIssue part => Sys2Proof.Machine.execRunIssue part s
  | .runMarker warp => Sys2Proof.Machine.execRunMarker warp s
  | .postCommitTrapEntry warp => Sys2Proof.Machine.execPostCommitTrapEntry warp s
  | .translationWalk die req => Sys2Proof.Machine.execTranslationWalk die req s
  | .instructionFill die asn line => Sys2Proof.Machine.execInstructionFill die asn line s
  | .barrierPhaseComplete gang bar => Sys2Proof.Machine.execBarrierPhaseComplete gang bar s
  | .shadowComplete gang => Sys2Proof.Machine.execShadowComplete gang s
  | .sleepWake warp lane => Sys2Proof.Machine.execSleepWake warp lane s
  | .flagWaitRelease warp lane => Sys2Proof.Machine.execFlagWaitRelease warp lane s
  | .tagWaitRelease warp lane => Sys2Proof.Machine.execTagWaitRelease warp lane s
  | .gangStall gang => Sys2Proof.Machine.execGangStall gang s
  | .copyLineLand copy line => Sys2Proof.Machine.execCopyLineLand copy line s
  | .copyComplete copy => Sys2Proof.Machine.execCopyComplete copy s
  | .matrixComplete part odd => Sys2Proof.Machine.execMatrixComplete part odd s
  | .gangEnd gang => Sys2Proof.Machine.execGangEnd gang s
  | .launchCompletion launch => Sys2Proof.Machine.execLaunchCompletion launch s
  | .spawnRecordEntry core => Sys2Proof.Machine.execSpawnRecordEntry core s
  | .flushTimeout core queue => Sys2Proof.Machine.execFlushTimeout core queue s
  | .ringPop core launch => Sys2Proof.Machine.execRingPop core launch s
  | .joinRelease warp lane => Sys2Proof.Machine.execJoinRelease warp lane s
  | .continuationConversion warp => Sys2Proof.Machine.execContinuationConversion warp s
  | .holdRelease launch slot => Sys2Proof.Machine.execHoldRelease launch slot s
  | .spawnExhaustion launch => Sys2Proof.Machine.execSpawnExhaustion launch s
  | .switchOut gang => Sys2Proof.Machine.execSwitchOut gang s
  | .gangRestore die => Sys2Proof.Machine.execGangRestore die s
  | .launchKill launch => Sys2Proof.Machine.execLaunchKill launch s
  | .rollback gang => Sys2Proof.Machine.execRollback gang s
  | .patrolScrub vault addr found => Sys2Proof.Machine.execPatrolScrub vault addr found s
  | .predictiveDrain => Sys2Proof.Machine.execPredictiveDrain s
  | .thermalThrottle => Sys2Proof.Machine.execThermalThrottle s
  | .thermalShutdown => Sys2Proof.Machine.execThermalShutdown s
  | .idleEntry => Sys2Proof.Machine.execIdleEntry s
  | .packageReset => Sys2Proof.Machine.execPackageReset s
  | .powerOff => Sys2Proof.Machine.execPowerOff s
  | .scanComplete core good => Sys2Proof.Machine.execScanComplete core good s
  | .encodeStart slot => Sys2Proof.Machine.execEncodeStart slot s
  | .encodeComplete slot => Sys2Proof.Machine.execEncodeComplete slot s
  | .linkTrained rill => Sys2Proof.Machine.execLinkTrained rill s
  | .flitResend rill => Sys2Proof.Machine.execFlitResend rill s
  | .rillDown rill => Sys2Proof.Machine.execRillDown rill s
  | .transitForward pkt => Sys2Proof.Machine.execTransitForward pkt s
  | .data pkt => Sys2Proof.Machine.execData pkt s
  | .put pkt => Sys2Proof.Machine.execPut pkt s
  | .getq pkt => Sys2Proof.Machine.execGetq pkt s
  | .getr pkt => Sys2Proof.Machine.execGetr pkt s
  | .atm pkt => Sys2Proof.Machine.execAtm pkt s
  | .ack pkt => Sys2Proof.Machine.execAck pkt s
  | .refuse pkt => Sys2Proof.Machine.execRefuse pkt s
  | .start pkt => Sys2Proof.Machine.execStart pkt s
  | .done pkt => Sys2Proof.Machine.execDone pkt s
  | .fail pkt => Sys2Proof.Machine.execFail pkt s
  | .abort pkt => Sys2Proof.Machine.execAbort pkt s
  | .room pkt => Sys2Proof.Machine.execRoom pkt s
  | .weirOperationComplete ctx op => Sys2Proof.Machine.execWeirOperationComplete ctx op s
  | .weirFlagWake ctx => Sys2Proof.Machine.execWeirFlagWake ctx s
  | .collTimeout coll => Sys2Proof.Machine.execCollTimeout coll s
  | .cxlMemAccess write addr bytes => Sys2Proof.Machine.execCxlMemAccess write addr bytes s
  | .cxlCacheSnoop line update => Sys2Proof.Machine.execCxlCacheSnoop line update s
  | .weirIllegalInstruction ctx => Sys2Proof.Machine.execWeirIllegalInstruction ctx s
  | .collTwiceTimeout coll => Sys2Proof.Machine.execCollTwiceTimeout coll s
  | .ckptTransferComplete cmd => Sys2Proof.Machine.execCkptTransferComplete cmd s
  | .throttleRelease => Sys2Proof.Machine.execThrottleRelease s

end Sys2Proof.Machine
end

