-- ==== Sys2Proof/Machine/Place.lean ====
section
/-! DEFINITION. Placing one instruction where the next step fetches it (log 10): a hook word in the hook machine, a SIMT
word in a run in flight, a weir word in a running context, a packet in the command processor's hand. -/

namespace Sys2Proof.Machine

/-- A header of the smallest legal kernel with every resource, at the places R107 gives its fields. -/
def placeHdr : BitVec 512 :=
  BitVec.ofNat 512 (0x56410960 + 2 ^ 32 + 64 * 2 ^ 64 + 128 * 2 ^ 96 + 256 * 2 ^ 128 + 24 * 2 ^ 160 + 64 * 2 ^ 168 +
    16 * 2 ^ 184 + 64 * 2 ^ 192 + 4 * 2 ^ 200 + 4 * 2 ^ 203 + 1 * 2 ^ 206 + 4 * 2 ^ 209)

/-- A run of one word in every lane. -/
def placeRun (x : BitVec 128) : Run :=
  { addr := 0x10040, lanes := BitVec.allOnes 32, words := [(0, x)] }

/-- A warp whose next instruction is the word. -/
def placeWarp (x : BitVec 128) : Warp :=
  { launch := 0, gang := some 0, hdrAt := 0x10000, hdr := placeHdr,
    lanes := List.replicate 32 { lpc := 0x10040 }, run := some (placeRun x) }

/-- The state with the word placed. -/
def placeWord (s : State) (nbits w : Nat) : State :=
  if nbits = 32 then
    { s with hook := some { queue := 0, ix := 0, words := [BitVec.ofNat 32 w], pkt := 0 }, agenda := [.hook] }
  else if nbits = 512 then
    { s with taken := some (0, 0, BitVec.ofNat 512 w), agenda := [.command] }
  else
    match decodeSimt (BitVec.ofNat 128 w) with
    | some _ =>
      { s with
        launches := put 0 { queue := 0, pkt := 0, asn := 0, root := 0, rpld := false, hdr := placeHdr, args := [],
                            arrival := 0, order := 0 } s.launches,
        gangs := put 0 { launch := 0, index := some 0, core := 0, hdrAt := 0x10000, hdr := placeHdr, warps := 1,
                         cls := 0, barriers := (List.range 16).map (fun b => (b, { expect := 1 })),
                         tags := (List.range 64).map (fun t => (t, .free)) } s.gangs,
        warps := put 0 (placeWarp (BitVec.ofNat 128 w)) s.warps,
        agenda := [.warp 0] }
    | none =>
      { s with weirs := put 0 { state := .running, slots := [BitVec.ofNat 64 w],
                                tpls := List.replicate 8 0 } s.weirs,
               agenda := [.weir 0] }

end Sys2Proof.Machine
end

