-- ==== Sys2Proof/Machine/Schedule.lean ====
section
/-! DEFINITION. What happens next (log 1): the head of the agenda, or, where the agenda is empty, the model's own order.
Fetching an instruction's bits and decoding them stands here; Step.lean calls exec. -/

namespace Sys2Proof.Machine

/-- What a step does: run a decoded instruction, end as an event's meaning ends, or pass to a state. -/
inductive Plan where
  | run (i : Instr) (s : State)
  | done (o : Host.Outcome State Fault Refusal)
  | pass (s : State)
  | bad
deriving Repr

/-! ## The agents' turns -/

/-- The warp's next act: issue the next word of its run, or end the run at its marker (R91, R97). -/
def planWarp (k : Nat) (s : State) : Plan :=
  match lookup k s.warps with
  | none => .pass s
  | some w =>
    match w.run with
    | none => .pass s
    | some r =>
      match r.words[r.index]? with
      | none => .done (execRunMarker k s)
      | some x =>
        match decodeSimt x.2 with
        | some i => .run i { s with focus := .warp k }
        | none => .bad

/-- A Running context's turn has come: its weir has executed nothing in this clock, and no Running context of it comes
before (R218, log 52). -/
def weirDue (s : State) (c : Nat) : Bool :=
  let last := lookupD (c / 4) (3, s.clock + 1) s.weirTurn
  let dist := fun (i : Nat) => (i % 4 + 3 - last.1) % 4
  decide (last.2 ≠ s.clock) &&
  (List.range 4).all (fun i => decide (dist c ≤ dist i) || decide ((weirOf s (c / 4 * 4 + i)).state ≠ .running))

/-- The weir context's turn: a breakpoint stops it, an error in its slot or registers or an illegal slot fails it, any other
slot is executed (R218, R224, R238, R242, R384). -/
def planWeir (c : Nat) (s : State) : Plan :=
  let x := weirOf s c
  if x.state ≠ .running || !weirDue s c then .pass s
  else
    let s := { s with weirTurn := put (c / 4) (c % 4, s.clock) s.weirTurn }
    if x.atBreak && !x.passing then .pass (modWeir c (fun x => { x with state := .stopped }) s)
    else if x.badNow then .pass (failCtx c 11 s)
    else
      match x.instr with
      | some i => .run i { s with focus := .weir c }
      | none => .done (execWeirIllegalInstruction c s)

/-- The hook's next word, or its budget exceeded (R321, R322). -/
def planHook (s : State) : Plan :=
  match s.hook with
  | none => .pass s
  | some h =>
    if 64 ≤ h.steps then .done (execHookBudgetExceeded s)
    else
      match h.words[h.pc]?.bind decodeHook with
      | some i => .run i { s with focus := .hook }
      | none => .bad

/-- The packet in hand (R310). -/
def planCommand (s : State) : Plan :=
  match s.taken with
  | none => .pass s
  | some x => .run (decodePacket x.2.2) { s with focus := .command }

/-! ## Moves that are no instruction -/

/-- Paired mode: the copies of a gang's warp's run in flight differ in a lane (R390). -/
def mismatchRun (k lane : Nat) (s : State) : State :=
  modWarp k (fun w =>
    if hdrPair w.hdr && w.gang.isSome then { w with run := w.run.map (fun r => { r with mismatch := some lane }) } else w) s

/-- An L1 line is replaced (R12). -/
def replaceL1 (core asn line : Nat) (s : State) : State := { s with l1 := erase (core, asn, line) s.l1 }

/-- A double-bit error: what it strikes is uncorrectable from then on; cache lines are refetched, translations rewalked
(R384). -/
def strike (u : Upset) (s : State) : State :=
  match u with
  | .dev g => { s with badDev := insertNat g s.badDev }
  | .vault g => { s with badVault := insertNat g s.badVault }
  | .scr g => { s with badScr := insertNat g s.badScr }
  | .host g => { s with badHost := insertNat g s.badHost }
  | .register k l => modWarp k (fun w => if w.badRegs.contains l then w else { w with badRegs := l :: w.badRegs }) s
  | .row part n => modPart part (fun p => { p with rows := adjust n (fun r => { r with bad := true }) p.rows }) s
  | .bank part n => modPart part (fun p => { p with banks := adjust n (fun b => { b with bad := true }) p.banks }) s
  | .kept part n =>
    modPart part (fun p => { p with kept := p.kept.mapIdx (fun i b => if i = n then { b with bad := true } else b) }) s
  | .eddy q => { s with eddy := adjust q (fun e => { e with bad := true }) s.eddy }
  | .launchLine key => if s.launchLines.contains key then { s with badLines := insertNat key s.badLines } else s
  | .confluence core q => { s with queues := adjust (core, q) (fun x => { x with bad := true }) s.queues }
  | .shadow g => modGang g (fun x => { x with shadow := x.shadow.map (fun sh => { sh with bad := true }) }) s
  | .saved g => { s with saved := adjust g (fun v => { v with bad := true }) s.saved }
  | .savedLoose id => { s with savedLoose := adjust id (fun v => { v with bad := true }) s.savedLoose }
  | .weir c n => if (lookup c s.weirs).isSome then modWeir c (fun x => { x with bad := insertNat n x.bad }) s else s
  | .l1 core asn line => replaceL1 core asn line s
  | .icache core asn line => { s with icache := erase (core, asn, line) s.icache }
  | .translation core asn va => dropTlbs (.core core) asn va s

/-- A corrected error counts 1 against its unit (R386). -/
def correct (kind unit : Nat) (s : State) : State := if kind < 4 then bumpCounter kind unit 1 s else s

/-- Writes of a path wait from now on, or no longer (log 58). -/
def setLag (path : Path) (on : Bool) (s : State) : State :=
  { s with lag := if on then (if s.lag.contains path then s.lag else path :: s.lag) else s.lag.filter (fun p => p ≠ path) }

/-! ## The clock (R141, R398) -/

/-- Barriers whose phase is complete at the start of a clock (R275). -/
def completeBarriers (s : State) : State :=
  s.gangs.foldl (fun s x => x.2.barriers.foldl (fun s b => barrierPhaseComplete x.1 b.1 s) s) s

/-- Gathering queues that are due in a clock are marked so (R283). -/
def markQueues (s : State) : State := s.queues.foldl (fun s q => markDue q.1.1 q.1.2 s) s

/-- What the drain intervals that have passed take from the counters (R386). -/
def drainCounters (s : State) : State :=
  if drainDue s then
    let n := (s.clock - s.drainedAt) / s.drainInterval
    { s with counters := s.counters.map (fun x => (x.1, x.2 - n)), drainedAt := s.drainedAt + n * s.drainInterval }
  else s

/-- Yielding lanes of the warps all of whose lanes were Parked or Yielding as the clock before ended are released (R258). -/
def endYields (s : State) : State := { s with warps := s.warps.map (fun x => (x.1, releaseYields s.clock x.2)) }

/-- A clock ends: scratchpad reads are answered as its operations leave their lines, lines left full are read, and its turns
are over (R44, R45, R52, R183). -/
def endClock (s : State) : State := { endClockLines (settleRuns s) with turns := [] }

/-- A clock ends, and the clock `n` later begins, with what the start of a clock brings. -/
def tick (n : Nat) (s : State) : State :=
  let s := endClock s
  idleEntry (drainCounters (markQueues (completeBarriers (endYields (retryUnmapped { s with clock := s.clock + n })))))

/-- `n` clocks pass: the first with the work of its start, and what lies beyond it, where nothing new happens, at once; the
counter stands in D3cold (R398). -/
def passClocks (n : Nat) (s : State) : State :=
  if s.power = .d3cold then s
  else match n with
    | 0 => s
    | 1 => tick 1 s
    | m + 2 => tick (m + 1) (tick 1 s)

/-- A move of the agenda. -/
def planMove (m : Move) (s : State) : Plan :=
  match m with
  | .event i => .run i s
  | .advance n => .pass (passClocks n s)
  | .warp k => planWarp k s
  | .weir c => planWeir c s
  | .take q => .pass (takePacket q s)
  | .hook => planHook s
  | .command => planCommand s
  | .send c op => .pass (sendNext c op s)
  | .retry c n => .pass (retryHeld c n s)
  | .answer c cn seq => .pass (answerNext c cn seq s)
  | .giveBack r response => .pass (giveBack r response s)
  | .dropL1 core asn line => .pass (replaceL1 core asn line s)
  | .arrive h payload => .pass (match parsePkt h payload with | some p => postPkt p s | none => s)
  | .flit r => .pass (flitPassed r s)
  | .transmit r response => .pass (transmitPkt r response s)
  | .deliver r response => .pass (deliverPkt r response s)
  | .mailbox c => .pass (mailStandard c s)
  | .upset u => .pass (strike u s)
  | .corrected kind unit => .pass (correct kind unit s)
  | .lag path on => .pass (setLag path on s)
  | .perform n => .pass (performNth n s)
  | .mismatch k lane => .pass (mismatchRun k lane s)
  | .confluence core => .pass (confluence core s)
  | .matrix part => .pass (matrixUnit part [] s)
  | .peek path p => .pass (peek path p s)
  | .drainMismatch part => .pass (drainMismatch part s)

/-! ## The model's own order -/

/-- The plan changes the machine, free values apart. -/
def Plan.moves (s : State) : Plan → Bool
  | .run _ _ => true
  | .done (.next t) => decide ({ t with free := s.free } ≠ s)
  | .done _ => true
  | .pass t => decide ({ t with free := s.free } ≠ s)
  | .bad => true

/-- The first plan of a list that changes the machine. -/
def firstMove (s : State) : List (State → Plan) → Option Plan
  | [] => none
  | f :: t => if (f s).moves s then some (f s) else firstMove s t

/-- An event as a plan. -/
def plain (f : State → State) (s : State) : Plan := .pass (f s)

/-- A packet of this package performed, or one for another forwarded. -/
def planPkt (x : Nat × Pkt) (s : State) : Plan :=
  if x.2.dpkg ≠ s.packageNo then .pass (transitForward x.1 s)
  else
    .done (match x.2.kind with
      | 1 => execData x.1 s
      | 2 => execPut x.1 s
      | 3 => execGetq x.1 s
      | 4 => execGetr x.1 s
      | 5 => execAtm x.1 s
      | 6 => execAck x.1 s
      | 7 => execRefuse x.1 s
      | 8 => execStart x.1 s
      | 9 => execDone x.1 s
      | 0x0A => execFail x.1 s
      | 0x0B => execAbort x.1 s
      | 0x0C => execRoom x.1 s
      | _ => .next { s with pkts := erase x.1 s.pkts })

/-- Queues, commands and launches. -/
def queueMoves (s : State) : List (State → Plan) :=
  s.latch.map (fun x => plain (fetchQcb x.1)) ++ s.unread.map (fun q => plain (fetchQcb q)) ++ s.eddy.map (fun x => plain (takePacket x.1)) ++
  s.cmds.flatMap (fun x => [plain (waitConditionMet x.1), plain (waitTimeout x.1), plain (ckptTransferComplete x.1)]) ++
  [plain launchContextTake] ++
  (List.range 4).flatMap (fun d => [plain (gangPlacement d), plain (gangRestore d), plain (atRiskPreemption d)]) ++
  s.launches.flatMap (fun x => [plain (launchKill x.1), plain (launchCompletion x.1), plain (spawnExhaustion x.1)])

/-- Warps: waits ending, runs going on, runs beginning. -/
def warpMoves (s : State) : List (State → Plan) :=
  s.warps.flatMap (fun x =>
    allLanes.flatMap (fun l => [plain (sleepWake x.1 l), plain (flagWaitRelease x.1 l), plain (tagWaitRelease x.1 l),
      plain (joinRelease x.1 l)]) ++
    [planWarp x.1, plain (postCommitTrapEntry x.1), plain (continuationConversion x.1)]) ++
  ((s.warps.map (fun x => partOfWarp x.1)).eraseDups).map (fun p => plain (runIssue p)) ++
  s.fetches.map (fun x => plain (instructionFill x.1 x.2.1 x.2.2))

/-- Gangs and what serves them: barriers, copies, matrix units, the confluence, holds. -/
def gangMoves (s : State) : List (State → Plan) :=
  s.gangs.flatMap (fun x => x.2.barriers.map (fun b => plain (barrierPhaseComplete x.1 b.1)) ++
    [plain (shadowComplete x.1), plain (rollback x.1), plain (switchOut x.1), plain (gangEnd x.1), plain (gangStall x.1)]) ++
  s.copies.flatMap (fun x => [plain (copyLineLand x.1 0), plain (copyComplete x.1)]) ++
  s.parts.flatMap (fun x => [plain (matrixUnit x.1 []), plain (matrixFinish x.1)]) ++
  s.entering.map (fun e => fun s => .done (execSpawnRecordEntry e.core s)) ++
  s.queues.map (fun q => fun s => .done (execFlushTimeout q.1.1 q.1.2 s)) ++
  s.launches.flatMap (fun x => x.2.holds.map (fun h => plain (holdRelease x.1 h.slot)) ++
    (List.range 256).map (fun c => plain (ringPop c x.1)))

/-- Weirs, rills, collectives and encode engines. -/
def fabricMoves (s : State) : List (State → Plan) :=
  s.weirs.flatMap (fun x =>
    x.2.ops.map (fun o => plain (operationComplete x.1 o.id)) ++ [plain (weirFlagWake x.1), planWeir x.1] ++
    x.2.ops.map (fun o => plain (sendNext x.1 o.id)) ++
    x.2.held.mapIdx (fun i _ => plain (retryHeld x.1 i)) ++
    x.2.msgs.map (fun m => plain (answerNext x.1 m.cn m.seq))) ++
  s.pkts.map planPkt ++
  s.rills.flatMap (fun x => [plain (rillDown x.1), plain (deliverPkt x.1 true), plain (deliverPkt x.1 false)]) ++
  s.colls.flatMap (fun x => [plain (collTimeout x.1), plain (collTwiceTimeout x.1)]) ++
  s.encSlots.flatMap (fun x => [plain (encodeStart x.1), plain (encodeComplete x.1)])

/-- Everything that could happen, in the order looked at. -/
def allMoves (s : State) : List (State → Plan) := queueMoves s ++ warpMoves s ++ gangMoves s ++ fabricMoves s

/-- A list begun at its `n`-th element, taken cyclically. -/
def rotated {α : Type} (n : Nat) (l : List α) : List α := l.drop (n % l.length) ++ l.take (n % l.length)

/-- What happens with nothing on the agenda: a clock passes, and with it the oldest waiting write, or the hook's next word, or
the packet in hand, or the first thing that can happen, looked for from a place that moves on with the clock, so that no
agent is kept waiting for good; D3cold stands still. -/
def ownMove (s : State) : Plan :=
  if s.power = .d3cold then .pass s
  else
    let s := passClocks 1 s
    if !s.buffer.isEmpty then .pass (performNth 0 s)
    else if s.hook.isSome then planHook s
    else if s.taken.isSome then planCommand s
    else (firstMove s (rotated s.clock (allMoves s))).getD (.pass s)

/-- What the step does. -/
def plan (s : State) : Plan :=
  match s.agenda with
  | [] => ownMove { s with focus := .none }
  | m :: rest => planMove m { s with agenda := rest, focus := .none }

end Sys2Proof.Machine
end

