-- ==== Sys2Proof/Machine/Step.lean ====
section
/-! DEFINITION. One step of the package, and an instruction placed where the step fetches its next one. -/

namespace Sys2Proof.Machine

/-- One step: what the plan says (log 1). -/
def step (s : State) : Host.Outcome State Fault Refusal :=
  match plan s with
  | .run i s' => exec i s'
  | .done o => o
  | .pass s' => .next s'
  | .bad => .refused .undecodable

/-- `s` with an instruction of the opcode table placed where the next step fetches (log 10). -/
def State.withFetchWord (s : State) (nbits w : Nat) : State := placeWord s nbits w

end Sys2Proof.Machine
end

