-- ==== Sys2Proof/Safety.lean ====
section
/-! DEFINITION. What counts as safe on this machine, and the words statements are made of: memories in canonical form, a
step that goes on, a warp whose instruction is in hand, and what an issued instruction leaves in its run. -/

namespace Sys2Proof.Machine

/-- Every memory keeps its canonical form (log 2). -/
def State.memWf (s : State) : Bool := s.dev.wf && s.host.wf && s.vault.wf && s.scr.wf

/-- A step that goes on. -/
def Goes (o : Host.Outcome State Fault Refusal) : Prop := ∃ t, o = .next t

/-! ## A warp issuing an instruction (R92 to R97) -/

/-- Warp `k`'s next instruction is in hand: it is in focus, with run `r` in flight, and no lane of it is substituted
(R368). -/
structure State.Issues (s : State) (k : Nat) (w : Warp) (r : Run) : Prop where
  focus : s.focus = .warp k
  here : lookup k s.warps = some w
  flight : w.run = some r
  plain : w.subst = []

/-- The distance at which later instructions of the run see a result (R94); none: from the next run on. -/
def distance (op : Nat) (x : Word) : Option Nat :=
  match distOf op x with
  | .within d => some d
  | .nextRun => none

/-- What `n` registers from a code get in the lanes of a list: bits [32j + 31 : 32j] of the lane's value in the register j
places up; an `s` register gets the value of the list's first lane (R4, R93, R115). -/
def toLanes (code : BitVec 8) (lanes : List Nat) (n : Nat) (val : Nat → Nat) (loc : Loc) : Option W32 :=
  match regOf code, loc with
  | .v d, .v m l => if l ∈ lanes ∧ d ≤ m ∧ m < d + n then some (BitVec.ofNat 32 (val l / 2 ^ (32 * (m - d)))) else none
  | .t d, .t m l => if l ∈ lanes ∧ d ≤ m ∧ m < d + n then some (BitVec.ofNat 32 (val l / 2 ^ (32 * (m - d)))) else none
  | .s d, .s m =>
    if d ≤ m ∧ m < d + n then lanes.head?.map (fun l => BitVec.ofNat 32 (val l / 2 ^ (32 * (m - d)))) else none
  | _, _ => none

/-- D's registers in the active lanes. -/
def toD (c : Ctx) (n : Nat) (val : Nat → Nat) : Loc → Option W32 := toLanes c.w.d c.act n val

/-- What the bits of a mask register in the lanes of a list get (R268). -/
def toMask (code : BitVec 8) (lanes : List Nat) (val : Nat → Bool) (loc : Loc) : Option W32 :=
  match loc with
  | .k m l => if m = code.toNat ∧ l ∈ lanes then some (if val l then 1 else 0) else none
  | _ => none

/-- A mask register's bits in the active lanes. -/
def toK (c : Ctx) (code : BitVec 8) (val : Nat → Bool) : Loc → Option W32 := toMask code c.act val

/-- No result. -/
def noResult (_ : Loc) : Option W32 := none

/-- The first of two results that says something about a location. -/
def orElse (f g : Loc → Option W32) (loc : Loc) : Option W32 := (f loc).or (g loc)

/-- Log entries of one instruction: its index and distance, and for every location the latest value. -/
structure Logs (r : Run) (d : Option Nat) (res : Loc → Option W32) (new : List LogEntry) : Prop where
  stamped : ∀ e ∈ new, e.idx = r.index ∧ e.dist = d
  value : ∀ loc, (new.find? (fun e => e.loc = loc)).map (fun e => e.val) = res loc

/-- The path of the error a run has consumed once an instruction has read its registers: the run's own, else path L where
the instruction reads a register that holds one (R372, R384). -/
def consumed (c : Ctx) : Option Nat := c.run.ue.or (if readsBad c then some 0 else none)

/-- The run moved on by one instruction, with its results logged and an error of the registers it reads consumed: after as
many faults as the run has met, unless it had consumed one before (R93, R372, R373). -/
def Run.movedOn (r : Run) (c : Ctx) (new : List LogEntry) : Run :=
  { r with index := r.index + 1, log := new ++ r.log, errAt := if r.ue.isSome then r.errAt else r.faults.length,
           ue := consumed c }

/-- Wherever it issues under `pre`, the instruction answers a next state in which its run has moved on by one, with the
results `res` logged, an error of the registers it reads consumed, and changed by `upd`, beside the changes `after` to the
machine; nothing else has changed. -/
def Issued (i : Instr) (op : Nat) (x : Word) (pre : Ctx → State → Prop) (res : Ctx → State → Loc → Option W32)
    (upd : Ctx → State → Run → Run) (after : Ctx → State → State) : Prop :=
  ∀ s k w r, s.Issues k w r → pre (ctxOf k w r op x) s →
    ∃ new, Logs r (distance op x) (res (ctxOf k w r op x) s) new ∧
      exec i s = .next (setRun k
        (upd (ctxOf k w r op x) s (r.movedOn (ctxOf k w r op x) new))
        (after (ctxOf k w r op x) s))

/-- Issued everywhere, with results and no other change. -/
def Results (i : Instr) (op : Nat) (x : Word) (res : Ctx → Loc → Option W32) : Prop :=
  Issued i op x (fun _ _ => True) (fun c _ => res c) (fun _ _ r => r) (fun _ s => s)

/-- Issued everywhere, leaving a terminal effect for the commit and no other change (R97, R99). -/
def LeavesTerm (i : Instr) (op : Nat) (x : Word) (p : Ctx → Pending) : Prop :=
  Issued i op x (fun _ _ => True) (fun _ _ => noResult) (fun c _ r => { r with term := some (p c) }) (fun _ s => s)

/-- The flags of the active lanes together (R117). -/
def allFlags (c : Ctx) (fl : Nat → BitVec 7) : BitVec 7 := c.act.foldl (fun m l => m ||| fl l) 0

/-- The lanes that raise an enabled flag. -/
def trapping (c : Ctx) (fl : Nat → BitVec 7) : List Nat := c.act.filter (fun l => fl l &&& hdrFpte c.wp.hdr ≠ 0)

/-- The floating-point cause (R117, R361, R363, R365, R367): none in the handler or without an enabled flag; else code 1,
with the enabled flags raised and the lanes that raised them. -/
def fpCauses (c : Ctx) (fl : Nat → BitVec 7) : List Cause :=
  if c.wp.handler.isSome ∨ trapping c fl = [] then []
  else [{ off := c.off, code := 1, detail := (allFlags c fl &&& hdrFpte c.wp.hdr).toNat, lanes := maskOf (trapping c fl),
          tdst := tdstOf c.op c.w (hdrRegs c.wp.hdr) }]

/-- As Results, with the flags of every active lane gathered and the cause of an enabled one raised; in uniform form those
of the first active lane, once (R115). -/
def FloatResults (i : Instr) (op : Nat) (x : Word) (res : Ctx → State → Loc → Option W32) (fl : Ctx → State → Nat → BitVec 7)
    (after : State → State) : Prop :=
  Issued i op x (fun _ _ => True) res
    (fun c s r => { r with flags := r.flags ||| allFlags c (fun l => fl c s (c.once l)),
                           causes := r.causes ++ fpCauses c (fun l => fl c s (c.once l)) })
    (fun _ s => after s)

/-! ## Exact values and one rounding (R6, R60, R64 to R67, R126 to R128) -/

/-- The real number a finite value stands for. -/
noncomputable def FVal.real : FVal → ℝ
  | .num neg m e => (if neg then -1 else 1) * (m : ℝ) * (2 : ℝ) ^ e
  | _ => 0

/-- The value is a finite number of a sign. -/
def FVal.finite (v : FVal) (neg : Bool) : Prop := ∃ m e, v = .num neg m e

/-- The integer `k` is the real `y` rounded under a mode (R64): to nearest, ties to even; toward zero; up; down. -/
def RoundsToInt (rm : Nat) (y : ℝ) (k : ℤ) : Prop :=
  (rm = 0 → |y - k| ≤ 1 / 2 ∧ (|y - k| = 1 / 2 → k % 2 = 0)) ∧
  (rm = 1 → (0 ≤ y → k = ⌊y⌋) ∧ (y < 0 → k = ⌈y⌉)) ∧ (rm = 2 → k = ⌈y⌉) ∧ (rm = 3 → k = ⌊y⌋)

/-- A unit in the last place of a nonzero real in a format, its exponent not bounded below. -/
noncomputable def FFmt.unit (f : FFmt) (x : ℝ) : ℤ := ⌊Real.logb 2 |x|⌋ - f.mb

/-- A unit in the last place in a format, that of the least subnormal at least. -/
noncomputable def FFmt.ulp (f : FFmt) (x : ℝ) : ℝ := (2 : ℝ) ^ max (f.unit x) f.qmin

/-- `y` is the real `x` rounded once to a format's precision, its exponent not bounded above (R126), and `tiny` says that
`x` rounded so with an exponent not bounded below either lies below the least normal (R67). -/
def FFmt.Rounds (f : FFmt) (rm : Nat) (x y : ℝ) (tiny : Bool) : Prop :=
  (∃ k : ℤ, RoundsToInt rm (x / f.ulp x) k ∧ y = k * f.ulp x) ∧
  ∃ u : ℤ, RoundsToInt rm (x / (2 : ℝ) ^ f.unit x) u ∧
    (tiny = true ↔ |(u : ℝ) * (2 : ℝ) ^ f.unit x| < (2 : ℝ) ^ (f.qmin + f.mb))

/-- The result of a nonzero exact value: its rounding, a sign kept by a zero, NX where it differs, UF where it is tiny
besides; beyond the largest finite value the result of an overflow, which is given (R65, R67, R126). -/
def FFmt.RoundedOnce (f : FFmt) (rm : Nat) (ov : Bool → FRes) (x : ℝ) (r : FRes) : Prop :=
  x ≠ 0 → ∃ y tiny neg, f.Rounds rm x y tiny ∧ (neg = true ↔ x < 0) ∧
    (|y| ≤ (f.decode f.maxBits).real → (f.decode r.1).finite neg ∧ (f.decode r.1).real = y ∧ r.1 < 2 ^ f.width ∧
      (y = x → r.2 = 0) ∧ (y ≠ x → r.2 = flagNX ||| (if tiny then flagUF else 0))) ∧
    ((f.decode f.maxBits).real < |y| → r = ov neg)

/-- The mode directs an overflow of a sign to infinity (R65). -/
def toInfinity (rm : Nat) (neg : Bool) : Bool := decide (rm = 0) || (decide (rm = 2) && !neg) || (decide (rm = 3) && neg)

/-- The overflow of an arithmetic result: infinity or the largest finite value by the mode, OF and NX; an infinity replaced
under SAT, with SAT and NX (R126, R128). -/
def FFmt.arithOver (f : FFmt) (rm : Nat) (sat neg : Bool) : FRes :=
  if toInfinity rm neg then
    (if sat then (f.sign neg + f.maxBits, flagSAT ||| flagNX) else (f.sign neg + f.infBits, flagOF ||| flagNX))
  else (f.sign neg + f.maxBits, flagOF ||| flagNX)

/-- The overflow of a conversion, and an infinite source's result where the target has no infinity (R65's table). -/
def FFmt.convOver (f : FFmt) (rm : Nat) (sat neg : Bool) : FRes :=
  match f.kind with
  | .e2m1 => (f.sign neg + f.maxBits, flagSAT)
  | .e4m3 =>
    if sat then (f.sign neg + f.maxBits, flagSAT)
    else (if toInfinity rm neg then f.nanBits else f.sign neg + f.maxBits,
          flagOF ||| flagNX)
  | .ieee =>
    if sat then (f.sign neg + f.maxBits, flagSAT ||| flagNX)
    else (f.sign neg + (if toInfinity rm neg then f.infBits else f.maxBits),
          flagOF ||| flagNX)

/-- The order of two values that are no NaN: −∞ least, +∞ greatest, the others as reals. -/
def FVal.le : FVal → FVal → Prop
  | .inf true, _ => True
  | _, .inf false => True
  | .num na ma ea, .num nb mb eb => (FVal.num na ma ea).real ≤ (FVal.num nb mb eb).real
  | _, _ => False

/-! ## A run at its marker (R97) -/

/-- The latest value a run's instructions gave a location. -/
def Run.latest (r : Run) (loc : Loc) : Option W32 := (r.log.find? (fun e => e.loc = loc)).map (fun e => e.val)

/-- Run `r` of warp `k` stands at its marker and nothing keeps it from committing: every instruction has issued, none
trapped or faulted, no error was consumed, no read of scratchpad waits for the end of its clock and no load for a line; the
warp has no cause waiting and no serial section open,
its 32 lanes are Ready or Exited, one of them Ready; its launch is not being killed. -/
structure State.AtMarker (s : State) (k : Nat) (w : Warp) (r : Run) : Prop where
  here : lookup k s.warps = some w
  flight : w.run = some r
  issued : r.words.length ≤ r.index
  clean : r.causes = [] ∧ r.faults = [] ∧ r.post = [] ∧ r.reads = [] ∧ r.ldf = [] ∧ r.ue = none ∧ r.mismatch = none
  calm : w.post = [] ∧ w.serial = none
  lanes : w.lanes.length = 32 ∧ (∀ l ∈ w.lanes, l.state = .ready ∨ l.state = .exited) ∧
    ∃ i < 32, (w.lane i).state = .ready
  alive : ∀ l, lookup w.launch s.launches = some l → l.kill = none

/-- What the commit of a run makes of its warp before the terminal effect (R97, R117): every `v`, `s` and mask register
holds the run's latest result for it, or what it held; the run's lanes stand at the address after the marker, and a lane goes
on in the next clock at the earliest (the model's reading, log 73); gathered flags and switched-off lanes are ORed in after any
SWR; nothing else of the warp changes but what dates its run and counts its faults and mismatches, and the errors of the
registers written. -/
structure Committed (s : State) (w w' : Warp) (r : Run) : Prop where
  frame : w' = { w with v := w'.v, s := w'.s, k := w'.k, tsub := w'.tsub, fpst := w'.fpst, smask := w'.smask,
                        lanes := w'.lanes, run := none, faultRuns := w.faultRuns.filter (fun x => x.1.1 ≠ r.addr),
                        badRegs := w.badRegs.filter (fun l => (r.latest l).isNone), mismatched := w.mismatched.filter (fun x => x ≠ (r.addr, r.lanes)),
                        readySince := s.clock,
                        subst := if w.subAt = r.addr then [] else w.subst }
  vRegs : ∀ n l, archRead w' (.v n l) = (r.latest (.v n l)).getD (archRead w (.v n l))
  sRegs : ∀ n, archRead w' (.s n) = (r.latest (.s n)).getD (archRead w (.s n))
  kRegs : ∀ n l, l < 32 → (archRead w' (.k n l) ≠ 0 ↔ (r.latest (.k n l)).getD (archRead w (.k n l)) ≠ 0)
  flags : w'.fpst = ((r.latest (.sr 0x0A 0)).map (fun v => v &&& 0x7F)).getD w.fpst ||| BitVec.setWidth 32 r.flags
  off : w'.smask = (r.latest (.sr 0x09 0)).getD w.smask ||| r.smask
  sub : ∀ h, h < 2 → archRead w' (.sr 0x11 h) = (r.latest (.sr 0x11 h)).getD (archRead w (.sr 0x11 h))
  lanes : w'.lanes = w.lanes.mapIdx (fun i l =>
    { l with due := s.clock + 1, lpc := if r.lanes.getLsbD i then normLpc r.after else l.lpc })

/-- The machine as the commit of a run finds its effects: the turn the terminal instruction takes is noted (R52, R183), and the
shadow's interval is dirty where the run stores to global or vault memory or to a table, or its terminal instruction has an
effect outside the warp (R388). -/
def State.marked (s : State) (k : Nat) (w : Warp) (r : Run) : State :=
  let dirties := (∃ h ∈ r.held, h.dirties = true) ∨
    ∃ p, r.term = some p ∧ dirtyOp p.op = true ∧ (p.lanes ≠ [] ∨ 0x90 ≤ p.op ∧ p.op ≤ 0x92)
  let t := match r.term.bind (fun p => markerTurn k w p) with
    | some n => { s with turns := put n k s.turns }
    | none => s
  match w.gang with
  | some g => if dirties then { t with gangs := adjust g (fun x =>
      { x with shadow := x.shadow.map (fun sh => { sh with clean := false }) }) t.gangs } else t
  | none => t

/-- Run `r` of warp `k` has come to its marker: every instruction has issued, its reads of scratchpad are answered, and its
launch is not being killed. -/
structure State.Ends (s : State) (k : Nat) (w : Warp) (r : Run) : Prop where
  here : lookup k s.warps = some w
  flight : w.run = some r
  issued : r.words.length ≤ r.index
  answered : r.reads = []
  alive : ∀ l, lookup w.launch s.launches = some l → l.kill = none

/-- The run's terminal instruction as its effect sees it (R97). -/
def Run.ending (k : Nat) (r : Run) : Option Fin := r.term.map (fun p => { key := k, run := r, p := p, after := r.after })

/-- The run's causes, with the one its marker finds in the terminal instruction (R52, R172, R198, R281, R363). -/
def Run.causesAt (k : Nat) (w : Warp) (r : Run) (s : State) : List Cause :=
  r.causes ++ ((r.ending k).bind (fun f => (markerCause f s).map (fun c =>
    ({ off := f.p.off, code := c.1, detail := c.2.1, lanes := maskOf c.2.2,
       tdst := tdstOf f.p.op f.p.w (hdrRegs w.hdr) } : Cause)))).toList

/-- The run's access faults, with those its marker finds in a slice (R52, R97). -/
def Run.faultsAt (k : Nat) (r : Run) (s : State) : List AccFault :=
  r.faults ++ ((r.ending k).map (fun f => markerFaults f s)).getD []

/-- The run does not wait at its marker (R183, R353, R355). -/
def Run.passes (k : Nat) (r : Run) (s : State) : Prop :=
  r.causes = [] → r.faults = [] → ∀ f, r.ending k = some f → markerWaits f s = false

/-- The machine with warp `k` standing for another. -/
def State.withWarp (s : State) (k : Nat) (w : Warp) : State := { s with warps := put k w s.warps }

/-- A packet of context `c` sent to the root of the collective that started it, where one did (R238, R246). -/
def tellStarter (c kind : Nat) (arg : W64) (x : WeirCtx) (s : State) : State :=
  match x.starter with
  | none => s
  | some r => (routePkt { kind := kind, dpkg := r.1, drill := r.2.1, dctx := r.2.2, spkg := s.packageNo, srill := c / 4,
                          sctx := c % 4, arg := arg } s).2

/-- Context `c`, as it stood, Failed with a cause: it stops issuing, its operations and messages are given up, its starter is
told with FAIL (R238), and what waited for it is looked at (R237). -/
def weirFailed (c cause : Nat) (x : WeirCtx) (s : State) : State :=
  let dead : WeirCtx := { x with state := .failed, cause := cause, wait := none, ops := [], msgs := [], held := [],
                                 refusing := [], kept := [], faultWait := none }
  offerCmds (tellStarter c 0x0A (BitVec.ofNat 64 cause) x { s with weirs := put c dead s.weirs })

/-! ## A packet in hand (R310, R311) -/

/-- Every bit of a packet outside a command's fields is 0, the header's reserved bits among them, GREC but where it is
allowed (R311, R318). -/
def PacketKeeps (p : BitVec 512) (grec : Bool) (fields : List (Nat × Nat)) : Prop :=
  (∀ i, 64 ≤ i → i < 426 → p.getLsbD i = true → ∃ f ∈ fields, f.1 ≤ i ∧ i < f.1 + f.2) ∧
  (∀ i, 12 ≤ i → i < 32 → p.getLsbD i = false) ∧ (grec = false → p.getLsbD 11 = false)

/-- The command processor is in focus with packet `p`, entry `ix` of queue `q`. -/
structure State.Holds (s : State) (q ix : Nat) (p : BitVec 512) : Prop where
  focus : s.focus = .command
  taken : s.taken = some (q, ix, p)

/-- The command completes at its start with a result, the machine beside it being `t` (R312). -/
def Completes (i : Instr) (q ix : Nat) (p : BitVec 512) (s : State) (r : Result) (t : State) : Prop :=
  exec i s = .next (completeCommand q ix p (qAsn (qcbOf s q)) (qRoot (qcbOf s q)) r t)

/-- The machine `t` with the command of packet `p` begun, its work under way. -/
def begun (q ix : Nat) (p : BitVec 512) (s : State) (w : CmdWork) (t : State) : State :=
  { t with cmds := put t.nextCmd { queue := q, ix := ix, pkt := p, asn := qAsn (qcbOf s q), root := qRoot (qcbOf s q),
                                   rpld := qRpld (qcbOf s q), work := w, since := t.clock, order := t.nextCmd } t.cmds,
           nextCmd := t.nextCmd + 1 }

end Sys2Proof.Machine
end

