-- ==== Sys2Proof/WellFormed.lean ====
section
/-! DEFINITION. Which instructions are well formed: the words the decoder can answer (R82 to R102, R222 to R224), the
hook words HOOKLD accepts (R322, R323), the packet a command is read from (R311, R319). -/

namespace Sys2Proof

/-- A SIMT instruction is well formed if its word is legal and its opcode map row is this instruction (R100 to R102). -/
def simtWf (i : Instr) (op : Nat) (w : Word) : Bool := legalWord op w && decide (candidate op w = some i)

/-- A weir instruction is well formed if its word keeps to its form (R223, R224). -/
def weirWf (i : Instr) (op : Nat) (w : WeirWord) : Bool :=
  match weirRow op with
  | none => false
  | some r => (r.form w).ok w && decide (r.build w = i)

/-- A packet field of a hook word lies within the packet (R322). -/
def hookFieldOk (off : BitVec 9) (wid : BitVec 7) : Bool :=
  1 ≤ wid.toNat && wid.toNat ≤ 64 && off.toNat + wid.toNat ≤ 512

/-- The limits a hook word keeps to (R322, R323). -/
def hookWf : Instr → Bool
  | .hookLdp _ off wid => hookFieldOk off wid
  | .hookStp _ off wid => hookFieldOk off wid && 64 ≤ off.toNat
  | .hookStq _ q => q.toNat ≤ 3
  | .hookRep cnt len => 1 ≤ cnt.toNat && cnt.toNat ≤ 16 && 1 ≤ len.toNat
  | _ => true

/-- The instruction is well formed. Host writes and events carry no encoding and are well formed as they stand. -/
def Instr.wf (i : Instr) : Bool :=
  match i.simt?, i.weir?, i.hook?, i.packet? with
  | some (op, w), _, _, _ => simtWf i op w
  | none, some (op, w), _, _ => weirWf i op w
  | none, none, some _, _ => hookWf i
  | none, none, none, some p => decide (decodePacket p = i)
  | none, none, none, none => true

end Sys2Proof
end

