-- ==== Sys2Proof/Certificates/Slice0/Obligations.lean ====
section
/-! DEFINITION. The statements about the machine, for the provers: what each instruction does wherever it issues, what
the machine does around it, and what every step keeps. The words they are made of stand in Safety.lean. -/

open Sys2Proof Sys2Proof.Machine

/-! ## SIMT: integers, logic, moves, masks, exchange -/

/-- R119: in every active lane D gets the exact integer the instruction computes, clamped to D's type under SAT, else its
low bits; no intermediate value is rounded or wrapped, and nothing else of the machine changes. -/
def Obligations.IntegerArithmetic : Prop :=
  ∀ x : Word,
    let narrowed := fun (ty : Nat) (v : Int) =>
      wrap (intWidth ty) (if x.sat then max (intMin ty) (min (intMax ty) v) else v)
    let int := fun (i : Instr) (op : Nat) (f : Int → Int → Int → Int) =>
      Results i op x (fun c => toD c (regsOf c.ty) (fun l => narrowed c.ty (f (c.intA l) (c.intB l) (c.intC l))))
    int (.iadd x) 0x20 (fun a b _ => a + b) ∧ int (.isub x) 0x21 (fun a b _ => a - b) ∧
    int (.imul x) 0x23 (fun a b _ => a * b) ∧ int (.imad x) 0x25 (fun a b d => a * b + d) ∧
    int (.imin x) 0x27 (fun a b _ => if a ≤ b then a else b) ∧ int (.imax x) 0x28 (fun a b _ => if a ≤ b then b else a) ∧
    int (.iabs x) 0x29 (fun a _ _ => if a < 0 then -a else a) ∧ int (.ineg x) 0x2A (fun a _ _ => 0 - a) ∧
    Results (.imulh x) 0x24 x (fun c => toD c (regsOf c.ty) (fun l =>
      narrowed c.ty (c.intA l * c.intB l / 2 ^ intWidth c.ty))) ∧
    Results (.imadw x) 0x26 x (fun c => toD c 2 (fun l =>
      narrowed (c.ty + 2) (c.intA l * c.intB l + intVal (c.ty + 2) (c.c 2 l))))

/-- R121, R122, R123: LEA's address, ICMP's condition, and truncating division with its fixed results for a zero divisor
and for a quotient out of range; nothing else changes. -/
def Obligations.CompareDivideAddress : Prop :=
  ∀ x : Word,
    Results (.lea x) 0x2C x (fun c => toD c 2 (fun l => wrap 64 ((c.a 2 l : Int) + c.intB l * 2 ^ x.c.toNat))) ∧
    (∀ cc < 6, x.sop.toNat = cc → Results (.icmp x) 0x2B x (fun c => toK c x.d (fun l =>
      let a := c.intA l
      let b := c.intB l
      [decide (a = b), decide (a ≠ b), decide (a < b), decide (a ≤ b), decide (a > b), decide (a ≥ b)].getD cc false))) ∧
    (let quotient := fun (c : Ctx) (l : Nat) =>
       let a := c.intA l
       let b := c.intB l
       if b = 0 then (2 ^ intWidth c.ty - 1, a)
       else if a.tdiv b < intMin c.ty ∨ intMax c.ty < a.tdiv b then (if x.sat then intMax c.ty else intMin c.ty, 0)
       else (a.tdiv b, a - a.tdiv b * b)
     Results (.idiv x) 0x2D x (fun c => toD c (regsOf c.ty) (fun l => wrap (intWidth c.ty) (quotient c l).1)) ∧
     Results (.irem x) 0x2E x (fun c => toD c (regsOf c.ty) (fun l => wrap (intWidth c.ty) (quotient c l).2)))

/-- R124, R125: what the logic, shift and bit-field instructions write to D, their operands unsigned patterns of the type's
width; nothing else changes. R125 bit by bit: what the shift, rotate, bit-field, reversal, table and counting operations make
of a pattern of `w` bits. R120 and SEL of R124: the carry added and the carry out written to its own mask; the choice by a
mask bit. That a form performed once for the warp takes the bit of the lowest active lane is the model's choice (log 8). -/
def Obligations.LogicAndBits : Prop :=
  (
    ∀ x : Word,
      let log := fun (i : Instr) (op : Nat) (n : Ctx → Nat) (f : Ctx → Nat → Nat) => Results i op x (fun c => toD c (n c) (f c))
      let w := fun (c : Ctx) => regsOf c.ty
      log (.and x) 0x30 w (fun c l => c.pa l &&& c.pb l) ∧ log (.or x) 0x31 w (fun c l => c.pa l ||| c.pb l) ∧
      log (.xor x) 0x32 w (fun c l => c.pa l ^^^ c.pb l) ∧ log (.not x) 0x33 w (fun c l => 2 ^ c.bits - 1 - c.pa l) ∧
      log (.shl x) 0x34 w (fun c l => shiftLeft c.bits (c.pa l) (c.b 1 1 l)) ∧
      log (.shr x) 0x35 w (fun c l => shiftRight c.bits (c.pa l) (c.b 1 1 l)) ∧
      log (.sar x) 0x36 w (fun c l => shiftArith c.bits (intVal c.ty (c.pa l)) (c.b 1 1 l)) ∧
      log (.rot x) 0x37 w (fun c l => rotate c.bits (c.pa l) (c.b 1 1 l)) ∧
      log (.bfx x) 0x38 w (fun c l => bfxOf c.ty (c.pa l) (c.b 1 1 l)) ∧
      log (.bfi x) 0x39 w (fun c l =>
        if (fieldOf c.bits (c.b 1 1 l)).2 = 0 then c.c (w c) l else bfiOf c.bits (c.pa l) (c.b 1 1 l) (c.c (w c) l)) ∧
      log (.popc x) 0x3A (fun _ => 1) (fun c l => popcount c.bits (c.pa l)) ∧
      log (.clz x) 0x3B (fun _ => 1) (fun c l => c.bits - bitLen (c.pa l)) ∧
      log (.brev x) 0x3C w (fun c l => reverseBits c.bits (c.pa l)) ∧
      log (.tern x) 0x3E w (fun c l => ternOf (x.ext.toNat % 256) c.bits (c.pa l) (c.pb l) (c.c (w c) l)) ∧
      log (.bpick x) 0x3F (fun _ => 1) (fun c l => bpickOf (c.a 1 l) (c.b 1 1 l) (c.c 1 l))) ∧
  (
    ∀ w a n i : Nat, 0 < w → a < 2 ^ w → i < w →
      (shiftLeft w a n).testBit i = (decide (n ≤ i) && a.testBit (i - n)) ∧
      (shiftRight w a n).testBit i = a.testBit (i + n) ∧
      (rotate w a n).testBit i = a.testBit ((i + (w - n % w)) % w) ∧
      (shiftArith w (sx w a) n).testBit i = a.testBit (if i + n < w then i + n else w - 1) ∧
      (reverseBits w a).testBit i = a.testBit (w - 1 - i) ∧
      popcount w a = ((List.range w).filter (fun j => a.testBit j)).length ∧
      a < 2 ^ bitLen a ∧ (a ≠ 0 → 2 ^ (bitLen a - 1) ≤ a) ∧
      (∀ tbl b c : Nat, (ternOf tbl w a b c).testBit i =
        tbl.testBit ((a.testBit i).toNat + 2 * (b.testBit i).toNat + 4 * (c.testBit i).toNat)) ∧
      (∀ c pos len : Nat, c < 2 ^ w → pos < 256 → len < 256 →
        (bfiOf w a (pos + 256 * len) c).testBit i =
          if pos ≤ i ∧ i < pos + len then a.testBit (i - pos) else c.testBit i) ∧
      (∀ ty pos len : Nat, ty < 4 → w = intWidth ty → pos < 256 → len < 256 →
        let n := if w ≤ pos then 0 else min len (w - pos)
        (bfxOf ty a (pos + 256 * len)).testBit i =
          if n = 0 then false else if i < n then a.testBit (pos + i) else decide (ty % 2 = 0) && a.testBit (pos + n - 1)) ∧
      (∀ b c j : Nat, a < 2 ^ 32 → b < 2 ^ 32 → j < 4 → i < 8 →
        let ctl := c / 2 ^ (8 * j) % 256
        (bpickOf a b c).testBit (8 * j + i) =
          (!ctl.testBit 4 && (a * 2 ^ 32 + b).testBit (8 * (ctl % 8) + (if ctl.testBit 3 then 7 - i else i))))) ∧
  (
    ∀ x : Word,
      let bit := fun (c : Ctx) (l : Nat) => c.read (.k x.c.toNat (if c.dScalar then c.act.headD l else l)) ≠ 0
      let sum := fun (c : Ctx) (l : Nat) => c.a 1 l + c.b 1 1 l + (if bit c l then 1 else 0)
      Results (.iaddc x) 0x22 x (fun c => orElse
        (if x.sop = 15 then noResult else toK c (BitVec.setWidth 8 x.sop) (fun l => decide (2 ^ 32 ≤ sum c l)))
        (toD c 1 (fun l => sum c l % 2 ^ 32))) ∧
      Results (.sel x) 0x3D x (fun c => toD c (regsOf c.ty) (fun l => if bit c l then c.pa l else c.pb l)))

/-- R140, R142, R143: moves, reads and writes of special registers. MOV and MOVI write every active lane; SMOV reads one
lane, active or not; SRD writes the register's value, and a read of sr.clock is remembered by the warp (R141); SWR takes the
lowest active lane's value, reserved bits of sr.fpst ignored. -/
def Obligations.MovesAndSpecialRegisters : Prop :=
  ∀ x : Word,
    Results (.mov x) 0x65 x (fun c => toD c (regsOf c.ty) (fun l => c.a (regsOf c.ty) l)) ∧
    (x.i = true → Results (.movi x) 0x66 x (fun c => toD c (regsOf c.ty) (fun _ =>
      (immBits x c.ty).toNat % 2 ^ (32 * regsOf c.ty)))) ∧
    ((regOf x.d).isS = true → Results (.smov x) 0x67 x (fun c =>
      toLanes x.d (c.act.take 1) (regsOf c.ty) (fun _ => c.a (regsOf c.ty) (c.b 1 1 0 % 32)))) ∧
    Issued (.srd x) 0x68 x (fun _ _ => True)
      (fun c s => toD c ((srRegs x.a.toNat).getD 1) (fun l => srValue c s x.a.toNat l)) (fun _ _ r => r)
      (fun c s => if x.a = 0x08 ∧ c.act ≠ [] then
          modWarp c.key (fun w => { w with clockRead := srValue c s 0x08 0 }) s else s) ∧
    (x.d = 0x09 ∨ x.d = 0x0A ∨ x.d = 0x11 → Results (.swr x) 0x69 x (fun c loc =>
      match c.act, loc with
      | l :: _, .sr code half =>
        if code ≠ x.d.toNat then none
        else if x.d = 0x11 then
          (if half < 2 then some (BitVec.ofNat 32 (c.b 2 3 l / 2 ^ (32 * half))) else none)
        else if half = 0 then some (BitVec.ofNat 32 (if x.d = 0x0A then c.b 1 1 l % 2 ^ 7 else c.b 1 1 l)) else none
      | _, _ => none))

/-- R141: the value of every special register, by its code: lane, warp and gang numbers, tile coordinates, core and
partition, the clock (never below the warp's earlier reads), the scratch fault mask and the flags as instructions read
registers, the join counter, which a gang's warp reads as 0 (R284), and the trap registers. A task's gang reads number 0 and the
task's tile (R301). -/
def Obligations.SpecialRegisterValues : Prop :=
  ∀ (c : Ctx) (s : State) (l : Nat),
    srValue c s 0x00 l = l ∧
    (c.wp.gang.isSome = true → srValue c s 0x01 l = c.wp.num ∧ srValue c s 0x0B l = 0) ∧
    (∀ g t, gangOf s c.wp = some g → g.task = some t → g.index = none →
      srValue c s 0x02 l = 0 ∧ srValue c s 0x03 l = fld t 64 16 ∧ srValue c s 0x04 l = fld t 80 16 ∧
      srValue c s 0x05 l = fld t 96 16) ∧
    (c.wp.gang = none → srValue c s 0x01 l = 0x80000000 + c.key % 16 ∧ srValue c s 0x02 l = 0xFFFFFFFFFFFFFFFF ∧
      srValue c s 0x03 l = 0xFFFFFFFF ∧ srValue c s 0x04 l = 0xFFFFFFFF ∧ srValue c s 0x05 l = 0xFFFFFFFF ∧
      srValue c s 0x0B l = (c.wp.lane l).join.toNat) ∧
    (∀ g n x y z, gangOf s c.wp = some g → g.task = none → g.index = some n →
      let gx := fld (launchOf s c.wp).pkt 309 16
      let gy := fld (launchOf s c.wp).pkt 325 16
      x < gx → y < gy → n = x + gx * (y + gy * z) →
      srValue c s 0x02 l = n ∧ srValue c s 0x03 l = x ∧ srValue c s 0x04 l = y ∧ srValue c s 0x05 l = z) ∧
    srValue c s 0x06 l = c.key / 64 ∧ srValue c s 0x07 l = c.key / 16 % 4 ∧
    c.wp.clockRead ≤ srValue c s 0x08 l ∧
    (c.key / 64 < 64 → c.wp.clockRead ≤ s.clock → srValue c s 0x08 l = s.clock) ∧
    srValue c s 0x09 l = (c.read (.sr 0x09 0)).toNat ∧ srValue c s 0x0A l = (c.read (.sr 0x0A 0)).toNat ∧
    srValue c s 0x0C l = c.wp.tmask.toNat ∧ srValue c s 0x0D l = c.wp.tpc.toNat ∧
    srValue c s 0x0E l = c.wp.toff.toNat ∧ srValue c s 0x0F l = c.wp.tcause.toNat ∧
    srValue c s 0x10 l = c.wp.tdst.toNat ∧
    srValue c s 0x11 l = (c.read (.sr 0x11 0)).toNat + 2 ^ 32 * (c.read (.sr 0x11 1)).toNat

/-- R269: the lane forms write bit L of kD for active lanes only; the .ALL forms write all 32 bits, when some lane is
active; KMOV writes the whole mask to D. -/
def Obligations.MaskInstructions : Prop :=
  ∀ x : Word,
    let whole := fun (c : Ctx) (v : Nat → Bool) => if c.act = [] then noResult else toMask x.d (List.range 32) v
    let bit := fun (c : Ctx) (code : BitVec 8) (l : Nat) => decide (c.read (.k code.toNat l) ≠ 0)
    let op := fun (c : Ctx) (l : Nat) =>
      let a := bit c x.a l
      let b := bit c x.b l
      [a && b, a || b, a != b, a && !b, !a].getD x.sop.toNat (!a)
    Results (.mjoin x) 0x10 x (fun c => toK c x.d (fun _ => true)) ∧
    Results (.mleave x) 0x11 x (fun c => toK c x.d (fun _ => false)) ∧
    Results (.kset x) 0x13 x (fun c =>
      if x.sx then whole c (fun l => (c.b 1 1 (c.act.headD 0)).testBit l) else toK c x.d (fun l => (c.b 1 1 l).testBit l)) ∧
    Results (.ksetLane x) 0x13 x (fun c => toK c x.d (fun l => (c.a 1 l).testBit 0)) ∧
    Results (.klog x) 0x14 x (fun c => if x.sx then whole c (op c) else toK c x.d (op c)) ∧
    Results (.kmov x) 0x15 x (fun c => toD c 1 (fun _ => (maskOf ((List.range 32).filter (bit c x.a))).toNat)) ∧
    Results (.elect x) 0x19 x (fun c =>
      let lowest := fun l => decide (c.act.head? = some l)
      if x.sx then whole c lowest else toK c x.d lowest)

/-- R146, R148, R149, R150: SHFL's source lane and its ok bit, MATCH, VOTE and SSINT over the active lanes. R147: REDUX
combines operand A over the active lanes in ascending order, SCANX over those up to each lane (or below it), with the flags
of every step gathered once; an enabled one is a cause in every active lane. -/
def Obligations.LanesTogether : Prop :=
  (
    ∀ x : Word,
      let p := fun (c : Ctx) (l : Nat) => decide (c.read (.k x.a.toNat l) ≠ 0)
      (let from_ := fun (c : Ctx) (l : Nat) =>
         let b : Int := c.b 1 1 l
         let j : Int := [b % 32, (l : Int) - b, l + b, ((l ^^^ (c.b 1 1 l % 32) : Nat) : Int)].getD x.sop.toNat 0
         if 0 ≤ j ∧ j ≤ 31 then (j.toNat, true) else (l, false)
       x.sop.toNat < 4 → Results (.shfl x) 0x60 x (fun c => orElse
         (if x.sx then toK c x.c (fun l => (from_ c l).2) else noResult)
         (toD c (regsOf c.ty) (fun l => c.a (regsOf c.ty) (from_ c l).1)))) ∧
      Results (.matchAny x) 0x63 x (fun c => toD c 1 (fun l =>
        (maskOf (c.act.filter (fun m => c.a (regsOf c.ty) m = c.a (regsOf c.ty) l))).toNat)) ∧
      Results (.matchAll x) 0x63 x (fun c => toK c x.d (fun l =>
        decide (∀ m ∈ c.act, c.a (regsOf c.ty) m = c.a (regsOf c.ty) l))) ∧
      (x.sop.toNat < 3 → Results (.vote x) 0x16 x (fun c => toK c x.d (fun _ =>
        [decide (∀ m ∈ c.act, p c m = true), decide (∃ m ∈ c.act, p c m = true),
         decide (∀ m ∈ c.act, ∀ n ∈ c.act, p c m = p c n)].getD x.sop.toNat false))) ∧
      Results (.voteBal x) 0x16 x (fun c => toD c 1 (fun _ => (maskOf (c.act.filter (p c))).toNat)) ∧
      (x.d ≠ x.c → (regOf (BitVec.ofNat 8 x.ext.toNat)).isS = true → (regOf (BitVec.ofNat 8 (x.ext.toNat / 256))).isS = true →
        BitVec.ofNat 8 x.ext.toNat ≠ BitVec.ofNat 8 (x.ext.toNat / 256) →
        Results (.ssint x) 0x64 x (fun c =>
          let a := c.a 1
          let b := c.b 1 1
          let top := c.act.getLast?.getD 0
          orElse (toK c x.d (fun l => decide (∃ m ∈ c.act, a l = b m)))
            (orElse (toK c x.c (fun l => decide (∃ m ∈ c.act, b l = a m)))
              (orElse (toLanes (BitVec.ofNat 8 x.ext.toNat) (c.act.take 1) 1 (fun _ => (c.act.filter (fun l => a l ≤ b top)).length))
                (toLanes (BitVec.ofNat 8 (x.ext.toNat / 256)) (c.act.take 1) 1
                  (fun _ => (c.act.filter (fun l => b l ≤ a top)).length))))))) ∧
  (
    ∀ x : Word,
      let cause := fun (c : Ctx) (fl : BitVec 7) =>
        let en := fl &&& hdrFpte c.wp.hdr
        if c.wp.handler.isSome ∨ en = 0 then []
        else [({ off := c.off, code := 1, detail := en.toNat, lanes := maskOf c.act,
                 tdst := tdstOf c.op x (hdrRegs c.wp.hdr) } : Cause)]
      let gathers := fun (i : Instr) (op : Nat) (f : Ctx → Nat → FRes) (fl : Ctx → BitVec 7) =>
        Issued i op x (fun _ _ => True) (fun c _ => toD c 1 (fun l => (f c l).1))
          (fun c _ r => { r with flags := r.flags ||| fl c, causes := r.causes ++ cause c (fl c) }) (fun _ s => s)
      let all := fun (c : Ctx) => reduxOf c.ty x.sop.toNat x.rm.toNat (c.act.map (c.a 1))
      let upTo := fun (c : Ctx) (l : Nat) => reduxOf c.ty x.sop.toNat x.rm.toNat
        ((c.act.filter (fun m => if x.mx = 1 then m < l else m ≤ l)).map (c.a 1))
      gathers (.redux x) 0x61 (fun c _ => all c) (fun c => if c.act = [] then 0 else (all c).2) ∧
      gathers (.scanx x) 0x62 upTo (fun c => allFlags c (fun l => (upTo c (c.once l)).2)) ∧
      ∀ (ty op rm : Nat) (v y : Nat) (l : List Nat), op < 6 → v < 2 ^ 32 → y < 2 ^ 32 → (∀ z ∈ l, z < 2 ^ 32) →
        let acc := reduxOf ty op rm (v :: l)
        let next := reduxOf ty op rm (v :: l ++ [y])
        reduxOf ty op rm [v] = (v, 0) ∧ reduxOf ty op rm [] = (reduxIdentity ty op, 0) ∧
        (ty = 4 → op < 3 →
          let step := if op = 0 then fp32.add rm false acc.1 y else fp32.minmax (decide (op = 2)) acc.1 y
          next = (step.1, acc.2 ||| step.2)) ∧
        (ty < 2 →
          (op = 0 → acc = ((v :: l).sum % 2 ^ 32, 0)) ∧
          (op = 1 → acc.1 ∈ v :: l ∧ (∀ z ∈ v :: l, intVal ty acc.1 ≤ intVal ty z) ∧ acc.2 = 0) ∧
          (op = 2 → acc.1 ∈ v :: l ∧ (∀ z ∈ v :: l, intVal ty z ≤ intVal ty acc.1) ∧ acc.2 = 0) ∧
          (3 ≤ op → next = (if op = 3 then acc.1 &&& y else if op = 4 then acc.1 ||| y else acc.1 ^^^ y, 0)) ∧
          reduxIdentity ty op = [0, if ty = 0 then 2 ^ 31 - 1 else 2 ^ 32 - 1, if ty = 0 then 2 ^ 31 else 0, 2 ^ 32 - 1, 0,
            0].getD op 0) ∧
        (reduxIdentity 4 0 = 0 ∧ reduxIdentity 4 1 = fp32.infBits ∧ reduxIdentity 4 2 = fp32.sign true + fp32.infBits))

/-! ## SIMT: floating point -/

/-- R127, R129, R131, R138, R139: what the floating-point instructions write to D in every active lane, the flags each lane
raises, gathered, and the cause an enabled flag raises (R117); FABS, FNEG and FCLASS raise none. FFmt's operations, and
packHalf's pair of them, are the arithmetic of R126 to R131. -/
def Obligations.FloatArithmetic : Prop :=
  ∀ x : Word,
    let flt := fun (i : Instr) (op : Nat) (n : Ctx → Nat) (f : Ctx → Nat → FRes) =>
      FloatResults i op x (fun c _ => toD c (n c) (fun l => (f c l).1)) (fun c _ l => (f c l).2) (fun s => s)
    let w := fun (c : Ctx) => regsOf c.ty
    let one := fun (_ : Ctx) => 1
    let pair := fun (g : FFmt → Nat → Nat → Nat → FRes) (c : Ctx) (l : Nat) =>
      let e0 := g c.fmt (c.fa l % 65536) (c.fb l % 65536) (c.fc l % 65536)
      let e1 := g c.fmt (c.fa l / 65536 % 65536) (c.fb l / 65536 % 65536) (c.fc l / 65536 % 65536)
      (e0.1 + 65536 * e1.1, e0.2 ||| e1.2)
    flt (.fadd x) 0x40 w (fun c l => c.fmt.add c.rm x.sat (c.fa l) (c.fb l)) ∧
    flt (.fsub x) 0x41 w (fun c l => c.fmt.sub c.rm x.sat (c.fa l) (c.fb l)) ∧
    flt (.fmul x) 0x42 w (fun c l => c.fmt.mul c.rm x.sat (c.fa l) (c.fb l)) ∧
    flt (.ffma x) 0x43 w (fun c l => c.fmt.fma c.rm x.sat (c.fa l) (c.fb l) (c.fc l)) ∧
    flt (.fmin x) 0x44 w (fun c l => c.fmt.minmax false (c.fa l) (c.fb l)) ∧
    flt (.fmax x) 0x45 w (fun c l => c.fmt.minmax true (c.fa l) (c.fb l)) ∧
    Results (.fabs x) 0x46 x (fun c => toD c (w c) (fun l =>
      if (c.fmt.decode (c.fa l)).isNaN then c.fmt.nanBits else c.fa l % 2 ^ (c.fmt.width - 1))) ∧
    Results (.fneg x) 0x47 x (fun c => toD c (w c) (fun l => c.fmt.setSign (c.fa l) true)) ∧
    Results (.fclass x) 0x49 x (fun c => toD c 1 (fun l => c.fmt.classOf (c.fa l))) ∧
    flt (.frcp x) 0x4A w (fun c l => c.fmt.div c.rm x.sat c.fmt.one (c.fa l)) ∧
    flt (.fsqrt x) 0x4C w (fun c l => c.fmt.sqrt c.rm (c.fa l)) ∧
    flt (.fdiv x) 0x4D w (fun c l => c.fmt.div c.rm x.sat (c.fa l) (c.fb l)) ∧
    flt (.frnd x) 0x4E w (fun c l => c.fmt.rnd c.rm (c.fa l)) ∧
    flt (.fscale x) 0x4F w (fun c l => c.fmt.scale c.rm x.sat (c.fa l) (sx 32 (c.b 1 0 l))) ∧
    flt (.hadd2 x) 0x50 one (pair (fun f a b _ => f.add x.rm.toNat x.sat a b)) ∧
    flt (.hmul2 x) 0x51 one (pair (fun f a b _ => f.mul x.rm.toNat x.sat a b)) ∧
    flt (.hfma2 x) 0x52 one (pair (fun f a b d => f.fma x.rm.toNat x.sat a b d)) ∧
    flt (.hmnx2 x) 0x53 one (pair (fun f a b _ => f.minmax (x.sop.toNat = 1) a b)) ∧
    flt (.ppe x) 0x5C one (fun c l => ppeOf c.wp x.sop.toNat (c.a 1 l)) ∧
    flt (.fstk x) 0x5F one (fun c l => (c.wp.fpst.toNat, BitVec.ofNat 7 (c.b 1 1 l)))

/-- R132, R133, R134: conversions. CVT and CVTS convert once; PACK converts A and B and places them in the half, bytes or
byte MX names of C; UNPK widens one element to FP32. R130: FCMP's condition by the order of the two values, false where
unordered but for NE and UN, and NV for any NaN in the ordered comparisons, for a signalling one in the others. -/
def Obligations.Conversions : Prop :=
  (
    ∀ x : Word,
      let flt := fun (i : Instr) (op : Nat) (n : Ctx → Nat) (f : Ctx → Nat → FRes) =>
        FloatResults i op x (fun c _ => toD c (n c) (fun l => (f c l).1)) (fun c _ l => (f c l).2) (fun s => s)
      flt (.cvt x) 0x54 (fun c => regsOf c.ty) (fun c l => convert c.ty c.sop c.rm x.sat (c.a (regsOf c.sop) l)) ∧
      flt (.cvts x) 0x55 (fun c => regsOf c.ty) (fun c l =>
        convertScaled c.ty c.sop c.rm x.sat (c.a (regsOf c.sop) l) (sx 32 (c.b 1 0 l))) ∧
      flt (.pack x) 0x56 (fun _ => 1) (fun c l =>
        let e := fun (y : Nat) => c.fmt.conv c.rm x.sat (fp32.decode y)
        let p := e (c.a 1 l)
        let q := e (c.b 1 4 l)
        (if c.ty = 6 ∨ c.ty = 7 then p.1 + 65536 * q.1
         else if c.ty = 12 then withByte (c.c 1 l) c.mx (p.1 + 16 * q.1)
         else withByte (withByte (c.c 1 l) (2 * c.mx) p.1) (2 * c.mx + 1) q.1, p.2 ||| q.2)) ∧
      flt (.unpk x) 0x57 (fun _ => 1) (fun c l =>
        let f := fmtOf c.sop
        fp32.conv 0 false (f.decode (c.a 1 l / 2 ^ (f.width * x.c.toNat) % 2 ^ f.width)))) ∧
  (
    ∀ x : Word, ∀ cc < 8, x.sop.toNat = cc →
      let v := fun (c : Ctx) (l : Nat) => (c.fmt.decode (c.fa l), c.fmt.decode (c.fb l))
      let un := fun (c : Ctx) (l : Nat) => (v c l).1.isNaN || (v c l).2.isNaN
      let o := fun (c : Ctx) (l : Nat) => cmpVals (v c l).1 (v c l).2
      Issued (.fcmp x) 0x48 x (fun _ _ => True)
        (fun c _ => toK c x.d (fun l =>
          [!un c l && decide (o c l = 0), un c l || decide (o c l ≠ 0), !un c l && decide (o c l < 0),
           !un c l && decide (o c l ≤ 0), !un c l && decide (0 < o c l), !un c l && decide (0 ≤ o c l),
           un c l, !un c l].getD cc false))
        (fun c _ r =>
          let fl := fun l =>
            if (if 2 ≤ cc ∧ cc ≤ 5 then un c l else (v c l).1.isSNaN || (v c l).2.isSNaN) then flagNV else 0
          { r with flags := r.flags ||| allFlags c fl, causes := r.causes ++ fpCauses c fl })
        (fun _ s => s))

/-- FRSQ (R127), EXP2, LOG2, SIN and COS (R135) complete: each active lane's register gets the function's result at that
lane's free bits (log 6), its flags are gathered, and the counter of free values moves on. The statement holds for every
value of the free bits; how far the functions may be from the exact value is a statement of its own. -/
def Obligations.BoundedFunctions : Prop :=
  ∀ x : Word,
    let pick := fun (s : State) (l : Nat) => Config.freeWord (s.free + l)
    let flt := fun (i : Instr) (op : Nat) (n : Ctx → Nat) (f : Ctx → State → Nat → FRes) =>
      FloatResults i op x (fun c s => toD c (n c) (fun l => (f c s l).1)) (fun c s l => (f c s l).2)
        (fun s => { s with free := s.free + 32 })
    flt (.frsq x) 0x4B (fun c => regsOf c.ty) (fun c s l => c.fmt.rsq ((pick s l).getLsbD 0) (c.fa l)) ∧
    flt (.exp2 x) 0x58 (fun _ => 1) (fun c s l => exp2Of (pick s l) (c.a 1 l)) ∧
    flt (.log2 x) 0x59 (fun _ => 1) (fun c s l => log2Of (pick s l) (c.a 1 l)) ∧
    flt (.sin x) 0x5A (fun _ => 1) (fun c s l => sinOf (pick s l) (c.a 1 l)) ∧
    flt (.cos x) 0x5B (fun _ => 1) (fun c s l => cosOf (pick s l) (c.a 1 l))

/-- R64: rounding m × 2^e to a multiple of 2^q. Nearest: within half a unit, to even on a tie; toward zero: the multiple at
or below the magnitude; toward ±infinity: the multiple on that side, and inexact exactly when something was lost. `sticky`
stands for a positive rest below one unit of m. R61 and R65: wherever arithmetic in FP32 or FP64, or a conversion to any of
the seven formats, gives a NaN, it gives the target's canonical one; and no result is wider than its format. -/
def Obligations.RoundingAndNaN : Prop :=
  (
    ∀ (rm : Nat) (neg : Bool) (m : Nat) (e : Int) (sticky : Bool) (k : Nat), 0 < k → rm < 4 →
      let r := roundQ rm neg m e sticky (e + k)
      (r.2 = true ↔ m % 2 ^ k ≠ 0 ∨ sticky = true) ∧
      (r.1 = m / 2 ^ k ∨ r.1 = m / 2 ^ k + 1) ∧
      (r.2 = false → r.1 * 2 ^ k = m) ∧
      (rm = 0 → 2 * r.1 * 2 ^ k ≤ 2 * m + 2 ^ k ∧ 2 * m ≤ 2 * r.1 * 2 ^ k + 2 ^ k ∧
        (sticky = true → 2 * m < 2 * r.1 * 2 ^ k + 2 ^ k) ∧
        (sticky = false → (2 * r.1 * 2 ^ k = 2 * m + 2 ^ k ∨ 2 * m = 2 * r.1 * 2 ^ k + 2 ^ k) → r.1 % 2 = 0)) ∧
      (rm = 1 → r.1 = m / 2 ^ k) ∧
      (rm = 2 → r.1 = if neg = false ∧ r.2 = true then m / 2 ^ k + 1 else m / 2 ^ k) ∧
      (rm = 3 → r.1 = if neg = true ∧ r.2 = true then m / 2 ^ k + 1 else m / 2 ^ k)) ∧
  (
    (∀ f ∈ [fp32, fp64, fp16, bf16, e4m3, e5m2, e2m1], ∀ (rm : Nat) (sat : Bool) (v : FVal),
      let r := (f.conv rm sat v).1
      r < 2 ^ f.width ∧ ((f.decode r).isNaN = true → r = f.nanBits)) ∧
    (∀ f ∈ [fp32, fp64], ∀ (rm : Nat) (sat : Bool) (x y z : Nat) (b : Int),
      ∀ r ∈ [(f.add rm sat x y).1, (f.sub rm sat x y).1, (f.mul rm sat x y).1, (f.fma rm sat x y z).1, (f.div rm sat x y).1,
             (f.sqrt rm x).1, (f.rnd rm x).1, (f.scale rm sat x b).1],
        r < 2 ^ f.width ∧ ((f.decode r).isNaN = true → r = f.nanBits)))

/-- R127, R135: for every value of the free bits, a finite result of FRSQ lies within 1 ulp of 1/√a and is exact where that is
a number of the format, one of EXP2 and LOG2 within 1 ulp of 2^a and log₂ a (EXP2's subnormal ones within 2^-149), one of SIN
and COS within 2 ulp of sin a and cos a, an ulp being that of the exact value; powers of two are exact, as are the results at
±0; the other special cases give the results and flags listed, and a finite result raises UF and NX only, where it is tiny
and not exact. Which of the results within the bound is given is free (log 6). -/
def Obligations.BoundedResults : Prop :=
  (∀ f ∈ [fp32, fp64], ∀ (pick : Bool) (x : Nat),
    let r := f.rsq pick x
    (∀ b, f.decode x = .nan b → r = (f.nanBits, if b then flagNV else 0)) ∧
    (f.decode x = .inf false → r = (0, 0)) ∧ (f.decode x = .inf true → r = (f.nanBits, flagNV)) ∧
    ∀ neg m e, f.decode x = .num neg m e →
      (m = 0 → r = (f.sign neg + f.infBits, flagDZ)) ∧ (m ≠ 0 → neg = true → r = (f.nanBits, flagNV)) ∧
      (m ≠ 0 → neg = false →
        let y := 1 / Real.sqrt (f.decode x).real
        (f.decode r.1).finite false ∧ |(f.decode r.1).real - y| ≤ f.ulp y ∧
        (∀ z, (f.decode z).finite false → (f.decode z).real = y → (f.decode r.1).real = y ∧ r.2 = 0) ∧
        (r.2 = 0 ∨ r.2 = flagNX))) ∧
  ∀ (pick : BitVec 64) (x : Nat),
    let v := fp32.decode x
    let a := v.real
    let near := fun (n : ℝ) (y : ℝ) (r : FRes) =>
      ∀ neg, (fp32.decode r.1).finite neg → |(fp32.decode r.1).real - y| ≤ n * fp32.ulp y
    let flags := fun (r : FRes) => r.2 = 0 ∨ (r.2 = flagUF ||| flagNX ∧ |(fp32.decode r.1).real| < (2 : ℝ) ^ (-126 : ℤ))
    let nans := fun (r : FRes) => ∀ b, v = .nan b → r = (fp32.nanBits, if b then flagNV else 0)
    let bad : FRes := (fp32.nanBits, flagNV)
    let inf := fp32.infBits
    nans (exp2Of pick x) ∧ nans (log2Of pick x) ∧ nans (sinOf pick x) ∧ nans (cosOf pick x) ∧
    (v = .inf false → exp2Of pick x = (inf, 0) ∧ log2Of pick x = (inf, 0) ∧ sinOf pick x = bad ∧ cosOf pick x = bad) ∧
    (v = .inf true → exp2Of pick x = (0, 0) ∧ log2Of pick x = bad ∧ sinOf pick x = bad ∧ cosOf pick x = bad) ∧
    ∀ neg m e, v = .num neg m e →
      (m = 0 → exp2Of pick x = (fp32.one, 0) ∧ log2Of pick x = (fp32.sign true + inf, flagDZ) ∧
        sinOf pick x = (fp32.sign neg, 0) ∧ cosOf pick x = (fp32.one, 0)) ∧
      (128 ≤ a → exp2Of pick x = (inf, flagOF ||| flagNX)) ∧
      (a < 128 → (fp32.decode (exp2Of pick x).1).finite false ∧ near 1 ((2 : ℝ) ^ a) (exp2Of pick x) ∧ flags (exp2Of pick x)) ∧
      (∀ n : ℤ, a = n → -149 ≤ n → n < 128 → (fp32.decode (exp2Of pick x).1).real = (2 : ℝ) ^ n ∧ (exp2Of pick x).2 = 0) ∧
      (m ≠ 0 → neg = true → log2Of pick x = bad) ∧
      (0 < a → (∃ b, (fp32.decode (log2Of pick x).1).finite b) ∧ near 1 (Real.logb 2 a) (log2Of pick x) ∧
        (log2Of pick x).2 = 0 ∧ ∀ n : ℤ, a = (2 : ℝ) ^ n → (fp32.decode (log2Of pick x).1).real = n) ∧
      (m ≠ 0 → (∃ b, (fp32.decode (sinOf pick x).1).finite b) ∧ near 2 (Real.sin a) (sinOf pick x) ∧ flags (sinOf pick x) ∧
        (∃ b, (fp32.decode (cosOf pick x).1).finite b) ∧ near 2 (Real.cos a) (cosOf pick x) ∧ flags (cosOf pick x))

/-- R119's exact result rounded once, for floating point: R126, R127, R128. For finite operands of FP32, FP64, and of the
halves of R131, the sum, difference, product, fused sum, quotient and root are the exact real value rounded once under the
mode, with the flags of R67 and R128; an exact zero takes its sign as IEEE 754 says; FRND is the value rounded to an integer,
FSCALE the value times 2^b rounded once. Operands that are NaNs or infinities, and division by zero, give the results and
flags of R126 and R128. R129: FMIN and FMAX give the lesser and the greater operand, −0 below +0, a number before a NaN. -/
def Obligations.ExactRounding : Prop :=
  ∀ f ∈ [fp32, fp64, fp16, bf16], ∀ (rm : Nat) (sat : Bool) (x y z : Nat), rm < 4 →
    let u := f.decode x
    let v := f.decode y
    let w := f.decode z
    let once := f.RoundedOnce rm (f.arithOver rm sat)
    let zero := fun (neg : Bool) => ((f.sign neg, 0) : FRes)
    let inf := fun (neg : Bool) => ((if sat then (f.sign neg + f.maxBits, flagSAT) else (f.sign neg + f.infBits, 0)) : FRes)
    let bad : FRes := (f.nanBits, flagNV)
    let nan := fun (l : List FVal) => ((f.nanBits, if l.any (fun a => a.isSNaN) then flagNV else 0) : FRes)
    (u.isNaN = true ∨ v.isNaN = true → f.add rm sat x y = nan [u, v] ∧ f.sub rm sat x y = nan [u, v] ∧
      f.mul rm sat x y = nan [u, v] ∧ f.div rm sat x y = nan [u, v] ∧ f.fma rm sat x y z = nan [u, v, w]) ∧
    (u.isNaN = true → f.sqrt rm x = nan [u] ∧ f.rnd rm x = nan [u] ∧ ∀ b, f.scale rm sat x b = nan [u]) ∧
    (∀ na ma ea nb mb eb, u = .num na ma ea → v = .num nb mb eb →
      once (u.real + v.real) (f.add rm sat x y) ∧
      (u.real + v.real = 0 → f.add rm sat x y = zero (if na = nb then na else decide (rm = 3))) ∧
      once (u.real - v.real) (f.sub rm sat x y) ∧
      (u.real - v.real = 0 → f.sub rm sat x y = zero (if na = !nb then na else decide (rm = 3))) ∧
      once (u.real * v.real) (f.mul rm sat x y) ∧ (u.real * v.real = 0 → f.mul rm sat x y = zero (na != nb)) ∧
      (mb ≠ 0 → once (u.real / v.real) (f.div rm sat x y) ∧ (ma = 0 → f.div rm sat x y = zero (na != nb))) ∧
      (mb = 0 → (ma = 0 → f.div rm sat x y = bad) ∧ (ma ≠ 0 → f.div rm sat x y =
        if sat then (f.sign (na != nb) + f.maxBits, flagDZ ||| flagSAT) else (f.sign (na != nb) + f.infBits, flagDZ))) ∧
      (∀ nc mc ec, w = .num nc mc ec → once (u.real * v.real + w.real) (f.fma rm sat x y z) ∧
        (u.real * v.real + w.real = 0 → f.fma rm sat x y z = zero (if (na != nb) = nc then nc else decide (rm = 3)))) ∧
      (∀ nc, w = .inf nc → f.fma rm sat x y z = inf nc) ∧ (w.isNaN = true → f.fma rm sat x y z = nan [w])) ∧
    (∀ na nb, u = .inf na → v = .inf nb → f.add rm sat x y = (if na = nb then inf na else bad) ∧
      f.sub rm sat x y = (if na = nb then bad else inf na) ∧ f.mul rm sat x y = inf (na != nb) ∧ f.div rm sat x y = bad) ∧
    (∀ na nb m e, u = .inf na → v = .num nb m e → f.add rm sat x y = inf na ∧ f.sub rm sat x y = inf na ∧
      f.mul rm sat x y = (if m = 0 then bad else inf (na != nb)) ∧ f.div rm sat x y = inf (na != nb) ∧
      (m = 0 → f.fma rm sat x y z = bad)) ∧
    (∀ na nb m e, u = .num na m e → v = .inf nb → f.add rm sat x y = inf nb ∧ f.sub rm sat x y = inf (!nb) ∧
      f.mul rm sat x y = (if m = 0 then bad else inf (na != nb)) ∧ f.div rm sat x y = zero (na != nb) ∧
      (m = 0 → f.fma rm sat x y z = bad)) ∧
    (∀ p, f.mul rm false x y = (f.sign p + f.infBits, 0) → (u = .inf true ∨ u = .inf false ∨ v = .inf true ∨ v = .inf false) →
      (∀ nc m e, w = .num nc m e → f.fma rm sat x y z = inf p) ∧
      (∀ nc, w = .inf nc → f.fma rm sat x y z = if nc = p then inf p else bad) ∧ (w.isNaN = true → f.fma rm sat x y z = nan [w])) ∧
    (∀ n, u = .inf n → f.sqrt rm x = (if n then bad else (f.infBits, 0)) ∧ f.rnd rm x = (f.sign n + f.infBits, 0) ∧
      ∀ b, f.scale rm sat x b = inf n) ∧
    (∀ n m e, u = .num n m e →
      (m = 0 → f.sqrt rm x = zero n ∧ ∀ b, f.scale rm sat x b = zero n) ∧ (m ≠ 0 → n = true → f.sqrt rm x = bad) ∧
      (m ≠ 0 → n = false → f.RoundedOnce rm (f.arithOver rm false) (Real.sqrt u.real) (f.sqrt rm x)) ∧
      (∃ k : ℤ, RoundsToInt rm u.real k ∧ (f.decode (f.rnd rm x).1).finite n ∧ (f.decode (f.rnd rm x).1).real = k ∧
        (f.rnd rm x).2 = 0) ∧
      ∀ b : ℤ, once (u.real * (2 : ℝ) ^ b) (f.scale rm sat x b)) ∧
    (x < 2 ^ f.width → y < 2 ^ f.width →
      let pair := fun (lo hi : FRes) =>
        (u.isNaN = false → v.isNaN = false → (lo.1, hi.1) ∈ [(x, y), (y, x)] ∧ (f.decode lo.1).le (f.decode hi.1) ∧
          (∀ m e m' e', u = .num true m e → v = .num false m' e' → lo.1 = x) ∧
          (∀ m e m' e', u = .num false m e → v = .num true m' e' → lo.1 = y)) ∧
        (u.isNaN = true → v.isNaN = false → lo.1 = y ∧ hi.1 = y) ∧ (u.isNaN = false → v.isNaN = true → lo.1 = x ∧ hi.1 = x) ∧
        (u.isNaN = true → v.isNaN = true → lo.1 = f.nanBits ∧ hi.1 = f.nanBits) ∧
        (lo.2 = if u.isSNaN || v.isSNaN then flagNV else 0) ∧ hi.2 = lo.2
      pair (f.minmax false x y) (f.minmax true x y))

/-- R65, R66, R132, R133: conversions. Between floating formats the exact value, times 2^B for CVTS, is rounded once, with R65's
results for overflow, infinities and NaNs; a floating value becomes the integer it rounds to, clamped to the target, with NV
for a clamp and for a NaN; an integer is rounded once; integer to integer truncates and extends, or clamps under SAT with
that flag. -/
def Obligations.ExactConversion : Prop :=
  ∀ (dst frm rm : Nat) (sat : Bool) (x : Nat), dst < 15 → frm < 15 → rm < 4 →
    let to_ := fmtOf dst
    let v := (fmtOf frm).decode x
    let n := intVal frm x
    let pattern := fun (k : ℤ) => wrap (if intWidth dst = 64 then 64 else 32) k
    let clamp := fun (k : ℤ) => max (intMin dst) (min (intMax dst) k)
    let rounded := fun (y : ℝ) (r : FRes) => to_.RoundedOnce rm (to_.convOver rm sat) y r
    let asInt := fun (y : ℝ) (r : FRes) => ∃ k : ℤ, RoundsToInt rm y k ∧
      r = (pattern (clamp k), if clamp k ≠ k then flagNV else if r.2 = 0 then 0 else flagNX) ∧ (clamp k = k → (r.2 = 0 ↔ y = k))
    let special := fun (r : FRes) =>
      (isFloat dst = true → (∀ b, v = .nan b → r = (to_.nanBits, if b || decide (to_ = e2m1) then flagNV else 0)) ∧
        (∀ b, v = .inf b → r = if to_.kind = .ieee then
          (if sat then (to_.sign b + to_.maxBits, flagSAT) else (to_.sign b + to_.infBits, 0)) else to_.convOver rm sat b)) ∧
      (isFloat dst = false → (∀ b, v = .nan b → r = (0, flagNV)) ∧
        (∀ b, v = .inf b → r = (pattern (if b then intMin dst else intMax dst), flagNV)))
    (isFloat frm = true →
      special (convert dst frm rm sat x) ∧ (∀ b, special (convertScaled dst frm rm sat x b)) ∧
      ∀ neg m e, v = .num neg m e →
        (isFloat dst = true → (m = 0 → convert dst frm rm sat x = (to_.sign neg, 0) ∧
            ∀ b, convertScaled dst frm rm sat x b = (to_.sign neg, 0)) ∧
          rounded v.real (convert dst frm rm sat x) ∧
          ∀ b : ℤ, rounded (v.real * (2 : ℝ) ^ b) (convertScaled dst frm rm sat x b)) ∧
        (isFloat dst = false → asInt v.real (convert dst frm rm sat x) ∧
          ∀ b : ℤ, asInt (v.real * (2 : ℝ) ^ b) (convertScaled dst frm rm sat x b))) ∧
    (isFloat frm = false →
      (isFloat dst = true → (n = 0 → convert dst frm rm sat x = (0, 0)) ∧ rounded n (convert dst frm rm sat x)) ∧
      (isFloat dst = false → convert dst frm rm sat x =
        if sat then (pattern (clamp n), if clamp n = n then 0 else flagSAT) else (pattern (intVal dst (wrap 64 n)), 0)))

/-! ## SIMT: loads and stores -/

/-- R44 to R48, R152, R154, R155, R157 and R158: loads from scratchpad, vault and constant space, aligned in every active
lane. A scratchpad lane whose access leaves the declared scratchpad is switched off; the others are left for the end of the
clock, which answers every read of a run before its marker: LDS reads the bytes that stand there then, and free bytes of a
line that a copy or an unordered store races with (log 12), unless an LDF of its lane has gone before; LDF reads a full line,
and waits for an empty one. LDV reads each place after the warp's own waiting stores to it; a vault lane without rights
leaves its fault, and then no lane reads. Bytes beyond the argument block read as zero. R47, R152, R155, R157: stores to
scratchpad and vault, and FEST, aligned in every active lane, are held for the commit in ascending lane order, at the address
the memory operand gives in each lane; STF then marks each line full, FEST marks it empty or full; a lane outside the
declared scratchpad is switched off, a vault lane without rights leaves its fault. No register is written. -/
def Obligations.LocalLoadStore : Prop :=
  (
    (∀ x : Word,
      let n := regsOfSize x.sop.toNat
      let at_ := fun (c : Ctx) (l : Nat) => c.memAddr false l
      let aligned := fun (c : Ctx) (_ : State) => ∀ l ∈ c.act, at_ c l % sizeBytes x.sop.toNat = 0
      let base := fun (c : Ctx) (s : State) => (scratchOf s c.key c.wp).1
      let inside := fun (c : Ctx) (s : State) (l : Nat) =>
        decide (at_ c l + sizeBytes x.sop.toNat ≤ (scratchOf s c.key c.wp).2)
      let read := fun (ldf : Bool) (c : Ctx) (s : State) (l : Nat) =>
        ({ ldf := ldf, lane := l, byte := base c s + at_ c l, own := at_ c l, size := x.sop.toNat, dst := x.d.toNat } : ScrRead)
      let reads := fun (i : Instr) (op : Nat) (ldf : Bool) (lanes : Ctx → List Nat) =>
        Issued i op x aligned (fun _ _ => noResult)
          (fun c s r => { r with
            smask := r.smask ||| maskOf (c.act.filter (fun l => !inside c s l)),
            reads := r.reads ++ ((lanes c).filter (inside c s)).map (read ldf c s) }) (fun _ s => s)
      let refused := fun (c : Ctx) (s : State) =>
        c.loaders.filter (fun l => !vaultOk s (spaceOf (launchOf s c.wp)).rhnd (at_ c l) false)
      let own := fun (c : Ctx) (s : State) =>
        c.loaders.foldl (fun s l => settleOwn c.key (.vault (at_ c l)) (sizeBytes x.sop.toNat) s) s
      reads (.lds x) 0x72 false Ctx.loaders ∧ reads (.ldf x) 0x76 true Ctx.act ∧
      Issued (.ldv x) 0x74 x (fun c s => aligned c s ∧ refused c s = [])
        (fun c s => toLanes x.d c.loaders n (fun l =>
          extendLoad x.sop.toNat (readPlace (own c s) (.vault (at_ c l)) (sizeBytes x.sop.toNat))))
        (fun c s r => { r with ue := r.ue.or (if c.loaders.any (fun l =>
          isPoisoned (own c s) (.vault (at_ c l)) (sizeBytes x.sop.toNat)) then some 0 else none) })
        own ∧
      Issued (.ldv x) 0x74 x (fun c s => aligned c s ∧ refused c s ≠ []) (fun _ _ => noResult)
        (fun c s r => { r with faults := r.faults ++ (refused c s).map (fun l => vaultFault (at_ c l) false .L) }) (fun _ s => s) ∧
      Issued (.ldc x) 0x79 x aligned
        (fun c s => toLanes x.d c.loaders n (fun l => extendLoad x.sop.toNat
          ((List.range (sizeBytes x.sop.toNat)).map (fun i => (constOf s c.wp).getD (at_ c l + i) 0))))
        (fun _ _ r => r) (fun _ s => s)) ∧
    -- a read answered: `done` are the lanes whose LDF has gone before in the clock
    (∀ (k : Nat) (w : Warp) (q : ScrRead) (r : Run) (done : List Nat) (s : State),
      let n := sizeBytes q.size
      let p : Place := .scr q.byte
      let races := !q.ldf && !done.contains q.lane && lineRaces k w q.lane s q.byte
      let bytes := if races then racingBytes k w s q.byte n else readPlace s p n
      let out := answerRead k w q r done s
      (q.ldf = true → lineFull s (q.byte / 128) = false → out = (({ r with ldf := r.ldf ++
        [(q.lane, { line := q.own / 128, byte := q.own % 128, dst := q.dst, size := q.size })] }, done), s)) ∧
      (q.ldf = false ∨ lineFull s (q.byte / 128) = true →
        (∃ new, Logs r none (toLanes (BitVec.ofNat 8 q.dst) [q.lane] (regsOfSize q.size) (fun _ => extendLoad q.size bytes)) new ∧
          out.1.1 = { r with log := new ++ r.log, errAt := if r.ue.isSome then r.errAt else r.faults.length,
                             ue := r.ue.or (if isPoisoned s p n then some 0 else none) }) ∧
        out.1.2 = (if q.ldf then q.lane :: done else done) ∧
        (q.ldf = false → out.2 = if races then { s with free := s.free + 4 } else s) ∧
        (q.ldf = true → out.2 = acquireLine k w.gang q.lane (q.own / 128 * 128) s))) ∧
    -- a run's reads answered in the order made; as a clock ends, none is left unanswered
    (∀ s k w r q, lookup k s.warps = some w → w.run = some r → r.reads = [q] → r.ldf = [] →
      q.ldf = false ∨ lineFull s (q.byte / 128) = true →
      settleReads k s = setRun k (answerRead k w q { r with reads := [] } [] s).1.1 (answerRead k w q { r with reads := [] } [] s).2) ∧
    (∀ k w q rest r done s, answerReads k w (q :: rest) r done s =
      answerReads k w rest (answerRead k w q r done s).1.1 (answerRead k w q r done s).1.2 (answerRead k w q r done s).2) ∧
    ∀ s k w r, lookup k (endClock s).warps = some w → w.run = some r → r.reads = []) ∧
  (
    ∀ x : Word,
      let at_ := fun (c : Ctx) (l : Nat) => c.memAddr false l
      let aligned := fun (n : Nat) (c : Ctx) (_ : State) => ∀ l ∈ c.act, at_ c l % n = 0
      let base := fun (c : Ctx) (s : State) => (scratchOf s c.key c.wp).1
      let inside := fun (n : Nat) (c : Ctx) (s : State) (l : Nat) => decide (at_ c l + n ≤ (scratchOf s c.key c.wp).2)
      let off := fun (n : Nat) (c : Ctx) (s : State) (r : Run) => r.smask ||| maskOf (c.act.filter (fun l => !inside n c s l))
      let data := fun (c : Ctx) (l : Nat) => leBytes (sizeBytes x.sop.toNat) (c.c (regsOfSize x.sop.toNat) l)
      let lanes := fun (n : Nat) (c : Ctx) (s : State) => c.act.filter (inside n c s)
      let rights := fun (c : Ctx) (s : State) (l : Nat) => vaultOk s (spaceOf (launchOf s c.wp)).rhnd (at_ c l) true
      let n := sizeBytes x.sop.toNat
      Issued (.sts x) 0x73 x (aligned n) (fun _ _ => noResult)
        (fun c s r => { r with
          held := r.held ++ (lanes n c s).map (fun l => .bytes (.scr (base c s + at_ c l)) (at_ c l) false (data c l)),
          smask := off n c s r }) (fun _ s => s) ∧
      Issued (.stf x) 0x77 x (aligned n) (fun _ _ => noResult)
        (fun c s r => { r with
          held := r.held ++ ((lanes n c s).map (fun l => .future (base c s + at_ c l) (data c l)) ++
            (lanes n c s).map (fun l => .line ((base c s + at_ c l) / 128) true)),
          smask := off n c s r }) (fun _ s => s) ∧
      Issued (.fest x) 0x78 x (aligned 128) (fun _ _ => noResult)
        (fun c s r => { r with
          held := r.held ++ (lanes 128 c s).map (fun l => .line ((base c s + at_ c l) / 128) (x.sop.toNat = 1)),
          smask := off 128 c s r }) (fun _ s => s) ∧
      Issued (.stv x) 0x75 x (aligned n) (fun _ _ => noResult)
        (fun c s r => { r with
          held := r.held ++ (c.act.filter (rights c s)).map (fun l => .bytes (.vault (at_ c l)) (at_ c l) false (data c l)),
          faults := r.faults ++ (c.act.filter (fun l => !rights c s l)).map (fun l => vaultFault (at_ c l) true .L) })
        (fun _ s => s))

/-- R21, R151, R152, R155, R159: LD and ST translate every lane's address in lane order; where all translate, LD reads each
place (through L1 from a page with CACHE 0) and writes D for the next run, ST holds the bytes for the commit. Where a lane
faults, LD performs no lane's access, and its faults are kept for the marker. PREF changes nothing a program observes: at
most the event log gains an uncorrectable granule it found. R154, R155, R156, R12, R344, R346: a plain load of `n` bytes at a
place by warp `k`, once strong writes of the warp itself that wait on the line have been performed and its L1 copy has gone:
from the core's L1 copy where the page has CACHE 0 and the core holds the line; else the bytes at the place with the writes
laid over them that this core's warps have made and that are not yet performed (to vault memory, this warp's own), as if they
had been performed; then the whole line is taken into L1 unless it is poisoned. No later read of the warp on path S or M
finds older bytes there; memory never changes. With no write waiting, those bytes are what stands at the place. R152: an
address that is no multiple of the access size in some active lane raises the precise misalignment cause in exactly those
lanes, and no lane's access is performed: no register, no memory and nothing held changes. -/
def Obligations.GlobalLoadStore : Prop :=
  (
    ∀ x : Word,
      let at_ := fun (c : Ctx) (l : Nat) => c.memAddr true l
      let n := sizeBytes x.sop.toNat
      let walk := fun (write : Bool) (lanes : List Nat) (c : Ctx) (s : State) =>
        translateLanes c write .L (lanes.map (fun l => (l, at_ c l))) s
      let aligned := fun (c : Ctx) => ∀ l ∈ c.act, at_ c l % n = 0
      let ready := fun (write : Bool) (lanes : Ctx → List Nat) (c : Ctx) (s : State) =>
        (∀ l ∈ c.act, at_ c l % n = 0) ∧ (walk write (lanes c) c s).1.2 = []
      let loaded := fun (c : Ctx) (s : State) =>
        loadLanes c.key (launchOf s c.wp).asn x.sop.toNat
          ((walk false c.loaders c s).1.1.map (fun y => (y.1, at_ c y.1, y.2.1, y.2.2))) (walk false c.loaders c s).2
      Issued (.ld x) 0x70 x (ready false Ctx.loaders)
        (fun c s => toLanes x.d c.loaders (regsOfSize x.sop.toNat) (fun l => lookupD l 0 (loaded c s).1.1))
        (fun c s r => { r with ue := r.ue.or (if (loaded c s).1.2 then some 0 else none) })
        (fun c s => (loaded c s).2) ∧
      Issued (.st x) 0x71 x (ready true Ctx.act) (fun _ _ => noResult)
        (fun c s r => { r with held := r.held ++ (walk true c.act c s).1.1.map (fun y =>
          .bytes y.2.1 (at_ c y.1) (y.2.2 = 0) (leBytes n (c.c (regsOfSize x.sop.toNat) y.1))) })
        (fun c s => (walk true c.act c s).2) ∧
      Issued (.ld x) 0x70 x (fun c s => aligned c ∧ (walk false c.loaders c s).1.2 ≠ []) (fun _ _ => noResult)
        (fun c s r => { r with faults := r.faults ++ (walk false c.loaders c s).1.2 }) (fun c s => (walk false c.loaders c s).2) ∧
      Issued (.st x) 0x71 x (fun c s => aligned c ∧ (walk true c.act c s).1.2 ≠ []) (fun _ _ => noResult)
        (fun c s r => { r with
          held := r.held ++ (walk true c.act c s).1.1.map (fun y =>
            .bytes y.2.1 (at_ c y.1) (y.2.2 = 0) (leBytes n (c.c (regsOfSize x.sop.toNat) y.1))),
          faults := r.faults ++ (walk true c.act c s).1.2 })
        (fun c s => (walk true c.act c s).2) ∧
      (let found := fun (c : Ctx) (s : State) => (c.act.flatMap (fun l => prefFinds c s (at_ c l))).eraseDups
       Issued (.pref x) 0x7A x (fun _ _ => True) (fun _ _ => noResult) (fun _ _ r => r)
         (fun c s => { s with mailLog := (reportGranules (found c s) s).mailLog })) ∧
      ∀ (l : List Nat) (s : State), (∀ e ∈ s.mailLog, e ∈ (reportGranules l s).mailLog) ∧
        ∀ e, e ∈ (reportGranules l s).mailLog → e ∈ s.mailLog ∨ ∃ g ∈ l, e = .poisonedDev (32 * g)) ∧
  (
    ∀ (k asn va n cache : Nat) (p : Place) (s : State),
      let r := loadAt k asn va p cache n s
      let u := freshLine k asn va p s
      let key := (k / 64, asn, va / 128)
      (s.buffer = [] → u = s ∧ viewPlace s k p n = readPlace s p n) ∧
      (∀ b ∈ u.buffer, b.path = .L → b.strong = true → b.unit = k → overlaps (linePlace va p) 128 b.place b.data.length = false) ∧
      (cache ≠ 0 → r.1 = (viewPlace u k p n, isPoisoned u p n)) ∧
      (∀ ln, cache = 0 → lookup key u.l1 = some ln → r.1 = ((ln.drop (va % 128)).take n, false)) ∧
      (cache = 0 → lookup key u.l1 = none → r.1 = (viewPlace u k p n, isPoisoned u p n)) ∧
      r.2 = { u with l1 := r.2.l1, stale := r.2.stale, buffer := r.2.buffer } ∧ (cache ≠ 0 → r.2.l1 = u.l1) ∧
      r.2.buffer.map (fun b => { b with seen := [] }) = u.buffer.map (fun b => { b with seen := [] }) ∧
      r.2.stale = u.stale.filter (fun e => !(decide (e.path = .S ∨ e.path = .M) && overlaps p n e.place e.data.length)) ∧
      (∀ a, cache = 0 → p = .dev a → a % 128 = va % 128 → va % 128 + n ≤ 128 → lookup key u.l1 = none →
        isPoisoned u (.dev (a - a % 128)) 128 = false → (loadAt k asn va p 0 n r.2).1 = (viewPlace u k p n, false)) ∧
      (s.memWf = true → (∀ a, p ≠ .scr a) → (∀ b ∈ s.buffer, b.nib = 0) →
        viewPlace s k p n = readPlace (performSome (ownWrite k) s) p n)) ∧
  (
    ∀ x : Word,
      let cause := fun (c : Ctx) (op : Nat) (global : Bool) (n : Nat) =>
        ({ off := c.off, code := 6, detail := op, lanes := maskOf (c.act.filter (fun l => c.memAddr global l % n ≠ 0)),
           tdst := tdstOf op x (hdrRegs c.wp.hdr) } : Cause)
      let traps := fun (i : Instr) (op : Nat) (global : Bool) (n : Nat) =>
        Issued i op x (fun c _ => ∃ l ∈ c.act, c.memAddr global l % n ≠ 0) (fun _ _ => noResult)
          (fun c _ r => { r with causes := r.causes ++ [cause c op global n] }) (fun _ s => s)
      let n := sizeBytes x.sop.toNat
      traps (.ld x) 0x70 true n ∧ traps (.st x) 0x71 true n ∧ traps (.lds x) 0x72 false n ∧ traps (.sts x) 0x73 false n ∧
      traps (.ldv x) 0x74 false n ∧ traps (.stv x) 0x75 false n ∧ traps (.ldf x) 0x76 false n ∧
      traps (.stf x) 0x77 false n ∧ traps (.fest x) 0x78 false 128 ∧ traps (.ldc x) 0x79 false n)

/-! ## SIMT: tensors and texels -/

/-- R160, R161, R162: LDT and STT on a usable entry with some lane active: LDT writes D with each lane's converted element,
zero beyond the geometry, and gathers the flags of its lanes (in uniform form the one that loads); STT holds for the commit
the element's bytes and the counters of every lane within the geometry, and under BACT 3 a bounds cause after the commit for
the lanes that violate. Every lane that reads, or lies within the geometry of a store, gives that or a fault, or two, its
element's and its scale's, and the faults are kept for the marker; where one is a non-canonical address, nothing of the instruction is performed (R21). -/
def Obligations.TensorLoadStore : Prop :=
  ∀ x : Word,
    let entry := fun (c : Ctx) (s : State) => (launchOf s c.wp).tensor x.c.toNat
    let usable := fun (c : Ctx) (s : State) => c.act ≠ [] ∧ tnUsable (entry c s) = true
    let ld := fun (c : Ctx) (s : State) => ldtLanes c (userOf c s .L) (entry c s) c.loaders s
    let st := fun (c : Ctx) (s : State) => sttLanes c (userOf c s .L) (entry c s) c.act s
    let read := fun (c : Ctx) (s : State) (l : Nat) =>
      lookupD (if c.dScalar then c.act.headD 0 else l) (0, 0) (ld c s).1.1
    let put_ := fun (c : Ctx) (s : State) (l : Nat) => lookupD l 0 ((st c s).1.1.map (fun y => (y.1, y.2.2.flags)))
    let canonical := fun (l : List AccFault) => ∀ f ∈ l, f.kind ≠ 5
    Issued (.ldt x) 0x7B x (fun c s => usable c s ∧ canonical (ld c s).1.2.1)
      (fun c s => toLanes x.d ((ld c s).1.1.map (fun y => y.1)) (regsOf c.ty) (fun l => (read c s l).1))
      (fun c s r => { r with flags := r.flags ||| allFlags c (fun l => (read c s l).2),
                             causes := r.causes ++ fpCauses c (fun l => (read c s l).2),
                             faults := r.faults ++ (ld c s).1.2.1,
                             ue := r.ue.or (if (ld c s).1.2.2 then some 0 else none) })
      (fun c s => (ld c s).2) ∧
    Issued (.stt x) 0x7C x (fun c s => usable c s ∧ canonical (st c s).1.2.1) (fun _ _ => noResult)
      (fun c s r =>
        let out := (st c s).1.1
        let one := fun (b : Bool) => if b then 1 else 0
        let viol := (out.filter (fun y => y.2.2.viol)).map (fun y => y.1)
        { r with
          held := r.held ++ out.flatMap (fun y => [.elem x.c.toNat y.2.1,
            .count x.c.toNat (one y.2.2.viol) (one y.2.2.satc) (one y.2.2.ufc) y.2.2.emax]),
          flags := r.flags ||| allFlags c (put_ c s), causes := r.causes ++ fpCauses c (put_ c s),
          post := r.post ++ (if tnBact (entry c s) = 3 ∧ viol ≠ [] then
            [({ off := c.off, code := 0x0A, detail := x.c.toNat, lanes := maskOf viol,
                tdst := tdstOf 0x7C x (hdrRegs c.wp.hdr) } : Cause)] else []),
          faults := r.faults ++ (st c s).1.2.1,
          ue := r.ue.or (if (st c s).1.2.2 then some 0 else none) })
      (fun c s => (st c s).2) ∧
    Issued (.ldt x) 0x7B x (fun c s => usable c s ∧ ¬ canonical (ld c s).1.2.1) (fun _ _ => noResult)
      (fun c s r => { r with faults := r.faults ++ (ld c s).1.2.1 }) (fun _ s => s) ∧
    Issued (.stt x) 0x7C x (fun c s => usable c s ∧ ¬ canonical (st c s).1.2.1) (fun _ _ => noResult)
      (fun c s r => { r with faults := r.faults ++ (st c s).1.2.1 }) (fun _ s => s) ∧
    (∀ c s,
      let gives := fun (out faults lanes : Nat) => lanes ≤ out + faults ∧ 2 * out + faults ≤ 2 * lanes
      gives (ld c s).1.1.length (ld c s).1.2.1.length c.loaders.length ∧
      gives (st c s).1.1.length (st c s).1.2.1.length (c.act.filter (fun l => tnInside (entry c s) (c.coords l))).length) ∧
    -- every active lane beyond the geometry: zero read, nothing written, nothing else changes (R68, R160)
    (∀ s k w r, s.Issues k w r →
      let c := ctxOf k w r 0x7B x
      usable c s → (∀ l ∈ c.act, tnInside (entry c s) (c.coords l) = false) →
      (∃ new, Logs r (distance 0x7B x) (toLanes x.d c.loaders (regsOf c.ty) (fun _ => 0)) new ∧
        exec (.ldt x) s = .next (setRun k (r.movedOn c new) s)) ∧
      exec (.stt x) s = .next (setRun k (r.movedOn (ctxOf k w r 0x7C x) []) s))

/-- R77, R173 to R175, R81: TQRY, TSCL, TBND, TUFC and TDEF. On a usable entry TQRY gives the counter SOP names and TSCL the
suggested scale, in every active lane; TBND holds the new bounds, TUFC its read and reset, TDEF the image it read, for the
commit; with no lane active none does anything. An entry that is not usable, and bounds or an image that are refused, are the
tensor-descriptor cause of that entry. R21, R176, R177, R178: the samplers, in a kernel that declares them and on a usable
image entry, write D (four registers for TEXG) with the texels each lane asks for, and keep their faults and errors for the
end of the run; where a fault is a non-canonical address, nothing of the instruction is performed (R21). Without the
declaration they are the resource-bound cause; on an entry that is no usable image, the tensor-descriptor cause. -/
def Obligations.SamplersAndTensorTable : Prop :=
  (
    ∀ x : Word,
      let n := x.c.toNat
      let entry := fun (c : Ctx) (s : State) => (launchOf s c.wp).tensor n
      let usable := fun (c : Ctx) (s : State) => c.act ≠ [] ∧ tnUsable (entry c s) = true
      let cause := fun (c : Ctx) =>
        ({ off := c.off, code := 7, detail := n, lanes := maskOf c.act, tdst := tdstOf c.op x (hdrRegs c.wp.hdr) } : Cause)
      let refused := fun (i : Instr) (op : Nat) (pre : Ctx → State → Prop) =>
        Issued i op x (fun c s => c.act ≠ [] ∧ pre c s) (fun _ _ => noResult)
          (fun c _ r => { r with causes := r.causes ++ [cause c] }) (fun _ s => s)
      let unusable := fun (c : Ctx) (s : State) => tnUsable (entry c s) = false
      let image := fun (c : Ctx) (s : State) => tensorRead (userOf c s .L) false (c.a 2 0) 64 s
      Issued (.tqry x) 0x99 x usable (fun c s => toD c 1 (fun _ =>
        [tnViol (entry c s), tnSatc (entry c s), tnUfc (entry c s)].getD x.sop.toNat (wrap 32 (tnEmax (entry c s)))))
        (fun _ _ r => r) (fun _ s => s) ∧
      Issued (.tscl x) 0x9C x usable (fun c s => toD c 1 (fun _ => suggestScale (entry c s))) (fun _ _ r => r) (fun _ s => s) ∧
      Issued (.tbnd x) 0x9A x
        (fun c s => usable c s ∧ (x.sop = 0 ∨ badBounds (tnFmt (entry c s)) (c.a 1 0) (c.b 1 1 0) = false)) (fun _ _ => noResult)
        (fun c _ r => { r with held := r.held ++
          [.tbnd n (BitVec.ofNat 32 (c.a 1 0)) (BitVec.ofNat 32 (c.b 1 1 0)) (BitVec.ofNat 2 x.sop.toNat) x.sx] })
        (fun _ s => s) ∧
      Issued (.tufc x) 0x9B x usable (fun _ _ => noResult)
        (fun c _ r => { r with term := some { op := 0x9B, w := x, off := c.off, lanes := c.act } }) (fun _ s => s) ∧
      Issued (.tdef x) 0x98 x
        (fun c s => c.act ≠ [] ∧ c.a 2 0 % 64 = 0 ∧ ∃ v, (image c s).1 = .ok (v, false) ∧
          (tnValid (BitVec.ofNat 512 v) && tnMalformed (BitVec.ofNat 512 v)) = false) (fun _ _ => noResult)
        (fun c s r => { r with held := r.held ++
          (match (image c s).1 with | .ok v => [.tdef n (BitVec.ofNat 512 v.1)] | .error _ => []) })
        (fun c s => (image c s).2) ∧
      refused (.tqry x) 0x99 unusable ∧ refused (.tscl x) 0x9C unusable ∧ refused (.tufc x) 0x9B unusable ∧
      refused (.tbnd x) 0x9A (fun c s => unusable c s ∨ (x.sop ≠ 0 ∧
        badBounds (tnFmt (entry c s)) (c.a 1 0) (c.b 1 1 0) = true)) ∧
      refused (.ldt x) 0x7B unusable ∧ refused (.stt x) 0x7C unusable ∧
      Issued (.tdef x) 0x98 x
        (fun c s => c.act ≠ [] ∧ c.a 2 0 % 64 = 0 ∧ ∃ v, (image c s).1 = .ok (v, false) ∧
          (tnValid (BitVec.ofNat 512 v) && tnMalformed (BitVec.ofNat 512 v)) = true) (fun _ _ => noResult)
        (fun c _ r => { r with causes := r.causes ++ [cause c] }) (fun c s => (image c s).2) ∧
      -- with no lane active none does anything; TUFC leaves the same for the commit, which then does nothing
      (∀ i op, (i, op) = (Instr.ldt x, 0x7B) ∨ (i, op) = (.stt x, 0x7C) ∨ (i, op) = (.tqry x, 0x99) ∨ (i, op) = (.tscl x, 0x9C) ∨
          (i, op) = (.tbnd x, 0x9A) ∨ (i, op) = (.tdef x, 0x98) →
        Issued i op x (fun c _ => c.act = []) (fun _ _ => noResult) (fun _ _ r => r) (fun _ s => s)) ∧
      Issued (.tufc x) 0x9B x (fun c _ => c.act = []) (fun _ _ => noResult)
        (fun c _ r => { r with term := some { op := 0x9B, w := x, off := c.off, lanes := [] } }) (fun _ s => s) ∧
      ∀ (f : Fin) (s : State), f.p.op = 0x9B → f.p.lanes = [] → terminal f s = s) ∧
  (
    ∀ x : Word,
      let entry := fun (c : Ctx) (s : State) => (launchOf s c.wp).tensor x.c.toNat
      let texture := fun (i : Instr) (op n : Nat)
          (f : Ctx → TUser → TEntry → Nat → State → (List Nat × List AccFault × Bool) × State) =>
        let out := fun (c : Ctx) (s : State) => sampleLanes (f c (userOf c s .S) (entry c s)) c.act s
        let ok := fun (c : Ctx) (s : State) => tnUsable (entry c s) && tnImg (entry c s)
        let refused := fun (pre : Ctx → State → Prop) (code detail : Nat) =>
          Issued i op x (fun c s => c.act ≠ [] ∧ pre c s) (fun _ _ => noResult)
            (fun c _ r => { r with causes := r.causes ++
              [({ off := c.off, code := code, detail := detail, lanes := maskOf c.act,
                  tdst := tdstOf op x (hdrRegs c.wp.hdr) } : Cause)] }) (fun _ s => s)
        let canonical := fun (c : Ctx) (s : State) => ∀ f ∈ (out c s).1.2.1, f.kind ≠ 5
        Issued i op x (fun c s => c.act ≠ [] ∧ hdrSmp c.wp.hdr = true ∧ ok c s = true ∧ ¬ canonical c s) (fun _ _ => noResult)
          (fun c s r => { r with faults := r.faults ++ (out c s).1.2.1 }) (fun _ s => s) ∧
        Issued i op x (fun c s => c.act ≠ [] ∧ hdrSmp c.wp.hdr = true ∧ ok c s = true ∧ canonical c s)
          (fun c s => toLanes x.d c.act n (fun l => lookupD l 0 (out c s).1.1))
          (fun c s r => { r with faults := r.faults ++ (out c s).1.2.1,
                                 ue := r.ue.or (if (out c s).1.2.2 then some 4 else none) })
          (fun c s => (out c s).2) ∧
        Issued i op x (fun c _ => c.act = []) (fun _ _ => noResult) (fun _ _ r => r) (fun _ s => s) ∧
        refused (fun c _ => hdrSmp c.wp.hdr = false) 5 op ∧
        refused (fun c s => hdrSmp c.wp.hdr = true ∧ ok c s = false) 7 x.c.toNat
      texture (.tex2 x) 0xD0 1 tex2Lane ∧ texture (.texg x) 0xD1 4 texgLane ∧ texture (.texl x) 0xD2 1 texlLane)

/-! ## SIMT: the end of a run, control, traps -/

/-- R97, R117: the commit of a run with neither held stores nor a terminal instruction: its results become the registers'
values, its lanes take the address after the marker, its flags are ORed in; nothing of the machine changes but this warp, so
every byte of memory stays. In the handler the lanes of the trap save that wait on a mask are tested too. -/
def Obligations.CommitOfRun : Prop :=
  ∀ s k w r, s.AtMarker k w r → r.held = [] → r.term = none →
    ∃ w', Committed s w w' r ∧ exec (.runMarker k) s = .next (settle k (s.withWarp k w')) ∧
      (w.handler = none → settle k (s.withWarp k w') = s.withWarp k { w' with joinSince := none })

/-- R97, R263, R265, R258, R271, R270, R388: a terminal instruction of any kind acts after the run's results are written,
and, where its effect leaves the shadow's interval dirty, as a copy's does with no lane active too, once the interval is marked
so: the commit answers the state its
effect gives, then the lanes' waits are tested; only then may a cause it left be entered (R364), and after TRET none is. A
cause left inside the handler kills the launch. While its queue or a release keeps the marker waiting, nothing happens. -/
def Obligations.CommitOfTerminal : Prop :=
  ∀ s k w r p, s.AtMarker k w r → r.held = [] → r.term = some p →
    let f : Fin := { key := k, run := r, p := p, after := r.after }
    let s0 := s.marked k w r
    (markerWaits f s = true → exec (.runMarker k) s = .next s) ∧
    (markerWaits f s = false → markerCause f s = none → markerFaults f s = [] →
      ∃ w', Committed s w w' r ∧
        let t := terminal f (s0.withWarp k w')
        (w.handler = none → (p.op ≠ 0x09 ∨ p.lanes = []) → exec (.runMarker k) s = .next (enterPost k (settle k t))) ∧
        (w.handler ≠ none → p.op ∉ [0x07, 0x08] ∨ p.lanes = [] → exec (.runMarker k) s = .next (settle k t)) ∧
        (w.handler ≠ none → p.op ∈ [0x07, 0x08] → p.lanes ≠ [] → exec (.runMarker k) s =
          .next (killLaunch w.launch 0x21 (itemOf s0 w) (0x100 + if p.op = 0x07 then 2 else 3) (settle k t))))

/-- R97, R99, R388: what a run holds takes effect when it commits, oldest first, once its results are written and its
shadow's interval is marked dirty where an effect makes it so; then its terminal instruction acts. R155: bytes reach memory,
each at the address it was held for; every other byte of every memory reads as before, where path L's writes do not lag (logs
14 and 58) and no other operation of the clock is on a line stored to (R44); a byte stored to global or vault memory is what
the warp sees there, lagging or not (R156, R345), and the core's L1 copy of its line, if it has one, takes it. What the other
held effects make of the machine as the run commits. R43, R44, R47, R157: STF writes its bytes and marks the line full, FEST
sets the line's bit as it says, the operation being the last of the clock on its line. R79, R80, R162: STT's element is
stored like bytes, half a byte beside the other half, and its counters move on, each saturating, EMAX to the greatest. R175:
TBND replaces bounds, action and NaN rule, TUFC returns the counter and resets it in one step. R174: TDEF replaces the entry.
R137: PPLD replaces the words of one table of the warp. Nothing else of an entry changes. -/
def Obligations.StoresAtCommit : Prop :=
  (
    (∀ s k w r, s.AtMarker k w r →
      let s0 := s.marked k w r
      let held := fun (w' : Warp) => r.held.foldl (releaseHeld k (k / 64) (launchOf s w).asn w.launch) (s0.withWarp k w')
      ∃ w', Committed s w w' r ∧
        (r.term = none → exec (.runMarker k) s = .next (settle k (held w'))) ∧
        ∀ p, r.term = some p →
          let f : Fin := { key := k, run := r, p := p, after := r.after }
          markerWaits f s = false → markerCause f s = none → markerFaults f s = [] →
          (w.handler = none → (p.op ≠ 0x09 ∨ p.lanes = []) →
            exec (.runMarker k) s = .next (enterPost k (settle k (terminal f (held w'))))) ∧
          (w.handler ≠ none → p.op ∉ [0x07, 0x08] ∨ p.lanes = [] →
            exec (.runMarker k) s = .next (settle k (terminal f (held w'))))) ∧
    (∀ s k w r, s.AtMarker k w r → s.memWf = true → r.term = none →
      (∀ h ∈ r.held, ∃ p va l1 data, h = .bytes p va l1 data) →
      ∃ t, exec (.runMarker k) s = .next t ∧ t.memWf = true ∧
        (∀ p va l1 data, r.held = [.bytes p va l1 data] → (∀ a, p ≠ .scr a) → viewPlace t k p data.length = data) ∧
        (s.buffer = [] → Path.L ∉ s.lag → s.scrNow = [] →
         let last := fun (sel : Place → Option Nat) (a : Nat) =>
           (r.held.reverse.filterMap (fun h => match h with
             | .bytes p _ _ data => (sel p).bind (fun b => if b ≤ a ∧ a < b + data.length then data[a - b]? else none)
             | _ => none)).head?
         ∀ a,
           Mem.get a t.dev = (last (fun p => match p with | .dev b => some b | _ => none) a).getD (Mem.get a s.dev) ∧
           Mem.get a t.host = (last (fun p => match p with | .host b => some b | _ => none) a).getD (Mem.get a s.host) ∧
           Mem.get a t.vault = (last (fun p => match p with | .vault b => some b | _ => none) a).getD (Mem.get a s.vault) ∧
           Mem.get a t.scr = (last (fun p => match p with | .scr b => some b | _ => none) a).getD (Mem.get a s.scr))) ∧
    ∀ (k core asn launch va : Nat) (p : Place) (data : List Byte) (s : State) (key : Nat × Nat × Nat),
      lookup key (releaseHeld k core asn launch s (.bytes p va true data)).l1 =
        if key = (core, asn, va / 128)
        then (lookup key s.l1).map (fun ln => ln.take (va % 128) ++ data ++ ln.drop (va % 128 + data.length))
        else lookup key s.l1) ∧
  (
    ∀ (k core asn launch : Nat) (s : State),
      let rel := releaseHeld k core asn launch s
      let last := fun (rank line : Nat) => ∀ o ∈ s.scrNow, o.line = line → o.rank < rank ∨ (o.rank = rank ∧ o.warp ≤ k)
      let entry := fun (n : Nat) (t : State) => (lookup launch t.launches).map (fun l => l.tensor n)
      let only := fun (t : State) => t = { s with launches := t.launches } ∧
        (∀ m, m ≠ launch → lookup m t.launches = lookup m s.launches) ∧
        (lookup launch t.launches).map (fun l => { l with tensors := [] }) =
          (lookup launch s.launches).map (fun l => { l with tensors := [] })
      let others := fun (n : Nat) (t : State) => ∀ m, m ≠ n → entry m t = entry m s
      let keeps := fun (lo len : Nat) (e e' : TEntry) (i : Nat) => (i < lo ∨ lo + len ≤ i) → e'.getLsbD i = e.getLsbD i
      (∀ ln full, last 2 ln → ∀ x, lineFull (rel (.line ln full)) x = if x = ln then full else lineFull s x) ∧
      (∀ a data, s.scr.wf = true → last 1 (a / 128) → ∀ b,
        Mem.get b (rel (.future a data)).scr = if a ≤ b ∧ b < a + data.length then data.getD (b - a) 0 else Mem.get b s.scr) ∧
      (∀ n (e : ElemWrite), s.memWf = true → e.nib = 0 → (∀ a, e.place ≠ .scr a) →
        rel (.elem n e) = rel (.bytes e.place e.va e.l1 (leBytes e.size e.bits))) ∧
      (∀ n (e : ElemWrite), s.memWf = true → e.nib ≠ 0 → (∀ a, e.place ≠ .scr a) → s.buffer = [] → Path.L ∉ s.lag →
        readNat (rel (.elem n e)) e.place 1 =
          (if e.nib = 1 then readNat s e.place 1 / 16 * 16 + e.bits % 16 else e.bits % 16 * 16 + readNat s e.place 1 % 16) ∧
        ∀ q m, overlaps q m e.place 1 = false → readPlace (rel (.elem n e)) q m = readPlace s q m) ∧
      (∀ n viol satc ufc emax,
        let t := rel (.count n viol satc ufc emax)
        only t ∧ others n t ∧ ∀ e, entry n s = some e → ∃ e', entry n t = some e' ∧
          tnViol e' = min 0xFFFF (tnViol e + viol) ∧ tnSatc e' = min 0xFFFFFF (tnSatc e + satc) ∧
          tnUfc e' = min 0xFFFFFF (tnUfc e + ufc) ∧
          tnEmax e' = (match emax with | some x => max (tnEmax e) (max (-2047) (min 2047 x)) | none => tnEmax e) ∧
          ∀ i < 448, keeps 238 12 e e' i) ∧
      (∀ n lo hi bact nanok,
        let t := rel (.tbnd n lo hi bact nanok)
        only t ∧ others n t ∧ ∀ e, entry n s = some e → ∃ e', entry n t = some e' ∧
          tnLo e' = lo.toNat ∧ tnHi e' = hi.toNat ∧ tnBact e' = bact.toNat ∧ tnNanok e' = nanok ∧
          ∀ i, (i < 384 ∨ 448 ≤ i) → keeps 185 3 e e' i) ∧
      (∀ n image, only (rel (.tdef n image)) ∧ others n (rel (.tdef n image)) ∧
        ∀ e, entry n s = some e → entry n (rel (.tdef n image)) = some image) ∧
      (∀ n (vals : List W32) w, vals.length ≤ 320 → lookup k s.warps = some w →
        ∃ pp, rel (.ppld n vals) = s.withWarp k { w with pp := pp } ∧
          ∀ t i, i < 320 → lookupD (320 * t + i) 0 pp = if t = n ∧ i < vals.length then vals.getD i 0 else lookupD (320 * t + i) 0 w.pp) ∧
      (∀ (f : Fin) w e, f.p.op = 0x9B → f.p.lanes ≠ [] → lookup f.key s.warps = some w → w.launch = launch →
        entry f.p.w.c.toNat s = some e →
        let which := f.p.w.sop.toNat
        let value := [tnViol e, tnSatc e, tnUfc e].getD which (wrap 32 (tnEmax e))
        ∃ w' e', lookup f.key (terminal f s).warps = some w' ∧
          w' = { w with v := w'.v, s := w'.s, badRegs := w'.badRegs } ∧ entry f.p.w.c.toNat (terminal f s) = some e' ∧
          others f.p.w.c.toNat (terminal f s) ∧
          (∀ m l, archRead w' (.v m l) = if regOf f.p.w.d = .v m ∧ l ∈ f.p.lanes then BitVec.ofNat 32 value else archRead w (.v m l)) ∧
          (∀ m, archRead w' (.s m) = if regOf f.p.w.d = .s m then BitVec.ofNat 32 value else archRead w (.s m)) ∧
          (which = 0 → tnViol e' = 0 ∧ ∀ i, keeps 496 16 e e' i) ∧ (which = 1 → tnSatc e' = 0 ∧ ∀ i, keeps 472 24 e e' i) ∧
          (which = 2 → tnUfc e' = 0 ∧ ∀ i, keeps 448 24 e e' i) ∧ (which = 3 → tnEmax e' = -2048 ∧ ∀ i, keeps 238 12 e e' i)))

/-- R98, R363, R365, R366, R367: the marker of a run with a handler cause, its own or one its marker finds in the terminal
instruction (R52, R172, R198, R281), and no fatal fault abandons the run and enters the handler: the trap registers name the
run, the instruction, the lanes, the cause and the destination, every lane's counter, state and pending loads are saved, and
every lane that has not exited is Ready at header + TRAPH; the registers the run would have written, and memory, are as
before. Inside the handler, or without one, the launch is killed with status 0x0021. R363: of the causes of a run the one
taken has the lowest offset, and among those of one offset the lowest code. R364, R382: between runs, outside the handler, of
a warp not stopped for a switch-out, the first waiting cause of a committed run is entered as R365 and R366 say, with the
run's address, its lanes already past the marker. -/
def Obligations.TrapEntry : Prop :=
  (
    ∀ s k w r c, s.Ends k w r → r.ue = none → r.mismatch = none → r.passes k s → firstCause (r.causesAt k w s) = some c →
      fatalFault (r.faultsAt k s) = none →
      (w.handler = none → hdrTraph w.hdr ≠ 0 →
        exec (.runMarker k) s = .next (s.withWarp k { w with
          tpc := BitVec.ofNat 64 r.addr, toff := BitVec.ofNat 32 c.off, tmask := c.lanes,
          tcause := BitVec.ofNat 32 (c.code + 256 * (c.detail % 256)), tdst := c.tdst,
          handler := some { lanes := w.lanes.map (fun l => (l.lpc, l.state)),
                            loads := (w.lanes.mapIdx (fun i l => (i, l.loads))).filter (fun x => x.2 ≠ []),
                            runLanes := r.lanes, after := r.after, post := false },
          lanes := w.lanes.map (fun l =>
            if l.state = .exited then l
            else { l with lpc := normLpc (w.hdrAt + hdrTraph w.hdr), state := .ready, loads := [] }),
          run := none, mismatched := w.mismatched.filter (fun x => x ≠ (r.addr, r.lanes)), readySince := s.clock })) ∧
      (w.handler ≠ none ∨ hdrTraph w.hdr = 0 →
        exec (.runMarker k) s = .next (killLaunch w.launch 0x21 (itemOf s w)
          ((if w.handler = none then 0 else 0x100) + c.code) (s.withWarp k { w with run := none })))) ∧
  (
    ∀ (l : List Cause) (c : Cause), firstCause l = some c →
      c ∈ l ∧ ∀ d ∈ l, c.off < d.off ∨ (c.off = d.off ∧ c.code ≤ d.code)) ∧
  (
    ∀ s k w addr c rest, lookup k s.warps = some w → w.run = none → w.handler = none → w.post = (addr, c) :: rest →
      hdrTraph w.hdr ≠ 0 → w.stopping = false →
      ∃ w', exec (.postCommitTrapEntry k) s = .next (s.withWarp k w') ∧ w'.post = rest ∧
        w'.tpc = BitVec.ofNat 64 addr ∧ w'.toff = BitVec.ofNat 32 c.off ∧ w'.tmask = c.lanes ∧ w'.tdst = c.tdst ∧
        w'.tcause = BitVec.ofNat 32 (c.code + 256 * (c.detail % 256) + 65536) ∧
        w'.v = w.v ∧ w'.s = w.s ∧ w'.k = w.k ∧ w'.tsub = w.tsub ∧ w'.fpst = w.fpst ∧
        (∀ h, w'.handler = some h → h.lanes = w.lanes.map (fun l => (l.lpc, l.state)) ∧
          h.loads = (w.lanes.mapIdx (fun i l => (i, l.loads))).filter (fun x => x.2 ≠ [])) ∧ w'.handler ≠ none ∧
        w'.lanes = w.lanes.map (fun l =>
          if l.state = .exited then l
          else { l with lpc := normLpc (w.hdrAt + hdrTraph w.hdr), state := .ready, loads := [] }))

/-- R267, R366, R367, R368: TRET ends the handler and gives every lane that has not exited since its saved state, counter and
pending loads, with the results of the waits that ended meanwhile (log 9); for a trap of a run that did not commit .SUB adds
the lanes of sr.tmask at sr.toff with the value of sr.tsub to the substitution record and keeps the rest of it for the same
run, .RETRY and .NEXT clear it, and .NEXT sends the lanes of the trapped run past its marker. R368: where a lane of the
issuing instruction is recorded for it, the instruction is not performed there: a `v` or `t` destination takes the recorded
value, the lane raises no flag and no cause, and the other lanes are as ever (here: an IADD and an FADD with single
destinations). -/
def Obligations.TrapReturn : Prop :=
  (
    ∀ (x : Word),
      LeavesTerm (.tret x) 0x09 x (fun c => { op := 0x09, w := x, off := c.off, lanes := c.act }) ∧
      ∀ (f : Fin) (s : State) (w : Warp) (h : TrapSave), f.p.op = 0x09 → f.p.w = x → f.p.lanes ≠ [] →
        lookup f.key s.warps = some w → w.handler = some h →
        w.lanes.length = 32 → h.lanes.length = 32 →
        ∃ w', terminal f s = s.withWarp f.key w' ∧ w'.handler = none ∧ w'.readySince = s.clock ∧
          (let u := h.writes.foldl archWrite w
           w'.v = u.v ∧ w'.s = u.s ∧ w'.k = u.k) ∧
          (∀ i < 32, (w.lane i).state ≠ .exited → (w'.lane i).loads = lookupD i [] h.loads) ∧
          (∀ i < 32, (w'.lane i).state = if (w.lane i).state = .exited then .exited else (h.lanes[i]?.getD default).2) ∧
          (∀ i < 32, (w.lane i).state ≠ .exited →
            (w'.lane i).lpc = if x.sop = 2 ∧ h.post = false ∧ h.runLanes.getLsbD i ∧ (h.lanes[i]?.getD default).1 = w.tpc.toNat
              then normLpc h.after else (h.lanes[i]?.getD default).1) ∧
          (h.post = true ∨ x.sop ≠ 1 → w'.subst = []) ∧
          (h.post = false → x.sop = 1 → w'.subAt = w.tpc.toNat ∧
            ∀ e : Subst, e ∈ w'.subst ↔
              (e.off = w.toff.toNat ∧ w.tmask.getLsbD e.lane = true ∧ e.val = w.tsub) ∨
              (w.subAt = w.tpc.toNat ∧ e ∈ w.subst ∧ ¬ (e.off = w.toff.toNat ∧ w.tmask.getLsbD e.lane = true)))) ∧
  (
    ∀ (s : State) (k : Nat) (w : Warp) (r : Run) (x : Word) (n : Nat), s.focus = .warp k → lookup k s.warps = some w →
      w.run = some r → regOf x.d = .v n → n < hdrRegs w.hdr →
      ∀ i op, (i, op) = (.iadd x, 0x20) ∨ (i, op) = (.fadd x, 0x40) → legalWord op x = true → regsOf x.ty.toNat = 1 →
      let c := ctxOf k w r op x
      let subs := (w.substFor r.addr c.off).filter (fun y => c.full.contains y.1)
      (∀ l, l ∈ c.act ↔ l ∈ c.full ∧ l ∉ subs.map (fun y => y.1)) ∧
      ∃ t r', exec i s = .next t ∧ t = setRun k r' s ∧ r'.index = r.index + 1 ∧
        (∀ l v, (l, v) ∈ subs → (∀ v', (l, v') ∈ subs → v' = v) →
          (r'.log.find? (fun e => e.loc = .v n l)).map (fun e => e.val) = some (BitVec.setWidth 32 v)) ∧
        (∀ l, l ∈ c.full → l ∉ subs.map (fun y => y.1) →
          (r'.log.find? (fun e => e.loc = .v n l)).map (fun e => e.val) =
            some (BitVec.ofNat 32 (if op = 0x20 then narrow c.ty x.sat (c.intA l + c.intB l)
              else (c.fmt.add c.rm x.sat (c.fa l) (c.fb l)).1))) ∧
        r'.flags = (if op = 0x20 then r.flags
          else r.flags ||| allFlags c (fun l => (c.fmt.add c.rm x.sat (c.fa l) (c.fb l)).2)) ∧
        (∀ e ∈ r'.causes, e ∈ r.causes ∨ ∀ l v, (l, v) ∈ subs → e.lanes.getLsbD l = false))

/-- R103, R263: NOP does nothing. BRA, BRX, CALL and RET leave their targets for the commit, which sends every active lane
there: the branch's own address plus the signed extension, or the header's plus the operand, a target in the last four bytes
of a fetch block standing for the next block; CALL also writes D with the offset of the address after the marker. -/
def Obligations.Branches : Prop :=
  ∀ x : Word,
    let bare := fun (op : Nat) (c : Ctx) => ({ op := op, w := x, off := c.off, lanes := c.act } : Pending)
    let withA := fun (op : Nat) (c : Ctx) => { bare op c with addr := c.act.map (fun l => (l, c.a 1 l)) }
    Results (.nop x) 0x00 x (fun _ => noResult) ∧
    LeavesTerm (.bra x) 0x01 x (bare 0x01) ∧ LeavesTerm (.brx x) 0x02 x (withA 0x02) ∧
    LeavesTerm (.call x) 0x03 x (bare 0x03) ∧ LeavesTerm (.ret x) 0x04 x (withA 0x04) ∧
    ∀ (f : Fin) (s : State) (w : Warp), lookup f.key s.warps = some w → f.p.w = x →
      let there := wrap 64 ((f.run.addr : Int) + f.p.off + sx 32 x.ext.toNat)
      let sent := fun (target : Nat → Option Nat) (w' : Warp) =>
        w'.lanes = w.lanes.mapIdx (fun i l => match target i with | some a => { l with lpc := normLpc a } | none => l)
      (f.p.op = 0x01 → ∃ w', terminal f s = s.withWarp f.key w' ∧ w' = { w with lanes := w'.lanes } ∧
        sent (fun i => if i ∈ f.p.lanes then some there else none) w') ∧
      (f.p.op = 0x02 ∨ f.p.op = 0x04 → ∃ w', terminal f s = s.withWarp f.key w' ∧ w' = { w with lanes := w'.lanes } ∧
        sent (fun i => (lookup i f.p.addr).map (fun a => w.hdrAt + a)) w') ∧
      (f.p.op = 0x03 → ∃ w', terminal f s = s.withWarp f.key w' ∧ w' = { w with lanes := w'.lanes, v := w'.v, s := w'.s, badRegs := w'.badRegs } ∧
        sent (fun i => if i ∈ f.p.lanes then some there else none) w' ∧
        (∀ n l, archRead w' (.v n l) = if regOf x.d = .v n ∧ l ∈ f.p.lanes
          then BitVec.ofNat 32 (wrap 32 ((f.after : Int) - w.hdrAt)) else archRead w (.v n l)) ∧
        (∀ n, archRead w' (.s n) = if regOf x.d = .s n ∧ f.p.lanes ≠ []
          then BitVec.ofNat 32 (wrap 32 ((f.after : Int) - w.hdrAt)) else archRead w (.s n)))

/-- R258, R264, R265, R266, R270, R271: EXIT, YIELD, SLEEP, TRAP, BPT, MWAIT, SERB and SERE issue with their lanes (SLEEP with
its counts; EXIT of a gang's warp, or of a loose warp whose lanes have no join counter); at commit EXIT's lanes are Exited, their pending loads gone,
YIELD's Yielding, SLEEP's parked until the commit clock of their die plus the count unless it is 0, MWAIT's parked where
their bit of the mask as the commit leaves it is 1 (log 11), SERB's parked but for the lowest, which becomes current; TRAP and BPT leave their cause, with the
code C, to be entered after the commit. SERB in an open section raises the resource-bound cause. SERE of the current lane
makes the next lane of the section that has not exited current and Ready from the next clock on, or closes the section; of
other lanes, and with no section open, it changes nothing. -/
def Obligations.LaneControl : Prop :=
  ∀ x : Word,
    let bare := fun (op : Nat) (c : Ctx) => ({ op := op, w := x, off := c.off, lanes := c.act } : Pending)
    LeavesTerm (.yield x) 0x06 x (bare 0x06) ∧ LeavesTerm (.trap x) 0x07 x (bare 0x07) ∧
    LeavesTerm (.bpt x) 0x08 x (bare 0x08) ∧ LeavesTerm (.mwait x) 0x12 x (bare 0x12) ∧ LeavesTerm (.sere x) 0x18 x (bare 0x18) ∧
    LeavesTerm (.sleep x) 0x0A x (fun c => { bare 0x0A c with b := c.act.map (fun l => (l, BitVec.ofNat 128 (c.b 1 1 l))) }) ∧
    Issued (.exit x) 0x05 x (fun c _ => c.wp.gang ≠ none ∨ ∀ l ∈ c.act, (c.wp.lane l).join = 0) (fun _ _ => noResult)
      (fun c _ r => { r with term := some (bare 0x05 c) }) (fun _ s => s) ∧
    Issued (.serb x) 0x17 x (fun c _ => c.act = [] ∨ c.wp.serial = none) (fun _ _ => noResult)
      (fun c _ r => { r with term := some (bare 0x17 c) }) (fun _ s => s) ∧
    Issued (.serb x) 0x17 x (fun c _ => c.act ≠ [] ∧ c.wp.serial ≠ none) (fun _ _ => noResult)
      (fun c _ r => { r with causes := r.causes ++
        [({ off := c.off, code := 5, detail := 0x17, lanes := maskOf c.act, tdst := tdstOf 0x17 x (hdrRegs c.wp.hdr) } : Cause)] })
      (fun _ s => s) ∧
    ∀ (f : Fin) (s : State) (w : Warp), lookup f.key s.warps = some w → f.p.w = x → f.p.lanes.Nodup →
      let states := fun (g : Nat → Option LaneState) (w' : Warp) =>
        w'.lanes = w.lanes.mapIdx (fun i l => match g i with | some st => { l with state := st } | none => l)
      let only := fun (w' : Warp) => w' = { w with lanes := w'.lanes }
      (f.p.op = 0x05 → f.p.place = [] → w.handler = none → w.serial = none →
        ∃ w', terminal f s = s.withWarp f.key w' ∧ only w' ∧
          w'.lanes = w.lanes.mapIdx (fun i l => if i ∈ f.p.lanes then { l with state := .exited, loads := [] } else l)) ∧
      (f.p.op = 0x06 → f.p.lanes ≠ [] → ∃ w', terminal f s = s.withWarp f.key w' ∧
        w' = { w with lanes := w'.lanes, readySince := s.clock } ∧
        states (fun i => if i ∈ f.p.lanes then some .yielding else none) w') ∧
      (f.p.op = 0x07 ∨ f.p.op = 0x08 → f.p.lanes ≠ [] → terminal f s = s.withWarp f.key { w with post := w.post ++ [(f.run.addr,
        { off := f.p.off, code := if f.p.op = 0x07 then 2 else 3, detail := x.c.toNat, lanes := maskOf f.p.lanes,
          tdst := tdstOf f.p.op x (hdrRegs w.hdr) })] }) ∧
      (f.p.op = 0x0A → f.p.b.map (fun y => y.1) = f.p.lanes → ∃ w', terminal f s = s.withWarp f.key w' ∧ only w' ∧
        states (fun i => match lookup i f.p.b with
          | some n => if n = 0 then none else some (.parked (.sleep (dieClock s (f.key / 64 / 64) + n.toNat)))
          | none => none) w') ∧
      (f.p.op = 0x12 → ∃ w', terminal f s = s.withWarp f.key w' ∧ only w' ∧
        states (fun i => if i ∈ f.p.lanes ∧ (lookupD x.a.toNat 0 w.k).getLsbD i then some (.parked (.mask x.a.toNat)) else none) w') ∧
      (∀ l rest, f.p.op = 0x17 → f.p.lanes = l :: rest → ∃ w', terminal f s = s.withWarp f.key w' ∧
        w' = { w with lanes := w'.lanes, serial := some (maskOf rest, l) } ∧
        states (fun i => if i ∈ rest then some (.parked .serial) else none) w') ∧
      (f.p.op = 0x18 → (∀ m cur, w.serial = some (m, cur) → cur ∉ f.p.lanes) → terminal f s = s.withWarp f.key w) ∧
      (∀ m cur, f.p.op = 0x18 → w.serial = some (m, cur) → cur ∈ f.p.lanes →
        let next := (List.range 32).filter (fun i => m.getLsbD i && decide ((w.lane i).state ≠ .exited))
        (next = [] → terminal f s = s.withWarp f.key { w with serial := none }) ∧
        ∀ l rest, next = l :: rest → (w.lane l).state = .parked .serial → w.counts = true →
          ∃ w', terminal f s = s.withWarp f.key w' ∧ w' = { w with lanes := w'.lanes, serial := some (maskOf rest, l) } ∧
            w'.lanes = w.lanes.mapIdx (fun i y => if i = l then { y with state := .ready, due := s.clock + 1 } else y))

/-- R98, R363, R369, R372, R373, R374, R390, R28 to R31: what the marker makes of a run that met an error or a fault. The run
is abandoned, none of its results written. The first error it consumed decides: an uncorrectable page-table entry (kind 6)
leaves its record and is contained, as any consumed error is: it rolls the gang back, in a clean interval of a written shadow
not yet rolled back to three times, or kills the launch with 0x0022 and the path. The first mismatch of a paired run counts
and leaves the warp to run it again, the second of that run is contained as an error of path L. The record of another fatal
fault goes to the ring, and firmware kills the launch with 0x0020 and the record's index. A replayable fault leaves a record,
counted, for the warp to wait on; the 16th in a row of the run and page is fatal. The run of a launch that is being killed is
dropped. -/
def Obligations.MarkerFaults : Prop :=
  ∀ s k w r, lookup k s.warps = some w → w.run = some r → r.words.length ≤ r.index → r.reads = [] →
    let left := s.withWarp k { w with run := none }
    let killed := fun (l status item det : Nat) (t : State) =>
      { t with launches := adjust l (fun x => if x.kill = none then { x with kill := some (status, item, det) } else x) t.launches }
    let contained := fun (path : Nat) (t : State) =>
      match w.gang with
      | none => killed w.launch 0x22 (2 ^ 64 - 1) path t
      | some g =>
        match lookup g s.gangs with
        | none => t
        | some x =>
          if ∃ sh, x.shadow = some sh ∧ sh.clean = true ∧ sh.writing = false ∧ sh.tries < 3
          then { t with gangs := adjust g (fun x => { x with rolling := true, rollPath := path }) t.gangs }
          else killed x.launch 0x22 (x.index.getD (2 ^ 64 - 1)) path t
    let recorded := fun (base : Nat) (x : AccFault) (t : State) =>
      t.fqProd = s.fqProd + 1 ∧
      readPlace t (.dev (base + 32 * (s.fqProd.toNat % 4096))) 32 = leBytes 32 (faultRecord (launchOf s w).asn (coreOfWarp k)
        (partOfWarp k % 4) (ctxOfWarp k) (dieClock s (dieOfCore (coreOfWarp k))) x).toNat
    let entry := (if r.ue = none then r.faults else r.faults.take r.errAt).find? (fun x => x.kind = 6 ∧ x.rpl = false)
    let ring := fun (base : Nat) => s.memWf = true ∧ s.buffer = [] ∧ s.faultWaits = [] ∧ s.fqBase = some base ∧
      (s.fqProd - s.fqCons).toNat < 4096
    ((∃ l, lookup w.launch s.launches = some l ∧ l.kill ≠ none) → exec (.runMarker k) s = .next left) ∧
    (s.Ends k w r →
      (∀ x base, entry = some x → ring base →
        ∃ t, exec (.runMarker k) s = .next t ∧ recorded base x t ∧ t.warps = left.warps ∧
          t.launches = (contained x.path.code left).launches ∧ t.gangs = (contained x.path.code left).gangs) ∧
      (∀ path, entry = none → r.ue = some path → exec (.runMarker k) s = .next (contained path left)) ∧
      (∀ lane, entry = none → r.ue = none → r.mismatch = some lane →
        let me := (r.addr, r.lanes)
        let seen := if me ∈ w.mismatched then w.mismatched.filter (fun x => x ≠ me) else me :: w.mismatched
        ∃ t, exec (.runMarker k) s = .next t ∧ lookup k t.warps = some { w with run := none, mismatched := seen } ∧
          (let c : Nat × Nat := (1, partOfWarp k * 32 + lane)
           lookupD c 0 t.counters = min (markOf s 1) (lookupD c 0 s.counters + 8) ∧
           ∀ d, d ≠ c → lookup d t.counters = lookup d s.counters) ∧
          (me ∉ w.mismatched → t.launches = s.launches ∧ t.gangs = s.gangs) ∧
          (me ∈ w.mismatched → t.launches = (contained 0 left).launches ∧ t.gangs = (contained 0 left).gangs)) ∧
      (∀ base, entry = none → r.ue = none → r.mismatch = none → r.passes k s → ring base →
        let waits := fun (runs : List ((Nat × Nat) × Nat)) (t : State) =>
          lookup k t.warps = some { w with run := none, faultRuns := runs, faultWait := w.faultWait ++ [s.nextKey] }
        (∀ x, fatalFault (r.faultsAt k s) = some x → x.kind ≠ 6 →
          ∃ t, exec (.runMarker k) s = .next t ∧ recorded base x t ∧ waits w.faultRuns t ∧ t.gangs = s.gangs ∧
            t.launches = (killed w.launch 0x20 s.fqProd.toNat 0 s).launches) ∧
        (∀ x, r.causesAt k w s = [] → r.faultsAt k s = [x] → x.rpl = true → x.kind ≠ 6 →
          let n := lookupD (r.addr, x.va / 32768) 0 w.faultRuns + 1
          ∃ t runs, exec (.runMarker k) s = .next t ∧ recorded base x t ∧ waits runs t ∧ t.gangs = s.gangs ∧
            lookupD (r.addr, x.va / 32768) 0 runs = n ∧
            (∀ a, a.1 ≠ r.addr → lookup a runs = lookup a w.faultRuns) ∧
            (n < 16 → t.launches = s.launches) ∧
            (16 ≤ n → t.launches = (killed w.launch 0x20 s.fqProd.toNat 0 s).launches))))

/-! ## SIMT: accesses performed at commit -/

/-- R97, R152, R163 to R169, R280, R289, R290, R300, R350, R351, R355, R356: the instructions whose access is performed at
commit issue with their operands: every active lane's address aligned, each (for an `s` destination the first lane's alone)
translated in lane order for the access, faults kept for the marker. Spawns and JOINW leave out the lanes whose counter
address is 0. In vault memory a lane needs the launch's right to write, in scratchpad a lane beyond the warp's lines is
switched off. -/
def Obligations.CommitAccessesIssue : Prop :=
  ∀ x : Word,
    let pendsFor := fun (whole : Ctx → List Nat) (i : Instr) (op n : Nat) (write : Bool) (lanes : Ctx → List Nat) (va : Ctx → Nat → Nat)
        (skip : Nat → Bool) (b c' : Ctx → List (Nat × BitVec 128)) (only : Ctx → State → Prop) =>
      let addrs := fun (c : Ctx) => (lanes c).map (fun l => (l, va c l))
      let used := fun (c : Ctx) => (addrs c).filter (fun y => !skip y.2)
      let tr := fun (c : Ctx) (s : State) => translateLanes c write .L (used c) s
      Issued i op x (fun c s => only c s ∧ ∀ l ∈ c.act, skip (va c l) = false → va c l % n = 0) (fun _ _ => noResult)
        (fun c s r => { r with
          term := some { op := op, w := x, off := c.off, lanes := whole c, addr := addrs c,
                         place := (tr c s).1.1.map (fun y => (y.1, y.2.1)), b := b c, c := c' c },
          faults := r.faults ++ (tr c s).1.2,
          ue := r.ue.or (if (tr c s).1.1.any (fun y => isPoisoned (tr c s).2 y.2.1 n) then some 0 else none) })
        (fun c s => (tr c s).2)
    let pends := fun (i : Instr) (op n : Nat) (write : Bool) (lanes : Ctx → List Nat) => pendsFor lanes i op n write lanes
    let never := fun (_ : Nat) => false
    let zero := fun (a : Nat) => decide (a = 0)
    let none_ := fun (_ : Ctx) => ([] : List (Nat × BitVec 128))
    let ptr := fun (c : Ctx) (l : Nat) => c.a 2 l
    let vals := fun (lanes : Ctx → List Nat) (v : Ctx → Nat → Nat) (c : Ctx) =>
      (lanes c).map (fun l => (l, BitVec.ofNat 128 (v c l)))
    let always := fun (_ : Ctx) (_ : State) => True
    let atomic := fun (i : Instr) (op n : Nat) =>
      pendsFor Ctx.act i op (4 * n) true Ctx.loaders (fun c l => wrap 64 ((c.a 2 l : Int) + sx 20 (x.ext.toNat / 4096))) never
        (vals Ctx.loaders (fun c l => c.b n 0 l)) (vals Ctx.loaders (fun c l => c.c n l)) always
    let w := regsOf x.ty.toNat
    (x.mx = 0 → atomic (.atom x) 0x80 w ∧ atomic (.atomf x) 0x81 w ∧ atomic (.cas x) 0x82 w ∧ atomic (.cas128 x) 0x83 4 ∧
      atomic (.red x) 0x84 w ∧ atomic (.redf x) 0x85 w) ∧
    (x.mx ≠ 0 →
      let va := fun (c : Ctx) (l : Nat) => wrap 32 ((c.a 1 l : Int) + sx 20 (x.ext.toNat / 4096))
      let local_ := fun (i : Instr) (op n : Nat) =>
        let inside := fun (c : Ctx) (s : State) (l : Nat) => decide (va c l + 4 * n ≤ (scratchOf s c.key c.wp).2)
        let rights := fun (c : Ctx) (s : State) (l : Nat) => vaultOk s (spaceOf (launchOf s c.wp)).rhnd (va c l) true
        let place := fun (c : Ctx) (s : State) (l : Nat) =>
          if x.mx = 1 then Place.vault (va c l) else Place.scr ((scratchOf s c.key c.wp).1 + va c l)
        let goes := fun (c : Ctx) (s : State) => c.loaders.filter (if x.mx = 1 then rights c s else inside c s)
        Issued i op x (fun c _ => ∀ l ∈ c.act, va c l % (4 * n) = 0) (fun _ _ => noResult)
          (fun c s r => { r with
            term := some { op := op, w := x, off := c.off, lanes := if x.mx = 1 ∨ (c.dScalar = true ∧ goes c s ≠ []) then c.act else goes c s,
                           addr := (goes c s).map (fun l => (l, va c l)), place := (goes c s).map (fun l => (l, place c s l)),
                           b := vals Ctx.loaders (fun c l => c.b n 0 l) c, c := vals Ctx.loaders (fun c l => c.c n l) c },
            faults := if x.mx = 1 then r.faults ++
              (c.loaders.filter (fun l => !rights c s l)).map (fun l => vaultFault (va c l) true .L) else r.faults,
            smask := if x.mx = 1 then r.smask else r.smask ||| maskOf (c.loaders.filter (fun l => !inside c s l)),
            ue := r.ue.or (if (goes c s).any (fun l => isPoisoned s (place c s l) (4 * n)) then some 0 else none) })
          (fun _ s => s)
      local_ (.atom x) 0x80 w ∧ local_ (.atomf x) 0x81 w ∧ local_ (.cas x) 0x82 w ∧ local_ (.cas128 x) 0x83 4 ∧
      local_ (.red x) 0x84 w ∧ local_ (.redf x) 0x85 w) ∧
    pends (.acq x) 0xB4 8 false Ctx.act ptr never (if x.mx = 1 then vals Ctx.act (fun c l => c.b 2 3 l) else none_) none_ always ∧
    pends (.relInc x) 0xB5 8 true Ctx.act ptr never none_ none_ always ∧
    pends (.relSet x) 0xB5 8 true Ctx.act ptr never (vals Ctx.act (fun c l => c.b 2 3 l)) none_ always ∧
    pends (.sigf x) 0xC6 8 true Ctx.act ptr never (vals Ctx.act (fun c l => c.b 2 3 l)) none_ always ∧
    pends (.waitf x) 0xC7 8 false Ctx.act ptr never (vals Ctx.act (fun c l => c.b 2 3 l)) none_ always ∧
    pends (.spawn x) 0xC0 8 true Ctx.act ptr zero (vals Ctx.act (fun c l => c.reg x.b 4 l)) none_ always ∧
    pends (.spawnt x) 0xC1 8 true Ctx.act ptr zero (vals Ctx.act (fun c l => c.reg x.b 4 l)) none_ always ∧
    pends (.joinw x) 0xC3 8 true Ctx.act ptr zero (vals Ctx.act (fun c l => c.reg x.b 2 l)) none_ always ∧
    pends (.jinc x) 0xC2 8 true Ctx.loaders ptr never (vals Ctx.loaders (fun c l => c.b 1 1 l)) none_ always ∧
    pends (.jdec x) 0xC4 8 true Ctx.loaders ptr never (vals Ctx.loaders (fun c l => c.b 1 1 l)) none_ always ∧
    pends (.task x) 0xC5 64 true Ctx.act ptr never none_ none_ always ∧
    pends (.taskDec x) 0xC5 16 true Ctx.act ptr never none_ none_ always

/-- R165, R166, R168: at commit the lanes of an integer atomic, CAS or CAS128 that name one address act on it in ascending
order in one access: the value left, the old value each lane gets in D, .BADD's success bit, and every other byte as before.
With an `s` destination the first lane alone acts, and its success bit is every active lane's. The warp sees the new value at
once, and the core keeps no older copy of a global line; a relaxed access whose path's writes lag may reach its place later
(log 58). (Lanes at different addresses act on each address alike.) R167: at commit the lanes of a floating .ADD that name
one address add their sum so far: D of the first lane gets the old value, of each later one the old value plus the sum of the
lanes before it, and memory the old value plus the whole sum, each addition rounded to nearest; no flag is raised. -/
def Obligations.AtomicAtCommit : Prop :=
  (
    ∀ (f : Fin) (s : State) (w : Warp) (x : Word) (p : Place) (a : Nat), lookup f.key s.warps = some w → s.memWf = true → s.buffer = [] →
      f.p.w = x → f.p.lanes ≠ [] → f.p.lanes.Nodup → (∀ l ∈ f.p.lanes, l < 32) →
      let uniform := (regOf x.d).isS = true ∧ f.p.op ≠ 0x84
      let acting := if uniform then f.p.lanes.take 1 else f.p.lanes
      f.p.addr = acting.map (fun l => (l, a)) →
      (∀ l ∈ acting, lookup l f.p.place = some p) → f.p.op ∈ [0x80, 0x82, 0x83, 0x84] → x.ty.toNat < 4 → x.sop.toNat ≤ 9 →
      let n := if f.p.op = 0x83 then 4 else regsOf x.ty.toNat
      let b := fun l => (lookupD l 0 f.p.b).toNat
      let c := fun l => (lookupD l 0 f.p.c).toNat
      let m := 2 ^ intWidth x.ty.toNat
      let int := intVal x.ty.toNat
      let new := fun (o l : Nat) =>
        if f.p.op = 0x82 ∨ f.p.op = 0x83 then (if o = b l then c l else o)
        else [(o + b l) % m, if int (b l) < int o then b l else o, if int o < int (b l) then b l else o, o &&& b l, o ||| b l,
              o ^^^ b l, b l, if c l ≤ o then 0 else o + 1, if o = 0 ∨ c l < o then c l else o - 1,
              if o + b l < m ∧ o + b l ≤ c l then o + b l else o].getD x.sop.toNat o
      let start := readNat s p (4 * n)
      let old := fun l => (acting.takeWhile (fun y => y ≠ l)).foldl new start
      let t := terminal f s
      let there := acting.foldl new start % 2 ^ (32 * n)
      let done := fun (l : Nat) => old l + b l < m ∧ old l + b l ≤ c l
      leNat (viewPlace t f.key p (4 * n)) = there ∧ t.memWf = true ∧
      (Path.L ∉ s.lag ∨ x.ext.toNat / 8 % 4 ≠ 0 → readNat t p (4 * n) = there) ∧
      (x.mx = 0 → lookup (l1Key (coreOfWarp f.key) (launchOf s w).asn a) t.l1 = none) ∧
      (∀ q : Place, (∀ i < 4 * n, q ≠ p.plus i) → readPlace t q 1 = readPlace s q 1) ∧
      ∃ w', lookup f.key t.warps = some w' ∧
        (∀ r l, archRead w' (.v r l) =
          (if f.p.op = 0x84 then none else toLanes x.d acting n old (.v r l)).getD (archRead w (.v r l))) ∧
        (∀ r, archRead w' (.s r) = (if f.p.op = 0x84 then none else toLanes x.d acting n old (.s r)).getD (archRead w (.s r))) ∧
        (f.p.op ≠ 0x80 ∨ x.sop ≠ 9 → w'.k = w.k) ∧
        (f.p.op = 0x80 → x.sop = 9 → ∀ l < 32, (archRead w' (.k (x.ext.toNat / 256 % 16) l) ≠ 0 ↔
          if l ∈ f.p.lanes then done (if uniform then f.p.lanes.headD 0 else l)
          else archRead w (.k (x.ext.toNat / 256 % 16) l) ≠ 0))) ∧
  (
    ∀ (f : Fin) (s : State) (w : Warp) (x : Word) (p : Place) (a l0 : Nat) (rest : List Nat),
      lookup f.key s.warps = some w → s.memWf = true → s.buffer = [] → f.p.w = x → (l0 :: rest).Nodup →
      f.p.lanes = l0 :: rest ∨ (rest = [] ∧ f.p.lanes.head? = some l0 ∧ (regOf x.d).isS = true ∧ f.p.op = 0x81) →
      f.p.addr = (l0 :: rest).map (fun l => (l, a)) → (∀ l ∈ l0 :: rest, lookup l f.p.place = some p) →
      f.p.op = 0x81 ∨ f.p.op = 0x85 → x.sop = 0 → x.ty.toNat ∈ [4, 5, 6, 7] →
      let n := regsOf x.ty.toNat
      let b := fun l => (lookupD l 0 f.p.b).toNat
      let add := fAdd x.ty.toNat
      let sum := fun (ls : List Nat) => ls.foldl (fun q l => add q (b l)) (b l0)
      let start := readNat s p (4 * n)
      let t := terminal f s
      leNat (viewPlace t f.key p (4 * n)) = add start (sum rest) % 2 ^ (32 * n) ∧
      (Path.L ∉ s.lag ∨ x.ext.toNat / 8 % 4 ≠ 0 → readNat t p (4 * n) = add start (sum rest) % 2 ^ (32 * n)) ∧
      (∀ q : Place, (∀ i < 4 * n, q ≠ p.plus i) → readPlace t q 1 = readPlace s q 1) ∧
      ∃ w', lookup f.key t.warps = some w' ∧ w'.fpst = w.fpst ∧ w'.k = w.k ∧
        (∀ r l, archRead w' (.v r l) =
          (if f.p.op = 0x85 then none else toLanes x.d (l0 :: rest) n
            (fun l => if l = l0 then start else add start (sum (rest.takeWhile (fun y => y ≠ l)))) (.v r l)).getD (archRead w (.v r l))) ∧
        (∀ r, archRead w' (.s r) =
          (if f.p.op = 0x85 then none else toLanes x.d (l0 :: rest) n (fun _ => start) (.s r)).getD (archRead w (.s r))))

/-- R289, R351, R355, R166: at commit the lanes of JINC, JDEC, REL.INC, REL.SET and SIGF that name one object act on its
eight bytes in one access: JINC adds and JDEC subtracts each lane's amount, each lane's pair D getting the value it found;
REL.INC adds the number of lanes, SIGF.ADD the lanes' values; REL.SET and SIGF.SET store the highest lane's value; every
other byte is as before. R343, R344, R349, R350, R356: at commit a lane of ACQ.GE, ACQ or WAITF whose comparison holds
(unsigned at least for ACQ.GE, and for WAITF at least, equal or not equal) goes on, an ACQ with a destination getting the
pair it read; the others park with their comparand, and no memory changes. A lane that goes on leaves no older copy of the
word in the core's L1. Here: one active lane, no write waiting on the word (log 58). R264, R279, R281, R288, R290, R294, R298
to R300: what SPAWN, SPAWNT, JOINW, TASK, TASK.DEC and the EXIT of a loose warp do at commit. Each record of a spawn, with
the kind 0, the core, the entry, the counter's address and the payload, is placed in lane order, in a gathering queue with
room that its key may use, or in a free slot of the ring; a SPAWN lane whose record has nowhere to go parks with it, a SPAWNT
lane loses its bit of mask D; the counter of the spawning lanes (all of a SPAWN's, those of SPAWNT placed) goes up by their
number in one access. EXIT counts down the same way. JOINW sends its lanes to the resume address and parks each on its
counter with its frame pointer, the wait met where the counter reads 0 or the address is 0. TASK marks a record queued,
unless it is already, with a link of the device's (log 4), and lists it at the launch; where that makes a launch of class 6
or above runnable, every scan ends (R392). TASK.DEC counts a successor down by one for each lane, and at zero enqueues the
record it names. -/
def Obligations.CountersAtCommit : Prop :=
  (
    ∀ (f : Fin) (s : State) (w : Warp) (x : Word) (p : Place) (a : Nat), lookup f.key s.warps = some w → s.memWf = true →
      s.buffer = [] → f.p.w = x → f.p.lanes ≠ [] → f.p.lanes.Nodup → f.p.addr = f.p.lanes.map (fun l => (l, a)) →
      (∀ l ∈ f.p.lanes, lookup l f.p.place = some p) →
      let b := fun l => BitVec.setWidth 64 (lookupD l 0 f.p.b)
      let start := read64 s p
      let total := fun (ls : List Nat) => ls.foldl (fun v l => v + b l) 0
      let top := b (f.p.lanes.getLast?.getD 0)
      let t := terminal f s
      let leaves := fun (v : W64) => read64 t p = v ∧ t.memWf = true ∧
        (∀ q : Place, (∀ i < 8, q ≠ p.plus i) → readPlace t q 1 = readPlace s q 1)
      let gives := fun (old : Nat → W64) => ∃ w', lookup f.key t.warps = some w' ∧ w'.k = w.k ∧
        (∀ r l, archRead w' (.v r l) = (toLanes x.d f.p.lanes 2 (fun l => (old l).toNat) (.v r l)).getD (archRead w (.v r l))) ∧
        (∀ r, archRead w' (.s r) = (toLanes x.d f.p.lanes 2 (fun l => (old l).toNat) (.s r)).getD (archRead w (.s r)))
      let before := fun (l : Nat) => total (f.p.lanes.takeWhile (fun y => y ≠ l))
      (f.p.op = 0xC2 → leaves (start + total f.p.lanes) ∧ gives (fun l => start + before l)) ∧
      (f.p.op = 0xC4 → leaves (start - total f.p.lanes) ∧ gives (fun l => start - before l)) ∧
      (f.p.op = 0xB5 → x.mx = 0 → leaves (start + BitVec.ofNat 64 f.p.lanes.length)) ∧
      (f.p.op = 0xB5 → x.mx ≠ 0 → leaves top) ∧
      (f.p.op = 0xC6 → x.sop ≠ 0 → leaves (start + total f.p.lanes)) ∧
      (f.p.op = 0xC6 → x.sop = 0 → leaves top)) ∧
  (
    ∀ (f : Fin) (s : State) (w : Warp) (x : Word) (p : Place) (lane va : Nat), lookup f.key s.warps = some w → f.p.w = x →
      f.p.lanes = [lane] → lane < 32 → w.lanes.length = 32 → f.p.place = [(lane, p)] → f.p.addr = [(lane, va)] →
      f.p.op = 0xB4 ∨ f.p.op = 0xC7 → x.sop.toNat < 8 → (∀ b ∈ s.buffer, overlaps p 8 b.place b.data.length = false) →
      let v := read64 s p
      let c := if f.p.op = 0xB4 ∧ x.mx ≠ 1 then 0 else BitVec.setWidth 64 (lookupD lane 0 f.p.b)
      let holds := if f.p.op = 0xB4 ∨ x.sop = 0 then c.toNat ≤ v.toNat else if x.sop = 1 then v = c else v ≠ c
      let t := terminal f s
      t.dev = s.dev ∧ t.host = s.host ∧ t.vault = s.vault ∧ t.scr = s.scr ∧
      ∃ w', t.warps = put f.key w' s.warps ∧
        (holds → lookup (l1Key (coreOfWarp f.key) (launchOf s w).asn va) t.l1 = none ∧ (∀ i, (w'.lane i).state = (w.lane i).state) ∧ ∀ r l, archRead w' (.v r l) =
          (if f.p.op = 0xB4 ∧ x.sx = true then toLanes x.d [lane] 2 (fun _ => v.toNat) (.v r l) else none).getD
            (archRead w (.v r l))) ∧
        (¬ holds → (∀ r l, archRead w' (.v r l) = archRead w (.v r l)) ∧ ∀ i < 32, (w'.lane i).state =
          if i = lane then .parked (.flag p va (if f.p.op = 0xB4 then 0 else x.sop.toNat) c
            (if f.p.op = 0xB4 ∧ x.sx = true then some x.d.toNat else none)
            (if f.p.op = 0xB4 then 0 else BitVec.ofNat 6 x.ext.toNat)
            (if f.p.op = 0xB4 then x.sop.toNat else x.ext.toNat / 256 % 8) none) else (w.lane i).state)) ∧
  (
    ∀ (f : Fin) (s : State) (w : Warp) (l : Launch) (x : Word), lookup f.key s.warps = some w →
      lookup w.launch s.launches = some l → f.p.w = x → f.p.lanes ≠ [] → f.p.lanes.Nodup → (∀ i ∈ f.p.lanes, i < 32) →
      w.lanes.length = 32 → s.memWf = true → s.buffer = [] →
      let core := f.key / 64
      let b := fun (i : Nat) => (lookupD i 0 f.p.b).toNat
      let image := fun (i : Nat) => BitVec.ofNat 256 (core % 256 * 2 ^ 24 + x.ext.toNat % 2 ^ 32 * 2 ^ 32 +
        lookupD i 0 f.p.addr % 2 ^ 64 * 2 ^ 64 + b i % 2 ^ 128 * 2 ^ 128)
      let put1 := fun (acc : List Nat × State) (i : Nat) =>
        let q := queueFor acc.2 core w.launch (x.ext.toNat % 2 ^ 32)
        if q = none ∧ ringFree acc.2 w.launch = 0 then (acc.1 ++ [i], acc.2) else (acc.1, enterAt core w.launch q (image i) acc.2)
      let placed := f.p.lanes.foldl put1 ([], s)
      let t := terminal f s
      let warp := lookup f.key t.warps
      let counted := fun (a : Nat) (p : Place) (v : W64 → W64) =>
        (∀ i ∈ f.p.lanes, lookup i f.p.addr = some a ∧ lookup i f.p.place = some p) → a ≠ 0 → (f.p.addr.map (fun y => y.1)).Nodup →
        f.p.addr.map (fun y => y.1) = f.p.lanes →
        read64 t p = v (read64 s p) ∧ ∀ q : Place, (∀ i < 8, q ≠ p.plus i) → readPlace t q 1 = readPlace s q 1
      (f.p.op = 0xC0 ∨ f.p.op = 0xC1 → t.entering = placed.2.entering ∧
        t.queues = placed.2.queues ∧
        (∀ e ∈ t.entering, e ∈ s.entering ∨ ∃ i ∈ f.p.lanes, e.image = image i ∧ e.launch = w.launch ∧ e.core = core)) ∧
      (f.p.op = 0xC0 → (∀ a p, counted a p (fun v => v + BitVec.ofNat 64 f.p.lanes.length)) ∧
        ∃ w', warp = some w' ∧ ∀ i < 32, (i ∉ placed.1 → (w'.lane i).state.isParked = (w.lane i).state.isParked) ∧
          (i ∈ placed.1 → ∃ n, (w'.lane i).state = .parked (.spawn (image i) n))) ∧
      (f.p.op = 0xC1 →
        (∀ a p, placed.1 = [] → counted a p (fun v => v + BitVec.ofNat 64 f.p.lanes.length)) ∧
        ∃ w', warp = some w' ∧ ∀ i < 32, archRead w' (.k x.d.toNat i) = if i ∈ placed.1 then 0 else archRead w (.k x.d.toNat i)) ∧
      (f.p.op = 0xC3 → t.launches = s.launches ∧ t.dev = s.dev ∧ ∃ w', warp = some w' ∧ ∀ i ∈ f.p.lanes,
        let p := lookup i f.p.place
        (w'.lane i).lpc = normLpc (w.hdrAt + x.ext.toNat % 2 ^ 32) ∧
        (w'.lane i).state = .parked (.join p (BitVec.ofNat 64 (lookupD i 0 f.p.addr)) (BitVec.setWidth 64 (lookupD i 0 f.p.b))
          (x.ext.toNat % 2 ^ 32) (p.all (fun q => read64 s q = 0)))) ∧
      (f.p.op = 0x05 → w.serial = none → (∀ a p, counted a p (fun v => v - BitVec.ofNat 64 f.p.lanes.length)) ∧
        ∃ w', warp = some w' ∧ ∀ i ∈ f.p.lanes, (w'.lane i).state = .exited) ∧
      (∀ i a p, f.p.op = 0xC5 → x.sop = 0 → f.p.lanes = [i] → f.p.addr = [(i, a)] → f.p.place = [(i, p)] →
        (let queued := (read64 s p).getLsbD 0
         (queued = true → t.launches = s.launches ∧ t.free = s.free ∧ t.cmds = s.cmds) ∧
         (queued = false → (lookup w.launch t.launches).map (fun y => y.tasks) = some (l.tasks ++ [(a, p)])) ∧
         ((∀ y ∈ s.cmds, ∀ n b, y.2.work ≠ .scanning n b) →
           read64 t p = read64 s p ||| 1 ∧ (queued = false → read64 t (p.plus 56) = Config.freeWord s.free) ∧
           ∀ q : Place, (∀ j < 8, q ≠ p.plus j ∧ q ≠ p.plus (56 + j)) → readPlace t q 1 = readPlace s q 1) ∧
         (queued = false → 6 ≤ l.cls → l.held = false → l.kill = none → runnable s w.launch = false →
           ∀ y ∈ t.cmds, ∀ n b, y.2.work ≠ .scanning n b))) ∧
      (∀ i a p, f.p.op = 0xC5 → x.sop ≠ 0 → f.p.lanes = [i] → f.p.addr = [(i, a)] → f.p.place = [(i, p)] →
        read64 s p ≠ 1 ∨ read64 s (p.plus 8) = 0 →
        read64 t p = read64 s p - 1 ∧ (∀ q : Place, (∀ j < 8, q ≠ p.plus j) → readPlace t q 1 = readPlace s q 1) ∧
        (lookup w.launch t.launches).map (fun y => y.tasks) = some l.tasks) ∧
      (∀ i a p, f.p.op = 0xC5 → x.sop ≠ 0 → f.p.lanes = [i] → f.p.addr = [(i, a)] → f.p.place = [(i, p)] →
        let next := (read64 s (p.plus 8)).toNat
        let u := (rmw64 p (fun v => v - 1) s).2
        read64 s p = 1 → next ≠ 0 → read64 u p = 0 ∧ u.buffer = [] ∧
          (∀ q : Place, (∀ j < 8, q ≠ p.plus j) → readPlace u q 1 = readPlace s q 1) ∧
          ∀ p' cache v, translate (.core core) (spaceOf l) next true false .L u = (.ok (p', cache), v) → (read64 v p').getLsbD 0 = false →
            (lookup w.launch t.launches).map (fun y => y.tasks) = some (l.tasks ++ [(next, p')])))

/-! ## SIMT: gangs: copies, tags, barriers, fences, matrices -/

/-- R50, R51, R171: CPY, CPYG and CPYS of a gang's warp, with aligned addresses and a count of at most 4,096, issue with
their slice: CPY C consecutive lines (none where no lane is active), CPYG one line from each active lane's address to
consecutive lines, CPYS consecutive lines to each active lane's address. In a loose warp they raise the resource-bound cause.
R50, R53, R171: at commit the slice joins the copy of its tag; when every warp of the gang that has not exited has supplied
one, the copy starts with the slices' lines in the order of the warps, the tag running; a copy without lines leaves the tag
ready. -/
def Obligations.Copies : Prop :=
  (
    ∀ x : Word,
      let f := x.ext.toNat / 64 % 4
      let t := x.ext.toNat / 256 % 4
      let line := fun (sp base i : Nat) => if sp = 0 then (base + 128 * i) % 2 ^ 64 else base + 128 * i
      let width := fun (sp : Nat) => if sp = 0 then 2 else 1
      let src := fun (c : Ctx) (l : Nat) => c.reg x.a (width f) l
      let dst := fun (c : Ctx) (l : Nat) => c.reg x.b (width t) l
      let ok := fun (c : Ctx) => c.act ≠ [] → match c.op with
        | 0x90 => src c 0 % 128 = 0 ∧ dst c 0 % 128 = 0 ∧ c.reg x.c 1 0 ≤ 4096
        | 0x91 => (∀ l ∈ c.act, src c l % 128 = 0) ∧ dst c 0 % 128 = 0
        | _ => src c 0 % 128 = 0 ∧ ∀ l ∈ c.act, dst c l % 128 = 0
      let slice := fun (c : Ctx) => match c.op with
        | 0x90 => if c.act = [] then [] else
            (List.range (c.reg x.c 1 0)).map (fun i => (line f (src c 0) i, line t (dst c 0) i))
        | 0x91 => c.act.mapIdx (fun i l => (src c l, line t (dst c 0) i))
        | _ => c.act.mapIdx (fun i l => (line f (src c 0) i, dst c l))
      ∀ i op, (i, op) = (.cpy x, 0x90) ∨ (i, op) = (.cpyg x, 0x91) ∨ (i, op) = (.cpys x, 0x92) →
        Issued i op x (fun c _ => c.wp.gang ≠ none ∧ ok c) (fun _ _ => noResult)
          (fun c _ r => { r with term := some { op := op, w := x, off := c.off, lanes := c.act, addr := slice c } })
          (fun _ s => s) ∧
        Issued i op x (fun c _ => c.wp.gang = none ∧ ok c) (fun _ _ => noResult)
          (fun c _ r => { r with causes := r.causes ++
            [({ off := c.off, code := 5, detail := op, lanes := maskOf c.act, tdst := tdstOf op x (hdrRegs c.wp.hdr) } : Cause)] })
          (fun _ s => s)) ∧
  (
    ∀ (f : Fin) (s : State) (w : Warp) (g : Nat) (x : Gang) (old : List Slice),
      f.p.op ∈ [0x90, 0x91, 0x92] → lookup f.key s.warps = some w → w.gang = some g → lookup g s.gangs = some x →
      let tag := f.p.w.ext.toNat % 64
      let mine : Slice := { warp := w.num, form := f.p.op, fromSp := f.p.w.ext.toNat / 64 % 4,
                            toSp := f.p.w.ext.toNat / 256 % 4, lines := f.p.addr }
      (lookup tag x.tags = some (.open old) ∨ (old = [] ∧ (lookup tag x.tags = none ∨ lookup tag x.tags = some .free))) →
      let all := old ++ [mine]
      let lines := ((List.range 32).flatMap (fun n => all.filter (fun sl => sl.warp = n))).flatMap (fun sl => sl.lines)
      let t := terminal f s
      let tagOf := (lookup g t.gangs).bind (fun y => lookup tag y.tags)
      (all.length < x.warps - x.exitedWarps.length → tagOf = some (.open all) ∧ t.copies = s.copies) ∧
      (x.warps - x.exitedWarps.length ≤ all.length → lines = [] → tagOf = some .ready ∧ t.copies = s.copies) ∧
      (x.warps - x.exitedWarps.length ≤ all.length → lines ≠ [] → tagOf = some .running ∧
        ∃ c, t.copies = put s.nextCopy c s.copies ∧ c.owner = .gang g tag ∧ c.core = x.core ∧ c.lines = lines ∧ c.fill = none ∧
          c.stopped = none ∧ c.dead = false ∧ c.landed = []) ∧
      (∀ n ≠ tag, (lookup g t.gangs).bind (fun y => lookup n y.tags) = lookup n x.tags) ∧
      t.dev = s.dev ∧ t.host = s.host ∧ t.vault = s.vault ∧ t.scr = s.scr ∧ t.scrFull = s.scrFull)

/-- R53, R172: the tag instructions. In a gang's warp, with a mask of declared tags (not zero for TWANY), TWANY, TWALL and
TCLR issue with their mask and TFFR gives the lowest ready tag of it or 64; otherwise the resource-bound cause is raised. At
commit TWANY parks the active lanes until some tag of the mask is ready, TWALL until all are (not at all for a zero mask), a
wait already met being noted as such; TCLR frees the ready tags of its mask. -/
def Obligations.Tags : Prop :=
  ∀ x : Word,
    let mask := fun (c : Ctx) => BitVec.ofNat 64 (c.b 2 3 0)
    let legal := fun (op : Nat) (c : Ctx) => c.act = [] ∨
      (c.wp.gang ≠ none ∧ (mask c).toNat < 2 ^ hdrTags c.wp.hdr ∧ (op = 0x93 → mask c ≠ 0))
    let ready := fun (c : Ctx) (s : State) (n : Nat) =>
      decide (n < 64) && (mask c).getLsbD n && decide (((gangOf s c.wp).bind (fun g => lookup n g.tags)) = some TagState.ready)
    let waits := fun (i : Instr) (op : Nat) =>
      Issued i op x (fun c _ => legal op c) (fun _ _ => noResult)
        (fun c _ r => { r with term := some { op := op, w := x, off := c.off, lanes := c.act,
                                              b := if c.act = [] then [] else [(0, BitVec.setWidth 128 (mask c))] } })
        (fun _ s => s)
    let refused := fun (i : Instr) (op : Nat) =>
      Issued i op x (fun c _ => ¬ legal op c) (fun _ _ => noResult)
        (fun c _ r => { r with causes := r.causes ++
          [({ off := c.off, code := 5, detail := op, lanes := maskOf c.act, tdst := tdstOf op x (hdrRegs c.wp.hdr) } : Cause)] })
        (fun _ s => s)
    waits (.twany x) 0x93 ∧ waits (.twall x) 0x94 ∧ waits (.tclr x) 0x96 ∧
    refused (.twany x) 0x93 ∧ refused (.twall x) 0x94 ∧ refused (.tffr x) 0x95 ∧ refused (.tclr x) 0x96 ∧
    Issued (.tffr x) 0x95 x
      (fun c s => legal 0x95 c ∧ ∀ g, gangOf s c.wp = some g → (g.tags.map (fun z => z.1)).Nodup)
      (fun c s => toD c 1 (fun _ => ((List.range 64).find? (ready c s)).getD 64)) (fun _ _ r => r) (fun _ s => s) ∧
    ∀ (f : Fin) (s : State) (w : Warp) (g : Nat) (y : Gang) (m : BitVec 64), f.p.lanes ≠ [] → lookup 0 f.p.b = some (BitVec.setWidth 128 m) →
      lookup f.key s.warps = some w → w.gang = some g → lookup g s.gangs = some y → (y.tags.map (fun z => z.1)).Nodup →
      let isReady := fun (n : Nat) => decide (lookup n y.tags = some TagState.ready)
      let t := terminal f s
      (f.p.op = 0x93 ∨ f.p.op = 0x94 → m ≠ 0 → (∀ n, isReady n = true → n < 64) → w.lanes.length = 32 → t.gangs = s.gangs ∧
        ∃ w', lookup f.key t.warps = some w' ∧ ∀ i ∈ f.p.lanes, i < 32 →
          (w'.lane i).state =
            if (f.p.op = 0x93 ∧ (List.range 64).any (fun n => m.getLsbD n && isReady n)) ∨
                (f.p.op = 0x94 ∧ (List.range 64).all (fun n => !m.getLsbD n || isReady n))
            then .parked (.tag 0 true) else .parked (.tag m (decide (f.p.op = 0x94)))) ∧
      (f.p.op = 0x94 → m = 0 → t = s) ∧
      (f.p.op = 0x96 → t.warps = s.warps ∧ ∀ n, (lookup g t.gangs).bind (fun z => lookup n z.tags) =
        (lookup n y.tags).map (fun st => if m.getLsbD n ∧ st = .ready then .free else st))

/-- R272, R273, R274: BARA, BARW, BARS and BARX of a gang's warp that declares the barrier (BARX with a count of at most
1,024) issue once for the warp, and raise the resource-bound cause otherwise. At commit BARA posts an arrival: the recorded
phase, the mark, the count; BARW parks the active lanes if the warp's mark is set; BARS does both; BARX sets the expectation,
0 meaning the warps not exited, unless a higher context has posted one in the same clock (R275). Here no write waits to be
released (log 58). -/
def Obligations.Barriers : Prop :=
  ∀ x : Word,
    let count := fun (op : Nat) (c : Ctx) => if op = 0xB3 then c.b 1 1 0 else 0
    let legal := fun (op : Nat) (c : Ctx) => c.wp.gang ≠ none ∧ x.c.toNat < hdrBars c.wp.hdr ∧ count op c ≤ 1024
    (∀ i op, (i, op) = (.bara x, 0xB0) ∨ (i, op) = (.barw x, 0xB1) ∨ (i, op) = (.bars x, 0xB2) ∨ (i, op) = (.barx x, 0xB3) →
      Issued i op x (fun c _ => c.act = [] ∨ legal op c) (fun _ _ => noResult)
        (fun c _ r => { r with term := some { op := op, w := x, off := c.off, lanes := c.act,
                                              b := if c.act = [] then [] else [(0, BitVec.ofNat 128 (count op c))] } })
        (fun _ s => s) ∧
      Issued i op x (fun c _ => c.act ≠ [] ∧ ¬ legal op c) (fun _ _ => noResult)
        (fun c _ r => { r with causes := r.causes ++
          [({ off := c.off, code := 5, detail := op, lanes := maskOf c.act, tdst := tdstOf op x (hdrRegs c.wp.hdr) } : Cause)] })
        (fun _ s => s)) ∧
    ∀ (f : Fin) (s : State) (w : Warp) (g : Nat) (y : Gang) (b : Barrier), f.p.w = x → f.p.lanes ≠ [] → w.lanes.length = 32 →
      lookup f.key s.warps = some w → w.gang = some g → lookup g s.gangs = some y → lookup x.c.toNat y.barriers = some b →
      b.count < 2047 → s.buffer = [] →
      let t := terminal f s
      let bar := (lookup g t.gangs).bind (fun z => lookup x.c.toNat z.barriers)
      let parked := fun (phase : Bool) => ∃ w', t.warps = put f.key w' s.warps ∧
        w' = { w with lanes := w.lanes.mapIdx (fun i l =>
          if i ∈ f.p.lanes then { l with state := .parked (.barrier x.c.toNat phase) } else l) }
      let arrived := fun (b' : Barrier) => b'.phase = b.phase ∧ b'.count = b.count + 1 ∧ b'.expect = b.expect ∧
        b'.deflt = b.deflt ∧ b'.touched = s.clock ∧ (∀ n, n ∈ b'.marks ↔ n = w.num ∨ n ∈ b.marks) ∧
        (∀ n, n ∈ b'.recorded ↔ if n = w.num then b.phase = true else n ∈ b.recorded)
      (f.p.op = 0xB0 → (∃ b', bar = some b' ∧ arrived b') ∧ t.warps = s.warps) ∧
      (f.p.op = 0xB1 → t.gangs = s.gangs ∧ if w.num ∈ b.marks then parked b.phase else t = s) ∧
      (f.p.op = 0xB2 → (∃ b', bar = some b' ∧ arrived b') ∧ parked b.phase) ∧
      (f.p.op = 0xB3 → t.warps = s.warps ∧
        let n := (lookupD 0 0 f.p.b).toNat
        let set := { b with touched := s.clock, barx := some (s.clock, f.key) }
        ((∀ k, b.barx ≠ some (s.clock, k) ∨ k ≤ f.key) →
          bar = some (if n = 0 then { set with deflt := true, expect := (s.warps.filter (fun z => z.2.gang = some g)).length }
                      else { set with deflt := false, expect := n })) ∧
        ∀ k, b.barx = some (s.clock, k) → f.key < k → bar = some b) ∧
      (∀ m ≠ x.c.toNat, (lookup g t.gangs).bind (fun z => lookup m z.barriers) = lookup m y.barriers)

/-- R352, R353, R341: fences issue and, performed once for the warp at commit, change no register: their release part
performs the buffered writes of the paths it covers in their order, which the model keeps (logs 14 and 58; path L: the core's
own; FENCE but .ACQ, FENCESC, FENCEX of the paths of B), with nothing else of memory changed; their acquire part (all but
FENCE.REL) leaves no path older bytes to read, and invalidates the core's first-level cache: FENCE (but .REL) and FENCESC
from die scope on, FENCEX with path L among the paths it orders after, at every scope where it orders more than path L
before, else from die scope on. R337, R338, R354: RBIND reads 32 bytes at its address, aligned to 32, and checks them beside
the launch's other regions; at commit they replace region C, the core's first-level cache being invalidated where the wider
of the old and the new write scope is the die's or more. A malformed image raises the malformed-object cause with the
region's number; a fault of the read is kept for the marker, an uncorrectable error in it is consumed. Here no write waits at
the commit (log 58). -/
def Obligations.FencesAndRegions : Prop :=
  (
    ∀ x : Word,
      (∀ i op, (i, op) = (.fence x, 0xB6) ∨ (i, op) = (.fencesc x, 0xB7) ∨ (i, op) = (.fencex x, 0xB8) →
        LeavesTerm i op x (fun c => { op := op, w := x, off := c.off, lanes := c.act })) ∧
      ∀ (f : Fin) (s : State), f.p.w = x → f.p.op ∈ [0xB6, 0xB7, 0xB8] →
        let wide := decide (3 ≤ x.sop.toNat)
        let clears := f.p.lanes ≠ [] ∧
          ((f.p.op = 0xB6 ∧ x.mx ≠ 2 ∧ wide = true) ∨ (f.p.op = 0xB7 ∧ wide = true) ∨
           (f.p.op = 0xB8 ∧ x.c.toNat % 2 = 1 ∧ (1 < x.b.toNat % 64 ∨ wide = true)))
        let covers := fun (b : Buffered) =>
          if f.p.op = 0xB8 then x.b.getLsbD b.path.code && (b.path ≠ .L || decide (b.unit / 64 = f.key / 64))
          else decide (b.path = .L ∧ b.unit / 64 = f.key / 64)
        let u := if f.p.lanes = [] ∨ (f.p.op = 0xB6 ∧ x.mx = 1) then s
          else (s.buffer.filter covers).foldl (fun s b => performWrite b s) { s with buffer := s.buffer.filter (fun b => !covers b) }
        let v := if clears then { u with l1 := u.l1.filter (fun y => y.1.1 ≠ f.key / 64) } else u
        terminal f s = (if f.p.lanes = [] ∨ (f.p.op = 0xB6 ∧ x.mx = 2) then v else { v with stale := [] }) ∧
        (s.memWf = true → ∀ b : Buffered, s.buffer = [b] → b.nib = 0 → u.buffer = [] →
          readPlace u b.place b.data.length = b.data)) ∧
  (
    ∀ x : Word,
      let got := fun (c : Ctx) (s : State) => tensorRead (userOf c s .L) false (c.a 2 0) 32 s
      let image := fun (c : Ctx) (s : State) => match (got c s).1 with
        | .ok v => BitVec.ofNat 256 v.1
        | .error _ => 0
      let clean := fun (c : Ctx) (s : State) => ∃ v, (got c s).1 = .ok (v, false)
      let others := fun (c : Ctx) (s : State) => ((launchOf s c.wp).regions.filter (fun y => y.1 ≠ x.c.toNat)).map (fun y => y.2)
      let bad := fun (c : Ctx) (s : State) => rgValid (image c s) = true ∧ regionMalformed (others c s) (image c s) = true
      Issued (.rbind x) 0xB9 x (fun c _ => c.act = []) (fun _ _ => noResult)
        (fun c _ r => { r with term := some { op := 0xB9, w := x, off := c.off, lanes := [] } }) (fun _ s => s) ∧
      Issued (.rbind x) 0xB9 x (fun c s => c.act ≠ [] ∧ c.a 2 0 % 32 = 0 ∧ clean c s ∧ ¬ bad c s) (fun _ _ => noResult)
        (fun c s r =>
          let parts := [(0, BitVec.setWidth 128 (image c s)), (1, BitVec.setWidth 128 (image c s >>> 128))]
          { r with term := some { op := 0xB9, w := x, off := c.off, lanes := c.act, b := parts } })
        (fun c s => (got c s).2) ∧
      Issued (.rbind x) 0xB9 x (fun c s => c.act ≠ [] ∧ c.a 2 0 % 32 = 0 ∧ clean c s ∧ bad c s) (fun _ _ => noResult)
        (fun c _ r => { r with causes := r.causes ++
          [({ off := c.off, code := 8, detail := x.c.toNat, lanes := maskOf c.act, tdst := tdstOf 0xB9 x (hdrRegs c.wp.hdr) } : Cause)] })
        (fun c s => (got c s).2) ∧
      (∀ e, Issued (.rbind x) 0xB9 x (fun c s => c.act ≠ [] ∧ c.a 2 0 % 32 = 0 ∧ (got c s).1 = .error e) (fun _ _ => noResult)
        (fun _ _ r => { r with faults := r.faults ++ [e] }) (fun c s => (got c s).2)) ∧
      Issued (.rbind x) 0xB9 x (fun c s => c.act ≠ [] ∧ c.a 2 0 % 32 = 0 ∧ ∃ v, (got c s).1 = .ok (v, true)) (fun _ _ => noResult)
        (fun _ _ r => { r with ue := r.ue.or (some 0) }) (fun c s => (got c s).2) ∧
      ∀ (f : Fin) (s : State) (w : Warp) (l : Launch) (img : BitVec 256), f.p.op = 0xB9 → f.p.w = x → f.p.lanes ≠ [] →
        lookup f.key s.warps = some w → lookup w.launch s.launches = some l → s.buffer = [] →
        f.p.b = [(0, BitVec.setWidth 128 img), (1, BitVec.setWidth 128 (img >>> 128))] →
        let scope := fun (r : BitVec 256) => if r.getLsbD 0 then fld r 1 3 else 0
        let t := terminal f s
        (∃ l', lookup w.launch t.launches = some l' ∧ l' = { l with regions := l'.regions } ∧
          ∀ n, lookupD n 0 l'.regions = if n = x.c.toNat then (if img.getLsbD 0 then img else 0) else lookupD n 0 l.regions) ∧
        t.l1 = (if 3 ≤ max (scope (lookupD x.c.toNat 0 l.regions)) (scope img)
          then s.l1.filter (fun y => y.1.1 ≠ f.key / 64) else s.l1) ∧
        t.warps = s.warps ∧ t.dev = s.dev ∧ t.host = s.host ∧ t.vault = s.vault ∧ t.scr = s.scr)

/-- R137: PPLD reads a polynomial table's 320 words at issue, kept for the commit; PPST holds one store of each word of the
table as the run began. Both are performed once for the warp, at A plus the signed extension, a multiple of 4; a misaligned
address raises the misalignment cause. -/
def Obligations.PolynomialTables : Prop :=
  ∀ x : Word,
    let at_ := fun (c : Ctx) => wrap 64 ((c.a 2 0 : Int) + sx 32 x.ext.toNat)
    let tr := fun (c : Ctx) (write : Bool) (s : State) => translatePieces c write .L 4 (at_ c) 1280 s
    let got := fun (c : Ctx) (s : State) => loadPieces c.key (launchOf s c.wp).asn 4 (tr c false s).1.1 (tr c false s).2
    let off := fun (c : Ctx) (op : Nat) (r : Run) => { r with causes := r.causes ++
      [({ off := c.off, code := 6, detail := op, lanes := maskOf c.act, tdst := tdstOf op x (hdrRegs c.wp.hdr) } : Cause)] }
    Issued (.ppld x) 0x5D x (fun c s => c.act ≠ [] ∧ at_ c % 4 = 0 ∧ (tr c false s).1.2 = [] ∧ (got c s).1.2 = false)
      (fun _ _ => noResult)
      (fun c s r => { r with held := r.held ++
        [.ppld x.sop.toNat ((List.range 320).map (fun i => BitVec.ofNat 32 (leNat (((got c s).1.1.drop (4 * i)).take 4))))] })
      (fun c s => (got c s).2) ∧
    Issued (.ppst x) 0x5E x (fun c s => c.act ≠ [] ∧ at_ c % 4 = 0 ∧ (tr c true s).1.2 = []) (fun _ _ => noResult)
      (fun c s r => { r with held := r.held ++ (tr c true s).1.1.mapIdx (fun i y =>
        .bytes y.2.1 y.1 (y.2.2 = 0) (leBytes 4 (lookupD (320 * x.sop.toNat + i) 0 c.wp.pp).toNat)) })
      (fun c s => (tr c true s).2) ∧
    (∀ i op, (i, op) = (.ppld x, 0x5D) ∨ (i, op) = (.ppst x, 0x5E) →
      Issued i op x (fun c _ => c.act = []) (fun _ _ => noResult) (fun _ _ r => r) (fun _ s => s) ∧
      Issued i op x (fun c _ => c.act ≠ [] ∧ at_ c % 4 ≠ 0) (fun _ _ => noResult) (fun c _ r => off c op r) (fun _ s => s))

/-- R183, R198, R208: a matrix instruction of a gang's warp within the gang's rows and banks issues with its origin quad and its
tensor entry, where it names one that is usable, of a format the unit takes, aligned, deep enough and permitted; the commit
appends it to its partition's queue as it issued, and in paired mode to the queue of the pair's other unit too (R208). Beyond the gang's resources it raises the resource-bound cause; of MCOR only
.CB and .CHK are held against the banks (log 39). -/
def Obligations.MatrixInstructions : Prop :=
  ∀ x : Word,
    let rows := fun (op : Nat) => match op with
      | 0xA1 => x.d.toNat + (x.ext.toNat % 128 + 1)
      | 0xA2 => x.d.toNat + (x.ext.toNat % 128 + 1)
      | 0xA3 => if x.sop = 2 then 0 else x.d.toNat + (x.c.toNat % 128 + 1)
      | _ => 0
    let bank := fun (op : Nat) => match op with
      | 0xA0 => some x.d.toNat
      | 0xA1 => some x.sop.toNat
      | 0xA3 => if x.sop = 2 then some x.d.toNat else none
      | 0xA4 => if x.sop = 0 ∨ x.sop = 3 then some x.mx.toNat else none
      | _ => none
    let owned := fun (op : Nat) (c : Ctx) => c.wp.gang ≠ none ∧ rows op ≤ hdrRows c.wp.hdr ∧
      ∀ b, bank op = some b → b < hdrBanks c.wp.hdr
    let bare := fun (op : Nat) (c : Ctx) => ({ op := op, w := x, off := c.off, lanes := c.act } : Pending)
    let beyond := fun (i : Instr) (op : Nat) =>
      Issued i op x (fun c _ => c.act ≠ [] ∧ ¬ owned op c) (fun _ _ => noResult)
        (fun c _ r => { r with causes := r.causes ++
          [({ off := c.off, code := 5, detail := op, lanes := maskOf c.act, tdst := tdstOf op x (hdrRegs c.wp.hdr) } : Cause)] })
        (fun _ s => s)
    let plain := fun (i : Instr) (op : Nat) =>
      Issued i op x (fun c _ => c.act = [] ∨ owned op c) (fun _ _ => noResult)
        (fun c _ r => { r with term := some (bare op c) }) (fun _ s => s) ∧ beyond i op
    let entry := fun (c : Ctx) (s : State) => (launchOf s c.wp).tensor x.c.toNat
    let slots := fun (fmt : Nat) => [0, 0, 0, 0, 0, 0, 0, 0, 0, 1, 2, 2, 4, 2, 2].getD fmt 0
    let tensor := fun (i : Instr) (op : Nat) (fits : Ctx → State → Prop) =>
      Issued i op x (fun c s => c.act ≠ [] ∧ owned op c ∧ tnUsable (entry c s) = true ∧ fits c s) (fun _ _ => noResult)
        (fun c s r => { r with term := some { bare op c with
            addr := c.origin.mapIdx (fun n v => (n, v)),
            b := (List.range 4).map (fun n => (n, BitVec.ofNat 128 (fld (entry c s) (128 * n) 128))) } })
        (fun _ s => s) ∧ beyond i op
    let operand := fun (c : Ctx) (s : State) => 0 < slots (tnFmt (entry c s)) ∧ c.origin.getD 0 0 % 128 = 0 ∧ x.sx = false ∧
      (tnVault (entry c s) = true → vaultOk s (fld (launchOf s c.wp).pkt 398 12) (tnBase (entry c s)) false = true)
    tensor (.mldb x) 0xA0 (fun c s => operand c s ∧ 128 * 2 ^ x.sop.toNat ≤ 128 * slots (tnFmt (entry c s))) ∧
    tensor (.mma x) 0xA1 operand ∧
    tensor (.mdrn x) 0xA2 (fun c s =>
      (tnAuto (entry c s) = true → c.origin.getD 0 0 % (if tnSgran (entry c s) = 1 then 32 else 128) = 0) ∧
      (tnVault (entry c s) = true → vaultOk s (fld (launchOf s c.wp).pkt 398 12) (tnBase (entry c s)) true = true)) ∧
    plain (.mclr x) 0xA3 ∧ plain (.mclrBank x) 0xA3 ∧ plain (.mcor x) 0xA4 ∧ plain (.mstat x) 0xA5 ∧
    ∀ (f : Fin) (s : State) (w : Warp) (g : Nat), f.p.op ∈ [0xA0, 0xA1, 0xA2, 0xA3, 0xA4] → f.p.lanes ≠ [] →
      lookup f.key s.warps = some w → w.gang = some g →
      let old := lookupD (f.key / 16) {} s.parts
      let mine := fun (op : MatOp) => put (f.key / 16) { old with queue := old.queue ++ [op] } s.parts
      let other := if f.key / 16 % 2 = 0 then f.key / 16 + 1 else f.key / 16 - 1
      let twin := lookupD other {} s.parts
      let paired := ∃ y, lookup g s.gangs = some y ∧ hdrPair y.hdr = true
      let both := fun (op : MatOp) => put other { twin with queue := twin.queue ++ [{ op with twin := true }] } (mine op)
      ∃ op, terminal f s = (if paired then { s with parts := both op } else { s with parts := mine op }) ∧ op.twin = false ∧
        op.op = f.p.op ∧ op.w = f.p.w ∧ op.warp = f.key ∧ op.gang = g ∧ op.origin = f.p.addr.map (fun y => y.2) ∧
        op.doneUnits = 0 ∧ op.stopped = none ∧ op.dead = false ∧
        (∀ img : BitVec 512, f.p.b = (List.range 4).map (fun n => (n, BitVec.ofNat 128 (fld img (128 * n) 128))) → op.entry = img)

/-- R204: MSTAT at commit: with .WAIT and instructions of the warp still queued, the active lanes park; otherwise D gets the
number outstanding in bits 4:0, bit 8 where a row of the gang on this partition is poisoned, bit 9 where the unit has
corrected a parity fault of its squarers since the warp's last MSTAT and bit 10 where the warp's last load took a kept bank,
and bit 9 is cleared. R179: half of the sum of squared sums less the two correction terms is the exact dot product. R72, R73,
R179, R182, R185, R187, R193, R195, R200, R201: what the queued MLDB and MMA make of banks and rows. An operand segment
becomes integers, each element rounded to nearest even in units of 2^e, e as the format and the largest element give it. A
column loaded stands in the bank with its integers, exponents and scales and the sums of its squares; the load that has all
its columns puts the bank in place, with its key under .KEEP, and KHIT says whether a kept bank was taken. A block's promoted
product is the exact D × 2^e × scales rounded once to FP64, +0 outside dimension 0 or where D is 0, the canonical NaN with NV
for a NaN or an infinite element; in integer mode the exact dot product, modulo 2^64, is added. A row of MMA has every live
entry added to, from +0 under .SET, and marked; no other row and no bank changes, and nothing of memory beyond what the fetch
did. R192, R196, R202, R203, R207: what the queued MDRN, MCLR and MCOR do. MDRN writes an entry that is marked and lies in
the destination, and no other, converted, at its element's address, half a byte beside the other half, counting its flags and
the entry's counters; a poisoned row is consumed before anything of it is written; .CLR leaves a drained row +0 with its mode
and marks. MCLR leaves its rows +0 and unmarked in the mode named, or the bank empty. MCOR gives D the correction of a column
and block, the probe row's sums, or how many corrections differ from those its integers have, which it rebuilds. -/
def Obligations.MatrixArithmetic : Prop :=
  (
    ∀ (f : Fin) (s : State) (w : Warp) (g : Nat), f.p.op = 0xA5 → f.p.lanes ≠ [] → f.p.lanes.Nodup → w.lanes.length = 32 →
      lookup f.key s.warps = some w → w.gang = some g → (lookupD (f.key / 16) {} s.parts).queue.length ≤ 16 →
      let part := lookupD (f.key / 16) {} s.parts
      let outs := (part.queue.filter (fun o => o.warp = f.key ∧ o.gang = g)).length
      let word := outs + (if part.rows.any (fun r => r.1 / 128 = g && r.2.poison) then 0x100 else 0) +
        (if w.pcor then 0x200 else 0) + (if w.khit then 0x400 else 0)
      (word % 32 = outs ∧ word / 32 % 8 = 0) ∧
      (f.p.w.mx = 1 → outs ≠ 0 → terminal f s = s.withWarp f.key { w with lanes := w.lanes.mapIdx (fun i l =>
        if i ∈ f.p.lanes then { l with state := .parked (.matrix f.p.w.d.toNat) } else l) }) ∧
      (f.p.w.mx ≠ 1 ∨ outs = 0 → ∃ w', terminal f s = s.withWarp f.key w' ∧ w'.pcor = false ∧
        w' = { w with v := w'.v, s := w'.s, badRegs := w'.badRegs, pcor := false } ∧
        (∀ n l, archRead w' (.v n l) = (toLanes f.p.w.d f.p.lanes 1 (fun _ => word) (.v n l)).getD (archRead w (.v n l))) ∧
        (∀ n, archRead w' (.s n) = (toLanes f.p.w.d f.p.lanes 1 (fun _ => word) (.s n)).getD (archRead w (.s n))))) ∧
  (
    ∀ (x : List Int) (b : BankSeg), x.length = b.ints.length → b.cb = ((b.ints.map (fun n => n * n)).sum).toNat →
      (blockSums x b).2.2 = ((x.zip b.ints).map (fun y => y.1 * y.2)).sum ∧
      ((blockSums x b).1 : Int) = ((x.zip b.ints).map (fun y => (y.1 + y.2) * (y.1 + y.2))).sum) ∧
  (
    let val := fun (fmt b : Nat) => (fmtOf fmt).decode b
    let sign := fun (v : FVal) => match v with | .num n _ _ => n | .inf n => n | .nan _ => false
    let head := fun (part : Nat) (s : State) => (lookupD part {} s.parts).queue.head?
    (∀ fmt ∈ [9, 0xA, 0xB, 0xC], ∀ bits : List Nat,
      let seg := alignSeg fmt bits
      seg.ints.length = bits.length ∧ (seg.nan = true ↔ ∃ b ∈ bits, (val fmt b).isNum = false) ∧
      (∀ i < bits.length, RoundsToInt 0 ((val fmt (bits.getD i 0)).real / (2 : ℝ) ^ seg.exp) (seg.ints.getD i 0)) ∧
      (fmt = 0xA → seg.exp = -9) ∧ (fmt = 0xC → seg.exp = -1) ∧
      (fmt = 9 ∨ fmt = 0xB →
        ((∀ b ∈ bits, (val fmt b).real = 0) → seg.exp = 0) ∧
        ∀ b ∈ bits, (val fmt b).real ≠ 0 → (∀ d ∈ bits, |(val fmt d).real| ≤ |(val fmt b).real|) →
          seg.exp = max ⌊Real.logb 2 |(val fmt b).real|⌋ (if fmt = 9 then -126 else -14) - (if fmt = 9 then 23 else 21))) ∧
    (∀ (d e : ℤ) (a b : FVal), a.isNaN = false → b.isNaN = false →
      let x : ℝ := d * (2 : ℝ) ^ e * a.real * b.real
      let r := promoteOf d e a b
      let neg := (decide (d < 0) != sign a) != sign b
      (a.isNum = true ∧ b.isNum = true → (d = 0 → r = (0, 0)) ∧ (x = 0 → (fp64.decode r.1).isZero = true ∧ r.2 = 0) ∧
        fp64.RoundedOnce 0 (fp64.arithOver 0 false) x r) ∧
      (¬ (a.isNum = true ∧ b.isNum = true) →
        r = if d = 0 ∨ a.isZero = true ∨ b.isZero = true then (fp64.nanBits, flagNV) else (fp64.sign neg + fp64.infBits, 0))) ∧
    (∀ (a : Block) (b : BankSeg) (d : ℤ),
      let sb := unpackVal b.scale
      promote a b d =
        if a.outside = true ∨ b.outside = true then (0, 0)
        else if a.seg.nan = true ∨ b.nan = true ∨ a.scale.isNaN = true ∨ sb.isNaN = true then (fp64.nanBits, flagNV)
        else promoteOf d (a.seg.exp + b.exp) a.scale sb) ∧
    (∀ (old : BitVec 64) (bs : List (Nat × Block × BankSeg)) (x : Nat × Block × BankSeg),
      let exact := fun (y : Nat × Block × BankSeg) => y.2.1.seg.ints.length = y.2.2.ints.length ∧
        (y.2.2.cb : ℤ) = (y.2.2.ints.map (fun n => n * n)).sum
      let dot := fun (y : Nat × Block × BankSeg) => ((y.2.1.seg.ints.zip y.2.2.ints).map (fun z => z.1 * z.2)).sum
      let inside := fun (y : Nat × Block × BankSeg) => !y.2.1.outside && !y.2.2.outside
      ((∀ y ∈ bs, exact y) → promoteAll true [] old bs = (old + BitVec.ofInt 64 ((bs.filter inside).map dot).sum, 0)) ∧
      promoteAll false [] old [] = (old, 0) ∧
      (exact x →
        let acc := promoteAll false [] old bs
        let p := promote x.2.1 x.2.2 (dot x)
        let r := fp64.add 0 false acc.1.toNat p.1
        promoteAll false [] old (bs ++ [x]) = (BitVec.ofNat 64 r.1, acc.2 ||| p.2 ||| r.2))) ∧
    (∀ (set isInt : Bool) (bs : List Block) (bank : Bank) (row : AccRow), (bank.segs.map (fun c => c.1)).Nodup →
      let y := mmaRow set isInt [] bs bank row
      let entry := fun (j : Nat) (col : List BankSeg) =>
        promoteAll isInt [] (if set then 0 else lookupD j 0 row.vals) ((List.range bs.length).zip (bs.zip col))
      y.1.intMode = (if set then isInt else row.intMode) ∧ y.1.poison = row.poison ∧
      (∀ n, n ∈ y.1.written ↔ n ∈ bank.segs.map (fun c => c.1) ∨ (set = false ∧ n ∈ row.written)) ∧
      (∀ j, lookupD j 0 y.1.vals = match lookup j bank.segs with
        | some col => (entry j col).1
        | none => if set then 0 else lookupD j 0 row.vals) ∧
      y.2 = bank.segs.foldl (fun f c => f ||| (entry c.1 c.2).2) 0) ∧
    (∀ (part : Nat) (op : MatOp) (s s1 : State) (bank : Bank) (bs : List Block) (rest : List MatOp),
      let p := lookupD part {} s.parts
      let r := op.doneUnits
      let key := 128 * op.gang + op.w.d.toNat + r
      let row := lookupD key {} p.rows
      p.queue = op :: rest → lookup (4 * op.gang + op.w.sop.toNat) p.banks = some bank → bank.bad = false → bank.segs ≠ [] →
      row.bad = false ∨ op.w.mx = 1 → operandLive op.entry op.origin op.w.sx r = true →
      fetchRow part op bank r true s = ((bs, none), s1) →
      let t := mmaUnit part part op [] s
      let y := mmaRow (op.w.mx = 1) (pairInt bank.fmt) [] bs bank row
      let q := lookupD part {} t.parts
      lookup key q.rows = some y.1 ∧ (∀ n ≠ key, lookup n q.rows = lookup n p.rows) ∧ q.banks = p.banks ∧
        (∃ o, q.queue = o :: rest ∧ o.doneUnits = r + 1 ∧ o.flags = op.flags ||| y.2 ∧ o.stopped = op.stopped ∧ o.dead = op.dead) ∧
        (r = op.w.ext.toNat % 128 → q.probe.row = key) ∧
        t.warps = s1.warps ∧ t.launches = s1.launches ∧ t.dev = s1.dev ∧ t.host = s1.host ∧ t.vault = s1.vault ∧ t.scr = s1.scr) ∧
    (∀ (part j : Nat) (op : MatOp) (s s1 : State) (bl : List Block) (rest : List MatOp),
      let u := matUser s part op
      let old := op.bank.getD { fmt := tnFmt op.entry, depth := 128 * 2 ^ op.w.sop.toNat }
      let t := loadColumn part op j s
      (lookupD part {} s.parts).queue = op :: rest →
      (operandLive op.entry op.origin op.w.sx j = false →
        (head part t).bind (fun o => o.bank) = some old ∧ (head part t).map (fun o => o.doneUnits) = some (j + 1)) ∧
      (op.fetched = [] → op.elems = [] → operandLive op.entry op.origin op.w.sx j = true →
        fetchBlocks u.1 u.2.1 op.entryNo u.2.2 op.entry op.origin op.w.sx j [] (blocksOf (tnFmt op.entry) old.depth) s =
          ((bl, none), s1) →
        (head part t).map (fun o => o.doneUnits) = some (j + 1) ∧
        ∃ col, (head part t).bind (fun o => o.bank) = some { old with segs := old.segs ++ [(j, col)] } ∧ col.length = bl.length ∧
          ∀ (i : Nat) (b : Block) (k : BankSeg), bl[i]? = some b → col[i]? = some k →
            k.ints = b.seg.ints ∧ k.exp = b.seg.exp ∧ k.nan = b.seg.nan ∧ k.outside = b.outside ∧
            (b.scale.isNaN = false → unpackVal k.scale = b.scale) ∧ (b.scale.isNaN = true → (unpackVal k.scale).isNaN = true) ∧
            (b.seg.nan = false → (k.cb : ℤ) = (k.ints.map (fun n => n * n)).sum)) ∧
      (∀ (b : Bank) (kk : KeepKey), op.begun = false → keepKey u.1 op = some kk →
        (lookupD part {} s.parts).kept.find? (fun x => x.key = some kk) = some b → b.bad = false →
        let v := mldbUnit part op s
        (head part v).bind (fun o => o.bank) = some b ∧ (head part v).map (fun o => (o.doneUnits, o.hit)) = some (128, true) ∧
          v.dev = s.dev ∧ v.launches = s.launches) ∧
      ∀ b w, op.bank = some b → lookup op.warp s.warps = some w → w.gang = some op.gang →
        let v := mldbDone part op s
        let q := lookupD part {} v.parts
        lookup (4 * op.gang + op.w.d.toNat) q.banks = some { b with key := if op.w.mx = 1 then keepKey u.1 op else none } ∧
          (∀ n ≠ 4 * op.gang + op.w.d.toNat, lookup n q.banks = lookup n (lookupD part {} s.parts).banks) ∧
          q.rows = (lookupD part {} s.parts).rows ∧ lookup op.warp v.warps = some { w with khit := op.hit })) ∧
  (
    let head := fun (part : Nat) (s : State) => (lookupD part {} s.parts).queue.head?
    let squares := fun (k : BankSeg) => (k.ints.map (fun n => (n * n).toNat)).sum
    (∀ (part r j : Nat) (op : MatOp) (row : AccRow) (s : State),
      let e := op.entry
      let ix := drainIx op r j
      let t := drainElem part op row r j s
      (j ∉ row.written ∨ tnWithin e ix = false →
        t.dev = s.dev ∧ t.host = s.host ∧ t.vault = s.vault ∧ t.buffer = s.buffer ∧ t.launches = s.launches ∧ t.warps = s.warps) ∧
      ∀ (rest : List MatOp) (p : Place × Nat) (g : FVal) (s1 s2 : State), (lookupD part {} s2.parts).queue = op :: rest →
        j ∈ row.written → tnWithin e ix = true → tnAuto e = false →
        tensorPlace (matUser s part op).1 (tnVault e) (elemAddr e ix) true s = (.ok p, s1) →
        (if isFloat (tnFmt e) = true then readScale (matUser s part op).1 e ix s1 else (.ok (.num false 1 0, false), s1)) =
          (.ok (g, false), s2) →
        s2.memWf = true → s2.buffer = [] → Path.M ∉ s2.lag →
        let o := writeElem e (timesVal g (tnT e)) (entryVal row j) row.intMode
        let n := elemSize e
        let u := drainFlush part t
        u.buffer = [] ∧
        readPlace u p.1 n = (if tnFmt e = 0xC then leBytes 1 (nibbleByte (1 + tnCoord e ix 0 % 2) (readNat s2 p.1 1) o.bits)
          else leBytes n o.bits) ∧
        (∀ a, overlaps p.1 n a 1 = false → readPlace u a 1 = readPlace s2 a 1) ∧
        u.launches = (modTensor (matUser s part op).2.1 op.entryNo
          (bumpCounters (if o.viol then 1 else 0) (if o.satc then 1 else 0) (if o.ufc then 1 else 0) o.emax) s2).launches ∧
        ∃ h, head part u = some h ∧ h.doneUnits = 128 * r + j + 1 ∧ h.flags = op.flags ||| o.flags ∧ h.viol = (op.viol || o.viol)) ∧
    (∀ (part : Nat) (op : MatOp) (rest : List MatOp) (s : State),
      let p := lookupD part {} s.parts
      let key := 128 * op.gang + op.w.d.toNat + op.doneUnits / 128
      let row := lookupD key {} p.rows
      p.queue = op :: rest →
      (row.poison = true ∨ row.bad = true → s.buffer = [] → ∀ y l, lookup op.gang s.gangs = some y → lookup y.launch s.launches = some l →
        l.kill = none → mdrnUnit part op s = { s with
          parts := put part { p with queue := { op with dead := true } :: rest } s.parts,
          launches := put y.launch { l with kill := some (0x22, y.index.getD (2 ^ 64 - 1), 2) } s.launches }) ∧
      (row.poison = false → row.bad = false →
        let u := drainElem part op row (op.doneUnits / 128) (op.doneUnits % 128) s
        let q := lookupD part {} u.parts
        let cleared := match lookup key q.rows with
          | some x => put key { x with vals := [] } q.rows
          | none => q.rows
        let ends := (head part u).map (fun o => o.doneUnits) = some (op.doneUnits + 1) ∧ op.doneUnits % 128 = 127 ∧ op.w.mx = 1
        mdrnUnit part op s = if ends then { u with parts := put part { q with rows := cleared } u.parts } else u)) ∧
    (∀ (part : Nat) (op : MatOp) (s : State),
      let p := lookupD part {} s.parts
      let t := mclrDone part op s
      let q := lookupD part {} t.parts
      let first := 128 * op.gang + op.w.d.toNat
      t = { s with parts := t.parts } ∧ (∀ n ≠ part, lookup n t.parts = lookup n s.parts) ∧ q.queue = p.queue ∧ q.kept = p.kept ∧
      (op.w.sop = 2 → q.rows = p.rows ∧ ∀ n, lookup n q.banks = if n = 4 * op.gang + op.w.d.toNat then none else lookup n p.banks) ∧
      (op.w.sop ≠ 2 → q.banks = p.banks ∧ ∀ n, lookup n q.rows =
        if first ≤ n ∧ n ≤ first + op.w.c.toNat % 128 then some { vals := [], intMode := op.w.sop = 1, poison := false, written := [] }
        else lookup n p.rows)) ∧
    ∀ (part : Nat) (op : MatOp) (s : State) (w : Warp), lookup op.warp s.warps = some w → w.gang = some op.gang →
      lanesOf op.lanes ≠ [] →
      let p := lookupD part {} s.parts
      let bank := lookup (4 * op.gang + op.w.mx.toNat) p.banks
      let blk := op.w.a.toNat % 16
      let col := op.w.c.toNat % 128
      let probed := lookupD p.probe.row {} p.rows
      let differ := fun (b : Bank) => (b.segs.flatMap (fun c => c.2)).countP (fun k => !k.nan && decide (k.cb ≠ squares k))
      let value := match op.w.sop.toNat with
        | 0 => (bank.bind (fun b => (lookup col b.segs).bind (fun l => (l[blk]?).map (fun k => k.cb)))).getD 0
        | 1 => p.probe.ra.getD blk 0
        | 2 => (lookupD col [] p.probe.sums).getD blk 0
        | _ => (bank.map differ).getD 0
      (op.w.sop = 1 ∨ op.w.sop = 2 → (probed.poison = false ∧ probed.bad = false) ∨ p.probe.ra = []) →
      (op.w.sop = 0 ∨ op.w.sop = 3 → ∀ b, bank = some b → b.bad = false) →
      let t := mcorDone part op s
      let q := lookupD part {} t.parts
      (∃ w', lookup op.warp t.warps = some w' ∧ (∀ n l, archRead w' (.v n l) =
          (toLanes op.w.d (lanesOf op.lanes) 2 (fun _ => value) (.v n l)).getD (archRead w (.v n l))) ∧
        ∀ n, archRead w' (.s n) = (toLanes op.w.d (lanesOf op.lanes) 2 (fun _ => value) (.s n)).getD (archRead w (.s n))) ∧
      q.rows = p.rows ∧ q.queue = p.queue ∧ t.launches = s.launches ∧ t.dev = s.dev ∧
      (op.w.sop ≠ 3 → q.banks = p.banks) ∧
      (op.w.sop = 3 → ∀ b, bank = some b → ∃ b', lookup (4 * op.gang + op.w.mx.toNat) q.banks = some b' ∧ differ b' = 0 ∧
        b'.segs.map (fun c => (c.1, c.2.map (fun k => { k with cb := 0 }))) = b.segs.map (fun c => (c.1, c.2.map (fun k => { k with cb := 0 })))))

/-! ## Weirs and the hook machine -/

/-- R217, R222, R225, R242, R246: a Running weir context's register and control instructions: unsigned arithmetic modulo
2^64, ADDM's remainder of the exact sum, branches, LOOP, and HALT, which waits for the operations posted and then leaves the
context Halted, with DONE sent to the root of the collective that started it, if one did: performed on the root's rill in
this package, else routed (R211). The context, in focus as its weir's turn gave it (log 52), goes on at the next slot or the
target, Stopped there with STEP set; a register written loses the error it held; no other context, no memory and nothing else
of the machine changes. R226, R227: WAITF goes on where the flag at wA compares with wB as its suffix says, no path reading
older bytes from then on, and else waits on it; SIGF waits for the operations it covers and then stores wB or adds it, every
other byte as before (here with no write waiting to be released, log 58). A misaligned address fails the context with cause
5, an uncorrectable error in the flag with cause 11, its starter told. DSEL of R225 is here too: the template with its base
moved on by wA. Where the context holds no operation the machine's other parts are those the translation leaves. -/
def Obligations.WeirInstructions : Prop :=
  (
    (∀ (w : WeirWord) (s : State) (c : Nat) (x : WeirCtx), s.focus = .weir c → lookupD c {} s.weirs = x → x.state = .running →
      let a := lookupD w.wa.toNat 0 x.w
      let b := lookupD w.wb.toNat 0 x.w
      let imm := BitVec.ofInt 64 (sx 32 w.imm.toNat)
      let target := w.imm.toNat % 2048
      let goes := fun (i : Instr) (pc : Nat) (y : WeirCtx) =>
        exec i s = .next { s with weirs := put c { y with
          pc := pc, passing := false, faultRuns := [], wait := none,
          state := if x.wdbg.getLsbD 24 then .stopped else .running } s.weirs }
      let wrote := fun (v : W64) => { x with w := put w.wd.toNat v x.w, bad := x.bad.filter (fun n => n ≠ 4096 + w.wd.toNat) }
      let sets := fun (i : Instr) (v : W64) => goes i (x.pc + 1) (wrote v)
      goes (.weirNop w) (x.pc + 1) x ∧ sets (.weirMovi w) imm ∧ sets (.weirAdd w) (a + b) ∧ sets (.weirAddi w) (a + imm) ∧
      sets (.weirAddm w) (BitVec.ofNat 64 ((a.toNat + b.toNat) % w.imm.toNat)) ∧ sets (.weirSub w) (a - b) ∧
      sets (.weirMul w) (a * b) ∧ sets (.weirShl w) (BitVec.ofNat 64 (a.toNat * 2 ^ w.imm.toNat)) ∧ sets (.weirAnd w) (a &&& b) ∧
      goes (.weirJmp w) target x ∧ goes (.weirBeq w) (if a = b then target else x.pc + 1) x ∧
      goes (.weirBne w) (if a = b then x.pc + 1 else target) x ∧
      (let v := lookupD w.wd.toNat 0 x.w - 1
       goes (.weirLoop w) (if v = 0 then x.pc + 1 else target) (wrote v)) ∧
      (x.ops = [] → exec (.weirHalt w) s = .next (tellStarter c 0x09 0 x
        { s with weirs := put c { x with state := .halted, pc := x.pc + 1, passing := false, wait := none } s.weirs })) ∧
      (x.ops ≠ [] → exec (.weirHalt w) s =
        .next { s with weirs := put c { x with state := .waiting, wait := some .ops, passing := true } s.weirs })) ∧
    ∀ (s : State) (c kind : Nat) (arg : W64) (x : WeirCtx), (x.starter = none → tellStarter c kind arg x s = s) ∧
      ∀ r, x.starter = some r → r.1 = s.packageNo →
        tellStarter c kind arg x s = { s with
          pkts := s.pkts ++ [(s.nextPkt, { kind := kind, dpkg := r.1, drill := r.2.1, dctx := r.2.2, spkg := s.packageNo,
                                           srill := c / 4, sctx := c % 4, arg := arg })],
          nextPkt := s.nextPkt + 1 }) ∧
  (
    ∀ (w : WeirWord) (s : State) (c : Nat) (x : WeirCtx), s.focus = .weir c → lookupD c {} s.weirs = x → x.state = .running →
      let a := lookupD w.wa.toNat 0 x.w
      let b := lookupD w.wb.toNat 0 x.w
      let next := if x.wdbg.getLsbD 24 then WeirState.stopped else WeirState.running
      let sp : Space := { asn := x.asn, root := x.root, rpld := x.rpld, rhnd := x.rhnd }
      let tr := fun (write : Bool) => translate (.die (c / 4 / 4)) sp a.toNat write false .W s
      (∀ t, x.tpls[w.imm.toNat]? = some t →
        let d := put w.ds.toNat (setFld t 0 64 (fld t 0 64 + a.toNat)) x.d
        let x' := { x with d := d, bad := x.bad.filter (fun n => n ≠ 8192 + w.ds.toNat), pc := x.pc + 1, passing := false, faultRuns := [], wait := none, state := next }
        exec (.dsel w) s = .next { s with weirs := put c x' s.weirs }) ∧
      (∀ p cache, a.toNat % 8 = 0 → (tr false).1 = .ok (p, cache) → isPoisoned (tr false).2 p 8 = false → w.fn.toNat < 3 →
        let v := read64 (tr false).2 p
        let holds := if w.fn = 0 then b.toNat ≤ v.toNat else if w.fn = 1 then v = b else v ≠ b
        let on := { x with pc := x.pc + 1, passing := false, faultRuns := [], wait := none, state := next }
        let waits := { x with state := .waiting, wait := some (.flag p a.toNat w.fn.toNat b false), passing := true }
        (holds → exec (.weirWaitf w) s = .next { (tr false).2 with stale := [], weirs := put c on s.weirs }) ∧
        (¬ holds → exec (.weirWaitf w) s = .next { (tr false).2 with weirs := put c waits s.weirs })) ∧
      (∀ p cache, a.toNat % 8 = 0 → (tr true).1 = .ok (p, cache) → isPoisoned (tr true).2 p 8 = false → x.ops = [] →
        (w.fl = true → fld (x.conns.getD w.cn.toNat 0) 18 1 = 1) → s.memWf = true → s.buffer = [] →
        ∃ t, exec (.weirSigf w) s = .next t ∧
          read64 t p = (if w.fn = 0 then b else read64 (tr true).2 p + b) ∧ t.memWf = true ∧
          (∀ q : Place, (∀ i < 8, q ≠ p.plus i) → readPlace t q 1 = readPlace (tr true).2 q 1) ∧
          lookup c t.weirs = some { x with pc := x.pc + 1, passing := false, faultRuns := [], wait := none, state := next }) ∧
      (∀ p cache, a.toNat % 8 = 0 → (tr true).1 = .ok (p, cache) → isPoisoned (tr true).2 p 8 = false → x.ops ≠ [] →
        w.fl = false →
        let x' := { x with state := .waiting, wait := some .ops, passing := true }
        exec (.weirSigf w) s = .next { (tr true).2 with weirs := put c x' s.weirs }) ∧
      (a.toNat % 8 ≠ 0 → exec (.weirWaitf w) s = .next (weirFailed c 5 x s) ∧
        (w.fl = false → exec (.weirSigf w) s = .next (weirFailed c 5 x s))) ∧
      (∀ p cache, a.toNat % 8 = 0 →
        ((tr false).1 = .ok (p, cache) → isPoisoned (tr false).2 p 8 = true → s.buffer = [] →
          exec (.weirWaitf w) s = .next (weirFailed c 11 x (tr false).2)) ∧
        ((tr true).1 = .ok (p, cache) → isPoisoned (tr true).2 p 8 = true → s.buffer = [] → w.fl = false →
          exec (.weirSigf w) s = .next (weirFailed c 11 x (tr true).2))))

/-- R228, R229, R231: the seven posted operations. With a valid connection (RCFW: both), a descriptor of nonzero size,
aligned, its tensor entry usable, and where bytes are stored neither scaled nor of four-bit elements; a remote address within
its space and aligned; every page of the chunk translated; and room on the connection and in the context: the operation is
posted with the next number of the connection it sends on, and the context goes on, or with .W waits for it. An invalid
connection fails the context with cause 3, its starter told, and posts nothing. -/
def Obligations.WeirPosts : Prop :=
  ∀ (w : WeirWord) (s : State) (c : Nat) (x : WeirCtx), s.focus = .weir c → lookupD c {} s.weirs = x → x.state = .running →
    let a := lookupD w.wa.toNat 0 x.w
    let b := lookupD w.wb.toNat 0 x.w
    let valid := fun (cn : Nat) => fld (x.conns.getD cn 0) 18 1 = 1
    let d := lookupD w.ds.toNat 0 x.d
    let e := lookupD (fld d 144 8) 0 x.tensors
    let described := fun (stores : Bool) => fld d 160 25 ≠ 0 ∧ fld d 0 64 % 32 = 0 ∧ fld d 192 64 % 32 = 0 ∧
      (fld d 141 1 = 1 → tnUsable e = true ∧ (stores = true → tnSgran e = 0 ∧ tnFmt e ≠ 0xC))
    let remote := fun (r : W64) (n : Nat) =>
      (if r.getLsbD 63 then fld r 30 33 = 0 else fld r 57 6 = 0) ∧ r.toNat % n = 0
    let posts := fun (i : Instr) (kind : WOpKind) (cns : List Nat) (out : Option Nat) (ch : Chunk) (write : Bool) (ok : Prop) =>
      (∀ l s', (∀ cn ∈ cns, valid cn) → ok → chunkPlaces c ch write s = (.ok l, s') → x.ops.length < 16 →
        (∀ cn ∈ cns, (x.ops.filter (fun o => o.conns.contains cn)).length < 8) →
        exec i s = .next { s' with weirs := put c { x with
          ops := x.ops ++ [{ id := x.nextOp, kind := kind, cn := w.cn.toNat, chunk := ch,
                             seq := out.elim 0 (fun cn => lookupD cn 0 x.outSeq) }],
          nextOp := x.nextOp + 1,
          outSeq := out.elim x.outSeq (fun cn => put cn ((lookupD cn 0 x.outSeq + 1) % 65536) x.outSeq),
          pc := x.pc + 1, passing := false, faultRuns := [],
          wait := if w.wt then some (.op x.nextOp) else none,
          state := if w.wt then .waiting else if x.wdbg.getLsbD 24 then .stopped else .running } s.weirs }) ∧
      (∀ cn ∈ cns, ¬ valid cn → exec i s = .next (weirFailed c 3 x s))
    let ch := chunkOf x d a
    let cn := w.cn.toNat
    let out := w.wd.toNat
    posts (.xmit w) .xmit [cn] (some cn) ch false (described false) ∧
    posts (.recv w) .recv [cn] none ch true (described true) ∧
    posts (.rcmb w) (.rcmb w.fn.toNat) [cn] none ch true (described true) ∧
    posts (.rcfw w) (.rcfw w.fn.toNat w.fl out) [cn, out] (some out) ch w.fl (described true) ∧
    posts (.rput w) (.rput b) [cn] (some cn) ch false (described false ∧ remote b 32) ∧
    posts (.rget w) (.rget b) [cn] (some cn) ch true (described true ∧ remote b 32) ∧
    posts (.ratm w) (.ratm a b) [cn] (some cn) {} false (remote a 8)

/-- R321, R322: a hook word acts on the hook machine alone: loads and stores of packet fields and hook words, arithmetic
modulo 2^64, unsigned minimum, skips, and REP, whose body runs its count of times; one more step is counted. ACCEPT writes the
hook words to the queue and starts the packet as edited; REJECT writes them and completes the packet as taken with 0x0004 and
its code. -/
def Obligations.HookWords : Prop :=
  ∀ (s : State) (h : HookVM), s.focus = .hook → s.hook = some h → h.h.length = 8 → h.hw.length = 4 →
    let r := fun (n : BitVec 3) => h.h.getD n.toNat 0
    let after := fun (skip : Nat) (rep : Option HookRep) (x : HookVM) =>
      let pc := h.pc + 1 + skip
      match rep with
      | none => { x with pc := pc, steps := h.steps + 1, rep := none }
      | some q =>
        if pc < q.start + q.len then { x with pc := pc, steps := h.steps + 1, rep := rep }
        else if q.left = 0 then { x with pc := pc, steps := h.steps + 1, rep := none }
        else { x with pc := q.start, steps := h.steps + 1, rep := some { q with left := q.left - 1 } }
    let does := fun (i : Instr) (x : HookVM) => exec i s = .next { s with hook := some (after 0 h.rep x) }
    let sets := fun (i : Instr) (d : BitVec 3) (v : W64) => does i { h with h := h.h.set d.toNat v }
    let skips := fun (i : Instr) (n : Nat) => exec i s = .next { s with hook := some (after n h.rep h) }
    ∀ (d a b : BitVec 3) (off : BitVec 9) (wid : BitVec 7) (imm : BitVec 22) (n6 : BitVec 6) (n8 : BitVec 8) (n5 : BitVec 5)
      (code : BitVec 16),
      sets (.hookLdp d off wid) d (BitVec.ofNat 64 (h.pkt.toNat / 2 ^ off.toNat % 2 ^ wid.toNat)) ∧
      (∃ p, does (.hookStp a off wid) { h with pkt := p } ∧ ∀ i < 512, wid.toNat ≤ 64 → p.getLsbD i =
        if off.toNat ≤ i ∧ i < off.toNat + wid.toNat then (r a).getLsbD (i - off.toNat) else h.pkt.getLsbD i) ∧
      (a.toNat < 4 → sets (.hookLdq d a) d (BitVec.setWidth 64 (h.hw.getD a.toNat 0)) ∧
        does (.hookStq b a) { h with hw := h.hw.set a.toNat (BitVec.setWidth 32 (r b)) }) ∧
      sets (.hookLdq d 4) d (BitVec.ofNat 64 h.queue) ∧ sets (.hookLdq d 5) d (BitVec.ofNat 64 (s.clock % 2 ^ 64 / 1000 % 2 ^ 32)) ∧
      sets (.hookLdq d 6) d (BitVec.ofNat 64 (fld (qcbOf s h.queue) 108 12)) ∧
      sets (.hookLdq d 7) d (BitVec.ofNat 64 (fld (qcbOf s h.queue) 120 3)) ∧
      sets (.hookMovi d imm) d (BitVec.ofInt 64 (sx 22 imm.toNat)) ∧ sets (.hookAdd d a b) d (r a + r b) ∧
      sets (.hookSub d a b) d (r a - r b) ∧ sets (.hookAddi d a imm) d (r a + BitVec.ofInt 64 (sx 22 imm.toNat)) ∧
      sets (.hookAnd d a b) d (r a &&& r b) ∧ sets (.hookShr d a n6) d (BitVec.ofNat 64 ((r a).toNat / 2 ^ n6.toNat)) ∧
      sets (.hookMin d a b) d (if (r b).toNat < (r a).toNat then r b else r a) ∧
      skips (.hookSkiplt a b n8) (if (r a).toNat < (r b).toNat then n8.toNat else 0) ∧
      skips (.hookSkipeq a b n8) (if r a = r b then n8.toNat else 0) ∧
      (n5 ≠ 0 → exec (.hookRep n5 n8) s = .next { s with hook := some (after 0
        (if n8 = 0 then none else some { start := h.pc + 1, len := n8.toNat, left := n5.toNat - 1 }) h) }) ∧
      exec .hookAccept s = .next (startPacket h.queue h.ix h.pkt (keepHookWords h { s with hook := none })) ∧
      exec (.hookReject code) s =
        .next (refusePacket h.queue h.ix h.orig { status := 4, det := code.toNat } (keepHookWords h { s with hook := none }))

/-! ## Commands -/

/-- R311, R313, R320: what every command checks first. A packet with a bit set outside its command's fields, or a field
outside its limits, completes with 0x0002; otherwise a privileged command of an unprivileged queue completes with 0x0003
(MAP where it names another address space, PREEMPT another queue); an unlisted command completes with 0x0001; nothing else of
the machine changes. That the layout is checked before the privilege is the model's choice (log 34), as is the limit of at
least 1 on CAPTURE's CLEN (log 56). -/
def Obligations.CommandChecks : Prop :=
  ∀ (s : State) (q ix : Nat) (p : Packet), s.Holds q ix p →
    let b := qcbOf s q
    let f := fun (lo n : Nat) => fld p lo n
    let s0 := { s with taken := none }
    let query := ([(64, 38), (128, 57), (192, 64)], f 64 4 ≤ 4 ∧ f 128 57 % 64 = 0)
    let preempt := ([(64, 22), (96, 32)], f 84 2 ≤ 2)
    let ckpt := ([(64, 1), (76, 52)], f 76 52 % 4096 = 0)
    let capture := [(64, 22), (128, 57), (192, 32)]
    let map := [(64, 14), (128, 57), (192, 32)]
    let rows : List (Instr × (List (Nat × Nat) × Prop) × Prop) := [
      (.taskq p, ([(64, 51), (128, 32)], True), False),
      (.copy p, ([(64, 59), (128, 59), (192, 24), (216, 12)],
        f 121 2 ≤ 1 ∧ f 185 2 ≤ 1 ∧ f 64 57 % 128 = 0 ∧ f 128 57 % 128 = 0 ∧ 1 ≤ f 192 24), False),
      (.fill p, ([(64, 59), (128, 24), (152, 12), (192, 64)], f 121 2 ≤ 1 ∧ f 64 57 % 128 = 0 ∧ 1 ≤ f 128 24), False),
      (.signal p, ([(64, 58), (128, 64)], f 64 57 % 8 = 0), False),
      (.wait p, ([(64, 59), (128, 64), (192, 32)], f 121 2 ≤ 2 ∧ f 64 57 % 8 = 0), False),
      (.mapInvalidateRange p, (map, f 64 2 ≤ 1 ∧ f 128 57 % 32768 = 0 ∧ 1 ≤ f 192 32), f 66 12 ≠ qAsn b),
      (.mapInvalidateAll p, (map, f 64 2 ≤ 1), f 66 12 ≠ qAsn b),
      (.pin p, ([(64, 31), (128, 57)], f 64 12 ≠ 0 ∧ 1 ≤ f 88 7 ∧ f 88 7 ≤ 64), True),
      (.unpin p, ([(64, 12)], True), True),
      (.loadseq p, ([(64, 57), (128, 6)], f 64 57 % 64 = 0), False),
      (.coll p, ([(64, 57), (128, 48), (192, 64)], f 64 57 % 16 = 0 ∧ 1 ≤ f 128 16), False),
      (.hookld p, ([(64, 57), (128, 28), (256, 128)], f 64 57 % 64 = 0 ∧ f 148 8 ≤ 128), True),
      (.encframe p, ([(64, 7), (78, 50), (128, 57), (192, 64), (256, 57), (320, 64)],
        f 128 57 % 8 = 0 ∧ f 256 57 % 8 = 0), False),
      (.queryClknow p, query, True), (.queryWeirState p, query, True), (.queryWriteWdbg p, query, True),
      (.queryWeirCounters p, query, True), (.queryQcb p, query, True),
      (.preemptSwitchOut p, preempt, f 64 20 ≠ q), (.preemptResume p, preempt, f 64 20 ≠ q),
      (.preemptKill p, preempt, f 64 20 ≠ q), (.ckptSave p, ckpt, True), (.ckptRestore p, ckpt, True),
      (.scant p, ([(64, 8)], True), True), (.captureStart p, (capture, f 84 2 ≤ 1 ∧ 1 ≤ f 192 32), True),
      (.captureStop p, (capture, f 84 2 ≤ 1), True)]
    (∀ row ∈ rows,
      (¬ (PacketKeeps p false row.2.1.1 ∧ row.2.1.2) → Completes row.1 q ix p s { status := 2 } s0) ∧
      (PacketKeeps p false row.2.1.1 → row.2.1.2 → row.2.2 → fld b 64 1 = 0 → Completes row.1 q ix p s { status := 3 } s0)) ∧
    (¬ (PacketKeeps p true [(64, 50), (124, 302)] ∧ 1 ≤ f 309 16 ∧ 1 ≤ f 325 16 ∧ 1 ≤ f 341 16 ∧ 1 ≤ f 357 6 ∧ f 357 6 ≤ 32 ∧
        f 252 7 ≤ 64 ∧ f 243 9 ≤ 256 ∧ f 175 17 ≤ 65536 ∧ (f 410 16 = 0 ∨ 16 ≤ f 410 16)) →
      Completes (.launch p) q ix p s { status := 2 } s0) ∧
    Completes (.unlistedCommand p) q ix p s { status := 1 } s0

/-- R316, R38, R40: a launch that keeps its layout, with a backwater that fits, a class its queue allows, a well-formed header,
image and handle, and gangs an empty core can hold, waits for a launch context with the header and image it read; each check
that fails first completes it with its own status: a header or image that cannot be read with that of the failure (R416), a
handle that is not pinned or another address space's with 0x0013, one being unpinned with 0x0014. -/
def Obligations.LaunchAccepted : Prop :=
  ∀ (s : State) (q ix : Nat) (p : Packet), s.Holds q ix p →
    let b := qcbOf s q
    let f := fun (lo n : Nat) => fld p lo n
    let s0 := { s with taken := none }
    let layout := PacketKeeps p true [(64, 50), (124, 302)] ∧ 1 ≤ f 309 16 ∧ 1 ≤ f 325 16 ∧ 1 ≤ f 341 16 ∧ 1 ≤ f 357 6 ∧
      f 357 6 ≤ 32 ∧ f 252 7 ≤ 64 ∧ f 243 9 ≤ 256 ∧ f 175 17 ≤ 65536 ∧ (f 410 16 = 0 ∨ 16 ≤ f 410 16)
    let backwater := 8 ≤ f 304 5 ∧ f 304 5 ≤ 22 ∧ 4096 * f 259 45 + 64 * 2 ^ f 304 5 ≤ 2 ^ 57
    let handle := f 398 12 = 0 ∨ ∃ x, lookup (f 398 12) s.handles = some x ∧ x.asn = qAsn b ∧ x.unpinning = false
    let size := 64 * f 243 9 + 32 * f 252 7
    let tensors := fun (image : List Byte) => ∀ i < f 243 9,
      tnValid (leBits 512 ((image.drop (64 * i)).take 64)) = true → tnMalformed (leBits 512 ((image.drop (64 * i)).take 64)) = false
    (layout → ¬ backwater → Completes (.launch p) q ix p s { status := 0x16 } s0) ∧
    (layout → backwater → fld b 120 3 < f 363 3 → Completes (.launch p) q ix p s { status := 0x17 } s0) ∧
    (∀ e s1, layout → backwater → f 363 3 ≤ fld b 120 3 → launchRead (qAsn b) (qRoot b) (128 * f 64 50) 64 s0 = (.error e, s1) →
      Completes (.launch p) q ix p s e.result s1) ∧
    ∀ h s1, layout → backwater → f 363 3 ≤ fld b 120 3 →
      launchRead (qAsn b) (qRoot b) (128 * f 64 50) 64 s0 = (.ok h, s1) →
      (hdrMalformed (leBits 512 h) = true → Completes (.launch p) q ix p s { status := 0x10 } s1) ∧
      (∀ e s2, hdrMalformed (leBits 512 h) = false → launchRead (qAsn b) (qRoot b) (64 * f 192 51) size s1 = (.error e, s2) →
        Completes (.launch p) q ix p s e.result s2) ∧
      ∀ image s2, hdrMalformed (leBits 512 h) = false →
        launchRead (qAsn b) (qRoot b) (64 * f 192 51) size s1 = (.ok image, s2) →
        (¬ tensors image → Completes (.launch p) q ix p s { status := 0x11 } s2) ∧
        (tensors image → regionsMalformed (imageRegions p image) = true → Completes (.launch p) q ix p s { status := 0x12 } s2) ∧
        (tensors image → regionsMalformed (imageRegions p image) = false → ¬ handle →
          Completes (.launch p) q ix p s
            { status := if (lookup (f 398 12) s.handles).all (fun x => x.asn ≠ qAsn b) then 0x13 else 0x14 } s2) ∧
        (tensors image → regionsMalformed (imageRegions p image) = false → handle →
          placeable (leBits 512 h) (f 357 6) = false → Completes (.launch p) q ix p s { status := 0x15 } s2) ∧
        (tensors image → regionsMalformed (imageRegions p image) = false → handle →
          placeable (leBits 512 h) (f 357 6) = true →
          exec (.launch p) s = .next (begun q ix p s (.launching (leBits 512 h) image) s2))

/-- R27, R37, R40, R319, R323, R379, R392, R393: what the other commands do once their checks hold. COPY and FILL begin a
copy of their lines; SIGNAL, every write waiting performed first,
stores or adds and completes; WAIT begins waiting on its flag; MAP performs the writes
waiting, drops the translations and cached lines of its range and has what waits on an address of it translated again (log 25); PIN, its extents in range and free, zeroes them, no write left waiting there, and makes the handle; UNPIN marks it and waits for its users; TASKQ links
the record to the launch of its tag; HOOKLD installs or removes a hook; the queries write their answer, the counters of a weir's
tensor entry in the package's own order (log 27); PREEMPT holds, resumes (a launch of class 6 or above that has work aborting the scans) or kills a launch of its tag, which it and TASKQ look for among those in a
context, oldest first (log 47); CKPT, SCANT and CAPTURE begin, a capture completing when it is stopped (log 46). -/
def Obligations.CommandEffects : Prop :=
  ∀ (s : State) (q ix : Nat) (p : Packet), s.Holds q ix p →
    let b := qcbOf s q
    let asn := qAsn b
    let root := qRoot b
    let f := fun (lo n : Nat) => fld p lo n
    let s0 := { s with taken := none }
    let keeps := fun (l : List (Nat × Nat)) => PacketKeeps p false l
    let ends := fun (i : Instr) (r : Result) (t : State) => Completes i q ix p s r t
    let done := fun (i : Instr) (t : State) => Completes i q ix p s { status := 0 } t
    let goes := fun (i : Instr) (w : CmdWork) (t : State) => exec i s = .next (offerCmds (begun q ix p s w t))
    let priv := fld b 64 1 = 1
    let pinned := fun (h : Nat) => h ≠ 0 ∧ ∃ x, lookup h s.handles = some x ∧ x.asn = asn
    let copies := fun (i : Instr) (c : Copy) => ∃ core < 256, ∃ n, exec i s = .next
      { begun q ix p s (.copying s.nextCopy) s0 with
        copies := put s.nextCopy { c with owner := .command s.nextCmd, core := core } s.copies,
        nextCopy := s.nextCopy + 1, free := n }
    let launchOf := fun (tag l : Nat) (x : Launch) => lookup l s.launches = some x ∧ s.launches.find? (fun y =>
      y.2.queue = q && decide (fld y.2.pkt 32 32 = tag) && y.2.kill.isNone) = some (l, x)
    (keeps [(64, 59), (128, 59), (192, 24), (216, 12)] → f 121 2 ≤ 1 → f 185 2 ≤ 1 → f 64 57 % 128 = 0 → f 128 57 % 128 = 0 →
      1 ≤ f 192 24 → (f 121 2 = 1 ∨ f 185 2 = 1 → pinned (f 216 12)) →
      copies (.copy p) { owner := .command 0, core := 0, asn := asn, root := root, rpld := qRpld b, rhnd := f 216 12, fromSp := f 121 2,
                         toSp := f 185 2,
                         lines := (List.range (f 192 24)).map (fun i => (f 64 57 + 128 * i, f 128 57 + 128 * i)) }) ∧
    (keeps [(64, 59), (128, 24), (152, 12), (192, 64)] → f 121 2 ≤ 1 → f 64 57 % 128 = 0 → 1 ≤ f 128 24 →
      (f 121 2 = 1 → pinned (f 152 12)) →
      copies (.fill p) { owner := .command 0, core := 0, asn := asn, root := root, rpld := qRpld b, rhnd := f 152 12, fromSp := 0,
                         toSp := f 121 2, fill := some (BitVec.ofNat 64 (f 192 64)),
                         lines := (List.range (f 128 24)).map (fun i => (0, f 64 57 + 128 * i)) }) ∧
    (keeps [(64, 59), (128, 59), (192, 24), (216, 12)] → f 121 2 ≤ 1 → f 185 2 ≤ 1 → f 64 57 % 128 = 0 → f 128 57 % 128 = 0 →
      1 ≤ f 192 24 → (f 121 2 = 1 ∨ f 185 2 = 1) → ¬ pinned (f 216 12) → ends (.copy p) { status := 0x13 } s0) ∧
    (keeps [(64, 59), (128, 24), (152, 12), (192, 64)] → f 121 2 = 1 → f 64 57 % 128 = 0 → 1 ≤ f 128 24 →
      ¬ pinned (f 152 12) → ends (.fill p) { status := 0x13 } s0) ∧
    (∀ e t, f 64 57 % 8 = 0 →
      (keeps [(64, 58), (128, 64)] → cpPlaces asn root (f 64 57) 8 true s0 = (.error e, t) → ends (.signal p) e.result t) ∧
      (keeps [(64, 59), (128, 64), (192, 32)] → f 121 2 ≤ 2 → cpPlaces asn root (f 64 57) 8 false s0 = (.error e, t) →
        ends (.wait p) e.result t)) ∧
    (∀ n pl cache rest t, keeps [(64, 58), (128, 64)] → f 64 57 % 8 = 0 → cpPlaces asn root (f 64 57) 8 true s0 = (.ok ((n, pl, cache) :: rest), t) →
      let v := BitVec.ofNat 64 (f 128 64)
      (f 121 1 = 0 → done (.signal p) (writePlace pl (leBytes 8 v.toNat) (performAll t))) ∧ (performAll t).buffer = [] ∧
      (f 121 1 = 1 → isPoisoned t pl 8 = true → ends (.signal p) { status := 0x22, det := 7 } t) ∧
      (f 121 1 = 1 → isPoisoned t pl 8 = false → done (.signal p) (rmw64 pl (fun o => o + v) (performAll t)).2)) ∧
    (∀ n pl cache rest t, keeps [(64, 59), (128, 64), (192, 32)] → f 121 2 ≤ 2 → f 64 57 % 8 = 0 →
      cpPlaces asn root (f 64 57) 8 false s0 = (.ok ((n, pl, cache) :: rest), t) → isPoisoned t pl 8 = false →
      let v := BitVec.ofNat 64 (f 128 64)
      let now := read64 t pl
      exec (.wait p) s = .next (begun q ix p s (.waiting pl (f 121 2) v
        (if f 121 2 = 0 then v.toNat ≤ now.toNat else if f 121 2 = 1 then now = v else now ≠ v)) t)) ∧
    (keeps [(64, 14), (128, 57), (192, 32)] → f 64 2 ≤ 1 → (f 66 12 ≠ asn → priv) →
      let drops := fun (i : Instr) (lo hi : Nat) =>
        let u := remapWaits (f 66 12) lo hi (invalidate (f 66 12) lo hi (performAll s0))
        goes i (.mapping (movingOps s (f 66 12) lo hi) (movingMsgs s (f 66 12) lo hi)) u ∧ u.buffer = [] ∧
        (∀ y ∈ u.coreTlb ++ u.dieTlb, ¬ (y.2.asn = f 66 12 ∧ y.2.base < hi ∧ lo < y.2.base + y.2.size)) ∧
        ∀ y, y ∈ u.l1 ∨ y ∈ u.icache → ¬ (y.1.2.1 = f 66 12 ∧ 128 * y.1.2.2 < hi ∧ lo < 128 * y.1.2.2 + 128)
      (f 128 57 % 32768 = 0 → 1 ≤ f 192 32 →
        drops (.mapInvalidateRange p) (f 128 57) (f 128 57 + 32768 * f 192 32)) ∧
      drops (.mapInvalidateAll p) 0 (2 ^ 57)) ∧
    (∀ list t, keeps [(64, 31), (128, 57)] → f 64 12 ≠ 0 → 1 ≤ f 88 7 → f 88 7 ≤ 64 → priv → s.memWf = true →
      cpRead asn root (f 128 57) (8 * f 88 7) s0 = (.ok list, t) →
      let x := fun (i : Nat) => leNat ((list.drop (8 * i)).take 8)
      let e := fun (i : Nat) => (x i % 256, x i / 2 ^ 8 % 128, x i / 2 ^ 15 % 128, decide (x i / 2 ^ 22 % 2 = 1))
      let bad := ∃ i < f 88 7, 2 ^ 23 ≤ x i ∨ (e i).2.2.1 = 0 ∨ 96 < (e i).2.1 + (e i).2.2.1
      let meets := fun (a c : Nat × Nat × Nat × Bool) => a.1 = c.1 ∧ a.2.1 < c.2.1 + c.2.2.1 ∧ c.2.1 < a.2.1 + a.2.2.1
      let taken := (∃ h ∈ s.handles, ∃ a ∈ h.2.extents, ∃ i < f 88 7, meets a (e i)) ∨
        ∃ i < f 88 7, ∃ j < f 88 7, i ≠ j ∧ meets (e i) (e j)
      (bad ∨ lookup (f 64 12) s.handles ≠ none → ends (.pin p) { status := 0x30 } t) ∧
      (¬ bad → lookup (f 64 12) s.handles = none → taken → ends (.pin p) { status := 0x31 } t) ∧
      (¬ bad → lookup (f 64 12) s.handles = none → ¬ taken → ∃ u, done (.pin p) u ∧
        lookup (f 64 12) u.handles = some { asn := f 76 12, extents := (List.range (f 88 7)).map e } ∧
        (∀ y ∈ u.buffer, ∀ i < f 88 7, overlaps (.vault ((e i).1 * 2 ^ 22 + (e i).2.1 * 32768)) ((e i).2.2.1 * 32768)
          y.place y.data.length = false) ∧
        (t.buffer = [] → ∀ a, Mem.get a u.vault = if ∃ i < f 88 7, a / 2 ^ 22 = (e i).1 ∧ (e i).2.1 ≤ a % 2 ^ 22 / 32768 ∧
          a % 2 ^ 22 / 32768 < (e i).2.1 + (e i).2.2.1 then 0 else Mem.get a t.vault))) ∧
    (keeps [(64, 12)] → priv →
      (lookup (f 64 12) s.handles = none → ends (.unpin p) { status := 0x32 } s0) ∧
      (∀ h, lookup (f 64 12) s.handles = some h →
        goes (.unpin p) (.unpinning (f 64 12)) { s0 with handles := put (f 64 12) { h with unpinning := true } s.handles })) ∧
    (∀ l x n pl cache rest t, keeps [(64, 51), (128, 32)] → launchOf (f 128 32) l x →
      cpPlaces asn root (64 * f 64 51) 64 true s0 = (.ok ((n, pl, cache) :: rest), t) →
      ((n, pl, cache) :: rest).any (fun y => isPoisoned t y.2.1 y.1) = false →
      done (.taskq p) (linkTask l (64 * f 64 51) pl t)) ∧
    (keeps [(64, 51), (128, 32)] → (∀ y ∈ s.launches, y.2.queue = q → fld y.2.pkt 32 32 = f 128 32 → y.2.kill ≠ none) →
      ends (.taskq p) { status := 0x3C } s0) ∧
    (keeps [(64, 57), (128, 28), (256, 128)] → f 64 57 % 64 = 0 → priv →
      let hw := BitVec.ofNat 128 (f 256 128)
      (f 148 8 = 0 → done (.hookld p) (installHook (f 128 20) [] hw s0)) ∧
      ∀ image t, 1 ≤ f 148 8 → f 148 8 ≤ 128 → cpRead asn root (f 64 57) (4 * f 148 8) s0 = (.ok image, t) →
        let words := (List.range (f 148 8)).map (fun i => BitVec.ofNat 32 (leNat ((image.drop (4 * i)).take 4)))
        (∀ i, hookFails words = some i → ends (.hookld p) { status := 0x33, det := i } t) ∧
        (hookFails words = none → done (.hookld p) (installHook (f 128 20) words hw t))) ∧
    (keeps [(64, 38), (128, 57), (192, 64)] → f 64 4 ≤ 4 → f 128 57 % 64 = 0 → priv →
      let answers := fun (i : Instr) (data : List Byte) =>
        ∀ t, cpWrite asn root (f 128 57) data s0 = (none, t) → done i t
      let ctx := lookupD (f 68 4 * 4 + f 72 2) {} s.weirs
      answers (.queryClknow p) (leBytes 8 s.clock) ∧ answers (.queryWeirState p) ctx.snapshot ∧
      answers (.queryWeirCounters p) (counterBytes (lookupD (f 74 8) 0 ctx.tensors)) ∧
      (qcbBroken s (f 82 20) = false → answers (.queryQcb p)
        (if segEntry s (f 82 20) = none then List.replicate 64 0 else leBytes 64 (qcbShown s (f 82 20)).toNat)) ∧
      (qcbBroken s (f 82 20) = true → ends (.queryQcb p) { status := 0x22, det := 7 } s0) ∧
      (qcbBroken s (f 82 20) = true ↔ segEntry s (f 82 20) ≠ none ∧
        ((∃ y, lookup (f 82 20) s.eddy = some y ∧ y.bad = true) ∨ (lookup (f 82 20) s.eddy = none ∧ qcbPoisoned s (f 82 20) = true))) ∧
      (∀ e, lookup (f 82 20) s.eddy = some e → segEntry s (f 82 20) ≠ none → qcbShown s (f 82 20) = e.qcb) ∧
      let y := { ctx with wdbg := BitVec.ofNat 64 (f 192 64 % 2 ^ 25) }
      let z := if p.getLsbD 218 ∧ ctx.state = .stopped then { y with state := .running, passing := true } else y
      done (.queryWriteWdbg p) { s0 with weirs := put (f 68 4 * 4 + f 72 2) z s.weirs }) ∧
    (∀ l x, keeps [(64, 22), (96, 32)] → f 84 2 ≤ 2 → f 64 20 = q → launchOf (f 96 32) l x →
      (x.held = true → done (.preemptSwitchOut p) s0) ∧
      (x.held = false → goes (.preemptSwitchOut p) (.switching l) { s0 with launches := put l { x with held := true } s.launches }) ∧
      (let back := { s0 with launches := put l { x with held := false } s.launches }
       let work := x.next < fld x.pkt 309 16 * fld x.pkt 325 16 * fld x.pkt 341 16 ∨ x.tasks ≠ [] ∨
         ∃ y ∈ s.saved, y.2.gang.launch = l
       done (.preemptResume p) (if x.held = true then rouse l false back else s0) ∧
       rouse l false back = if work ∧ 6 ≤ fld x.pkt 363 3 then abortScans back else back) ∧
      done (.preemptKill p) { s0 with launches := put l { x with kill := some (0x27, allOnes64, 0) } s.launches }) ∧
    (keeps [(64, 1), (76, 52)] → f 76 52 % 4096 = 0 → priv →
      let free := s.saved = [] ∧ s.savedLoose = [] ∧ ∀ y ∈ s.weirs, y.2.state ∉ [.running, .waiting, .faulted, .stopped]
      ∀ i, i = .ckptSave p ∨ i = .ckptRestore p →
        (free → goes i (.checkpoint false) s0) ∧ (¬ free → ends i { status := 0x38 } s0)) ∧
    (keeps [(64, 8)] → priv → ∃ l, (∀ c, c ∈ l ↔ c = f 64 8 ∨ c ∈ s.scanning) ∧
      goes (.scant p) (.scanning (f 64 8) false) { s0 with scanning := l }) ∧
    (keeps [(64, 22), (128, 57), (192, 32)] → f 84 2 ≤ 1 → priv →
      let s1 := stopCapture (f 64 20) { status := 0 } s0
      done (.captureStop p) s1 ∧
      ∀ t, 1 ≤ f 192 32 → cpWrite asn root (f 128 57) (leBytes 8 64 ++ leBytes 8 0) s1 = (none, t) →
        ∃ c : Capture, c.buf = f 128 57 ∧ c.len = 4096 * f 192 32 ∧ c.next = 64 ∧ c.wraps = 0 ∧ c.asn = asn ∧ c.root = root ∧
          exec (.captureStart p) s = .next (begun q ix p s (.capturing (f 64 20))
            { t with captures := put (f 64 20) c t.captures }))

/-- R241, R244, R245, R332: LOADSEQ leaves a context Loaded with the image it read; COLL registers its members and sends
START to each; ENCFRAME queues its frame on its slot. A LOADSEQ for a context that is Running, Waiting, Faulted or Stopped,
or of a bad image, completes with 0x0034; a COLL with a bad group table with 0x0035; an ENCFRAME on a slot another session
holds with 0x003D. -/
def Obligations.CommandsOfEngines : Prop :=
  ∀ (s : State) (q ix : Nat) (p : Packet), s.Holds q ix p →
    let b := qcbOf s q
    let asn := qAsn b
    let root := qRoot b
    let f := fun (lo n : Nat) => fld p lo n
    let s0 := { s with taken := none }
    let ctx : CmdCtx := { q := q, ix := ix, p := p, b := b }
    (PacketKeeps p false [(64, 57), (128, 6)] → f 64 57 % 64 = 0 →
      let k := f 128 4 * 4 + f 132 2
      let busy := (lookupD k {} s.weirs).state ∈ [.running, .waiting, .faulted, .stopped]
      (busy → Completes (.loadseq p) q ix p s { status := 0x34 } s0) ∧
      ∀ h t, ¬ busy → cpRead asn root (f 64 57) 64 s0 = (.ok h, t) →
        (imgHeaderBad (leBits 512 h) = true → Completes (.loadseq p) q ix p s { status := 0x34 } t) ∧
        ∀ image u, imgHeaderBad (leBits 512 h) = false →
          cpRead asn root (f 64 57) (imgEnd (leBits 512 h)) t = (.ok image, u) →
          (loadImage u ctx (leBits 512 h) image = none → Completes (.loadseq p) q ix p s { status := 0x34 } u) ∧
          ∀ x, loadImage u ctx (leBits 512 h) image = some x →
            Completes (.loadseq p) q ix p s { status := 0 } { u with weirs := put k x u.weirs } ∧
            x.state = .loaded ∧ x.pc = 0 ∧ x.ops = [] ∧ x.asn = asn ∧ x.root = root ∧ x.slots.length = fld (leBits 512 h : BitVec 512) 48 16 ∧
            ∀ i < 16, lookupD i 0 x.w = BitVec.ofNat 64 (leNat ((image.drop (64 + 8 * i)).take 8))) ∧
    (∀ table t, PacketKeeps p false [(64, 57), (128, 48), (192, 64)] → f 64 57 % 16 = 0 → 1 ≤ f 128 16 →
      cpRead asn root (f 64 57) (16 * f 128 16) s0 = (.ok table, t) →
      let e := fun (i : Nat) => BitVec.ofNat 128 (leNat ((table.drop (16 * i)).take 16))
      let m := fun (i : Nat) => (fld (e i) 0 12, fld (e i) 12 4, fld (e i) 16 2, BitVec.ofNat 64 (fld (e i) 64 64))
      let who := fun (i : Nat) => ((m i).1, (m i).2.1, (m i).2.2.1)
      let bad := (∃ i < f 128 16, fld (e i) 18 46 ≠ 0) ∨ ∃ i < f 128 16, ∃ j < f 128 16, i ≠ j ∧ who i = who j
      (bad → Completes (.coll p) q ix p s { status := 0x35 } t) ∧
      (¬ bad → ∃ u, exec (.coll p) s = .next u ∧
        lookup t.nextCmd u.colls = some { cmd := t.nextCmd, tag := BitVec.ofNat 64 (f 192 64), since := t.clock,
                                          members := (List.range (f 128 16)).map m, timeout := 1000 * f 144 32 } ∧
        (∀ c, lookup t.nextCmd u.cmds = some c → c.work = .collective t.nextCmd) ∧ lookup t.nextCmd u.cmds ≠ none ∧
        ∀ i < f 128 16, (m i).1 = s.packageNo → ∃ n,
          (n, ({ kind := 8, dpkg := (m i).1, drill := (m i).2.1, dctx := (m i).2.2.1, spkg := s.packageNo, srill := 0, sctx := 0,
                 addr := BitVec.ofNat 64 (f 192 64), arg := (m i).2.2.2 } : Pkt)) ∈ u.pkts)) ∧
    (PacketKeeps p false [(64, 7), (78, 50), (128, 57), (192, 64), (256, 57), (320, 64)] → f 128 57 % 8 = 0 → f 256 57 % 8 = 0 →
      let k := f 64 3 * 4 + f 67 2
      let frame : EncFrame := { cmd := s.nextCmd }
      let t := begun q ix p s (.encoding k) s0
      (holderOf s k = none → exec (.encframe p) s = .next (openSession k
        { t with encSlots := put k { desc := 128 * f 78 50, asn := asn, frames := [frame] } s.encSlots })) ∧
      (∀ h x, holderOf s k = some (h, x) →
        (h = k ∧ x.desc = 128 * f 78 50 ∧ x.asn = asn → exec (.encframe p) s = .next (openSession k
          { t with encSlots := adjust k (fun y => { y with frames := y.frames ++ [frame] }) s.encSlots })) ∧
        (¬ (h = k ∧ x.desc = 128 * f 78 50 ∧ x.asn = asn) → Completes (.encframe p) q ix p s { status := 0x3D } s0)))

/-! ## The host and the queues -/

/-- R306, R307, R308, R309, R310, R321: doorbells and control writes. A ring of a queue without a segment, or with bit 63
set, is dropped; one whose block is cached and enabled sets PROD, or puts the queue into error 0x0041 where it would overrun
the ring; one whose block is not cached is latched, and the block's fetch applies it; while the latch is full with 1,024
queues, or holds writes already, the port holds the write (log 21). Enabling reads the block afresh with QST 1; disabling sets
QST 0 and writes the block back, as does a write-back of a dirty block; without a segment all three are dropped. A block that
left the cache with work is fetched again. A directory entry or block with a reserved bit set or an
uncorrectable error counts as absent (logs 62 and 84), and a cached block with an error puts its queue into error 0x0022
(R372, R384). BAR 2
reads as CLKNOW at 0, FQPROD at 8, FQCONS at 16, zero elsewhere. A hook's 64th step without an end completes its packet with
0x0005. -/
def Obligations.QueueRegisters : Prop :=
  ∀ (s : State) (q : Nat) (v : BitVec 64),
    let val := v.toNat % 2 ^ 32
    let inRing := fun (b : BitVec 512) => (val + 2 ^ 32 - fld b 160 32) % 2 ^ 32 ≤ 2 ^ fld b 104 4
    let open_ := s.portHeld = []
    let taken := segEntry s q ≠ none
    let held := fun (w : W64) => { s with portHeld := s.portHeld ++ [(q, w)] }
    (v.getLsbD 63 = true → exec (.doorbellRing q v) s = .next s) ∧
    (open_ → segEntry s q = none → (v.getLsbD 63 = false → exec (.doorbellRing q v) s = .next s) ∧
      exec (.queueEnable q) s = .next s ∧ exec (.queueDisable q) s = .next s ∧ exec (.queueWriteBack q) s = .next s) ∧
    (s.portHeld ≠ [] → (v.getLsbD 63 = false → exec (.doorbellRing q v) s = .next (held v)) ∧
      exec (.queueEnable q) s = .next (held 0x9000000000000000) ∧ exec (.queueDisable q) s = .next (held 0xA000000000000000) ∧
      exec (.queueWriteBack q) s = .next (held 0xB000000000000000)) ∧
    (open_ → taken → v.getLsbD 63 = false →
      (lookup q s.eddy = none →
        (lookup q s.latch ≠ none ∨ s.latch.length < 1024 →
          exec (.doorbellRing q v) s = .next { s with latch := put q v s.latch }) ∧
        (lookup q s.latch = none → 1024 ≤ s.latch.length → exec (.doorbellRing q v) s = .next (held v))) ∧
      (∀ e, lookup q s.eddy = some e → e.bad = true → ∃ b, exec (.doorbellRing q v) s =
          .next { s with eddy := put q { qcb := b, dirty := true } s.eddy } ∧ fld b 126 2 = 2 ∧
          (fld e.qcb 126 2 ≠ 2 → fld b 256 16 = 0x22 ∧ fld b 288 32 = fld e.qcb 160 32)) ∧
      ∀ e, lookup q s.eddy = some e → e.bad = false →
        (fld e.qcb 126 2 ≠ 1 → exec (.doorbellRing q v) s = .next s) ∧
        (fld e.qcb 126 2 = 1 → inRing e.qcb → exec (.doorbellRing q v) s =
          .next { s with eddy := put q { qcb := setFld e.qcb 128 32 val, dirty := true } s.eddy }) ∧
        (fld e.qcb 126 2 = 1 → ¬ inRing e.qcb → ∃ b, exec (.doorbellRing q v) s =
          .next { s with eddy := put q { qcb := b, dirty := true } s.eddy } ∧
          fld b 126 2 = 2 ∧ fld b 256 16 = 0x41 ∧ fld b 288 32 = val ∧ fld b 128 32 = fld e.qcb 128 32)) ∧
    (∀ b, open_ → lookup q s.latch = some v → lookup q s.eddy = none → qcbInMemory s q = some b → fld b 126 2 = 1 → inRing b →
      ∃ t, exec (.qcbFetch q) s = .next t ∧ lookup q t.latch = none ∧
        lookup q t.eddy = some { qcb := setFld b 128 32 val, dirty := true }) ∧
    (∀ b, open_ → lookup q s.latch = none → lookup q s.eddy = none → q ∈ s.unread → qcbInMemory s q = some b →
      ∃ t, exec (.qcbFetch q) s = .next t ∧ q ∉ t.unread ∧ lookup q t.eddy = some { qcb := b, dirty := false }) ∧
    (open_ → lookup q s.latch = none → q ∉ s.unread → exec (.qcbFetch q) s = .next s) ∧
    (∀ b, open_ → lookup q s.latch = none → qcbInMemory s q = some b →
      ∃ t, exec (.queueEnable q) s = .next t ∧ lookup q t.eddy = some { qcb := setFld b 126 2 1, dirty := true }) ∧
    (∀ e, open_ → taken → lookup q s.latch = none → lookup q s.eddy = some e → e.bad = false →
      (∃ t, exec (.queueDisable q) s = .next t ∧ lookup q t.eddy = some { qcb := setFld e.qcb 126 2 0, dirty := false } ∧
        t.dev = (storeQcb q (setFld e.qcb 126 2 0) s).dev ∧ t.host = (storeQcb q (setFld e.qcb 126 2 0) s).host) ∧
      (e.dirty = true → ∃ t, exec (.queueWriteBack q) s = .next t ∧ lookup q t.eddy = some { e with dirty := false } ∧
        t.dev = (storeQcb q e.qcb s).dev ∧ t.host = (storeQcb q e.qcb s).host) ∧
      (e.dirty = false → exec (.queueWriteBack q) s = .next s)) ∧
    (∀ off, bar2Read off s = if off = 0 then BitVec.ofNat 64 s.clock else if off = 8 then BitVec.setWidth 64 s.fqProd
      else if off = 16 then BitVec.setWidth 64 s.fqCons else 0) ∧
    (∀ bar off, exec (.registerWriteIgnored bar off v) s = .next s) ∧
    (∀ h, s.hook = some h →
      (h.steps < 64 → exec .hookBudgetExceeded s = .next s) ∧
      (64 ≤ h.steps → exec .hookBudgetExceeded s = .next (refusePacket h.queue h.ix h.orig { status := 5 } { s with hook := none })))

/-- R32, R395, R397, R399, R400: the management mailbox and FQCONS. A vendor command within its limits, with no launch placed
where it asks that, replies "success" and has its effect alone; otherwise it replies "invalid input" and has none; an unlisted
opcode replies "unsupported"; the standard commands read the package's own data and the event log and clear its oldest records.
The kinds of a mark are numbered in the order of R386's table, and its interval lies within 1 to 65,000 ms (log 15); which
bytes make a patch image is the package's own (log 26). FQCONS moving past one replayable record releases its requesters, or with the record's KILL
bit ends them; moving backwards it is ignored. -/
def Obligations.Mailbox : Prop :=
  ∀ s : State,
    let quiet := s.gangs = [] ∧ s.warps = []
    let vendor := fun (i : Instr) (ok : Prop) (t : State) =>
      (ok → exec i s = .next { t with mailReply := some .success }) ∧
      (¬ ok → exec i s = .next { s with mailReply := some .invalidInput })
    let limit := 0xC000000000
    (∀ n, vendor (.setPackageNumber n) (quiet ∧ n < 4096) { s with packageNo := n }) ∧
    (∀ first masks, vendor (.writeRouteTable first masks) (quiet ∧ first + masks.length ≤ 4096)
      { s with routes := (masks.mapIdx (fun i m => (first + i, m))).foldl (fun l x => put x.1 x.2 l) s.routes }) ∧
    (∀ dpa, vendor (.setSegmentDirectoryBase dpa) (quiet ∧ dpa % 131072 = 0 ∧ dpa < limit) { s with segDir := some dpa }) ∧
    (∀ base size, vendor (.setSavePool base size) (quiet ∧ base % 2 ^ 20 = 0 ∧ size % 2 ^ 20 = 0 ∧ base + size ≤ limit)
      { s with savePool := some (base, size) }) ∧
    (∀ kind mark ms, vendor (.setPredictiveMarks kind mark ms)
      (quiet ∧ kind < 5 ∧ 1 ≤ mark ∧ mark < 65536 ∧ 1 ≤ ms ∧ ms ≤ 65000)
      { s with marks := put kind mark s.marks, drainInterval := 1050000 * ms }) ∧
    (∀ w, vendor (.setPowerCap w) (1200 ≤ w ∧ w ≤ 3000) { s with powerCap := w }) ∧
    (∀ image, let bytes := readPlace s (.dev image) Config.patchLength
      vendor (.loadPatchSet image) (quiet ∧ Config.patchSigned bytes = true ∧ Config.patchMinimum ≤ Config.patchVersion bytes)
        { s with patch := some (Config.patchHash bytes, Config.patchVersion bytes) }) ∧
    (∀ c rest, s.agenda = .mailbox c :: rest → ∃ t, step s = .next t ∧ t.warps = s.warps ∧ t.dev = s.dev ∧
      (c = .getEvents → t.mailReply = some (.events s.mailLog) ∧ t.mailLog = s.mailLog) ∧
      (∀ n, c = .clearEvents n → t.mailReply = some .success ∧ t.mailLog = s.mailLog.drop n) ∧
      (c = .identify ∨ c = .getLog → ∃ b, t.mailReply = some (.report b) ∧ t.mailLog = s.mailLog)) ∧
    (∀ dpa, s.faultWaits = [] → vendor (.setFaultQueueBase dpa) (quiet ∧ dpa % 131072 = 0 ∧ dpa + 131072 ≤ limit)
      (offerCmds { s with fqBase := some dpa, fqProd := 0, fqCons := 0, fqArmed := true })) ∧
    (∀ nonce, ∃ b, exec (.getAttestationReport nonce) s = .next { s with mailReply := some (.report b) } ∧
      b.take 4 = leBytes 4 0x56415254 ∧ (b.drop 8).take 32 = leBytes 32 nonce.toNat ∧ b.length = 512) ∧
    (∀ op, exec (.mailboxUnsupported op) s = .next { s with mailReply := some .unsupported }) ∧
    (∀ v : BitVec 64, (s.fqProd - s.fqCons).toNat < (BitVec.setWidth 32 v - s.fqCons).toNat →
      exec (.fqconsWrite v) s = .next s) ∧
    (∀ f base, s.faultWaits = [f] → f.ix = some s.fqCons.toNat → s.fqBase = some base → 1 ≤ (s.fqProd - s.fqCons).toNat →
      let killed := (Mem.get (base + 32 * (s.fqCons.toNat % 4096) + 8) s.dev).getLsbD 0
      let s0 := { s with faultWaits := [], fqArmed := true }
      let ended := if killed then f.who.foldl (fun t r =>
        if waitsOn t f.key r then endRequester s.fqCons.toNat 1 f.kind r t else t) s0 else s0
      exec (.fqconsWrite (BitVec.setWidth 64 (s.fqCons + 1))) s =
        .next (offerCmds (flushFaults { settleConns (releaseKey f.key ended) with fqCons := s.fqCons + 1 }))) ∧
    (∀ key k w, lookup k s.warps = some w → w.faultWait = [key] →
      ∃ w', lookup k (releaseKey key s).warps = some w' ∧ w' = { w with faultWait := [], readySince := s.clock })

/-! ## Events of warps, gangs and launches -/

/-- R25, R105, R255, R260, R261, R265, R290, R350, R356, R397: events of a warp. A lane parked on a sleep that is over, a flag
that has compared true, a met tag wait or a met join goes on, with every lane of its warp the same event releases, which is the model's reading (log 37), and takes part in a run from the next clock on; a flag wait with a destination and a join
receive their values, and no path reads older bytes from then on; other lanes stay; a wait whose flag holds an uncorrectable
error consumes it (R372, R385). A partition with a free slot, one that no run with
instructions left to issue holds, begins the run of the warp it chooses; which clocks withhold a slot is the model's choice
(log 61). A page walk that an access waits for is the translation's; an instruction line
arrives in the caches that run its code. -/
def Obligations.WarpEvents : Prop :=
  ∀ s : State,
    (∀ k w lane, lookup k s.warps = some w → w.handler = none → w.lanes.length = 32 → lane < 32 →
      let same := fun (w' : Warp) => w' = { w with lanes := w'.lanes, readySince := w'.readySince }
      let released := fun (hit : LaneState → Bool) (w' : Warp) => ∀ i < 32, (w'.lane i).lpc = (w.lane i).lpc ∧
        (w'.lane i).loads = (w.lane i).loads ∧ (w'.lane i).state = (if hit (w.lane i).state then .ready else (w.lane i).state) ∧
        (w'.lane i).due = if hit (w.lane i).state then s.clock + 1 else (w.lane i).due
      let due := fun (st : LaneState) => match st with | .parked (.sleep t) => decide (t ≤ dieClock s (k / 64 / 64)) | _ => false
      let tag := fun (st : LaneState) => decide (st = .parked (.tag 0 true))
      (due (w.lane lane).state = true → ∃ w', exec (.sleepWake k lane) s = .next (s.withWarp k w') ∧ same w' ∧ released due w') ∧
      (due (w.lane lane).state = false → exec (.sleepWake k lane) s = .next s) ∧
      (tag (w.lane lane).state = true → ∃ w', exec (.tagWaitRelease k lane) s = .next (s.withWarp k w') ∧ same w' ∧ released tag w') ∧
      (tag (w.lane lane).state = false → exec (.tagWaitRelease k lane) s = .next s) ∧
      (∀ p va cmp val d v, (w.lane lane).state = .parked (.flag p va cmp val (some d) 0 0 (some v)) →
        (∀ i < 32, i ≠ lane → ∀ q, (w.lane i).state = .parked q → metFlag none q = false) →
        (∃ m, regOf (BitVec.ofNat 8 d) = .v m) → ∃ t w', exec (.flagWaitRelease k lane) s = .next t ∧
          t.warps = put k w' s.warps ∧ (w'.lane lane).state = .ready ∧ (w'.lane lane).due = s.clock + 1 ∧ t.stale = [] ∧
          (∀ n l, archRead w' (.v n l) =
            (toLanes (BitVec.ofNat 8 d) [lane] 2 (fun _ => v.toNat) (.v n l)).getD (archRead w (.v n l))) ∧
          t.dev = s.dev ∧ t.host = s.host ∧ t.vault = s.vault ∧ t.scr = s.scr) ∧
      (∀ p va cmp val d ps sc, (w.lane lane).state = .parked (.flag p va cmp val d ps sc none) → isPoisoned s p 8 = false →
        exec (.flagWaitRelease k lane) s = .next s) ∧
      (∀ p c f r, (w.lane lane).state = .parked (.join p c f r false) → (∀ q, p = some q → isPoisoned s q 8 = false) →
        exec (.joinRelease k lane) s = .next s) ∧
      (∀ p g x, (∃ va cmp val d ps sc, (w.lane lane).state = .parked (.flag p va cmp val d ps sc none)) → s.unmapped = [] →
        isPoisoned s p 8 = true → w.gang = some g → lookup g s.gangs = some x → x.shadow = none →
        exec (.flagWaitRelease k lane) s = .next (killLaunch x.launch 0x22 (x.index.getD (2 ^ 64 - 1)) 0 s)) ∧
      (∀ p c f r, (w.lane lane).state = .parked (.join p c f r true) → w.gang = none → w.serial = none → w.joinSince = none →
        (∀ i < 32, i ≠ lane → (w.lane i).state = .exited ∨ (w.lane i).state = .ready) → (∀ n, lookupD n 0 w.k = 0) →
        ∃ t w', exec (.joinRelease k lane) s = .next t ∧ t.warps = put k w' s.warps ∧ (w'.lane lane).state = .ready ∧
          t.stale = [] ∧ t.l1 = s.l1.filter (fun y => y.1.1 ≠ k / 64) ∧
          (∀ n l, archRead w' (.v n l) = (if l = lane ∧ n < 2 then some (BitVec.setWidth 32 (f >>> (32 * n))) else
            if l = lane ∧ n < 4 then some (BitVec.setWidth 32 (c >>> (32 * (n - 2)))) else none).getD (archRead w (.v n l))))) ∧
    (let slots := fun (part : Nat) => (s.warps.filter (fun y => y.1 / 16 = part ∧ y.2.run.any (fun r => decide (r.index < r.words.length)))).length
     (∀ part k w words, (issuers s part).any (fun y => y.2.2.missed) = false →
       chooseWarp (lookupD part {} s.parts).counts (slotWarps s (issuers s part)) = some (k, w, .ready words) →
       lookup k s.warps = some w → slots part < 2 →
       ∃ t w' r, exec (.runIssue part) s = .next t ∧ t.warps = put k w' s.warps ∧ w' = { w with run := some r } ∧
         r.words = words ∧ some r.addr = w.issueAddr s.clock ∧ r.lanes = w.runLanes s.clock r.addr ∧
         (∀ i < 32, r.lanes.getLsbD i = true ↔ ((w.lane i).state = .ready ∧ (w.lane i).loads = [] ∧ (w.lane i).due ≤ s.clock ∧
           (w.lane i).lpc = r.addr)) ∧ r.index = 0 ∧ r.log = [] ∧ r.held = []) ∧
     (∀ part k w f, (k, w, f) ∈ issuers s part → ∃ l ∈ w.lanes, l.state = .ready ∧ l.due ≤ s.clock) ∧
     (∀ part, 2 ≤ slots part → (issuers s part).any (fun y => y.2.2.missed) = false → exec (.runIssue part) s = .next s)) ∧
    (∀ l, (s.withheld ≤ s.clock % 16 → slotWarps s l = l) ∧
      (s.clock % 16 < s.withheld → ∀ x, x ∈ slotWarps s l ↔ x ∈ l ∧ ∃ y ∈ l, y.2.1.cls < x.2.1.cls)) ∧
    (∀ counts l k w f, chooseWarp counts l = some (k, w, f) →
      (k, w, f) ∈ l ∧ (∀ y ∈ l, y.2.1.cls = w.cls → readyBefore y (k, w, f) = false) ∧
      ((∀ c < 8, lookupD c 0 counts < 64) → ∀ y ∈ l, y.2.1.cls < 8 → y.2.1.cls ≤ w.cls)) ∧
    (∀ die req, (walkWanted s die req = false → exec (.translationWalk die req) s = .next s) ∧
      (walkWanted s die req = true → exec (.translationWalk die req) s =
        .next (translate (.die die) { asn := req.asn, root := req.root, rpld := true, rhnd := 0 } req.va req.write req.fetch .L s).2)) ∧
    (∀ die asn line, (die, asn, line) ∉ s.fetches → exec (.instructionFill die asn line) s = .next s) ∧
    (∀ die asn line x rest p cache t,
      let s1 := { s with fetches := s.fetches.filter (fun y => y ≠ (die, asn, line)) }
      (die, asn, line) ∈ s.fetches → fillWaiters s1 die asn line = x :: rest →
      translate (.die die) (spaceOf (launchOf s x.2)) (128 * line) false true .L s1 = (.ok (p, cache), t) → isPoisoned t p 128 = false →
      ∃ u, exec (.instructionFill die asn line) s = .next u ∧ (die, asn, line) ∉ u.fetches ∧
        ∀ y ∈ s.warps, (launchOf s y.2).asn = asn → y.2.hdrAt = x.2.hdrAt → y.1 / 64 / 64 = die →
          lookup (y.1 / 64, asn, line) u.icache = some (readPlace t p 128))

/-- R49, R53, R55, R68, R184, R252, R275, R303, R316, R370, R387, R388, R392: events of gangs and launches. A phase whose
arrivals have reached the expectation before this clock completes: the phase bit flips, count and marks clear, and the lanes
parked on that phase go on, or wait until the gang's shadow is written. A line of a copy lands: its bytes, as path C reads them, at its destination,
a scratchpad line full; the last line of a gang's copy makes its tag ready. A matrix instruction with no unit left leaves its
queue, its flags merged into its warp's. A stalled gang's launch is killed with 0x0023. A gang with nothing left ends, its
mask in the launch's sums. A launch with nothing left completes with success, a killed one with its status. A waiting launch
takes a context; one of class 6 or above aborts the scans. -/
def Obligations.GangEvents : Prop :=
  ∀ s : State,
    (∀ g b x y, lookup g s.gangs = some x → lookup b x.barriers = some y →
      (y.count < y.expect ∨ s.clock ≤ y.touched ∨ x.rolling = true ∨ gangWarps g s = [] →
        exec (.barrierPhaseComplete g b) s = .next s) ∧
      (y.expect ≤ y.count → y.touched < s.clock → x.rolling = false → gangWarps g s ≠ [] →
        let shadowed := hdrRb x.hdr && allByBars s g y
        ∃ t z, exec (.barrierPhaseComplete g b) s = .next t ∧ lookup g t.gangs = some z ∧
          lookup b z.barriers = some { y with phase := !y.phase, count := 0, marks := [], bars := [] } ∧
          (∀ c ≠ b, lookup c z.barriers = lookup c x.barriers) ∧
          (shadowed = false → z.shadow = x.shadow ∧ t.stale = []) ∧
          (shadowed = true → ∃ sh, z.shadow = some sh ∧ sh.writing = true ∧ sh.clean = true ∧ sh.tries = 0 ∧ sh.barriers = z.barriers) ∧
          ∀ k w, lookup k s.warps = some w → w.gang = some g → w.lanes.length = 32 →
            ∃ w', lookup k t.warps = some w' ∧ ∀ i < 32, (w'.lane i).lpc = (w.lane i).lpc ∧
              (w'.lane i).state = if (w.lane i).state = .parked (.barrier b y.phase) then
                (if shadowed then .parked .shadow else .ready) else (w.lane i).state)) ∧
    (∀ g x sh, lookup g s.gangs = some x → x.shadow = some sh →
      (sh.writing = false → exec (.shadowComplete g) s = .next s) ∧
      (sh.writing = true → ∃ t, exec (.shadowComplete g) s = .next t ∧
        (lookup g t.gangs).bind (fun z => z.shadow) = some { sh with writing := false } ∧
        ∀ k w, lookup k s.warps = some w → w.gang = some g → w.lanes.length = 32 → ∃ w', lookup k t.warps = some w' ∧
          ∀ i < 32, (w'.lane i).state = if (w.lane i).state = .parked .shadow then .ready else (w.lane i).state)) ∧
    (∀ g x, lookup g s.gangs = some x →
      (gangStalled s g x = true → exec (.gangStall g) s = .next (killLaunch x.launch 0x23 (x.index.getD allOnes64) 0 s)) ∧
      (gangStalled s g x = false → exec (.gangStall g) s = .next s)) ∧
    (∀ id n c l p q s1 s2, lookup id s.copies = some c → c.dead = false → c.stopped = none → c.fill = none → n < 1024 →
      c.lines[n]? = some l → s.memWf = true → s.buffer = [] → Path.C ∉ s.lag → s.scrNow = [] →
      copyPlace c c.fromSp l.1 false s = (.ok p, s1) → copyPlace c c.toSp l.2 true s1 = (.ok q, s2) → isPoisoned s2 p 128 = false →
      let scr := match q with | .scr _ => true | _ => false
      ∃ t, exec (.copyLineLand id n) s = .next t ∧ readPlace t q 128 = readOn .C s2 p 128 ∧ t.memWf = true ∧
        (s2.stale = [] → readPlace t q 128 = readPlace s2 p 128) ∧
        (∀ r : Place, (∀ i < 128, r ≠ q.plus i) → readPlace t r 1 = readPlace s2 r 1) ∧
        (∀ b, q = .scr b → b / 128 ∈ t.scrFull) ∧
        (1 < c.lines.length ∨ (∃ cmd, c.owner = .command cmd) → ∃ c', lookup id t.copies = some c' ∧ c'.lines = c.lines.eraseIdx n ∧
          c'.landed = if scr then (l.2, readPlace s2 q 128) :: c.landed else c.landed) ∧
        (∀ g tag x, c.owner = .gang g tag → c.lines.length = 1 → lookup g s2.gangs = some x →
          lookup id t.copies = none ∧ (lookup g t.gangs).bind (fun z => lookup tag z.tags) = some .ready)) ∧
    (∀ id n c, lookup id s.copies = some c → (c.dead = true ∨ c.stopped ≠ none ∨ 1024 ≤ n ∨ c.lines.length ≤ n) →
      exec (.copyLineLand id n) s = .next s) ∧
    (∀ id c g tag x, lookup id s.copies = some c → c.owner = .gang g tag → lookup g s.gangs = some x →
      (c.lines ≠ [] ∨ c.dead = true → exec (.copyComplete id) s = .next s) ∧
      (c.lines = [] → c.dead = false → ∃ t, exec (.copyComplete id) s = .next t ∧ lookup id t.copies = none ∧
        (lookup g t.gangs).bind (fun z => lookup tag z.tags) = some .ready)) ∧
    (∀ id c cmd, lookup id s.copies = some c → c.owner = .command cmd → c.dead = false → c.ended = none → c.lines = [] →
      exec (.copyComplete id) s = .next (finishCmd cmd { status := 0 }
        { performSome (fun b => b.path = .C && decide (b.unit = id)) s with copies := erase id s.copies })) ∧
    (∀ id c cmd status det item, lookup id s.copies = some c → c.owner = .command cmd → c.ended = some (status, det, item) →
      exec (.copyComplete id) s = .next (finishCmd cmd { status := status, det := det, item := item }
        { performSome (fun b => b.path = .C && decide (b.unit = id)) s with copies := erase id s.copies })) ∧
    (∀ part odd op rest x, (lookupD part {} s.parts).queue = op :: rest → 0xA0 ≤ op.op → op.op ≤ 0xA3 → matUnits op ≤ op.doneUnits →
      op.dead = false → op.stopped = none → op.twin = false → lookup op.gang s.gangs = some x → hdrPair x.hdr = false →
      ∃ t, exec (.matrixComplete part odd) s = .next t ∧ (lookupD part {} t.parts).queue = rest ∧
        (op.op = 0xA0 → (lookup op.gang t.gangs).bind (fun z => z.shadow) = x.shadow.map (fun sh => { sh with clean := false }) ∧
          ∀ b, op.bank = some b → ∃ key, (op.w.mx ≠ 1 → key = none) ∧
            lookup (4 * op.gang + op.w.d.toNat) (lookupD part {} t.parts).banks = some { b with key := key }) ∧
        (∀ w, lookup op.warp s.warps = some w → w.gang = some op.gang → ∃ w', lookup op.warp t.warps = some w' ∧
          w'.fpst = w.fpst ||| BitVec.setWidth 32 op.flags ∧ (op.op = 0xA0 → w'.khit = op.hit)) ∧
        (lookup op.warp s.warps = none → (lookup x.launch t.launches).map (fun l => l.fpsum) =
          (lookup x.launch s.launches).map (fun l => l.fpsum ||| op.flags))) ∧
    (∀ part odd, (lookupD part {} s.parts).queue = [] → exec (.matrixComplete part odd) s = .next s) ∧
    (∀ l x, lookup l s.launches = some x →
      (launchDone s l x = false → exec (.launchCompletion l) s = .next s) ∧
      (launchDone s l x = true → exec (.launchCompletion l) s = .next (endLaunch l { status := 0 } s) ∧
        x.kill = none ∧ launchPlaced s l = false ∧ launchSaved s l = false ∧ x.tasks = [] ∧ x.ringLen = 0 ∧ x.holds = []) ∧
      (x.kill = none → exec (.launchKill l) s = .next s) ∧
      (∀ status item det, x.kill = some (status, item, det) → ∃ u, exec (.launchKill l) s =
          .next (endLaunch l { status := status, det := det, item := item } u) ∧
        (∀ g ∈ u.gangs, g.2.launch ≠ l) ∧ (∀ w ∈ u.warps, w.2.launch ≠ l) ∧ (∀ e ∈ u.entering, e.launch ≠ l) ∧
        (∀ g ∈ u.saved, g.2.gang.launch ≠ l) ∧ (∀ y ∈ u.queues, y.2.launch ≠ l))) ∧
    (∀ g x l, lookup g s.gangs = some x → lookup x.launch s.launches = some l → l.kill = none →
      (x.state = .ending ∨ x.state = .switching) → gangWarps g s = [] → copiesOf s g = false → matrixOf s g = false →
      x.rolling = false → x.task = none → (pkGrec l.pkt = false ∨ pkFlag l.pkt = 0 ∨ x.index = none) →
      ∃ u l', exec (.gangEnd g) s = .next (offerCmds u) ∧ lookup g u.gangs = none ∧ lookup x.launch u.launches = some l' ∧
        l'.smask = l.smask ||| x.smaskUnion ∧ l'.nsm = l.nsm + (if x.smaskUnion ≠ 0 then 1 else 0) ∧
        ∀ p ∈ u.parts, (∀ r ∈ p.2.rows, r.1 / 128 ≠ g) ∧ ∀ b ∈ p.2.banks, b.1 / 4 ≠ g) ∧
    (∀ g x, lookup g s.gangs = some x →
      (x.state = .placed ∨ gangWarps g s ≠ [] ∨ copiesOf s g = true ∨ matrixOf s g = true → exec (.gangEnd g) s = .next s)) ∧
    (waitingLaunch s = none → exec .launchContextTake s = .next s) ∧
    (∀ id c hdr image args t, waitingLaunch s = some (id, c, hdr, image) → s.launches.length < 1024 →
      launchRead c.asn c.root (64 * fld c.pkt 124 51) (fld c.pkt 175 17) s = (.ok args, t) →
      ∃ l, lookup l s.launches = none ∧
        let u := { t with launches := put l (makeLaunch c hdr image args) t.launches, cmds := put id { c with work := .running l } t.cmds }
        exec .launchContextTake s = .next (if 6 ≤ fld c.pkt 363 3 then abortScans u else u))

/-- R281 to R287, R291, R292, R297, R298, R301, R304, R325 to R329, R375 to R377, R379, R380, R387, R389: events of the confluence and of
scheduling. A placed record enters its queue or ring slot; a queue whose timeout has passed forms a warp; the ring's head is
popped into a warp; a join-blocked warp becomes holds after 512 clocks or where a context is wanted; a released hold leaves
its slot or is marked ready; exhaustion kills with 0x0024. A dispatcher places the first gang of the shared order that fits,
a new or a switched-out one or a task's, whose constant space is its record with LINK and Q zero, the record leaving the list
and a malformed one killing the launch; a held launch's gang begins to stop where the pool has room, and once it has drained
it is saved whole, in the model's own form (log 88), and what it held of its core is free; an error in it kills the launch; a class-7 launch at risk gets a core
reserved, the gangs in its way pre-empted; a rolling gang takes its shadow back, a dirty interval or an error in the shadow
kills it. While a checkpoint or D3 holds placements, nothing is placed or restored. -/
def Obligations.SchedulingEvents : Prop :=
  ∀ s : State,
    (∀ core, s.entering.find? (fun e => e.core = core) = none → exec (.spawnRecordEntry core) s = .next (confluence core s)) ∧
    (∀ core e, s.entering.find? (fun e => e.core = core) = some e →
      let u := { s with entering := s.entering.eraseP (fun e => e.core = core) }
      (e.queue = none → exec (.spawnRecordEntry core) s = .next (confluence core (ringPush e.launch core e.image u))) ∧
      ∀ q, e.queue = some q → exec (.spawnRecordEntry core) s = .next (confluence core (enterQueue core q e.launch e.image u)) ∧
        ∃ y, lookup (core, q) (enterQueue core q e.launch e.image u).queues = some y ∧
          y.recs = ((lookup (core, q) s.queues).elim [] (fun z => z.recs)) ++ [e.image]) ∧
    (∀ core q x l c, lookup (core, q) s.queues = some x → lookup x.launch s.launches = some l → x.recs ≠ [] → x.bad = false →
      x.held s core = false → x.first + (if fld l.pkt 410 16 = 0 then 256 else fld l.pkt 410 16) ≤ s.clock →
      queueCount s core q = x.recs.length → looseContext s core x.launch = some c →
      ∃ t w, exec (.flushTimeout core q) s = .next t ∧ lookup (core, q) t.queues = none ∧ lookup c.1 t.warps = some w ∧
        w.launch = x.launch ∧ w.gang = none ∧ w.reserve = c.2.2 ∧ ∀ i < 32, w.lane i =
          match x.recs[i]? with
          | some r => { lpc := normLpc (l.hdrAt + fld r 32 32), state := .ready, join := BitVec.ofNat 64 (fld r 64 64) }
          | none => { lpc := 0, state := .exited, join := 0 }) ∧
    (∀ core q x, lookup (core, q) s.queues = some x → x.recs = [] → x.due = false → exec (.flushTimeout core q) s = .next s) ∧
    (∀ core l x, lookup l s.launches = some x →
      let waits := hasReserves x core = false ∨ x.ringLen = 0 ∨ leavingCore s core l = true ∨
        ∃ y ∈ s.queues, y.1.1 = core ∧ y.2.launch = l ∧ y.2.due = true
      (waits → exec (.ringPop core l) s = .next s) ∧
      (¬ waits → looseContext s core l = none → exec (.ringPop core l) s = .next (convertBlocked core s)) ∧
      (∀ c r rs t, ¬ waits → looseContext s core l = some c → ringTake l core 0 32 0 s = (some (r :: rs), t) →
        (∀ h ∈ x.holds, h.marked = false) → spawnParked s l = [] →
        ∃ u l' w, exec (.ringPop core l) s = .next u ∧ lookup l u.launches = some l' ∧
          l'.ringLen = x.ringLen - (rs.length + 1) ∧ l'.ringHead = (x.ringHead + (rs.length + 1)) % 2 ^ fld x.pkt 304 5 ∧
          lookup c.1 u.warps = some w ∧ (w.lane 0).lpc = normLpc (x.hdrAt + fld r 32 32) ∧ (w.lane 0).state = .ready)) ∧
    (∀ k w x t, lookup k s.warps = some w → w.gang = none → w.joinSince = some t → lookup w.launch s.launches = some x →
      let ends := w.joinBlocked = true ∧ (t + 512 ≤ s.clock ∨ contextWanted s (k / 64) = true)
      (¬ ends → exec (.continuationConversion k) s = .next s) ∧
      (ends → exec (.continuationConversion k) s = .next (convertWarp k w x s))) ∧
    (∀ l slot x, lookup l s.launches = some x → x.holds.find? (fun h => h.slot = slot && h.ready && !h.marked) = none →
      exec (.holdRelease l slot) s = .next s) ∧
    (∀ l slot x h r t, lookup l s.launches = some x → x.holds.find? (fun h => h.slot = slot && h.ready && !h.marked) = some h →
      bwRead l ((x.reserves.head?.map (fun y => y.1)).getD 0) (2 ^ fld x.pkt 304 5 + slot) s = (some r, t) →
      let q := if hasReserves x (fld r 24 8) then queueFor t (fld r 24 8) l (fld r 32 32) else none
      (q = none → ringFree t l = 0 → exec (.holdRelease l slot) s = .next (modLaunch l
        (fun y => { y with holds := y.holds.map (fun z => if z.slot = slot then { z with marked := true } else z) }) t)) ∧
      (q ≠ none ∨ 0 < ringFree t l → exec (.holdRelease l slot) s = .next (modLaunch l
        (fun y => { y with holds := y.holds.filter (fun z => z.slot ≠ slot) }) (enterAt (fld r 24 8) l q r t)))) ∧
    (∀ l x, lookup l s.launches = some x →
      let stuck := (0 < x.ringLen ∨ ∃ h ∈ x.holds, h.marked = true) ∧ 2 ^ fld x.pkt 304 5 ≤ x.holds.length ∧
        ∀ r ∈ x.reserves, ∀ y ∈ r.2, ∃ w, lookup y.1 s.warps = some w ∧ w.joinBlocked = true
      (stuck → exec (.spawnExhaustion l) s = .next (killLaunch l 0x24 allOnes64 0 s)) ∧
      (¬ stuck → exec (.spawnExhaustion l) s = .next s)) ∧
    (∀ die, placementsHeld s = true →
      exec (.gangPlacement die) s = .next s ∧ exec (.gangRestore die) s = .next s ∧ exec (.atRiskPreemption die) s = .next s) ∧
    (∀ die i rest n l c, die < 4 → placementsHeld s = false → beforePlacement s = s → sharedOrder s = i :: rest →
      i.work = .fresh n → lookup i.launch s.launches = some l → i.cls = l.cls →
      coreFor s die i l l.hdr (fld l.pkt 357 6) (fld l.pkt 398 12) false = some c →
      ∃ t x l', exec (.gangPlacement die) s = .next t ∧ lookup s.nextGang t.gangs = some x ∧ x.core = c ∧ x.index = some n ∧
        x.launch = i.launch ∧ x.warps = fld l.pkt 357 6 ∧ lookup i.launch t.launches = some l' ∧ l'.next = n + 1 ∧ l'.skips = 0) ∧
    (∀ die i rest addr p r l, die < 4 → placementsHeld s = false → beforePlacement s = s → sharedOrder s = i :: rest →
      i.work = .task addr p r → lookup i.launch s.launches = some l →
      (taskMalformed l addr r = true → l.kill = none → ∃ t l', exec (.gangPlacement die) s = .next t ∧ t.gangs = s.gangs ∧
        lookup i.launch t.launches = some l' ∧ l'.tasks = l.tasks.filter (fun y => y.1 ≠ addr) ∧
        l'.kill = some (0x26, 2 ^ 64 - 1, 0)) ∧
      ∀ h c u, taskMalformed l addr r = false → taskHeader i.launch l (fld r 192 64) s = (some h, u) → hdrMalformed h = false →
        coreFor u die i l h (fld r 16 6) (if fld r 1 1 = 1 then fld l.pkt 398 12 else fld r 32 12) false = some c →
        ∃ t x l' own, exec (.gangPlacement die) s = .next t ∧ lookup s.nextGang t.gangs = some x ∧ x.core = c ∧ x.index = none ∧
          x.launch = i.launch ∧ x.hdr = h ∧ x.hdrAt = fld r 192 64 ∧ x.warps = fld r 16 6 ∧ x.cls = i.cls ∧
          x.deadline = i.deadline ∧ x.task = some own ∧ x.const = leBytes 64 own.toNat ∧
          (∀ b < 512, own.getLsbD b = (r.getLsbD b && decide (0 < b ∧ b < 448))) ∧
          lookup i.launch t.launches = some l' ∧ l'.tasks = l.tasks.filter (fun y => y.1 ≠ addr) ∧ l'.skips = 0 ∧
          (∀ a, p = .dev a → u.memWf = true → u.buffer = [] → read64 t p = read64 u p &&& ~~~1#64)) ∧
    (∀ die, placementsHeld s = false → noteRisk s = s → s.riskSince = [] → exec (.atRiskPreemption die) s = .next s) ∧
    (∀ die, placementsHeld s = false → beforePlacement s = s → s.saved = [] → s.savedLoose = [] →
      (∀ l ∈ s.launches, l.2.tasks = []) → exec (.gangRestore die) s = .next s) ∧
    (∀ die i rest g l v core, die < 4 → placementsHeld s = false → beforePlacement s = s → s.savedLoose = [] →
      sharedOrder s = i :: rest → i.work = .saved g → lookup i.launch s.launches = some l → lookup g s.saved = some v →
      v.bad = false → lookup g s.gangs = none →
      coreFor s die i l v.gang.hdr v.gang.warps (fld l.pkt 398 12) true = some core →
      ∃ t y, exec (.gangRestore die) s = .next t ∧ lookup g t.saved = none ∧ lookup g t.gangs = some y ∧ y.core = core ∧
        y.launch = v.gang.launch ∧ y.index = v.gang.index ∧ y.smaskUnion = v.gang.smaskUnion ∧
        y.state = (if v.gang.warps ≤ v.gang.exitedWarps.length then .ending else .placed)) ∧
    (∀ die i l h warps back rest core gs, die < 4 → placementsHeld s = false → noteRisk s = s →
      riskHeads s = (i, l, h, warps, back) :: rest → atRisk s i.launch l = true → s.reservedFor = [] →
      riskChoice s die i.launch l h warps back = some (core, gs) →
      let room := (gs.map (fun g => switchBytes s g.2)).sum
      (poolRoom s < room → exec (.atRiskPreemption die) s = .next s) ∧
      (room ≤ poolRoom s → exec (.atRiskPreemption die) s =
        .next (gs.foldl (fun s g => beginSwitch g.1 s) { s with reservedFor := [(core, i.launch)] }))) ∧
    (∀ g x l, lookup g s.gangs = some x → lookup x.launch s.launches = some l → l.kill = none → x.rolling = false →
      x.state ≠ .switching →
      let live := gangWarps g s ≠ [] ∨ copiesOf s g = true ∨ matrixOf s g = true
      (l.held = false ∨ ¬ live ∨ poolRoom s < switchBytes s x → exec (.switchOut g) s = .next s) ∧
      (l.held = true → live → switchBytes s x ≤ poolRoom s →
        ∃ t, exec (.switchOut g) s = .next t ∧
          lookup g t.gangs = some { x with state := .switching, room := switchBytes s x } ∧
          t.poolUsed = s.poolUsed + switchBytes s x ∧
          ∀ k w, lookup k s.warps = some w →
            lookup k t.warps = some (if w.gang = some g ∨ w.gang = none ∧ k / 64 = x.core ∧ w.launch = x.launch then
              { w with stopping := true } else w))) ∧
    (∀ g x l, lookup g s.gangs = some x → lookup x.launch s.launches = some l → l.kill = none → x.rolling = false →
      x.state = .switching → lookup g s.saved = none → s.buffer = [] → s.memWf = true →
      gangWarps g s ≠ [] ∨ copiesOf s g = true ∨ matrixOf s g = true →
      (drained s g x = false → exec (.switchOut g) s = .next s) ∧
      (drained s g x = true → badSave s g x = true →
        exec (.switchOut g) s = .next (killLaunch x.launch 0x22 (x.index.getD (2 ^ 64 - 1)) 6 s)) ∧
      (drained s g x = true → badSave s g x = false →
        let part := fun (n : Nat) => lookupD (x.core * 4 + n) {} s.parts
        let first := x.core * 4096 + x.scrAt
        let clear := fun (o : MatOp) => { o with warp := 0 }
        ∃ t v, exec (.switchOut g) s = .next t ∧ lookup g t.saved = some v ∧ lookup g t.gangs = none ∧
          v.gang = { x with state := .switchedOut, room := 0 } ∧
          v.warps = (gangWarps g s).map (fun y => (y.2.num, { y.2 with stopping := false })) ∧
          (∀ a, Mem.get a v.scrBytes = if a < 128 * hdrScrl x.hdr then Mem.get (128 * first + a) s.scr else 0) ∧
          (∀ n, n ∈ v.scrFull ↔ n < hdrScrl x.hdr ∧ first + n ∈ s.scrFull) ∧
          (∀ p < 4, (∀ n < 128, lookup (p, n) v.rows = lookup (128 * g + n) (part p).rows) ∧
            (∀ n < 4, lookup (p, n) v.banks = lookup (4 * g + n) (part p).banks) ∧
            (lookupD p [] v.queues).map clear = ((part p).queue.filter (fun o => o.gang = g)).map clear) ∧
          (∀ y, y ∈ v.copies ↔ y ∈ s.copies ∧ ∃ tag, y.2.owner = .gang g tag) ∧
          (∀ y ∈ t.warps, y.2.gang ≠ some g) ∧ (∀ y ∈ t.copies, ∀ tag, y.2.owner ≠ .gang g tag) ∧
          (∀ p ∈ t.parts, (∀ o ∈ p.2.queue, o.gang ≠ g) ∧ (∀ b ∈ p.2.banks, b.1 / 4 ≠ g) ∧ (∀ b ∈ p.2.rows, b.1 / 128 ≠ g) ∧
            (p.1 / 4 = x.core → p.2.kept = [])) ∧
          (s.warps.filter (fun y => y.1 / 64 = x.core ∧ y.2.gang = none ∧ y.2.launch = x.launch) = [] →
            t.poolUsed = s.poolUsed - x.room + saveBytes x.hdr x.warps))) ∧
    (∀ g x, lookup g s.gangs = some x → x.rolling = false → exec (.rollback g) s = .next s) ∧
    (∀ g x sh, lookup g s.gangs = some x → x.rolling = true → x.shadow = some sh → (∀ y ∈ gangWarps g s, y.2.run = none) →
      (sh.clean = false ∨ sh.bad = true → ∃ t, exec (.rollback g) s = .next t ∧
        ∀ l, lookup x.launch s.launches = some l → l.kill = none → (lookup x.launch t.launches).map (fun l' => l'.kill) =
          some (some (0x22, x.index.getD allOnes64, if sh.clean then 6 else x.rollPath))) ∧
      (sh.clean = true → sh.bad = false → (∀ y ∈ sh.warps, ∀ l ∈ y.2.lanes, l.loads = []) →
        (∀ y ∈ gangWarps g s, ∃ z ∈ sh.warps, z.2.num = y.2.num) → (∀ z ∈ sh.warps, ∃ y ∈ gangWarps g s, y.2.num = z.2.num) →
        ((gangWarps g s).map (fun y => y.1)).Nodup → ((gangWarps g s).map (fun y => y.2.num)).Nodup → (sh.warps.map (fun y => y.2.num)).Nodup →
        ∃ t y, exec (.rollback g) s = .next t ∧ lookup g t.gangs = some y ∧ y.rolling = false ∧ y.state = .placed ∧
          y.rollbacks = x.rollbacks + 1 ∧ y.barriers = sh.barriers ∧ y.shadow.map (fun z => z.tries) = some (sh.tries + 1) ∧
          ∀ k w, (k, w) ∈ gangWarps g s → lookup k s.warps = some w → ∀ z ∈ sh.warps, z.2.num = w.num →
            ∃ w', lookup k t.warps = some w' ∧ w'.v = z.2.v ∧ w'.s = z.2.s ∧ w'.k = z.2.k ∧ w'.pp = z.2.pp ∧ w'.fpst = w.fpst ∧
              w'.handler = none ∧ ∀ i, (w'.lane i).lpc = (z.2.lane i).lpc))

/-! ## The fabric, the encode engines and the package -/

/-- R212, R214, R215, R229, R230, R231, R232, R238: packets of messages that arrive at a context. A header flit's fields stand
where R212 puts them. A packet from no connection, or for an Empty or Failed context, is discarded and answered with REFUSE,
for GETR, ACK and ROOM too; one that exceeds its message fails the context with cause 9. A message of one packet
whose number is next is performed and completes: DATA into the receive posted for it, begun now or before, PUT and ATM into
memory, with an ACK; DATA with no receive posted is held; a GETQ's range is translated on arrival, and it begins with the first
packet of its answer; a GETR's bytes go to its
RGET, whose message it must match. A packet held counts towards no message; one that repeats bytes performed fails the context
with cause 9 (R232). The bytes named change, and no others. ACK marks its operation received; REFUSE and ABORT fail the context with causes
10 and 12, ABORT whatever the state of a live context (log 53); after ROOM a kept packet leaves again; a packet of another
package is not performed here. A packet is performed in one step (log 52), and a
MAP that waits for the message may complete with it (R237). -/
def Obligations.Messages : Prop :=
  (∀ p : Pkt, p.header.toNat < 2 ^ 256 ∧ ∀ f ∈ [(0, 8, p.kind), (12, 12, p.dpkg), (24, 4, p.drill), (28, 2, p.dctx),
      (30, 12, p.spkg), (42, 4, p.srill), (46, 2, p.sctx), (48, 16, p.mseq), (64, 25, p.mlen), (89, 25, p.off),
      (114, 8, p.data.length / 32), (122, 1, if p.asp then 1 else 0), (128, 64, p.addr.toNat), (192, 64, p.arg.toNat), (8, 4, 0), (123, 5, 0)],
        fld p.header f.1 f.2.1 = f.2.2 % 2 ^ f.2.1) ∧
  (∀ p q : Pkt, parsePkt p.header p.data = some q → q.data.length = 32 * (p.data.length / 32 % 256) ∧ q.header = p.header) ∧
  ∀ (s : State) (n : Nat) (p : Pkt), lookup n s.pkts = some p → p.dpkg = s.packageNo → p.dctx < 4 → s.buffer = [] →
    let s0 := { s with pkts := erase n s.pkts }
    let c := p.drill * 4 + p.dctx
    let x := lookupD c {} s.weirs
    let live := x.state ≠ .empty ∧ x.state ≠ .failed
    let valid := fun (k : Nat) => fld (x.conns.getD k 0) 18 1 = 1
    let remote := fun (k : Nat) =>
      (fld (x.conns.getD k 0) 0 12, fld (x.conns.getD k 0) 12 4, fld (x.conns.getD k 0) 16 2) = (p.spkg, p.srill, p.sctx)
    let on := fun (cn : Nat) => cn < 16 ∧ valid cn ∧ remote cn ∧ ∀ k < cn, ¬ (valid k ∧ remote k)
    let deaf := ¬ live ∨ ∀ k < 16, ¬ (valid k ∧ remote k)
    let whole := p.off = 0 ∧ p.data.length = p.mlen
    let m := fun (cn : Nat) =>
      ({ cn := cn, seq := p.mseq, kind := p.kind, mlen := p.mlen, asp := p.asp, addr := p.addr, arg := p.arg } : RcvMsg)
    let heard := fun (cn : Nat) => { s0 with weirs := put c { x with msgs := [m cn] } s.weirs }
    let quiet := fun (cn : Nat) => live ∧ on cn ∧ x.msgs = [] ∧ x.held = [] ∧ p.mseq < 65536 ∧ lookupD cn 0 x.inSeq = p.mseq
    let away := p.spkg ≠ s.packageNo
    let next := (p.mseq + 1) % 65536
    let kept := fun (t u : State) (pl : Place) (k : Nat) =>
      ∀ r : Place, (∀ i < k, r ≠ pl.plus i) → readPlace u r 1 = readPlace t r 1
    let ack := fun (q : Pkt) => q.kind = 6 ∧ q.dpkg = p.spkg ∧ q.drill = p.srill ∧ q.dctx = p.sctx ∧ q.spkg = s.packageNo ∧
      q.srill = p.drill ∧ q.sctx = p.dctx ∧ q.mseq = p.mseq ∧ q.data = []
    let answered := fun (t : State) (kind : Nat) => ∃ k q, (k, q) ∈ t.pkts ∧ q.kind = kind ∧ q.dpkg = p.spkg ∧
      q.drill = p.srill ∧ q.dctx = p.sctx ∧ q.spkg = s.packageNo ∧ q.srill = p.drill ∧ q.sctx = p.dctx ∧ q.mseq = p.mseq
    (∀ i ∈ [(Instr.data n, 1), (.put n, 2), (.getq n, 3), (.atm n, 5)],
      (p.kind ≠ i.2 → exec i.1 s = .next s) ∧
      (p.kind = i.2 → deaf → away → exec i.1 s = .next (routePkt (replyPkt s p 7) s0).2) ∧
      (p.kind = i.2 → deaf → ¬ away → ∃ t, exec i.1 s = .next t ∧ answered t 7 ∧ t.dev = s.dev ∧ t.host = s.host ∧
        t.vault = s.vault ∧ t.scr = s.scr) ∧
      (∀ cn, p.kind = i.2 → quiet cn → p.mlen < p.off + p.data.length → exec i.1 s = .next (failCtx c 9 s0))) ∧
    (∀ cn o pl k t, p.kind = 1 → quiet cn → whole → away → x.ops = [o] → o.kind = .recv → o.cn = cn → o.received = false →
      o.chunk.tid = none → o.chunk.size = p.mlen → beginOp c o true (heard cn) = (some [(0, k, pl)], t) → k = p.mlen →
      chunkBroken t [(0, k, pl)] 0 k = false → s.memWf = true →
      ∃ u, exec (.data n) s = .next (offerCmds u) ∧ u.cmds = s.cmds ∧ readPlace u pl k = p.data ∧ kept t u pl k ∧ u.memWf = true ∧
        ∃ x' o', lookup c u.weirs = some x' ∧ x'.ops = [o'] ∧ o' = { o with received := true, begun := true, places := [(0, k, pl)], faultRuns := o'.faultRuns } ∧
          x'.msgs = [] ∧ lookupD cn 0 x'.inSeq = next) ∧
    (∀ cn, p.kind = 1 → quiet cn → whole → away → x.ops = [] → p.data.length ≤ 16384 →
      ∃ t, exec (.data n) s = .next t ∧ t = { s0 with weirs := t.weirs } ∧
        lookup c t.weirs = some { x with msgs := [m cn], held := [p] }) ∧
    (∀ cn o, p.kind = 1 → quiet cn → whole → away → x.ops = [o] → o.kind = .recv → o.cn = cn → o.received = false →
      o.chunk.size ≠ p.mlen → exec (.data n) s = .next (failCtx c 8 (heard cn))) ∧
    (∀ cn pl k t, p.kind = 2 → quiet cn → whole → k = p.mlen →
      chunkPlaces c (plainChunk p.asp p.addr.toNat p.mlen) true (heard cn) = (.ok [(0, k, pl)], t) →
      chunkBroken t [(0, k, pl)] 0 k = false → s.memWf = true →
      ∃ u q, exec (.put n) s = .next (routePkt q (offerCmds u)).2 ∧ ack q ∧ u.cmds = s.cmds ∧ readPlace u pl k = p.data ∧
        kept t u pl k ∧ u.memWf = true ∧
        ∃ x', lookup c u.weirs = some x' ∧ x'.msgs = [] ∧ lookupD cn 0 x'.inSeq = next) ∧
    (∀ cn l t, p.kind = 3 → quiet cn → away → p.off = 0 → p.data = [] → 0 < p.mlen →
      chunkPlaces c (plainChunk p.asp p.addr.toNat p.mlen) false (heard cn) = (.ok l, t) →
      ∃ u, exec (.getq n) s = .next u ∧ u = { t with weirs := u.weirs } ∧
        ∃ x', lookup c u.weirs = some x' ∧ x'.msgs = [{ m cn with asked := true }] ∧ x'.inSeq = x.inSeq) ∧
    (∀ cn g, live → on cn → p.mseq < 65536 → lookupD cn 0 x.inSeq = p.mseq → x.msgs = [g] → g.cn = cn → g.seq = p.mseq →
      g.kind = p.kind → g.mlen = p.mlen → p.off + p.data.length ≤ p.mlen → repeats g.got p.off p.data.length = true →
      (p.kind = 1 → exec (.data n) s = .next (failCtx c 9 s0)) ∧ (p.kind = 2 → exec (.put n) s = .next (failCtx c 9 s0))) ∧
    (∀ cn o, p.kind = 4 → live → on cn → x.ops = [o] → (∃ a, o.kind = .rget a) → o.cn = cn → o.seq = p.mseq →
      (o.chunk.size ≠ p.mlen ∨ p.mlen < p.off + p.data.length ∨ repeats o.got p.off p.data.length = true) →
      exec (.getr n) s = .next (failCtx c 9 s0)) ∧
    (∀ cn o pl k t, p.kind = 4 → live → on cn → x.ops = [o] → (∃ a, o.kind = .rget a) → o.cn = cn → o.seq = p.mseq →
      o.chunk.tid = none → o.chunk.size = p.mlen → p.off + p.data.length ≤ p.mlen → Path.W ∉ s.lag →
      repeats o.got p.off p.data.length = false → beginOp c o true s0 = (some [(0, k, pl)], t) → k = p.mlen →
      chunkBroken t [(0, k, pl)] p.off p.data.length = false → s.memWf = true →
      ∃ u, exec (.getr n) s = .next u ∧ readPlace u (pl.plus p.off) p.data.length = p.data ∧
        kept t u (pl.plus p.off) p.data.length ∧ u.memWf = true ∧
        ∃ x' o', lookup c u.weirs = some x' ∧ x'.ops = [o'] ∧ o'.got = (p.off, p.data.length) :: o.got ∧ o'.begun = true ∧
          o'.id = o.id ∧ o'.received = o.received) ∧
    (∀ cn pl k t, p.kind = 5 → quiet cn → p.off = 0 → p.data = [] → p.addr.toNat % 8 = 0 →
      chunkPlaces c (plainChunk p.asp p.addr.toNat 8) true (heard cn) = (.ok [(0, k, pl)], t) → isPoisoned t pl 8 = false →
      s.memWf = true →
      ∃ u q, exec (.atm n) s = .next (routePkt q (offerCmds u)).2 ∧ ack q ∧ u.cmds = s.cmds ∧
        read64 u pl = read64 t pl + p.arg ∧ kept t u pl 8 ∧ u.memWf = true ∧
        ∃ x', lookup c u.weirs = some x' ∧ x'.msgs = [] ∧ lookupD cn 0 x'.inSeq = next) ∧
    (∀ cn, p.kind = 6 → live → on cn → ∃ ops, exec (.ack n) s = .next { s0 with weirs := put c { x with ops := ops } s.weirs } ∧
      ops.length = x.ops.length ∧ ∀ i < ops.length, ∀ o o', x.ops[i]? = some o → ops[i]? = some o' →
        o' = { o with received := o'.received } ∧
        o'.received = (o.received || (o.cn = cn && o.seq = p.mseq &&
          (match o.kind with | .rput _ => true | .ratm _ _ => true | _ => false)))) ∧
    (deaf → ∀ i ∈ [(Instr.getr n, 4), (.ack n, 6), (.room n, 12)], p.kind = i.2 → exec i.1 s = .next (routePkt (replyPkt s p 7) s0).2) ∧
    (p.kind = 7 → (live → exec (.refuse n) s = .next (failCtx c 10 s0)) ∧ (¬ live → exec (.refuse n) s = .next s0)) ∧
    (p.kind = 11 → (live → exec (.abort n) s = .next (failCtx c 12 s0)) ∧ (¬ live → exec (.abort n) s = .next s0)) ∧
    (∀ cn q, p.kind = 12 → live → on cn → x.kept = [q] → (q.dpkg, q.drill, q.dctx) = (p.spkg, p.srill, p.sctx) →
      exec (.room n) s = .next (routePkt q { s0 with weirs := put c { x with kept := [] } s.weirs }).2) ∧
    (∀ k q, lookup k s.pkts = some q → q.dpkg ≠ s.packageNo → exec (.data k) s = .next s ∧
      exec (.transitForward k) s = .next (routePkt q { s with pkts := erase k s.pkts }).2)

/-- R210, R211, R224, R226, R229, R245, R246: links, weir events and collectives. A rill trains from untrained alone; a failed
resend counts to 16 and a flit that passes ends the count; at 16 the rill goes down, and what it had not delivered is routed
anew. A packet is delivered once. An operation completes when R229's
condition holds, in a step of its own (log 52), and leaves its context, which goes on if it waited; a met flag wait goes on, as an acquire, and
one whose flag holds an uncorrectable error fails the context with cause 11 (R238); an illegal slot fails the
context with cause 1. START begins a Loaded or Halted member of the tag at slot 0, and any other answers FAIL 13; the last
DONE completes the collective with success, a failure or the timeout aborts every member and completes it with 0x0036 or
0x0037. -/
def Obligations.FabricEvents : Prop :=
  ∀ s : State,
    (∀ r, let x := lookupD r {} s.rills
      (x.state = .untrained → exec (.linkTrained r) s = .next { s with rills := put r { x with state := .up } s.rills }) ∧
      (x.state ≠ .untrained → exec (.linkTrained r) s = .next { s with rills := put r x s.rills }) ∧
      (x.state = .up → (x.queued ≠ [] ∨ x.replay ≠ []) → x.resends < 16 → ∃ t, exec (.flitResend r) s = .next t ∧
        t.rills = put r { x with resends := x.resends + 1 } s.rills ∧
        lookup (4, r) t.counters = some (min (markOf s 4) (lookupD (4, r) 0 s.counters + 1)) ∧
        (∀ u, u ≠ (4, r) → lookup u t.counters = lookup u s.counters)) ∧
      (x.state ≠ .up ∨ (x.queued = [] ∧ x.replay = []) → exec (.flitResend r) s = .next s) ∧
      (x.state = .up → 16 ≤ x.resends → ∃ t, exec (.rillDown r) s = .next t ∧
        lookup r t.rills = some { x with state := .down, queued := [], replay := [], resends := 0 } ∧
        t = (x.replay ++ x.queued).foldl (fun s p => (routePkt p s).2)
          { s with rills := put r { x with state := .down, queued := [], replay := [], resends := 0 } s.rills }) ∧
      (x.state ≠ .up ∨ x.resends < 16 → exec (.rillDown r) s = .next s) ∧
      (∀ rest, s.agenda = .flit r :: rest → x.state = .up →
        step s = .next { s with agenda := rest, focus := .none, rills := put r { x with resends := 0 } s.rills }) ∧
      (∀ rest response p l, s.agenda = .deliver r response :: rest → x.state = .up → takeQueued response x.replay = some (p, l) →
        step s = .next { s with agenda := rest, focus := .none, rills := put r { x with replay := l, resends := 0 } s.rills,
                                outbox := (r, p) :: s.outbox }) ∧
      (∀ rest response p l, s.agenda = .deliver r response :: rest → x.state = .up → takeQueued response x.replay = none →
        takeQueued response x.queued = some (p, l) → p.spkg ≠ s.packageNo →
        ∃ t, step s = .next t ∧ t.outbox = (r, { p with accepted := true }) :: s.outbox ∧
          lookup r t.rills = some { x with queued := l, resends := 0 })) ∧
    (∀ c x, lookup c s.weirs = some x → s.buffer = [] →
      let next := if x.wdbg.getLsbD 24 then WeirState.stopped else WeirState.running
      let on := fun (pc : Nat) (ops : List WOp) =>
        { x with ops := ops, pc := pc, passing := false, faultRuns := [], wait := none, state := next }
      (∀ o, x.ops.find? (fun p => p.id = o.id) = some o →
        let rest := x.ops.filter (fun p => p.id ≠ o.id)
        let earlier := ∃ p ∈ x.ops, WOp.receives p = true ∧ p.cn = o.cn ∧ p.id < o.id
        (WOp.complete o = false ∨ (WOp.receives o = true ∧ earlier) → exec (.weirOperationComplete c o.id) s = .next s) ∧
        (WOp.complete o = true → (WOp.receives o = true → ¬ earlier) →
          (x.wait = none → exec (.weirOperationComplete c o.id) s =
            .next (offerCmds { s with weirs := put c { x with ops := rest } s.weirs })) ∧
          (x.state = .waiting → x.wait = some (.op o.id) → exec (.weirOperationComplete c o.id) s =
            .next (offerCmds { s with weirs := put c (on x.pc rest) (put c { x with ops := rest } s.weirs) })) ∧
          (x.state = .waiting → x.wait = some .ops → ∃ t, exec (.weirOperationComplete c o.id) s = .next (offerCmds t) ∧
            lookup c t.weirs = some { x with ops := rest, state := .running, wait := none }))) ∧
      (∀ p va cmp v, x.wait = some (.flag p va cmp v true) → x.state = .waiting →
        exec (.weirFlagWake c) s = .next { s with weirs := put c (on (x.pc + 1) x.ops) s.weirs, stale := [] }) ∧
      (∀ p va cmp v, x.wait = some (.flag p va cmp v false) →
        (isPoisoned s p 8 = false → exec (.weirFlagWake c) s = .next s) ∧
        (x.state = .waiting → s.unmapped = [] → isPoisoned s p 8 = true → exec (.weirFlagWake c) s = .next (failCtx c 11 s))) ∧
      (x.state = .running → x.slots.length ≤ x.pc → exec (.weirIllegalInstruction c) s = .next (failCtx c 1 s)) ∧
      (x.state ≠ .running → exec (.weirIllegalInstruction c) s = .next s)) ∧
    (∀ n p, lookup n s.pkts = some p → p.dpkg = s.packageNo →
      let s0 := { s with pkts := erase n s.pkts }
      let c := p.drill * 4 + p.dctx
      let x := lookupD c {} s.weirs
      let fit := (x.state = .loaded ∨ x.state = .halted) ∧ x.tag = p.addr
      let began := fun (w : List (Nat × W64)) =>
        { x with state := .running, pc := 0, w := w, d := [], wait := none, passing := false, faultRuns := [],
                 starter := some (p.spkg, p.srill, p.sctx) }
      (p.kind = 8 → fit → ∃ w, exec (.start n) s = .next { s0 with weirs := put c (began w) s.weirs } ∧ lookup 0 w = some p.arg ∧
          ∀ i, 0 < i → i < x.initW.length → lookup i w = x.initW[i]?) ∧
      (p.kind = 8 → ¬ fit → p.spkg = s.packageNo → ∃ t q, exec (.start n) s = .next t ∧ t = { s0 with pkts := t.pkts, nextPkt := t.nextPkt } ∧
        (s.nextPkt, q) ∈ t.pkts ∧ q.kind = 10 ∧ q.arg = 13 ∧ (q.dpkg, q.drill, q.dctx) = (p.spkg, p.srill, p.sctx)) ∧
      (∀ id k i m, s.colls = [(id, k)] → k.members[i]? = some m → (m.1, m.2.1, m.2.2.1) = (p.spkg, p.srill, p.sctx) →
        (∀ j m', k.members[j]? = some m' → (m'.1, m'.2.1, m'.2.2.1) = (m.1, m.2.1, m.2.2.1) → j = i) → k.aborted = false →
        (p.kind = 9 → k.answered = [] → k.doneBy = [] →
          (k.members.length = 1 → exec (.done n) s = .next (finishCmd k.cmd { status := 0 } { s0 with colls := [] })) ∧
          (1 < k.members.length → exec (.done n) s = .next { s0 with colls := [(id, { k with answered := [i], doneBy := [i] })] })) ∧
        (p.kind = 10 → k.answered = [] → k.doneBy = [] → ∃ u,
          (k.members.length = 1 → exec (.fail n) s =
            .next (finishCmd k.cmd { status := 0x36, det := p.arg.toNat % 256, item := i } u) ∧ u.colls = []) ∧
          (1 < k.members.length → exec (.fail n) s = .next u ∧ lookup id u.colls =
            some { k with answered := [i], aborted := true, failure := some (i, p.arg.toNat % 256) }) ∧
          ∀ m' ∈ k.members, m'.1 = s.packageNo → ∃ y, (y, rootPkt s 11 m') ∈ u.pkts))) ∧
    (∀ id k, lookup id s.colls = some k →
      (k.timeout = 0 ∨ s.clock < k.since + k.timeout →
        exec (.collTimeout id) s = .next s ∧ exec (.collTwiceTimeout id) s = .next s) ∧
      (k.timeout ≠ 0 → k.aborted = false → k.since + k.timeout ≤ s.clock → k.answered.length < k.members.length →
        ∃ t, exec (.collTimeout id) s = .next t ∧ lookup id t.colls = some { k with aborted := true, failure := none } ∧
          ∀ m ∈ k.members, m.1 = s.packageNo → ∃ y, (y, rootPkt s 11 m) ∈ t.pkts) ∧
      (k.timeout ≠ 0 → k.aborted = true → k.since + 2 * k.timeout ≤ s.clock →
        exec (.collTwiceTimeout id) s = .next (finishCmd k.cmd
          (match k.failure with | some f => { status := 0x36, det := f.2, item := f.1 } | none => { status := 0x37 })
          { s with colls := erase id s.colls })))

/-- R70, R76, R331, R332, R333: a frame is read once its start flag is at or above SVAL, and not before, elements and scales;
the reduced frame of an integer frame takes each chroma sample as the mean of its 2 × 2 block, the elements outside the frame
zero, rounded to nearest-even. A frame read within its buffer completes with success, an uncorrectable one with 0x0022, its
report's status 0 and 3, and then the done flag holds DVAL. The frame's number moves on, and the frame leaves its slot, which
its last frame frees; frames queued behind that begin a session of their own (log 31). The start flag is an acquire and the done flag a release of
path E: while writes of that path wait, reading and done flag are steps of their own, and what was written comes before the
flag (R13, log 31). -/
def Obligations.EncodeFrames : Prop :=
  (∀ (e : TEntry) (bytes : List Byte) (scales : List (Nat × FVal)) (layer x y n : Nat), isFloat (tnFmt e) = false →
    let w := elemBits (tnFmt e) / 8
    let v := fun (a b l : Nat) => if tnInside e [a, b, l] then
      (leNat ((bytes.drop (w * (a + tnDim e 0 * (b + tnDim e 1 * l)))).take w) : Int) else 0
    let r := sampleInt n (chromaMean e bytes scales layer x y)
    let q := 4 * r - (v (2 * x) (2 * y) layer + v (2 * x + 1) (2 * y) layer + v (2 * x) (2 * y + 1) layer + v (2 * x + 1) (2 * y + 1) layer)
    sampleInt n (sampleOf e bytes scales x y layer) = v x y layer ∧ -2 ≤ q ∧ q ≤ 2 ∧ (q = 2 ∨ q = -2 → r % 2 = 0)) ∧
  (∀ (s : State) (k : Nat) (x : EncSlot) (d : List Byte) (f : EncFrame) (rest : List EncFrame) (c : Cmd),
    lookup k s.encSlots = some x → x.image = some d → x.frames = f :: rest → lookup f.cmd s.cmds = some c → x.stopped = none →
    k ∉ s.encFault → k ∉ s.encError → Path.E ∈ s.lag →
    let sp : Space := { asn := c.asn, root := c.root, rpld := c.rpld, rhnd := 0 }
    (∀ l t, f.read = none → f.started = false → encPlaces k sp (fld c.pkt 128 57) 8 false s = (.ok l, t) →
      (∀ p ∈ l, isPoisoned t p.2.1 p.1 = false) → fld c.pkt 192 64 ≤ leNat (gatherBytes t l) →
      ∃ y, exec (.encodeStart k) s = .next { t with stale := [], encSlots := y } ∧
        ∀ z, lookup k t.encSlots = some z → z.frames = f :: rest →
          lookup k y = some { z with frames := { f with started := true } :: rest }) ∧
    (∀ read w p h t, f.read = some read → f.wrote = some w →
      encPlaces k sp (fld c.pkt 256 57) 8 true s = (.ok [(8, p, h)], t) → s.memWf = true →
      ∃ u, exec (.encodeComplete k) s = .next (frameEnd k c f.cmd w.1 w.2.1 w.2.2 u) ∧
        (∀ b ∈ u.buffer, b.path ≠ .E) ∧ read64 u p = BitVec.ofNat 64 (fld c.pkt 320 64))) ∧
  ∀ (s : State) (k : Nat) (x : EncSlot) (d : List Byte) (f : EncFrame) (rest : List EncFrame) (c : Cmd),
    lookup k s.encSlots = some x → x.image = some d → x.frames = f :: rest → lookup f.cmd s.cmds = some c → x.stopped = none →
    k ∉ s.encFault → k ∉ s.encError → s.buffer = [] → Path.E ∉ s.lag → f.started = false → f.wrote = none →
    let sp : Space := { asn := c.asn, root := c.root, rpld := c.rpld, rhnd := 0 }
    let e := descTensor d
    (∀ l t, f.read = none → encPlaces k sp (fld c.pkt 128 57) 8 false s = (.ok l, t) →
      (∀ p ∈ l, isPoisoned t p.2.1 p.1 = false) →
      (leNat (gatherBytes t l) < fld c.pkt 192 64 → exec (.encodeStart k) s = .next t) ∧
      ∀ b g u u', fld c.pkt 192 64 ≤ leNat (gatherBytes t l) →
        readRows k sp (tnVault e) (frameRows e) { t with stale := [] } = (.ok b, u) →
        readScales k sp e (scaleSpots e) u = (.ok g, u') →
        ∃ y, exec (.encodeStart k) s = .next { u' with free := u'.free + 1, encSlots := y } ∧
          (∀ z, lookup k u'.encSlots = some z → z.frames = f :: rest → ∃ z', lookup k y = some z' ∧
            z' = { z with frames := { f with read := some (if b.2 || g.2 then .uncorrectable else
              .samples (reducedFrame u'.free e b.1 g.1)) } :: rest, faultRuns := [] })) ∧
    (f.read ≠ none → exec (.encodeStart k) s = .next s) ∧
    (f.read = none → exec (.encodeComplete k) s = .next s) ∧
    (∀ read, f.read = some read → read ≠ .fatal →
      let key := x.frameNo = 0 ∨ fld c.pkt 69 1 = 1 ∨ descKeyInterval d ≤ x.sinceKey
      let stream := match read with | .samples b => Config.bitstream s.free (decide key) d b | _ => []
      let off := if descBufSize d < x.offset + stream.length then 0 else x.offset
      let ok := (∃ b, read = .samples b) ∧ stream.length ≤ descBufSize d
      let ring := (descRing d + 32 * (x.frameNo % 16), 32)
      let flag := (fld c.pkt 256 57, 8)
      let ends := fun (r : Result) (report : Nat) (p q : Place) => ∃ u,
        exec (.encodeComplete k) s = .next (finishCmd f.cmd r u) ∧
        read64 u p = BitVec.ofNat 64 (fld c.pkt 320 64) ∧
        ((∀ i < 32, ∀ j < 8, q.plus i ≠ p.plus j) →
          leNat (readPlace u (q.plus 12) 4) = x.frameNo % 2 ^ 32 ∧ leNat (readPlace u (q.plus 17) 1) = report ∧
          leNat (readPlace u (q.plus 16) 1) = (if key then 1 else 0) ∧ leNat (readPlace u (q.plus 24) 8) = s.clock % 2 ^ 64 ∧
          (report = 0 → leNat (readPlace u q 8) = off % 2 ^ 64 ∧ leNat (readPlace u (q.plus 8) 4) = stream.length % 2 ^ 32)) ∧
        (fld c.pkt 70 1 = 1 → lookup k u.encSlots = if rest = [] then none else some { desc := x.desc, asn := x.asn, frames := rest }) ∧
        (fld c.pkt 70 1 = 0 → ∃ z, lookup k u.encSlots = some z ∧ z.frames = rest ∧ z.frameNo = x.frameNo + 1 ∧
          (report ≠ 0 → z.offset = x.offset) ∧ (report = 0 → z.offset = off + stream.length))
      s.memWf = true →
      (∀ l p q g h t, ok → placesOf k sp [(descBuf d + off, stream.length), ring, flag] { s with free := s.free + 3 } =
        (.ok [l, [(32, q, g)], [(8, p, h)]], t) → ends { status := 0 } 0 p q) ∧
      (∀ p q g h t, read = .uncorrectable → placesOf k sp [ring, flag] { s with free := s.free + 3 } =
        (.ok [[(32, q, g)], [(8, p, h)]], t) → ends { status := 0x22 } 3 p q))

/-- R33, R34, R35, R319, R384, R386, R392, R396 to R398: what the package's surroundings do. A met WAIT completes with success, as an acquire,
one whose word holds an uncorrectable error with 0x0022, a late one with 0x003B. A checkpoint writes header, device memory and the 256 vaults of 3 MiB to its place in order, or reads
them back where the header is of this ROM version and fuse configuration, which the model puts first in it (log 26); an
uncorrectable error in what it reads ends it with 0x0022. A scan leaves its core in the map if its signature agrees. A scrub
counts, or poisons and reports. A drain interval takes 1 from every counter. Throttling withholds one slot more, to 15, and
then limits the stacks; a shutdown kills every launch with 0x0022, and ends those still waiting for a context. Ten
milliseconds without a gang make the package idle. A reset keeps device and vault memory, and what lies outside the package
(log 33); D3cold loses them, takes no access, and keeps the counter. A host write changes its bytes alone; a snoop drops the line. -/
def Obligations.PackageEvents : Prop :=
  ∀ s : State,
    (∀ id c p cmp v met, lookup id s.cmds = some c → c.work = .waiting p cmp v met →
      let t := fld c.pkt 192 32
      (met = true → exec (.waitConditionMet id) s = .next (finishCmd id { status := 0 } { s with stale := [] }) ∧
        exec (.waitTimeout id) s = .next s) ∧
      (met = false → (isPoisoned s p 8 = false → exec (.waitConditionMet id) s = .next s) ∧
        (s.unmapped = [] → isPoisoned s p 8 = true →
          exec (.waitConditionMet id) s = .next (finishCmd id { status := 0x22, det := 7 } s)) ∧
        (t ≠ 0 → c.since + 1000 * t ≤ s.clock → exec (.waitTimeout id) s = .next (finishCmd id { status := 0x3B } s)) ∧
        (t = 0 ∨ s.clock < c.since + 1000 * t → exec (.waitTimeout id) s = .next s))) ∧
    (∀ id c, lookup id s.cmds = some c → c.work = .checkpoint true → s.memWf = true → s.buffer = [] →
      let base := fld c.pkt 76 52
      let dev := base + 4096
      let vault := fun (v : Nat) => dev + 0xC000000000 + v * 3145728
      let ours := leBytes 4 Config.romVersion.toNat ++ leBytes 32 Config.fuseConfig.toNat
      (fld c.pkt 64 1 = 0 → s.badDev ≠ [] ∨ s.badVault ≠ [] →
        exec (.ckptTransferComplete id) s = .next (finishCmd id { status := 0x22 } s)) ∧
      (fld c.pkt 64 1 = 0 → s.badDev = [] → s.badVault = [] → (∀ y ∈ s.dev, y.1 < 0xC000000000) →
        ∃ t, exec (.ckptTransferComplete id) s = .next (finishCmd id { status := 0 } t) ∧
          t.dev = s.dev ∧ t.vault = s.vault ∧ t.memWf = true ∧
          Mem.bytes t.host base 36 = ours ∧
          (∀ a, a < 0xC000000000 → Mem.get (dev + a) t.host = Mem.get a s.dev) ∧
          (∀ v a, v < 256 → a < 3145728 → Mem.get (vault v + a) t.host = Mem.get (v * 4194304 + a) s.vault) ∧
          (∀ a, a < base ∨ vault 256 ≤ a → Mem.get a t.host = Mem.get a s.host)) ∧
      (fld c.pkt 64 1 = 1 → s.badHost = [] → Mem.bytes s.host base 36 ≠ ours →
        exec (.ckptTransferComplete id) s = .next (finishCmd id { status := 0x38 } s)) ∧
      (fld c.pkt 64 1 = 1 → s.badHost = [] → Mem.bytes s.host base 36 = ours →
        ∃ t, exec (.ckptTransferComplete id) s = .next (finishCmd id { status := 0 } t) ∧ t.host = s.host ∧ t.memWf = true ∧
          (∀ a, a < 0xC000000000 → Mem.get a t.dev = Mem.get (dev + a) s.host) ∧
          (∀ v a, v < 256 → a < 3145728 → Mem.get (v * 4194304 + a) t.vault = Mem.get (vault v + a) s.host) ∧
          t.badDev = [] ∧ t.badVault = [])) ∧
    (∀ core id c, s.cmds.find? (fun y => y.2.work = .scanning core true) = some (id, c) →
      (∀ y ∈ s.cmds, y.1 ≠ id → ∀ b, y.2.work ≠ .scanning core b) →
      let l := s.scanning.filter (fun y => y ≠ core)
      exec (.scanComplete core true) s = .next (finishCmd id { status := 0 } { s with scanning := l }) ∧
      ∃ out, exec (.scanComplete core false) s = .next (finishCmd id { status := 0x3A } { s with scanning := l, coresOut := out }) ∧
        ∀ y, y ∈ out ↔ y = core ∨ y ∈ s.coresOut) ∧
    (∀ core id c y b, s.cmds.find? (fun y => y.2.work = .scanning core true) = some (id, c) → y ∈ s.cmds → y.1 ≠ id →
      y.2.work = .scanning core b → exec (.scanComplete core true) s = .next (finishCmd id { status := 0 } s)) ∧
    (∀ v a, exec (.patrolScrub v a .clean) s = .next s ∧
      (∃ t unit, exec (.patrolScrub v a .corrected) s = .next t ∧ t.badDev = s.badDev ∧ t.badVault = s.badVault ∧
        lookup (0, unit) t.counters = some (min (markOf s 0) (lookupD (0, unit) 0 s.counters + 1))) ∧
      ∃ l, exec (.patrolScrub v a .uncorrectable) s = .next (if v then
          { s with badVault := l, mailLog := s.mailLog ++ [.poisonedVault (a / 8 * 8)] } else
          { s with badDev := l, mailLog := s.mailLog ++ [.poisonedDev (a / 32 * 32)] }) ∧
        ∀ g, g ∈ l ↔ g = (if v then a / 8 else a / 32) ∨ g ∈ (if v then s.badVault else s.badDev)) ∧
    (exec .predictiveDrain s = .next (if 0 < s.drainInterval ∧ s.drainedAt + s.drainInterval ≤ s.clock then
      { s with counters := s.counters.map (fun y => (y.1, y.2 - 1)), drainedAt := s.drainedAt + s.drainInterval } else s)) ∧
    (exec .thermalThrottle s = .next (if s.withheld < 15 then { s with withheld := s.withheld + 1 } else { s with rateLimited := true })) ∧
    (exec .throttleRelease s = .next { s with withheld := 0, rateLimited := false }) ∧
    (s.power = .d3cold → exec .thermalShutdown s = .next s) ∧
    (s.power ≠ .d3cold → ∃ u det, exec .thermalShutdown s = .next (s.cmds.foldl (fun t y => match y.2.work with
        | .launching _ _ => finishCmd y.1 { status := 0x22, det := det } t
        | _ => t) u) ∧ u = { s with power := .d3hot, free := u.free, launches := u.launches } ∧
      ∀ l x, lookup l s.launches = some x → lookup l u.launches =
        some (if x.kill = none then { x with kill := some (0x22, 2 ^ 64 - 1, det) } else x)) ∧
    (exec .idleEntry s = .next (if s.power = .d0active ∧ s.gangs = [] ∧ s.idleSince + 10500000 ≤ s.clock then
      { s with power := .d0idle } else s)) ∧
    (s.power = .d3cold → exec .packageReset s = .next { State.reset with
      host := s.host, badHost := s.badHost, outbox := s.outbox, agenda := s.agenda, free := s.free }) ∧
    (s.power ≠ .d3cold → exec .packageReset s = .next { State.reset with
      dev := s.dev, vault := s.vault, host := s.host, badDev := s.badDev, badVault := s.badVault,
      badHost := s.badHost, outbox := s.outbox,
      agenda := s.agenda, free := s.free }) ∧
    (exec .powerOff s = .next { State.reset with
      power := .d3cold, clock := s.clock, host := s.host, badHost := s.badHost, outbox := s.outbox, agenda := s.agenda, free := s.free }) ∧
    (∀ a b, exec (.cxlMemAccess false a b) s = .next s) ∧
    (∀ a b, s.power = .d3cold ∨ 0xC000000000 < a + b.length → exec (.cxlMemAccess true a b) s = .next s) ∧
    (∀ a b, s.memWf = true → s.power ≠ .d3cold → s.buffer = [] → a + b.length ≤ 0xC000000000 → ∃ t, exec (.cxlMemAccess true a b) s = .next t ∧
      readPlace t (.dev a) b.length = b ∧ t.host = s.host ∧ t.vault = s.vault ∧ t.memWf = true ∧
      (∀ i, i < a ∨ a + b.length ≤ i → readPlace t (.dev i) 1 = readPlace s (.dev i) 1) ∧
      ∀ g, g * 32 + 32 ≤ a ∨ a + b.length ≤ g * 32 → (g ∈ t.badDev ↔ g ∈ s.badDev)) ∧
    (∀ line, exec (.cxlCacheSnoop line none) s =
      .next { s with launchLines := s.launchLines.filter (fun l => l ≠ 2 * line + 1) }) ∧
    (∀ line b, s.memWf = true → s.buffer = [] → b.length = 128 → ∃ t, exec (.cxlCacheSnoop line (some b)) s = .next t ∧
      readPlace t (.host (128 * line)) 128 = b ∧ t.dev = s.dev ∧ t.memWf = true ∧ (2 * line + 1) ∉ t.launchLines ∧
      ∀ i, i / 128 ≠ line → readPlace t (.host i) 1 = readPlace s (.host i) 1)

/-! ## Decoding, fetching, translating, reset -/

/-- R82 to R85, R100, R222, R322, R311: decode and encode agree. A well-formed instruction's word decodes to it, every operand
at every value; and a word that decodes is, up to its length, the word of the instruction it decodes to. -/
def Obligations.RoundTrip : Prop :=
  (∀ i : Instr, i.wf = true →
    (∀ op w, i.simt? = some (op, w) →
      decodeSimt (packWord (BitVec.ofNat 8 op) w) = some i ∧
      decodeTableWord (8 * w.len.bytes) (packWord (BitVec.ofNat 8 op) w).toNat = some i) ∧
    (∀ op w, i.weir? = some (op, w) → decodeWeir (packWeir (BitVec.ofNat 8 op) w) = some i) ∧
    (∀ x, i.hook? = some x → decodeHook x = some i ∧ decodeTableWord 32 x.toNat = some i) ∧
    (∀ p, i.packet? = some p → decodePacket p = i ∧ decodeTableWord 512 p.toNat = some i)) ∧
  (∀ x i, decodeSimt x = some i → i.wf = true ∧ ∃ op w, i.simt? = some (op, w) ∧
    ∀ b < 8 * w.len.bytes, (packWord (BitVec.ofNat 8 op) w).getLsbD b = x.getLsbD b) ∧
  (∀ x i, decodeWeir x = some i → i.wf = true ∧ ∃ op w, i.weir? = some (op, w) ∧ packWeir (BitVec.ofNat 8 op) w = x) ∧
  (∀ x i, decodeHook x = some i → i.hook? = some x) ∧
  (∀ p, (decodePacket p).packet? = some p)

/-- R83, R105, R144, R248, R323, R319: words written out from the spec decode to the instructions they stand for, and words
it calls illegal to none. -/
def Obligations.DecodedWords : Prop :=
  decodeTableWord 64 0x00000000000000F1 = some (.nop {}) ∧
  decodeTableWord 64 0x00040002010342F1 = some (.fmul { d := 3, a := 1, b := 2, ty := 4 }) ∧
  decodeTableWord 96 0x3FC0000080040000010540F2 = some (.fadd { len := .w96, d := 5, a := 1, ty := 4, i := true, ext := 0x3FC00000 }) ∧
  decodeTableWord 64 0x084A0000030454F1 = some (.cvt { d := 4, a := 3, ty := 10, sop := 4, sat := true }) ∧
  decodeTableWord 64 0x00100000000009F5 = some (.tret { sop := 1, mark := true }) ∧
  decodeTableWord 64 0x00000000000000F0 = none ∧ decodeTableWord 64 0x00040002010342C1 = none ∧
  decodeWeir 0x0000000000010008 = some (.weirMovi { wd := 1 }) ∧
  decodeWeir 0x0000000400020008 = some (.weirMovi { wd := 2, imm := 4 }) ∧
  decodeWeir 0x0000000000000010 = some (.dsel {}) ∧
  decodeWeir 0x0000000043000018 = some (.weirWaitf { wa := 3, wb := 4 }) ∧
  decodeWeir 0x0000000001000020 = some (.xmit { wa := 1 }) ∧
  decodeWeir 0x000000010404000A = some (.weirAddi { wd := 4, wa := 4, imm := 1 }) ∧
  decodeWeir 0x0000000400020006 = some (.weirLoop { wd := 2, imm := 4 }) ∧
  decodeWeir 0x0000000000000002 = some (.weirHalt {}) ∧ decodeWeir 0x0000000000800002 = none ∧
  decodeHook 0x00400000 = some (.hookLdp 0 0 8) ∧ decodeHook 0x00000434 = some (.hookMovi 3 1) ∧
  decodeHook 0x00002C0C = some (.hookSkipeq 0 3 1) ∧ decodeHook 0x0000000E = some .hookAccept ∧
  decodeHook 0x00001412 = some (.hookLdq 1 5) ∧ decodeHook 0x00000895 = some (.hookAdd 1 1 2) ∧
  decodeHook 0x0105B881 = some (.hookStp 1 366 32) ∧ decodeHook 0x0000001E = none ∧
  decodePacket 1 = .launch 1 ∧ decodePacket (7 + 1 <<< 64) = .mapInvalidateAll (7 + 1 <<< 64) ∧
  decodePacket 0x13 = .unlistedCommand 0x13

/-- R91, R97, R218, R238, R310, R321: a step runs the decoded instruction. With a hook, a warp, a weir context or a packet
next in the order of events, the word at its own program counter is decoded, and the step is what that instruction does with
the agent in focus; a run issued whole comes to its marker; an event next in the order happens. A weir executes at most one
instruction of its Running contexts in a clock. The order of events is the model's (log 1), and so is the turn of a weir's
contexts (log 52). With nothing ordered from outside, a clock passes, and the oldest waiting write, the hook or the packet in
hand goes first. -/
def Obligations.StepRunsDecoded : Prop :=
  ∀ (s : State) (rest : List Move) (i : Instr),
    let at_ := fun (f : Focus) => { s with agenda := rest, focus := f }
    let u := passClocks 1 { s with focus := .none }
    (∀ h x, s.agenda = .hook :: rest → s.hook = some h → h.steps < 64 → h.words[h.pc]? = some x → decodeHook x = some i →
      step s = exec i (at_ .hook)) ∧
    (∀ k w r a x, s.agenda = .warp k :: rest → lookup k s.warps = some w → w.run = some r → r.words[r.index]? = some (a, x) →
      decodeSimt x = some i → step s = exec i (at_ (.warp k))) ∧
    (∀ k w r, s.agenda = .warp k :: rest → lookup k s.warps = some w → w.run = some r → r.words[r.index]? = none →
      step s = exec (.runMarker k) (at_ .none)) ∧
    (∀ c x y, s.agenda = .weir c :: rest → lookup c s.weirs = some x → x.state = .running → weirDue s c = true →
      (x.passing = true ∨ (x.wdbg.getLsbD 11 = false ∧ x.wdbg.getLsbD 23 = false)) → x.bad = [] → x.slots[x.pc]? = some y →
      decodeWeir y = some i → (∀ w, i ≠ .dsel w) →
      step s = exec i { at_ (.weir c) with weirTurn := put (c / 4) (c % 4, s.clock) s.weirTurn }) ∧
    (∀ c x, s.agenda = .weir c :: rest → lookup c s.weirs = some x → x.state ≠ .running ∨ weirDue s c = false →
      step s = .next (at_ .none)) ∧
    (∀ c n, lookup (c / 4) s.weirTurn = some (n, s.clock) → weirDue s c = false) ∧
    (∀ c, (∀ n, lookup (c / 4) s.weirTurn ≠ some (n, s.clock)) →
      (∀ d, d / 4 = c / 4 → d ≠ c → (lookupD d {} s.weirs).state ≠ .running) → weirDue s c = true) ∧
    (∀ q ix p, s.agenda = .command :: rest → s.taken = some (q, ix, p) → step s = exec (decodePacket p) (at_ .command)) ∧
    (s.agenda = .event i :: rest → step s = exec i (at_ .none)) ∧
    (s.agenda = [] → s.power = .d3cold → step s = .next { s with focus := .none }) ∧
    (s.agenda = [] → s.power ≠ .d3cold → u.clock = s.clock + 1 ∧ (s.unmapped = [] → u.hook = s.hook ∧ u.taken = s.taken ∧ u.buffer = s.buffer) ∧
      (u.buffer ≠ [] → step s = .next (performNth 0 u)) ∧
      (∀ h x, u.buffer = [] → u.hook = some h → h.steps < 64 → h.words[h.pc]? = some x → decodeHook x = some i →
        step s = exec i { u with focus := .hook }) ∧
      (∀ q ix p, u.buffer = [] → u.hook = none → u.taken = some (q, ix, p) →
        step s = exec (decodePacket p) { u with focus := .command }))

/-- R82, R89 to R91, R96, R99, R254, R255: a run fetched whole. It begins at the least program counter of the warp's Ready
lanes with no load pending that were not released in this very clock;
each of its 1 to 24 words lies in a line of the core's instruction cache, at an address the header's code covers, within one
fetch block, and decodes; the last word carries the marker, and no other; no register but a temporary is written twice. -/
def Obligations.FetchedRun : Prop :=
  ∀ (s : State) (k : Nat) (w : Warp) (words : List (Nat × BitVec 128)), fetchRun s k w = .ready words →
    ∃ a, w.issueAddr s.clock = some a ∧ a % 4 = 0 ∧
      (∃ l ∈ w.lanes, l.state = .ready ∧ l.loads = [] ∧ l.due ≤ s.clock ∧ l.lpc = a) ∧
      (∀ l ∈ w.lanes, l.state = .ready → l.loads = [] → l.due ≤ s.clock → a ≤ l.lpc) ∧ 1 ≤ words.length ∧ words.length ≤ 24 ∧
      (words.head?.map (fun x => x.1)) = some 0 ∧
      ∀ n x, words[n]? = some x → codeAt s (k / 64) (launchOf s w).asn (a + x.1) = some x.2 ∧ (decodeSimt x.2).isSome = true ∧
        ∃ op y, splitWord x.2 = some (op, y) ∧ (y.mark = true ↔ n + 1 = words.length) ∧
          (a + x.1) % 32 + y.len.bytes ≤ 32 ∧ w.hdrAt + 64 ≤ a + x.1 ∧ a + x.1 + y.len.bytes ≤ w.hdrAt + hdrCodelen w.hdr ∧
          (∀ x', words[n + 1]? = some x' → a + x'.1 = normLpc (a + x.1 + y.len.bytes)) ∧
          ∀ m z op' y', m < n → words[m]? = some z → splitWord z.2 = some (op', y') →
            ∀ r ∈ writesOf op y, r.isT = false → r ∉ writesOf op' y' ∧ r ∉ readsOf op' y'

/-- R21 to R25, R28: a translation that no cache holds. Three tables and a leaf of 32 KiB that are valid and well formed, with
the rights the access needs, give the place in device memory or of the host; the walk sets A in all four entries and D in the
leaf of a write, and changes no other byte. A leaf that is not valid, or refuses, gives R28's fault, and the walk sets
nothing; a leaf out of range is found so before its permissions are looked at (log 59). -/
def Obligations.Translation : Prop :=
  ∀ (s : State) (x : Xlate) (sp : Space) (va : Nat) (write fetch : Bool) (path : Path) (a : Nat → Nat) (e : Nat → BitVec 64),
    let ends := translate x sp va write fetch path s
    let leaf := e 0
    let pa := fld leaf 15 37 * 32768
    let fault := fun (kind : Nat) (rpl : Bool) =>
      ends = (.error { va := va, kind := kind, level := 0, wr := write, rpl := rpl && !sp.rpld, eaddr := a 0, path := path }, s)
    (2 ^ 57 ≤ va → ends = (.error { va := va, kind := 5, level := 0, wr := write, rpl := false, eaddr := 0, path := path }, s)) ∧
    (va < 2 ^ 57 → s.coreTlb = [] → s.dieTlb = [] → s.badDev = [] → s.buffer = [] → s.memWf = true →
      a 3 = sp.root + 8 * (va / 2 ^ 51 % 64) → a 2 = fld (e 3) 15 37 * 32768 + 8 * (va / 2 ^ 39 % 4096) →
      a 1 = fld (e 2) 15 37 * 32768 + 8 * (va / 2 ^ 27 % 4096) → a 0 = fld (e 1) 15 37 * 32768 + 8 * (va / 2 ^ 15 % 4096) →
      (∀ n < 4, a n + 8 ≤ 0xC000000000 ∧ read64 s (.dev (a n)) = e n ∧ ∀ m < 4, m ≠ n → a n + 8 ≤ a m ∨ a m + 8 ≤ a n) →
      (∀ n < 4, 0 < n → (e n).getLsbD 0 = true ∧ fld (e n) 1 3 = 0 ∧ fld (e n) 5 10 = 0 ∧ fld (e n) 52 12 = 0 ∧
        fld (e n) 15 37 * 32768 < 0xC000000000) →
      (leaf.getLsbD 0 = false → fault 0 true) ∧
      (leaf.getLsbD 0 = true → leaf.getLsbD 1 = false → fault 3 false) ∧
      (leaf.getLsbD 0 = true → leaf.getLsbD 1 = true → fld leaf 52 12 = 0 → fld leaf 10 5 = 0 → fld leaf 8 2 ≠ 3 →
        (leaf.getLsbD 7 = false → 0xC000000000 ≤ pa → fault 4 false) ∧
        (leaf.getLsbD 7 = true ∨ pa < 0xC000000000 →
          (write = true → leaf.getLsbD 2 = false → fault 1 (leaf.getLsbD 6)) ∧
          (write = false ∨ leaf.getLsbD 2 = true → fetch = true → leaf.getLsbD 3 = false → fault 2 false) ∧
          (write = false ∨ leaf.getLsbD 2 = true → fetch = false ∨ leaf.getLsbD 3 = true → ∃ t,
            ends = (.ok (if leaf.getLsbD 7 then .host (pa + va % 32768) else .dev (pa + va % 32768), fld leaf 8 2), t) ∧
            t = { s with dev := t.dev, coreTlb := t.coreTlb, dieTlb := t.dieTlb, launchLines := t.launchLines } ∧ t.memWf = true ∧
            (∀ n < 4, read64 t (.dev (a n)) = e n ||| 16 ||| (if write = true ∧ n = 0 then 32 else 0)) ∧
            ∀ i, (∀ n < 4, i < a n ∨ a n + 8 ≤ i) → readPlace t (.dev i) 1 = readPlace s (.dev i) 1))))

/-- R97, R98: an instruction of the SIMT language, when it issues, performs no store and no effect outside its warp: the
scratchpads are as before, and host memory and the vaults but where a write made before waits to be performed; no packet
leaves, no interrupt is raised, no gang or launch comes or goes, and every memory keeps its canonical form. With no earlier
write waiting, every other warp, every command and every other part of the package are as before: a write to device memory is
the walker's alone, with the translation caches it fills, the L1 lines a load takes, the launch lines the walk's entries lie
in, the older bytes that a path reads no more, the free values drawn and what a prefetch reports. What the run does to the
rest it does at its marker. -/
def Obligations.NothingBeforeCommit : Prop :=
  ∀ (i : Instr) (s t : State), i.simt?.isSome = true → exec i s = .next t →
    (∀ a, Mem.get a t.host ≠ Mem.get a s.host → ∃ b ∈ s.buffer, overlaps (.host a) 1 b.place b.data.length = true) ∧
    (∀ a, Mem.get a t.vault ≠ Mem.get a s.vault → ∃ b ∈ s.buffer, overlaps (.vault a) 1 b.place b.data.length = true) ∧
    t.scr = s.scr ∧ t.pkts = s.pkts ∧ t.outbox = s.outbox ∧
    t.msix = s.msix ∧ t.gangs.length = s.gangs.length ∧ t.launches.length = s.launches.length ∧ (s.memWf = true → t.memWf = true) ∧
    (s.buffer = [] → t.host = s.host ∧ t.vault = s.vault ∧ (∀ k, s.focus ≠ .warp k → lookup k t.warps = lookup k s.warps) ∧
      t = { s with warps := t.warps, dev := t.dev, coreTlb := t.coreTlb, dieTlb := t.dieTlb, l1 := t.l1,
                   launchLines := t.launchLines, stale := t.stale, free := t.free, mailLog := t.mailLog })

/-- R8, R14, R18, R35, R41 to R43: every memory keeps its canonical form, the model's own (log 2), whatever happens: from any
state in which the four memories list their bytes once, in rising order, and no byte that reads as an unlisted one does,
every step that goes on leads to such a state. -/
def Obligations.MemoryKeepsForm : Prop :=
  ∀ s t : State, s.memWf = true → step s = .next t → t.memWf = true

/-- R42, R69, R141, R211, R308, R386, R398: reset. The counter starts at 0; every route is empty; the predictive marks are
those of R386, drained each second, by the model's numbering of its kinds (log 15); no launch, gang, warp, command or packet exists, every weir context is Empty and every
rill untrained; every memory is in canonical form. Power state, package number, the cap and the empty memories are the model's
choice (logs 2 and 3). -/
def Obligations.ResetState : Prop :=
  let s := State.reset
  s.clock = 0 ∧ (∀ n, lookupD n 0 s.routes = 0) ∧ (markOf s 0, markOf s 1, markOf s 2, markOf s 3, markOf s 4) = (64, 16, 32, 64, 4096) ∧
  s.drainInterval = 1050000000 ∧ s.launches = [] ∧ s.gangs = [] ∧ s.warps = [] ∧ s.cmds = [] ∧ s.pkts = [] ∧ s.taken = none ∧
  s.hook = none ∧ (∀ c, (weirOf s c).state = .empty) ∧ (∀ r, (lookupD r {} s.rills).state = .untrained) ∧
  (∀ h, lookup h s.handles = none) ∧ (∀ ln, lineFull s ln = false) ∧ s.coreTlb = [] ∧ s.dieTlb = [] ∧ s.l1 = [] ∧ s.icache = [] ∧
  s.buffer = [] ∧ s.stale = [] ∧ s.turns = [] ∧ s.unmapped = [] ∧ s.badLines = [] ∧ s.launchLines = [] ∧
  s.memWf = true ∧ s.power = .d0active ∧ s.packageNo = 0 ∧ s.powerCap = 3000 ∧
  ∀ p n, readPlace s p n = List.replicate n 0
end

