-- ==== Sys2Proof/Laws/Tables.lean ====
section
/-! SUPPORT. Laws of tables held as association lists: what a read gives after a put, an erase or a change. -/

namespace Sys2Proof.Laws

open Sys2Proof.Machine

variable {κ α : Type} [DecidableEq κ]

@[simp] theorem lookup_nil (k : κ) : lookup k ([] : List (κ × α)) = none := rfl

theorem lookup_cons (k : κ) (entry : κ × α) (rest : List (κ × α)) :
    lookup k (entry :: rest) = if k = entry.1 then some entry.2 else lookup k rest := rfl

theorem put_cons (k : κ) (a : α) (entry : κ × α) (rest : List (κ × α)) :
    put k a (entry :: rest) = if k = entry.1 then (k, a) :: rest else entry :: put k a rest := rfl

/-- What a table reads after a put, at every key. -/
theorem lookup_put (j k : κ) (a : α) : ∀ l : List (κ × α), lookup j (put k a l) = if j = k then some a else lookup j l
  | [] => rfl
  | entry :: rest => by
    rw [put_cons, apply_ite (lookup j), lookup_cons, lookup_cons, lookup_cons, lookup_put j k a rest]
    split_ifs <;> simp_all

/-- What a table reads after an erase, at every key. -/
theorem lookup_erase (j k : κ) : ∀ l : List (κ × α), lookup j (erase k l) = if j = k then none else lookup j l
  | [] => (ite_self none).symm
  | entry :: rest => by
    have ih : lookup j (rest.filter (fun e => decide (k ≠ e.1))) = if j = k then none else lookup j rest := lookup_erase j k rest
    rw [erase, List.filter_cons, apply_ite (lookup j), lookup_cons, lookup_cons, ih]
    split_ifs <;> simp_all

@[simp] theorem lookup_put_self (k : κ) (a : α) (l : List (κ × α)) : lookup k (put k a l) = some a := by simp [lookup_put]
theorem lookup_put_ne {k j : κ} (h : j ≠ k) (a : α) (l : List (κ × α)) : lookup j (put k a l) = lookup j l := by
  simp [lookup_put, h]
@[simp] theorem lookup_erase_self (k : κ) (l : List (κ × α)) : lookup k (erase k l) = none := by simp [lookup_erase]
theorem lookup_erase_ne {k j : κ} (h : j ≠ k) (l : List (κ × α)) : lookup j (erase k l) = lookup j l := by simp [lookup_erase, h]

/-- What a table reads after a change of one key's value, at every key. -/
theorem lookup_adjust (j k : κ) (f : α → α) (l : List (κ × α)) :
    lookup j (adjust k f l) = if j = k then (lookup k l).map f else lookup j l := by
  rw [adjust]
  split
  · rename_i absent
    split_ifs with e <;> simp [e, absent]
  · rename_i a present
    rw [lookup_put, present, Option.map_some]

@[simp] theorem lookup_adjust_self (k : κ) (f : α → α) (l : List (κ × α)) : lookup k (adjust k f l) = (lookup k l).map f := by
  simp [lookup_adjust]
theorem lookup_adjust_ne {k j : κ} (h : j ≠ k) (f : α → α) (l : List (κ × α)) : lookup j (adjust k f l) = lookup j l := by
  simp [lookup_adjust, h]

/-- Changing an absent key changes nothing. -/
theorem adjust_of_none {k : κ} {l : List (κ × α)} (h : lookup k l = none) (f : α → α) : adjust k f l = l := by
  rw [adjust, h]

end Sys2Proof.Laws
end

