-- ==== Sys2Proof/Laws/Issue.lean ====
section
/-! SUPPORT. Laws of issuing: what one SIMT instruction leaves in its run, by the shape of its effect. -/

namespace Sys2Proof.Laws

open Sys2Proof.Machine

/-! ## The latest write to a location -/

/-- The last value a list of writes gives a location. -/
def lastWrite (ws : List (Loc × W32)) (loc : Loc) : Option W32 := (ws.reverse.find? (fun x => x.1 = loc)).map (·.2)

@[simp] theorem lastWrite_nil (loc : Loc) : lastWrite [] loc = none := rfl

theorem lastWrite_append (a b : List (Loc × W32)) (loc : Loc) :
    lastWrite (a ++ b) loc = (lastWrite b loc).or (lastWrite a loc) := by
  simp only [lastWrite, List.reverse_append, List.find?_append]
  cases List.find? _ b.reverse <;> simp

/-- Where all writes to a location carry one value, that value is the last. -/
theorem lastWrite_eq_some {ws : List (Loc × W32)} {loc : Loc} {v : W32} (h : (loc, v) ∈ ws)
    (u : ∀ v', (loc, v') ∈ ws → v' = v) : lastWrite ws loc = some v := by
  unfold lastWrite
  cases hf : ws.reverse.find? (fun x => x.1 = loc) with
  | none => simpa using List.find?_eq_none.1 hf (loc, v) (by simpa using h)
  | some x =>
    obtain ⟨l, v'⟩ := x
    have h1 := List.find?_some hf
    have h2 := List.mem_of_find?_eq_some hf
    simp only [decide_eq_true_eq] at h1
    subst h1
    simp [u v' (by simpa using h2)]

theorem lastWrite_eq_none {ws : List (Loc × W32)} {loc : Loc} (h : ∀ v, (loc, v) ∉ ws) : lastWrite ws loc = none := by
  simp only [lastWrite, Option.map_eq_none_iff, List.find?_eq_none, List.mem_reverse, decide_eq_true_eq]
  rintro ⟨l, v⟩ hx rfl
  exact h v hx

/-- The entries an instruction logs say of every location what its writes say last. -/
theorem logs_of_writes (r : Run) (d : Option Nat) (ws : List (Loc × W32)) :
    Logs r d (lastWrite ws)
      (ws.map (fun x => ({ loc := x.1, idx := r.index, dist := d, val := x.2 } : LogEntry))).reverse := by
  constructor
  · intro e he
    simp only [List.mem_reverse, List.mem_map] at he
    obtain ⟨x, -, rfl⟩ := he
    exact ⟨rfl, rfl⟩
  · intro loc
    rw [← List.map_reverse, List.find?_map, lastWrite, Option.map_map]
    rfl

theorem logs_congr {r : Run} {d : Option Nat} {res res' : Loc → Option W32} {new : List LogEntry} (h : Logs r d res new)
    (e : ∀ loc, res loc = res' loc) : Logs r d res' new := ⟨h.stamped, fun loc => (h.value loc).trans (e loc)⟩

/-! ## Writes by the shape of a result -/

theorem mem_regWrites {code : BitVec 8} {n lane x : Nat} {loc : Loc} {v : W32} :
    (loc, v) ∈ regWrites code n lane x ↔
      ∃ j < n, loc = locOf ((regOf code).plus j) lane ∧ v = BitVec.ofNat 32 (x / 2 ^ (32 * j)) := by
  simp only [regWrites, List.mem_map, List.mem_range, Prod.mk.injEq]
  constructor
  · rintro ⟨j, hj, rfl, rfl⟩; exact ⟨j, hj, rfl, rfl⟩
  · rintro ⟨j, hj, rfl, rfl⟩; exact ⟨j, hj, rfl, rfl⟩

/-- A field names a `v`, an `s` or a `t` register. -/
theorem regOf_cases (code : BitVec 8) : (∃ n, regOf code = .v n) ∨ (∃ n, regOf code = .s n) ∨ ∃ n, regOf code = .t n := by
  rw [regOf]
  split_ifs <;> simp

/-- The last write of a result to D, lane by lane. -/
theorem lastWrite_dst (c : Ctx) (n : Nat) (a : List Nat) (f : Nat → Nat) (loc : Loc) :
    lastWrite (c.dst n (a.map (fun l => (l, f l)))) loc = toLanes c.w.d a n f loc := by
  have lane : ∀ (mk : Nat → Nat → Loc) (d : Nat), (∀ a b a' b', mk a b = mk a' b' ↔ a = a' ∧ b = b') →
      (∀ j l, locOf ((regOf c.w.d).plus j) l = mk (d + j) l) → c.dScalar = false →
      (∀ m l, lastWrite (c.dst n (a.map (fun l => (l, f l)))) (mk m l) =
        if l ∈ a ∧ d ≤ m ∧ m < d + n then some (BitVec.ofNat 32 (f l / 2 ^ (32 * (m - d)))) else none) ∧
      (∀ loc, (∀ m l, loc ≠ mk m l) → lastWrite (c.dst n (a.map (fun l => (l, f l)))) loc = none) := by
    intro mk d inj hl hs
    have hd : ∀ loc v, (loc, v) ∈ c.dst n (a.map (fun l => (l, f l))) ↔
        ∃ l ∈ a, ∃ j < n, loc = mk (d + j) l ∧ v = BitVec.ofNat 32 (f l / 2 ^ (32 * j)) := by
      intro loc v
      simp only [Ctx.dst, hs, Bool.false_eq_true, if_false, List.mem_flatMap, List.mem_map]
      constructor
      · rintro ⟨_, ⟨l, h, rfl⟩, hm⟩
        obtain ⟨j, hj, rfl, rfl⟩ := mem_regWrites.1 hm
        exact ⟨l, h, j, hj, hl j l, rfl⟩
      · rintro ⟨l, h, j, hj, rfl, rfl⟩
        exact ⟨_, ⟨l, h, rfl⟩, mem_regWrites.2 ⟨j, hj, (hl j l).symm, rfl⟩⟩
    refine ⟨fun m l => ?_, fun loc h => lastWrite_eq_none fun v hv => ?_⟩
    · split
      · rename_i h
        apply lastWrite_eq_some
        · exact (hd _ _).2 ⟨l, h.1, m - d, by omega, by rw [show d + (m - d) = m by omega], rfl⟩
        · intro v' hv
          obtain ⟨l', h', j, hj, e, rfl⟩ := (hd _ _).1 hv
          obtain ⟨rfl, rfl⟩ := (inj _ _ _ _).1 e
          rw [show d + j - d = j by omega]
      · rename_i h
        refine lastWrite_eq_none fun v hv => h ?_
        obtain ⟨l', h', j, hj, e, -⟩ := (hd _ _).1 hv
        obtain ⟨rfl, rfl⟩ := (inj _ _ _ _).1 e
        exact ⟨h', by omega, by omega⟩
    · obtain ⟨l', -, j, -, e, -⟩ := (hd _ _).1 hv
      exact h _ _ e
  obtain ⟨d, hd⟩ | ⟨d, hd⟩ | ⟨d, hd⟩ := regOf_cases c.w.d
  · have := lane .v d (by simp) (by simp [hd, RegId.plus, locOf]) (by simp [Ctx.dScalar, hd, RegId.isS])
    cases loc with
    | v m l => simp [this.1, toLanes, hd]
    | _ => simp [toLanes, hd, this.2]
  · have hs : c.dScalar = true := by simp [Ctx.dScalar, hd, RegId.isS]
    simp only [Ctx.dst, hs, if_true]
    cases ha : a with
    | nil => cases loc <;> simp [toLanes, hd]
    | cons l t =>
      simp only [List.map_cons]
      cases loc with
      | s m =>
        simp only [toLanes, hd, List.head?_cons, Option.map_some]
        split
        · rename_i h
          apply lastWrite_eq_some
          · exact mem_regWrites.2 ⟨m - d, by omega, by simp [hd, RegId.plus, locOf]; omega, rfl⟩
          · intro v' hv
            obtain ⟨j, hj, e, rfl⟩ := mem_regWrites.1 hv
            simp only [hd, RegId.plus, locOf, Loc.s.injEq] at e
            rw [show m - d = j by omega]
        · rename_i h
          refine lastWrite_eq_none fun v hv => h ?_
          obtain ⟨j, hj, e, -⟩ := mem_regWrites.1 hv
          simp only [hd, RegId.plus, locOf, Loc.s.injEq] at e
          omega
      | _ =>
        simp only [toLanes, hd]
        refine lastWrite_eq_none fun v hv => ?_
        obtain ⟨j, hj, e, -⟩ := mem_regWrites.1 hv
        simp [hd, RegId.plus, locOf] at e
  · have := lane .t d (by simp) (by simp [hd, RegId.plus, locOf]) (by simp [Ctx.dScalar, hd, RegId.isS])
    cases loc with
    | t m l => simp [this.1, toLanes, hd]
    | _ => simp [toLanes, hd, this.2]

/-- The last write of a mask result. -/
theorem lastWrite_mask (code : BitVec 8) (a : List Nat) (f : Nat → Bool) (loc : Loc) :
    lastWrite (maskWrites code (a.map (fun l => (l, f l)))) loc = toMask code a f loc := by
  have hm : ∀ loc v, (loc, v) ∈ maskWrites code (a.map (fun l => (l, f l))) ↔
      ∃ l ∈ a, loc = .k code.toNat l ∧ v = if f l then 1 else 0 := by
    intro loc v
    simp only [maskWrites, List.map_map, List.mem_map, Function.comp, Prod.mk.injEq]
    constructor
    · rintro ⟨l, h, rfl, rfl⟩; exact ⟨l, h, rfl, rfl⟩
    · rintro ⟨l, h, rfl, rfl⟩; exact ⟨l, h, rfl, rfl⟩
  cases loc with
  | k m l =>
    simp only [toMask]
    split
    · rename_i h
      apply lastWrite_eq_some
      · exact (hm _ _).2 ⟨l, h.2, by simp [h.1], rfl⟩
      · intro v' hv
        obtain ⟨l', -, e, rfl⟩ := (hm _ _).1 hv
        simp only [Loc.k.injEq] at e
        rw [e.2]
    · rename_i h
      refine lastWrite_eq_none fun v hv => h ?_
      obtain ⟨l', h', e, -⟩ := (hm _ _).1 hv
      simp only [Loc.k.injEq] at e
      exact ⟨e.1, e.2 ▸ h'⟩
  | _ =>
    refine lastWrite_eq_none fun v hv => ?_
    obtain ⟨l', -, e, -⟩ := (hm _ _).1 hv
    simp at e

/-! ## Issuing -/

variable {s : State} {k : Nat} {w : Warp} {r : Run} {op : Nat} {x : Word}

/-- A warp in focus issues: one SIMT instruction answers a next state. -/
theorem simt_next (h : s.Issues k w r) (f : Ctx → State → Eff × State) :
    simt op x f s = .next (issueNext k w r op x f s) := by
  simp only [simt, h.focus, h.here, h.flight]

theorem simtP_next (h : s.Issues k w r) (f : Ctx → Eff) :
    simtP op x f s = .next (setRun k (takeEff (ctxOf k w r op x) (f (ctxOf k w r op x))) s) := by
  simp only [simtP, simt_next h, issueNext]

theorem simtR_next (h : s.Issues k w r) (f : Ctx → State → Eff) :
    simtR op x f s = .next (setRun k (takeEff (ctxOf k w r op x) (f (ctxOf k w r op x) s)) s) := by
  simp only [simtR, simt_next h, issueNext]

@[simp] theorem ctxOf_wp : (ctxOf k w r op x).wp = w := rfl
@[simp] theorem ctxOf_run : (ctxOf k w r op x).run = r := rfl
@[simp] theorem ctxOf_op : (ctxOf k w r op x).op = op := rfl
@[simp] theorem ctxOf_w : (ctxOf k w r op x).w = x := rfl
@[simp] theorem ctxOf_key : (ctxOf k w r op x).key = k := rfl

/-- With nothing substituted the active lanes are those of the run whose guard holds (R92). -/
theorem ctxOf_act (h : w.subst = []) : (ctxOf k w r op x).act = (lanesOf r.lanes).filter (guardHolds w r x) := by
  simp [ctxOf, Warp.substFor, h]

theorem substFor_nil (h : w.subst = []) (addr off : Nat) : w.substFor addr off = [] := by
  simp [Warp.substFor, h]

theorem substWrites_nil (op : Nat) (x : Word) (regs : Nat) : substWrites op x regs [] = [] := by
  unfold substWrites
  simp only [List.map_nil, maskWrites]
  split
  · rfl
  · split <;> rfl

/-- The run after an effect, with nothing substituted. -/
theorem takeEff_plain (c : Ctx) (e : Eff) (h : c.wp.subst = []) :
    takeEff c e =
      { c.run with
        index := c.run.index + 1,
        log := (e.writes.map (fun y => ({ loc := y.1, idx := c.run.index, dist := distance c.op c.w, val := y.2 } : LogEntry))).reverse
          ++ c.run.log,
        held := c.run.held ++ e.held,
        term := e.term.or c.run.term,
        causes := c.run.causes ++ (e.causes ++ fpCause c e).map (fun y =>
          ({ off := c.off, code := y.1, detail := y.2.1, lanes := y.2.2, tdst := tdstOf c.op c.w (hdrRegs c.wp.hdr) } : Cause)),
        post := c.run.post ++ e.post.map (fun y =>
          ({ off := c.off, code := y.1, detail := y.2.1, lanes := y.2.2, tdst := tdstOf c.op c.w (hdrRegs c.wp.hdr) } : Cause)),
        faults := c.run.faults ++ e.faults,
        flags := c.run.flags ||| e.flags.foldl (fun m y => m ||| y.2) 0,
        smask := c.run.smask ||| e.smask,
        reads := c.run.reads ++ e.reads,
        errAt := if c.run.ue.isSome then c.run.errAt else c.run.faults.length,
        ue := (consumed c).or e.ue } := by
  unfold takeEff consumed
  simp only [substFor_nil h, List.filter_nil, substWrites_nil, List.append_nil, distance]
  cases e.term <;> cases c.run.ue <;> cases readsBad c <;> rfl

/-- An effect of results alone. -/
theorem results_of_writes {i : Instr} {f : Ctx → Eff} {ws : Ctx → List (Loc × W32)} {res : Ctx → Loc → Option W32}
    (hi : ∀ s, exec i s = simtP op x f s) (hf : ∀ c, f c = { writes := ws c })
    (hr : ∀ c : Ctx, c.w = x → ∀ loc, lastWrite (ws c) loc = res c loc) : Results i op x res := by
  intro s k w r h _
  refine ⟨_, logs_congr (logs_of_writes r (distance op x) (ws (ctxOf k w r op x))) (hr _ rfl), ?_⟩
  rw [hi, simtP_next h, takeEff_plain _ _ h.plain, hf]
  simp [fpCause, Run.movedOn]
  rfl

theorem or_and_flags (p q en : BitVec 7) : (p ||| q) &&& en = (p &&& en) ||| (q &&& en) := by
  ext i; simp [Bool.and_or_distrib_right]

/-- Flags gathered and then masked are the masked flags gathered. -/
theorem foldl_or_and (en : BitVec 7) (fl : Nat → BitVec 7) : ∀ (lanes : List Nat) (m : BitVec 7),
    lanes.foldl (fun m l => m ||| fl l) m &&& en = lanes.foldl (fun m l => m ||| (fl l &&& en)) (m &&& en)
  | [], _ => rfl
  | l :: lanes, m => by
    rw [List.foldl_cons, List.foldl_cons, foldl_or_and en fl lanes, or_and_flags]

/-- Flags no enabled bit of which is raised add nothing to the enabled ones. -/
theorem foldl_flags_and (en : BitVec 7) (fl : Nat → BitVec 7) (lanes : List Nat) (m : BitVec 7) :
    (lanes.foldl (fun m l => m ||| fl l) m) &&& en =
      ((lanes.filter (fun l => fl l &&& en ≠ 0)).foldl (fun m l => m ||| fl l) m) &&& en := by
  rw [foldl_or_and, foldl_or_and, List.foldl_filter]
  congr 1
  funext acc l
  split_ifs with h
  · rfl
  · rw [show fl l &&& en = 0 by simpa using h]; simp

/-- The cause an effect's lane flags raise. -/
theorem fpCause_eq (c : Ctx) (e : Eff) (fl : Nat → BitVec 7) (hop : c.op ≠ 0x61 ∧ c.op ≠ 0x62)
    (hf : e.flags = c.act.map (fun l => (l, fl l))) :
    (fpCause c e).map (fun y =>
      ({ off := c.off, code := y.1, detail := y.2.1, lanes := y.2.2, tdst := tdstOf c.op c.w (hdrRegs c.wp.hdr) } : Cause)) =
      fpCauses c fl := by
  have hfil : e.flags.filter (fun x => x.2 &&& hdrFpte c.wp.hdr ≠ 0) = (trapping c fl).map (fun l => (l, fl l)) := by
    rw [hf, List.filter_map]; rfl
  unfold fpCause fpCauses
  by_cases hh : c.wp.handler.isSome
  · simp [hh]
  · simp only [hh, Bool.false_eq_true, if_false, false_or]
    rw [hfil]
    by_cases ht : trapping c fl = []
    · simp [ht]
    · have he : ((trapping c fl).map (fun l => (l, fl l))).isEmpty = false := by
        cases h0 : trapping c fl with
        | nil => exact absurd h0 ht
        | cons a b => rfl
      rw [he]
      simp only [Bool.false_eq_true, if_false, ht, hop.1, hop.2, or_self, List.map_cons, List.map_nil, List.foldl_map,
        List.map_map, Function.comp_def, List.map_id']
      rw [allFlags, foldl_flags_and _ _ c.act]
      rfl

/-- An effect of results with the flags of every active lane. -/
theorem results_of_flags {i : Instr} {f : Ctx → Eff} {ws : Ctx → List (Loc × W32)} {fl : Ctx → Nat → BitVec 7}
    {res : Ctx → Loc → Option W32} (hop : op ≠ 0x61 ∧ op ≠ 0x62)
    (hi : ∀ s, exec i s = simtP op x f s)
    (hf : ∀ c, f c = { writes := ws c, flags := c.act.map (fun l => (l, fl c (c.once l))) })
    (hr : ∀ c : Ctx, c.w = x → ∀ loc, lastWrite (ws c) loc = res c loc) : FloatResults i op x (fun c _ => res c) (fun c _ => fl c) (fun s => s) := by
  intro s k w r h _
  refine ⟨_, logs_congr (logs_of_writes r (distance op x) (ws (ctxOf k w r op x))) (hr _ rfl), ?_⟩
  rw [hi, simtP_next h, takeEff_plain _ _ h.plain, hf]
  have e1 : ∀ (a : List Nat) (g : Nat → BitVec 7) (m : BitVec 7),
      (a.map (fun l => (l, g l))).foldl (fun m (y : Nat × BitVec 7) => m ||| y.2) m = a.foldl (fun m l => m ||| g l) m := by
    intro a g m; rw [List.foldl_map]
  have e2 := fpCause_eq (ctxOf k w r op x) (f (ctxOf k w r op x)) (fun l => fl (ctxOf k w r op x) ((ctxOf k w r op x).once l)) hop
    (by rw [hf])
  rw [hf] at e2
  simp only [List.nil_append, ctxOf_run, ctxOf_op, ctxOf_w, ctxOf_wp] at e2 ⊢
  rw [e1, e2]
  simp [allFlags, Run.movedOn]
  rfl

end Sys2Proof.Laws
end

