-- ==== Sys2Proof/Laws/Memory.lean ====
section
/-! SUPPORT. Laws of memory: what a byte reads after a write, and that every operation keeps the canonical form (log 2). -/

namespace Sys2Proof.Laws

open Sys2Proof.Machine

theorem above_mono {lo lo' : Nat} (h : lo' ≤ lo) : ∀ {m : Mem}, Mem.above lo m = true → Mem.above lo' m = true
  | [], _ => rfl
  | (a, b) :: t, hm => by
    simp only [Mem.above, Bool.and_eq_true, decide_eq_true_eq] at hm ⊢
    exact ⟨⟨by omega, hm.1.2⟩, hm.2⟩

/-- Below its first address a memory reads 0. -/
theorem get_below {lo a : Nat} (h : a < lo) : ∀ {m : Mem}, Mem.above lo m = true → Mem.get a m = 0
  | [], _ => rfl
  | (a', b) :: t, hm => by
    simp only [Mem.above, Bool.and_eq_true, decide_eq_true_eq] at hm
    have : a ≠ a' := by omega
    have : a < a' := by omega
    simp [Mem.get, *]

/-- A write keeps the canonical form. -/
theorem above_set {lo a : Nat} (b : Byte) (h : lo ≤ a) :
    ∀ {m : Mem}, Mem.above lo m = true → Mem.above lo (Mem.set a b m) = true
  | [], _ => by
    unfold Mem.set
    split
    · rfl
    · simp only [Mem.above, Bool.and_eq_true, decide_eq_true_eq]
      exact ⟨⟨h, ‹_›⟩, trivial⟩
  | (a', b') :: t, hm => by
    have hm0 := hm
    simp only [Mem.above, Bool.and_eq_true, decide_eq_true_eq] at hm
    unfold Mem.set
    split
    · split
      · exact hm0
      · simp only [Mem.above, Bool.and_eq_true, decide_eq_true_eq]
        exact ⟨⟨h, ‹_›⟩, ⟨by omega, hm.1.2⟩, hm.2⟩
    · split
      · subst_vars
        split
        · exact above_mono (by omega) hm.2
        · simp only [Mem.above, Bool.and_eq_true, decide_eq_true_eq]
          exact ⟨⟨h, ‹_›⟩, hm.2⟩
      · simp only [Mem.above, Bool.and_eq_true, decide_eq_true_eq]
        exact ⟨hm.1, above_set b (by omega) hm.2⟩

/-- A memory in canonical form keeps it under a write. -/
theorem wf_set {m : Mem} (h : m.wf = true) (a : Nat) (b : Byte) : (Mem.set a b m).wf = true := above_set b (Nat.zero_le a) h

/-- A byte reads what was written to it, and every other byte what it read before. -/
theorem get_set {lo : Nat} (a x : Nat) (b : Byte) :
    ∀ {m : Mem}, Mem.above lo m = true → Mem.get x (Mem.set a b m) = if x = a then b else Mem.get x m
  | [], _ => by
    unfold Mem.set
    split
    · subst_vars; simp [Mem.get]
    · simp only [Mem.get]
      split <;> simp_all
  | (a', b') :: t, hm => by
    simp only [Mem.above, Bool.and_eq_true, decide_eq_true_eq] at hm
    unfold Mem.set
    split
    · split
      · subst_vars
        by_cases hx : x = a
        · subst hx
          have : x ≠ a' := by omega
          simp [Mem.get, *]
        · simp [hx]
      · by_cases hx : x = a
        · simp [Mem.get, hx]
        · simp only [Mem.get, hx, if_false]
          by_cases hlt : x < a
          · have h1 : x ≠ a' := by omega
            have h2 : x < a' := by omega
            simp [hlt, h1, h2]
          · simp [hlt]
    · split
      · subst_vars
        split
        · subst_vars
          by_cases hx : x = a'
          · subst hx
            rw [if_pos rfl]
            exact get_below (Nat.lt_succ_self x) hm.2
          · simp only [Mem.get, hx, if_false]
            by_cases hlt : x < a'
            · rw [if_pos hlt]
              exact get_below (by omega) hm.2
            · rw [if_neg hlt]
        · by_cases hx : x = a' <;> simp [Mem.get, hx]
      · by_cases hx' : x = a'
        · subst hx'
          have : x ≠ a := by omega
          simp [Mem.get, this]
        · simp only [Mem.get, hx', if_false]
          by_cases hlt : x < a'
          · have : x ≠ a := by omega
            simp [hlt, this]
          · simp only [hlt, if_false]
            exact get_set a x b hm.2

/-- A write of consecutive bytes keeps the canonical form. -/
theorem wf_setBytes : ∀ (l : List Byte) {m : Mem} (a : Nat), m.wf = true → (m.setBytes a l).wf = true
  | [], _, _, h => h
  | b :: t, _, a, h => wf_setBytes t (a + 1) (wf_set h a b)

/-- Outside the bytes written nothing changes. -/
theorem get_setBytes_outside : ∀ (l : List Byte) {m : Mem} (a x : Nat), m.wf = true → (x < a ∨ a + l.length ≤ x) →
    Mem.get x (m.setBytes a l) = Mem.get x m
  | [], _, _, _, _, _ => rfl
  | b :: t, m, a, x, h, hx => by
    simp only [List.length_cons] at hx
    rw [Mem.setBytes, get_setBytes_outside t (a + 1) x (wf_set h a b) (by omega), get_set a x b h]
    have : x ≠ a := by omega
    simp [this]

/-- Byte `i` of the bytes written reads what was written. -/
theorem get_setBytes_inside : ∀ (l : List Byte) {m : Mem} (a i : Nat), m.wf = true → (hi : i < l.length) →
    Mem.get (a + i) (m.setBytes a l) = l[i]
  | [], _, _, _, _, hi => absurd hi (Nat.not_lt_zero _)
  | b :: t, m, a, 0, h, _ => by
    rw [Mem.setBytes, get_setBytes_outside t (a + 1) (a + 0) (wf_set h a b) (by omega), get_set a (a + 0) b h]
    simp
  | b :: t, m, a, i + 1, h, hi => by
    simp only [List.length_cons] at hi
    have := get_setBytes_inside t (a + 1) i (wf_set h a b) (by omega)
    rw [Mem.setBytes, show a + (i + 1) = a + 1 + i by omega, this]
    rfl

/-- A filtered memory keeps the canonical form. -/
theorem above_filter (p : Host.Cell → Bool) : ∀ {m : Mem} {lo : Nat}, Mem.above lo m = true → Mem.above lo (m.filter p) = true
  | [], _, h => h
  | (a, b) :: t, lo, h => by
    simp only [Mem.above, Bool.and_eq_true, decide_eq_true_eq] at h
    rw [List.filter_cons]
    split
    · simp only [Mem.above, Bool.and_eq_true, decide_eq_true_eq]
      exact ⟨h.1, above_filter p h.2⟩
    · exact above_mono (by omega) (above_filter p h.2)

/-- Clearing a range keeps the canonical form. -/
theorem wf_clear {m : Mem} (h : m.wf = true) (lo hi : Nat) : (m.clear lo hi).wf = true := above_filter _ h

/-- Cells moved down keep the canonical form. -/
theorem above_down (d : Nat) : ∀ {m : Mem} {lo : Nat}, d ≤ lo → Mem.above lo m = true →
    Mem.above (lo - d) (m.map (fun c => (c.1 - d, c.2))) = true
  | [], _, _, _ => rfl
  | (a, b) :: t, lo, hd, h => by
    simp only [Mem.above, Bool.and_eq_true, decide_eq_true_eq] at h
    have ht := above_down d (lo := a + 1) (by omega) h.2
    rw [Nat.sub_add_comm (by omega)] at ht
    simp only [List.map_cons, Mem.above, Bool.and_eq_true, decide_eq_true_eq]
    exact ⟨⟨by omega, h.1.2⟩, ht⟩

/-- A memory whose cells all lie at or above `d` is above `d`. -/
theorem above_of_forall {d : Nat} : ∀ {m : Mem} {lo : Nat}, Mem.above lo m = true → (∀ c ∈ m, d ≤ c.1) → Mem.above d m = true
  | [], _, _, _ => rfl
  | (a, b) :: t, lo, h, hm => by
    simp only [Mem.above, Bool.and_eq_true, decide_eq_true_eq] at h ⊢
    exact ⟨⟨hm (a, b) (List.mem_cons_self ..), h.1.2⟩, h.2⟩

/-- A range cut out of a memory, counted from its start, keeps the canonical form. -/
theorem wf_slice {m : Mem} (h : m.wf = true) (lo hi : Nat) : (m.slice lo hi).wf = true := by
  have h0 : Mem.above lo (m.filter (fun c => decide (lo ≤ c.1 ∧ c.1 < hi))) = true :=
    above_of_forall (above_filter _ h) (by simp only [List.mem_filter, decide_eq_true_eq]; exact fun c hc => hc.2.1)
  have h1 := above_down lo (Nat.le_refl lo) h0
  rw [Nat.sub_self] at h1
  exact h1

/-- Writing cells back keeps the canonical form. -/
theorem wf_paste : ∀ (c : Mem) {m : Mem} (lo : Nat), m.wf = true → (m.paste lo c).wf = true
  | [], _, _, h => h
  | (a, b) :: t, _, lo, h => wf_paste t lo (wf_set h (lo + a) b)

end Sys2Proof.Laws
end

