-- ==== Sys2Proof/Laws/Ops.lean ====
section
/-! SUPPORT. Laws of the shared operations over memory: what a read at a place gives after a write at a place, what a
write and a translation change, and that all of them keep the canonical form of every memory. -/

namespace Sys2Proof.Laws

open Sys2Proof.Machine

/-! ## Bytes of a memory -/

theorem bytes_length (m : Mem) : ∀ (n a : Nat), (m.bytes a n).length = n
  | 0, _ => rfl
  | n + 1, a => by simp [Mem.bytes, bytes_length m n (a + 1)]

theorem getElem_bytes (m : Mem) : ∀ (n a i : Nat) (h : i < (m.bytes a n).length), (m.bytes a n)[i] = Mem.get (a + i) m
  | n + 1, a, 0, _ => by simp [Mem.bytes]
  | n + 1, a, i + 1, h => by
    simp only [Mem.bytes, List.getElem_cons_succ]
    rw [getElem_bytes m n (a + 1) i]
    congr 1
    omega

/-- Bytes are equal where the memories read alike. -/
theorem bytes_congr {m m' : Mem} : ∀ (n a : Nat), (∀ i < n, Mem.get (a + i) m = Mem.get (a + i) m') → m.bytes a n = m'.bytes a n
  | 0, _, _ => rfl
  | n + 1, a, h => by
    have h0 : Mem.get a m = Mem.get a m' := h 0 (Nat.succ_pos n)
    have ht : m.bytes (a + 1) n = m'.bytes (a + 1) n := bytes_congr n (a + 1) (fun i hi => by
      have := h (i + 1) (by omega)
      rwa [show a + (i + 1) = a + 1 + i by omega] at this)
    simp only [Mem.bytes, h0, ht]

/-- The bytes written are the bytes read. -/
theorem bytes_setBytes_self {m : Mem} (h : m.wf = true) (a : Nat) (l : List Byte) : (m.setBytes a l).bytes a l.length = l := by
  apply List.ext_getElem
  · simp [bytes_length]
  · intro i h1 h2
    rw [getElem_bytes, get_setBytes_inside l a i h h2]

/-- Bytes apart from those written read as before. -/
theorem bytes_setBytes_apart {m : Mem} (h : m.wf = true) (a b n : Nat) (l : List Byte) (d : b + n ≤ a ∨ a + l.length ≤ b) :
    (m.setBytes a l).bytes b n = m.bytes b n :=
  bytes_congr n b (fun i hi => get_setBytes_outside l a (b + i) h (by omega))

/-! ## Places -/

theorem memWf_iff (s : State) : s.memWf = true ↔ s.dev.wf = true ∧ s.host.wf = true ∧ s.vault.wf = true ∧ s.scr.wf = true := by
  simp [State.memWf, and_assoc]

/-- A read depends on the four memories alone. -/
theorem readPlace_congr {s t : State} (p : Place) (n : Nat) (hd : t.dev = s.dev) (hh : t.host = s.host) (hv : t.vault = s.vault)
    (hs : t.scr = s.scr) : readPlace t p n = readPlace s p n := by
  cases p <;> simp [readPlace, hd, hh, hv, hs]

/-- Bytes stored at a place leave the three other memories as they were, and the fourth with those bytes. -/
theorem rawPoke_mem (p : Place) (l : List Byte) (s : State) :
    (rawPoke p l s).dev = (match p with | .dev a => s.dev.setBytes a l | _ => s.dev) ∧
    (rawPoke p l s).host = (match p with | .host a => s.host.setBytes a l | _ => s.host) ∧
    (rawPoke p l s).vault = (match p with | .vault a => s.vault.setBytes a l | _ => s.vault) ∧
    (rawPoke p l s).scr = (match p with | .scr a => s.scr.setBytes a l | _ => s.scr) := by
  cases p <;> simp [rawPoke, lineKey]

/-- The bytes stored at a place are the bytes read there. -/
theorem readPlace_rawPoke_self {s : State} (h : s.memWf = true) (p : Place) (l : List Byte) :
    readPlace (rawPoke p l s) p l.length = l := by
  obtain ⟨hd, hh, hv, hs⟩ := (memWf_iff s).1 h
  obtain ⟨ed, eh, ev, es⟩ := rawPoke_mem p l s
  cases p <;> simp [readPlace, bytes_setBytes_self, *]

/-- A byte that a store does not cover reads as before. -/
theorem readPlace_rawPoke_other {s : State} (h : s.memWf = true) (p r : Place) (l : List Byte)
    (d : ∀ i < l.length, r ≠ p.plus i) : readPlace (rawPoke p l s) r 1 = readPlace s r 1 := by
  obtain ⟨hd, hh, hv, hs⟩ := (memWf_iff s).1 h
  obtain ⟨ed, eh, ev, es⟩ := rawPoke_mem p l s
  have key : ∀ a b : Nat, (∀ i < l.length, b ≠ a + i) → b + 1 ≤ a ∨ a + l.length ≤ b := by
    intro a b hb
    by_contra hc
    exact hb (b - a) (by omega) (by omega)
  cases p <;> cases r <;> simp only [readPlace, Place.plus, ne_eq, Place.dev.injEq, Place.host.injEq,
    Place.vault.injEq, Place.scr.injEq, reduceCtorEq, not_false_eq_true, implies_true, ed, eh, ev, es] at d ⊢ <;>
    (apply bytes_setBytes_apart <;> first | assumption | exact key _ _ d)

/-- A store keeps the canonical form. -/
theorem memWf_rawPoke {s : State} (h : s.memWf = true) (p : Place) (l : List Byte) : (rawPoke p l s).memWf = true := by
  obtain ⟨hd, hh, hv, hs⟩ := (memWf_iff s).1 h
  obtain ⟨ed, eh, ev, es⟩ := rawPoke_mem p l s
  rw [memWf_iff, ed, eh, ev, es]
  cases p <;> simp [wf_setBytes, *]

@[simp] theorem readPlace_wakeFlags (s : State) (p : Place) (n : Nat) : readPlace (wakeFlags s) p n = readPlace s p n :=
  readPlace_congr p n rfl rfl rfl rfl
@[simp] theorem memWf_wakeFlags (s : State) : (wakeFlags s).memWf = s.memWf := rfl
@[simp] theorem readPlace_wakeJoins (q : Place) (s : State) (p : Place) (n : Nat) :
    readPlace (wakeJoins q s) p n = readPlace s p n := readPlace_congr p n rfl rfl rfl rfl
@[simp] theorem memWf_wakeJoins (q : Place) (s : State) : (wakeJoins q s).memWf = s.memWf := rfl

/-! ## Writes not yet performed (log 58) -/

theorem memWf_wakeZeros (p : Place) (n : Nat) (s : State) : (wakeZeros p n s).memWf = s.memWf := by
  unfold wakeZeros
  generalize wordsAt p n = l
  induction l generalizing s with
  | nil => rfl
  | cons q t ih => rw [List.foldl_cons, ih]; split <;> simp

/-- A write performed keeps the canonical form. -/
theorem memWf_performWrite {s : State} (h : s.memWf = true) (b : Buffered) : (performWrite b s).memWf = true := by
  simp only [performWrite]
  split
  · rw [memWf_wakeZeros, memWf_wakeFlags, memWf_rawPoke h]
  · rw [memWf_wakeFlags, memWf_rawPoke h]

/-- Performing writes one after another keeps the canonical form. -/
theorem memWf_performEach (l : List Buffered) {s : State} (h : s.memWf = true) :
    (l.foldl (fun s b => performWrite b s) s).memWf = true :=
  List.foldlRecOn l (fun s b => performWrite b s) (motive := fun t : State => t.memWf = true) h
    (fun _ ht b _ => memWf_performWrite ht b)

/-- Performing any of the waiting writes keeps the canonical form. -/
theorem memWf_performSome {s : State} (h : s.memWf = true) (want : Buffered → Bool) : (performSome want s).memWf = true :=
  memWf_performEach _ (by exact h)

/-- Where no waiting write is wanted, nothing is performed. -/
theorem performSome_none {s : State} {want : Buffered → Bool} (h : ∀ b ∈ s.buffer, want b = false) : performSome want s = s := by
  have go : ∀ b ∈ s.buffer, (want b || s.buffer.any (fun c => want c && c.together b)) = false := by
    intro b hb
    rw [h b hb, Bool.false_or, List.any_eq_false]
    intro c hc
    rw [h c hc]; simp
  have none : s.buffer.filter (fun b => want b || s.buffer.any (fun c => want c && c.together b)) = [] :=
    List.filter_eq_nil_iff.mpr (fun b hb => by simp [go b hb])
  have all : s.buffer.filter (fun b => !(want b || s.buffer.any (fun c => want c && c.together b))) = s.buffer :=
    List.filter_eq_self.mpr (fun b hb => by simp [go b hb])
  simp only [performSome, none, all, List.foldl_nil]

/-- With no write waiting, nothing is performed. -/
theorem performSome_nil {s : State} (h : s.buffer = []) (want : Buffered → Bool) : performSome want s = s :=
  performSome_none (by simp [h])

/-- With no write waiting on the bytes, there is nothing to settle. -/
theorem settlePlace_none {s : State} {p : Place} {n : Nat} (h : ∀ b ∈ s.buffer, overlaps p n b.place b.data.length = false) :
    settlePlace p n s = s := performSome_none h

theorem memWf_settlePlace {s : State} (h : s.memWf = true) (p : Place) (n : Nat) : (settlePlace p n s).memWf = true :=
  memWf_performSome h _

/-- The bytes written at a place are the bytes read there. -/
theorem readPlace_pokePlace_self {s : State} (h : s.memWf = true) (p : Place) (l : List Byte) :
    readPlace (pokePlace p l s) p l.length = l := readPlace_rawPoke_self (memWf_settlePlace h p l.length) p l

/-- A byte that a write does not cover reads as before, where no write waits on the bytes it covers. -/
theorem readPlace_pokePlace_other {s : State} (h : s.memWf = true) (p r : Place) (l : List Byte)
    (hb : ∀ b ∈ s.buffer, overlaps p l.length b.place b.data.length = false)
    (d : ∀ i < l.length, r ≠ p.plus i) : readPlace (pokePlace p l s) r 1 = readPlace s r 1 := by
  rw [pokePlace, settlePlace_none hb, readPlace_rawPoke_other h p r l d]

/-- A write keeps the canonical form. -/
theorem memWf_pokePlace {s : State} (h : s.memWf = true) (p : Place) (l : List Byte) : (pokePlace p l s).memWf = true :=
  memWf_rawPoke (memWf_settlePlace h p l.length) p l

theorem readPlace_writePlace_self {s : State} (h : s.memWf = true) (p : Place) (l : List Byte) :
    readPlace (writePlace p l s) p l.length = l := by rw [writePlace, readPlace_wakeFlags, readPlace_pokePlace_self h]

theorem readPlace_writePlace_other {s : State} (h : s.memWf = true) (p r : Place) (l : List Byte)
    (hb : ∀ b ∈ s.buffer, overlaps p l.length b.place b.data.length = false)
    (d : ∀ i < l.length, r ≠ p.plus i) : readPlace (writePlace p l s) r 1 = readPlace s r 1 := by
  rw [writePlace, readPlace_wakeFlags, readPlace_pokePlace_other h p r l hb d]

theorem memWf_writePlace {s : State} (h : s.memWf = true) (p : Place) (l : List Byte) : (writePlace p l s).memWf = true := by
  rw [writePlace, memWf_wakeFlags, memWf_pokePlace h]

/-- Bytes of a path no longer held older change no memory. -/
@[simp] theorem memWf_dropStale (path : Path) (p : Place) (n : Nat) (s : State) : (dropStale path p n s).memWf = s.memWf := rfl

theorem memWf_waitWrite {s : State} (h : s.memWf = true) (b : Buffered) : (waitWrite b s).memWf = true :=
  memWf_performSome h _

/-- A write, made at once or left waiting, keeps the canonical form. -/
theorem memWf_makeWrite {s : State} (h : s.memWf = true) (b : Buffered) : (makeWrite b s).memWf = true := by
  simp only [makeWrite]
  split
  · exact memWf_waitWrite (by rwa [memWf_dropStale]) b
  · exact memWf_writePlace (by rwa [memWf_dropStale]) _ _

/-- A write that may wait keeps the canonical form. -/
theorem memWf_laterWrite {s : State} (h : s.memWf = true) (path : Path) (unit : Nat) (strong : Bool) (p : Place)
    (l : List Byte) : (laterWrite path unit strong p l s).memWf = true := memWf_makeWrite h _

/-- With no write waiting on the place, the bytes a warp reads there are the bytes of memory. -/
theorem viewPlace_none {s : State} {p : Place} {n : Nat} (h : ∀ b ∈ s.buffer, overlaps p n b.place b.data.length = false)
    (k : Nat) : viewPlace s k p n = readPlace s p n := by
  have : s.buffer.filter (fun b => ownWrite k b && overlaps p n b.place b.data.length) = [] :=
    List.filter_eq_nil_iff.mpr (fun b hb => by simp [h b hb])
  simp only [viewPlace, this, List.foldl_nil]

/-! ## Little-endian numbers -/

theorem leBytes_length : ∀ n x : Nat, (leBytes n x).length = n
  | 0, _ => rfl
  | n + 1, x => by simp [leBytes, leBytes_length n]

theorem leNat_leBytes : ∀ n x : Nat, leNat (leBytes n x) = x % 256 ^ n
  | 0, x => by simp [leBytes, leNat, Nat.mod_one]
  | n + 1, x => by
    have e : (BitVec.ofNat 8 x).toNat = x % 256 := by simp
    rw [leBytes, leNat, leNat_leBytes n, e, Nat.pow_succ, Nat.mul_comm (256 ^ n), Nat.mod_mul]

theorem read64_writePlace {s : State} (h : s.memWf = true) (p : Place) (v : W64) :
    read64 (writePlace p (leBytes 8 v.toNat) s) p = v := by
  have := readPlace_writePlace_self h p (leBytes 8 v.toNat)
  rw [leBytes_length] at this
  rw [read64, readNat, this, leNat_leBytes]
  apply BitVec.eq_of_toNat_eq
  have := v.isLt
  simp only [BitVec.toNat_ofNat]
  omega

/-- An indivisible access answers the old value and leaves the new one, where no write waits on its word. -/
theorem read64_rmw64 {s : State} (h : s.memWf = true) (p : Place) (f : W64 → W64)
    (hb : ∀ b ∈ s.buffer, overlaps p 8 b.place b.data.length = false) :
    (rmw64 p f s).1 = read64 s p ∧ read64 (rmw64 p f s).2 p = f (read64 s p) := by
  simp only [rmw64, settlePlace_none hb]
  split
  · rename_i e
    refine ⟨rfl, ?_⟩
    rw [e]
    simp only
    split
    · rw [read64, readNat, readPlace_wakeJoins]; rfl
    · rfl
  · refine ⟨rfl, ?_⟩
    simp only
    split
    · rw [read64, readNat, readPlace_wakeJoins]
      exact read64_writePlace h p _
    · exact read64_writePlace h p _

theorem readPlace_rmw64_other {s : State} (h : s.memWf = true) (p r : Place) (f : W64 → W64)
    (hb : ∀ b ∈ s.buffer, overlaps p 8 b.place b.data.length = false) (d : ∀ i < 8, r ≠ p.plus i) :
    readPlace (rmw64 p f s).2 r 1 = readPlace s r 1 := by
  simp only [rmw64, settlePlace_none hb]
  have := readPlace_writePlace_other h p r (leBytes 8 (f (read64 s p)).toNat) (by rwa [leBytes_length]) (by rwa [leBytes_length])
  split
  · simp only
    split
    · rw [readPlace_wakeJoins]
    · rfl
  · simp only
    split
    · rwa [readPlace_wakeJoins]
    · exact this

theorem memWf_rmw64 {s : State} (h : s.memWf = true) (p : Place) (f : W64 → W64) : (rmw64 p f s).2.memWf = true := by
  simp only [rmw64]
  split
  · simp only
    split
    · rw [memWf_wakeJoins]; exact h
    · exact h
  · simp only
    split
    · rw [memWf_wakeJoins]; exact memWf_writePlace (memWf_settlePlace h p 8) p _
    · exact memWf_writePlace (memWf_settlePlace h p 8) p _

/-! ## Translation -/

/-- What a translation leaves behind. -/
inductive Walked (x : Xlate) (asn va : Nat) (write : Bool) (s : State) : State → Prop where
  | untouched : Walked x asn va write s s
  | cached (e : TlbEntry) : Walked x asn va write s (fillTlbs x e s)
  | forgotten : Walked x asn va write s (dropTlbs x asn va s)
  | replaced (e : TlbEntry) : Walked x asn va write s (fillTlbs x e (dropTlbs x asn va s))
  | found (e : TlbEntry) (seen : List (Nat × BitVec 64)) : Walked x asn va write s (fillTlbs x e (setAccessed write seen s))

/-- A translation leaves one of these behind, and nothing else. -/
theorem translate_walked (x : Xlate) (sp : Space) (va : Nat) (write fetch : Bool) (path : Path) (s : State) :
    Walked x sp.asn va write s (translate x sp va write fetch path s).2 := by
  rw [Machine.translate]
  split_ifs
  · constructor
  · dsimp only
    split
    · constructor
    · split
      · dsimp only
        split
        · constructor
        · split_ifs <;> constructor
      · split <;> constructor

/-- A state differs from another by the walker's bits in device memory, the launch lines they touch and the translation caches
alone. -/
def WalkerOnly (s t : State) : Prop :=
  t = { s with dev := t.dev, badDev := t.badDev, launchLines := t.launchLines, coreTlb := t.coreTlb, dieTlb := t.dieTlb }

theorem walkerOnly_self (s : State) : WalkerOnly s s := rfl

theorem walkerOnly_fillTlbs {s t : State} (h : WalkerOnly s t) (x : Xlate) (e : TlbEntry) : WalkerOnly s (fillTlbs x e t) := by
  rw [WalkerOnly] at h ⊢
  rw [h]
  cases x <;> rfl

theorem walkerOnly_dropTlbs (s : State) (x : Xlate) (asn va : Nat) : WalkerOnly s (dropTlbs x asn va s) := by
  cases x <;> rfl

/-- The walker's bits, with no write waiting. -/
theorem walkerOnly_setAccessed (write : Bool) (seen : List (Nat × BitVec 64)) {s : State} (hs : s.buffer = []) :
    WalkerOnly s (setAccessed write seen s) := by
  refine List.foldlRecOn seen _ (motive := WalkerOnly s) rfl fun t ht y _ => ?_
  have quiet : t.buffer = [] := by rw [ht]; exact hs
  generalize (y.2 ||| 16 ||| (if write && pteLeaf y.2 then 32 else 0) : BitVec 64) = bits
  simp only
  split
  · exact ht
  · rw [pokePlace, settlePlace, performSome_nil quiet, WalkerOnly, ht]
    rfl

/-- A translation changes nothing but the walker's bits in device memory and the two translation caches, with no write
waiting. -/
theorem translate_frame (x : Xlate) (sp : Space) (va : Nat) (write fetch : Bool) (path : Path) {s : State}
    (hs : s.buffer = []) : WalkerOnly s (translate x sp va write fetch path s).2 := by
  have done := translate_walked x sp va write fetch path s
  generalize (Machine.translate x sp va write fetch path s).2 = t at done ⊢
  cases done with
  | untouched => exact walkerOnly_self s
  | cached e => exact walkerOnly_fillTlbs (walkerOnly_self s) x e
  | forgotten => exact walkerOnly_dropTlbs s x _ _
  | replaced e => exact walkerOnly_fillTlbs (walkerOnly_dropTlbs s x _ _) x e
  | found e seen => exact walkerOnly_fillTlbs (walkerOnly_setAccessed write seen hs) x e

@[simp] theorem memWf_fillTlbs (x : Xlate) (e : TlbEntry) (s : State) : (fillTlbs x e s).memWf = s.memWf := by cases x <;> rfl
@[simp] theorem memWf_dropTlbs (x : Xlate) (asn va : Nat) (s : State) : (dropTlbs x asn va s).memWf = s.memWf := by
  cases x <;> rfl

theorem memWf_setAccessed (write : Bool) (seen : List (Nat × BitVec 64)) {s : State} (h : s.memWf = true) :
    (setAccessed write seen s).memWf = true :=
  List.foldlRecOn seen _ (motive := fun t : State => t.memWf = true) h fun t ht y _ => by
    generalize (y.2 ||| 16 ||| (if write && pteLeaf y.2 then 32 else 0) : BitVec 64) = bits
    simp only
    split
    · exact ht
    · exact memWf_pokePlace ht _ _

/-- A translation keeps the canonical form of every memory. -/
theorem memWf_translate (x : Xlate) (sp : Space) (va : Nat) (write fetch : Bool) (path : Path) {s : State} (h : s.memWf = true) :
    (translate x sp va write fetch path s).2.memWf = true := by
  have done := translate_walked x sp va write fetch path s
  generalize (Machine.translate x sp va write fetch path s).2 = t at done ⊢
  cases done <;> simp [h, memWf_setAccessed]

end Sys2Proof.Laws
end

