-- ==== Sys2Proof/Laws/State.lean ====
section
/-! SUPPORT. What every named update of the state leaves in every field: one lemma per field per update, true by rfl. -/

namespace Sys2Proof.Laws

open Sys2Proof.Machine

variable (s : State)

/-! ## modWarp -/

@[simp] theorem modWarp_clock (k : Nat) (f : Warp → Warp) : (modWarp k f s).clock = s.clock := rfl
@[simp] theorem modWarp_power (k : Nat) (f : Warp → Warp) : (modWarp k f s).power = s.power := rfl
@[simp] theorem modWarp_powerCap (k : Nat) (f : Warp → Warp) : (modWarp k f s).powerCap = s.powerCap := rfl
@[simp] theorem modWarp_withheld (k : Nat) (f : Warp → Warp) : (modWarp k f s).withheld = s.withheld := rfl
@[simp] theorem modWarp_rateLimited (k : Nat) (f : Warp → Warp) : (modWarp k f s).rateLimited = s.rateLimited := rfl
@[simp] theorem modWarp_idleSince (k : Nat) (f : Warp → Warp) : (modWarp k f s).idleSince = s.idleSince := rfl
@[simp] theorem modWarp_packageNo (k : Nat) (f : Warp → Warp) : (modWarp k f s).packageNo = s.packageNo := rfl
@[simp] theorem modWarp_routes (k : Nat) (f : Warp → Warp) : (modWarp k f s).routes = s.routes := rfl
@[simp] theorem modWarp_segDir (k : Nat) (f : Warp → Warp) : (modWarp k f s).segDir = s.segDir := rfl
@[simp] theorem modWarp_savePool (k : Nat) (f : Warp → Warp) : (modWarp k f s).savePool = s.savePool := rfl
@[simp] theorem modWarp_poolUsed (k : Nat) (f : Warp → Warp) : (modWarp k f s).poolUsed = s.poolUsed := rfl
@[simp] theorem modWarp_counters (k : Nat) (f : Warp → Warp) : (modWarp k f s).counters = s.counters := rfl
@[simp] theorem modWarp_marks (k : Nat) (f : Warp → Warp) : (modWarp k f s).marks = s.marks := rfl
@[simp] theorem modWarp_drainInterval (k : Nat) (f : Warp → Warp) : (modWarp k f s).drainInterval = s.drainInterval := rfl
@[simp] theorem modWarp_mailLog (k : Nat) (f : Warp → Warp) : (modWarp k f s).mailLog = s.mailLog := rfl
@[simp] theorem modWarp_mailReply (k : Nat) (f : Warp → Warp) : (modWarp k f s).mailReply = s.mailReply := rfl
@[simp] theorem modWarp_coresOut (k : Nat) (f : Warp → Warp) : (modWarp k f s).coresOut = s.coresOut := rfl
@[simp] theorem modWarp_scanning (k : Nat) (f : Warp → Warp) : (modWarp k f s).scanning = s.scanning := rfl
@[simp] theorem modWarp_patch (k : Nat) (f : Warp → Warp) : (modWarp k f s).patch = s.patch := rfl
@[simp] theorem modWarp_msix (k : Nat) (f : Warp → Warp) : (modWarp k f s).msix = s.msix := rfl
@[simp] theorem modWarp_dev (k : Nat) (f : Warp → Warp) : (modWarp k f s).dev = s.dev := rfl
@[simp] theorem modWarp_host (k : Nat) (f : Warp → Warp) : (modWarp k f s).host = s.host := rfl
@[simp] theorem modWarp_vault (k : Nat) (f : Warp → Warp) : (modWarp k f s).vault = s.vault := rfl
@[simp] theorem modWarp_scr (k : Nat) (f : Warp → Warp) : (modWarp k f s).scr = s.scr := rfl
@[simp] theorem modWarp_scrFull (k : Nat) (f : Warp → Warp) : (modWarp k f s).scrFull = s.scrFull := rfl
@[simp] theorem modWarp_badDev (k : Nat) (f : Warp → Warp) : (modWarp k f s).badDev = s.badDev := rfl
@[simp] theorem modWarp_badVault (k : Nat) (f : Warp → Warp) : (modWarp k f s).badVault = s.badVault := rfl
@[simp] theorem modWarp_launchLines (k : Nat) (f : Warp → Warp) : (modWarp k f s).launchLines = s.launchLines := rfl
@[simp] theorem modWarp_handles (k : Nat) (f : Warp → Warp) : (modWarp k f s).handles = s.handles := rfl
@[simp] theorem modWarp_coreTlb (k : Nat) (f : Warp → Warp) : (modWarp k f s).coreTlb = s.coreTlb := rfl
@[simp] theorem modWarp_dieTlb (k : Nat) (f : Warp → Warp) : (modWarp k f s).dieTlb = s.dieTlb := rfl
@[simp] theorem modWarp_l1 (k : Nat) (f : Warp → Warp) : (modWarp k f s).l1 = s.l1 := rfl
@[simp] theorem modWarp_icache (k : Nat) (f : Warp → Warp) : (modWarp k f s).icache = s.icache := rfl
@[simp] theorem modWarp_fetches (k : Nat) (f : Warp → Warp) : (modWarp k f s).fetches = s.fetches := rfl
@[simp] theorem modWarp_fqBase (k : Nat) (f : Warp → Warp) : (modWarp k f s).fqBase = s.fqBase := rfl
@[simp] theorem modWarp_fqProd (k : Nat) (f : Warp → Warp) : (modWarp k f s).fqProd = s.fqProd := rfl
@[simp] theorem modWarp_fqCons (k : Nat) (f : Warp → Warp) : (modWarp k f s).fqCons = s.fqCons := rfl
@[simp] theorem modWarp_fqArmed (k : Nat) (f : Warp → Warp) : (modWarp k f s).fqArmed = s.fqArmed := rfl
@[simp] theorem modWarp_faultWaits (k : Nat) (f : Warp → Warp) : (modWarp k f s).faultWaits = s.faultWaits := rfl
@[simp] theorem modWarp_nextKey (k : Nat) (f : Warp → Warp) : (modWarp k f s).nextKey = s.nextKey := rfl
@[simp] theorem modWarp_eddy (k : Nat) (f : Warp → Warp) : (modWarp k f s).eddy = s.eddy := rfl
@[simp] theorem modWarp_latch (k : Nat) (f : Warp → Warp) : (modWarp k f s).latch = s.latch := rfl
@[simp] theorem modWarp_hook (k : Nat) (f : Warp → Warp) : (modWarp k f s).hook = s.hook := rfl
@[simp] theorem modWarp_taken (k : Nat) (f : Warp → Warp) : (modWarp k f s).taken = s.taken := rfl
@[simp] theorem modWarp_cmds (k : Nat) (f : Warp → Warp) : (modWarp k f s).cmds = s.cmds := rfl
@[simp] theorem modWarp_nextCmd (k : Nat) (f : Warp → Warp) : (modWarp k f s).nextCmd = s.nextCmd := rfl
@[simp] theorem modWarp_hookStore (k : Nat) (f : Warp → Warp) : (modWarp k f s).hookStore = s.hookStore := rfl
@[simp] theorem modWarp_captures (k : Nat) (f : Warp → Warp) : (modWarp k f s).captures = s.captures := rfl
@[simp] theorem modWarp_encSlots (k : Nat) (f : Warp → Warp) : (modWarp k f s).encSlots = s.encSlots := rfl
@[simp] theorem modWarp_encFault (k : Nat) (f : Warp → Warp) : (modWarp k f s).encFault = s.encFault := rfl
@[simp] theorem modWarp_launches (k : Nat) (f : Warp → Warp) : (modWarp k f s).launches = s.launches := rfl
@[simp] theorem modWarp_gangs (k : Nat) (f : Warp → Warp) : (modWarp k f s).gangs = s.gangs := rfl
@[simp] theorem modWarp_nextGang (k : Nat) (f : Warp → Warp) : (modWarp k f s).nextGang = s.nextGang := rfl
@[simp] theorem modWarp_warps (k : Nat) (f : Warp → Warp) : (modWarp k f s).warps = adjust k f s.warps := rfl
@[simp] theorem modWarp_parts (k : Nat) (f : Warp → Warp) : (modWarp k f s).parts = s.parts := rfl
@[simp] theorem modWarp_copies (k : Nat) (f : Warp → Warp) : (modWarp k f s).copies = s.copies := rfl
@[simp] theorem modWarp_nextCopy (k : Nat) (f : Warp → Warp) : (modWarp k f s).nextCopy = s.nextCopy := rfl
@[simp] theorem modWarp_saved (k : Nat) (f : Warp → Warp) : (modWarp k f s).saved = s.saved := rfl
@[simp] theorem modWarp_savedLoose (k : Nat) (f : Warp → Warp) : (modWarp k f s).savedLoose = s.savedLoose := rfl
@[simp] theorem modWarp_queues (k : Nat) (f : Warp → Warp) : (modWarp k f s).queues = s.queues := rfl
@[simp] theorem modWarp_entering (k : Nat) (f : Warp → Warp) : (modWarp k f s).entering = s.entering := rfl
@[simp] theorem modWarp_riskSince (k : Nat) (f : Warp → Warp) : (modWarp k f s).riskSince = s.riskSince := rfl
@[simp] theorem modWarp_reservedFor (k : Nat) (f : Warp → Warp) : (modWarp k f s).reservedFor = s.reservedFor := rfl
@[simp] theorem modWarp_weirs (k : Nat) (f : Warp → Warp) : (modWarp k f s).weirs = s.weirs := rfl
@[simp] theorem modWarp_rills (k : Nat) (f : Warp → Warp) : (modWarp k f s).rills = s.rills := rfl
@[simp] theorem modWarp_pkts (k : Nat) (f : Warp → Warp) : (modWarp k f s).pkts = s.pkts := rfl
@[simp] theorem modWarp_nextPkt (k : Nat) (f : Warp → Warp) : (modWarp k f s).nextPkt = s.nextPkt := rfl
@[simp] theorem modWarp_outbox (k : Nat) (f : Warp → Warp) : (modWarp k f s).outbox = s.outbox := rfl
@[simp] theorem modWarp_colls (k : Nat) (f : Warp → Warp) : (modWarp k f s).colls = s.colls := rfl
@[simp] theorem modWarp_agenda (k : Nat) (f : Warp → Warp) : (modWarp k f s).agenda = s.agenda := rfl
@[simp] theorem modWarp_focus (k : Nat) (f : Warp → Warp) : (modWarp k f s).focus = s.focus := rfl
@[simp] theorem modWarp_free (k : Nat) (f : Warp → Warp) : (modWarp k f s).free = s.free := rfl
@[simp] theorem modWarp_drainedAt (k : Nat) (f : Warp → Warp) : (modWarp k f s).drainedAt = s.drainedAt := rfl
@[simp] theorem modWarp_badScr (k : Nat) (f : Warp → Warp) : (modWarp k f s).badScr = s.badScr := rfl
@[simp] theorem modWarp_badHost (k : Nat) (f : Warp → Warp) : (modWarp k f s).badHost = s.badHost := rfl
@[simp] theorem modWarp_scrNow (k : Nat) (f : Warp → Warp) : (modWarp k f s).scrNow = s.scrNow := rfl
@[simp] theorem modWarp_buffer (k : Nat) (f : Warp → Warp) : (modWarp k f s).buffer = s.buffer := rfl
@[simp] theorem modWarp_lag (k : Nat) (f : Warp → Warp) : (modWarp k f s).lag = s.lag := rfl
@[simp] theorem modWarp_portHeld (k : Nat) (f : Warp → Warp) : (modWarp k f s).portHeld = s.portHeld := rfl
@[simp] theorem modWarp_unread (k : Nat) (f : Warp → Warp) : (modWarp k f s).unread = s.unread := rfl
@[simp] theorem modWarp_lastQueue (k : Nat) (f : Warp → Warp) : (modWarp k f s).lastQueue = s.lastQueue := rfl
@[simp] theorem modWarp_encError (k : Nat) (f : Warp → Warp) : (modWarp k f s).encError = s.encError := rfl
@[simp] theorem modWarp_weirTurn (k : Nat) (f : Warp → Warp) : (modWarp k f s).weirTurn = s.weirTurn := rfl
@[simp] theorem modWarp_sendTurn (k : Nat) (f : Warp → Warp) : (modWarp k f s).sendTurn = s.sendTurn := rfl
@[simp] theorem modWarp_stale (k : Nat) (f : Warp → Warp) : (modWarp k f s).stale = s.stale := rfl
@[simp] theorem modWarp_turns (k : Nat) (f : Warp → Warp) : (modWarp k f s).turns = s.turns := rfl
@[simp] theorem modWarp_unmapped (k : Nat) (f : Warp → Warp) : (modWarp k f s).unmapped = s.unmapped := rfl
@[simp] theorem modWarp_badLines (k : Nat) (f : Warp → Warp) : (modWarp k f s).badLines = s.badLines := rfl

/-! ## setRun -/

@[simp] theorem setRun_clock (k : Nat) (r : Run) : (setRun k r s).clock = s.clock := rfl
@[simp] theorem setRun_power (k : Nat) (r : Run) : (setRun k r s).power = s.power := rfl
@[simp] theorem setRun_powerCap (k : Nat) (r : Run) : (setRun k r s).powerCap = s.powerCap := rfl
@[simp] theorem setRun_withheld (k : Nat) (r : Run) : (setRun k r s).withheld = s.withheld := rfl
@[simp] theorem setRun_rateLimited (k : Nat) (r : Run) : (setRun k r s).rateLimited = s.rateLimited := rfl
@[simp] theorem setRun_idleSince (k : Nat) (r : Run) : (setRun k r s).idleSince = s.idleSince := rfl
@[simp] theorem setRun_packageNo (k : Nat) (r : Run) : (setRun k r s).packageNo = s.packageNo := rfl
@[simp] theorem setRun_routes (k : Nat) (r : Run) : (setRun k r s).routes = s.routes := rfl
@[simp] theorem setRun_segDir (k : Nat) (r : Run) : (setRun k r s).segDir = s.segDir := rfl
@[simp] theorem setRun_savePool (k : Nat) (r : Run) : (setRun k r s).savePool = s.savePool := rfl
@[simp] theorem setRun_poolUsed (k : Nat) (r : Run) : (setRun k r s).poolUsed = s.poolUsed := rfl
@[simp] theorem setRun_counters (k : Nat) (r : Run) : (setRun k r s).counters = s.counters := rfl
@[simp] theorem setRun_marks (k : Nat) (r : Run) : (setRun k r s).marks = s.marks := rfl
@[simp] theorem setRun_drainInterval (k : Nat) (r : Run) : (setRun k r s).drainInterval = s.drainInterval := rfl
@[simp] theorem setRun_mailLog (k : Nat) (r : Run) : (setRun k r s).mailLog = s.mailLog := rfl
@[simp] theorem setRun_mailReply (k : Nat) (r : Run) : (setRun k r s).mailReply = s.mailReply := rfl
@[simp] theorem setRun_coresOut (k : Nat) (r : Run) : (setRun k r s).coresOut = s.coresOut := rfl
@[simp] theorem setRun_scanning (k : Nat) (r : Run) : (setRun k r s).scanning = s.scanning := rfl
@[simp] theorem setRun_patch (k : Nat) (r : Run) : (setRun k r s).patch = s.patch := rfl
@[simp] theorem setRun_msix (k : Nat) (r : Run) : (setRun k r s).msix = s.msix := rfl
@[simp] theorem setRun_dev (k : Nat) (r : Run) : (setRun k r s).dev = s.dev := rfl
@[simp] theorem setRun_host (k : Nat) (r : Run) : (setRun k r s).host = s.host := rfl
@[simp] theorem setRun_vault (k : Nat) (r : Run) : (setRun k r s).vault = s.vault := rfl
@[simp] theorem setRun_scr (k : Nat) (r : Run) : (setRun k r s).scr = s.scr := rfl
@[simp] theorem setRun_scrFull (k : Nat) (r : Run) : (setRun k r s).scrFull = s.scrFull := rfl
@[simp] theorem setRun_badDev (k : Nat) (r : Run) : (setRun k r s).badDev = s.badDev := rfl
@[simp] theorem setRun_badVault (k : Nat) (r : Run) : (setRun k r s).badVault = s.badVault := rfl
@[simp] theorem setRun_launchLines (k : Nat) (r : Run) : (setRun k r s).launchLines = s.launchLines := rfl
@[simp] theorem setRun_handles (k : Nat) (r : Run) : (setRun k r s).handles = s.handles := rfl
@[simp] theorem setRun_coreTlb (k : Nat) (r : Run) : (setRun k r s).coreTlb = s.coreTlb := rfl
@[simp] theorem setRun_dieTlb (k : Nat) (r : Run) : (setRun k r s).dieTlb = s.dieTlb := rfl
@[simp] theorem setRun_l1 (k : Nat) (r : Run) : (setRun k r s).l1 = s.l1 := rfl
@[simp] theorem setRun_icache (k : Nat) (r : Run) : (setRun k r s).icache = s.icache := rfl
@[simp] theorem setRun_fetches (k : Nat) (r : Run) : (setRun k r s).fetches = s.fetches := rfl
@[simp] theorem setRun_fqBase (k : Nat) (r : Run) : (setRun k r s).fqBase = s.fqBase := rfl
@[simp] theorem setRun_fqProd (k : Nat) (r : Run) : (setRun k r s).fqProd = s.fqProd := rfl
@[simp] theorem setRun_fqCons (k : Nat) (r : Run) : (setRun k r s).fqCons = s.fqCons := rfl
@[simp] theorem setRun_fqArmed (k : Nat) (r : Run) : (setRun k r s).fqArmed = s.fqArmed := rfl
@[simp] theorem setRun_faultWaits (k : Nat) (r : Run) : (setRun k r s).faultWaits = s.faultWaits := rfl
@[simp] theorem setRun_nextKey (k : Nat) (r : Run) : (setRun k r s).nextKey = s.nextKey := rfl
@[simp] theorem setRun_eddy (k : Nat) (r : Run) : (setRun k r s).eddy = s.eddy := rfl
@[simp] theorem setRun_latch (k : Nat) (r : Run) : (setRun k r s).latch = s.latch := rfl
@[simp] theorem setRun_hook (k : Nat) (r : Run) : (setRun k r s).hook = s.hook := rfl
@[simp] theorem setRun_taken (k : Nat) (r : Run) : (setRun k r s).taken = s.taken := rfl
@[simp] theorem setRun_cmds (k : Nat) (r : Run) : (setRun k r s).cmds = s.cmds := rfl
@[simp] theorem setRun_nextCmd (k : Nat) (r : Run) : (setRun k r s).nextCmd = s.nextCmd := rfl
@[simp] theorem setRun_hookStore (k : Nat) (r : Run) : (setRun k r s).hookStore = s.hookStore := rfl
@[simp] theorem setRun_captures (k : Nat) (r : Run) : (setRun k r s).captures = s.captures := rfl
@[simp] theorem setRun_encSlots (k : Nat) (r : Run) : (setRun k r s).encSlots = s.encSlots := rfl
@[simp] theorem setRun_encFault (k : Nat) (r : Run) : (setRun k r s).encFault = s.encFault := rfl
@[simp] theorem setRun_launches (k : Nat) (r : Run) : (setRun k r s).launches = s.launches := rfl
@[simp] theorem setRun_gangs (k : Nat) (r : Run) : (setRun k r s).gangs = s.gangs := rfl
@[simp] theorem setRun_nextGang (k : Nat) (r : Run) : (setRun k r s).nextGang = s.nextGang := rfl
@[simp] theorem setRun_warps (k : Nat) (r : Run) : (setRun k r s).warps = adjust k (fun w => { w with run := some r }) s.warps := rfl
@[simp] theorem setRun_parts (k : Nat) (r : Run) : (setRun k r s).parts = s.parts := rfl
@[simp] theorem setRun_copies (k : Nat) (r : Run) : (setRun k r s).copies = s.copies := rfl
@[simp] theorem setRun_nextCopy (k : Nat) (r : Run) : (setRun k r s).nextCopy = s.nextCopy := rfl
@[simp] theorem setRun_saved (k : Nat) (r : Run) : (setRun k r s).saved = s.saved := rfl
@[simp] theorem setRun_savedLoose (k : Nat) (r : Run) : (setRun k r s).savedLoose = s.savedLoose := rfl
@[simp] theorem setRun_queues (k : Nat) (r : Run) : (setRun k r s).queues = s.queues := rfl
@[simp] theorem setRun_entering (k : Nat) (r : Run) : (setRun k r s).entering = s.entering := rfl
@[simp] theorem setRun_riskSince (k : Nat) (r : Run) : (setRun k r s).riskSince = s.riskSince := rfl
@[simp] theorem setRun_reservedFor (k : Nat) (r : Run) : (setRun k r s).reservedFor = s.reservedFor := rfl
@[simp] theorem setRun_weirs (k : Nat) (r : Run) : (setRun k r s).weirs = s.weirs := rfl
@[simp] theorem setRun_rills (k : Nat) (r : Run) : (setRun k r s).rills = s.rills := rfl
@[simp] theorem setRun_pkts (k : Nat) (r : Run) : (setRun k r s).pkts = s.pkts := rfl
@[simp] theorem setRun_nextPkt (k : Nat) (r : Run) : (setRun k r s).nextPkt = s.nextPkt := rfl
@[simp] theorem setRun_outbox (k : Nat) (r : Run) : (setRun k r s).outbox = s.outbox := rfl
@[simp] theorem setRun_colls (k : Nat) (r : Run) : (setRun k r s).colls = s.colls := rfl
@[simp] theorem setRun_agenda (k : Nat) (r : Run) : (setRun k r s).agenda = s.agenda := rfl
@[simp] theorem setRun_focus (k : Nat) (r : Run) : (setRun k r s).focus = s.focus := rfl
@[simp] theorem setRun_free (k : Nat) (r : Run) : (setRun k r s).free = s.free := rfl
@[simp] theorem setRun_drainedAt (k : Nat) (r : Run) : (setRun k r s).drainedAt = s.drainedAt := rfl
@[simp] theorem setRun_badScr (k : Nat) (r : Run) : (setRun k r s).badScr = s.badScr := rfl
@[simp] theorem setRun_badHost (k : Nat) (r : Run) : (setRun k r s).badHost = s.badHost := rfl
@[simp] theorem setRun_scrNow (k : Nat) (r : Run) : (setRun k r s).scrNow = s.scrNow := rfl
@[simp] theorem setRun_buffer (k : Nat) (r : Run) : (setRun k r s).buffer = s.buffer := rfl
@[simp] theorem setRun_lag (k : Nat) (r : Run) : (setRun k r s).lag = s.lag := rfl
@[simp] theorem setRun_portHeld (k : Nat) (r : Run) : (setRun k r s).portHeld = s.portHeld := rfl
@[simp] theorem setRun_unread (k : Nat) (r : Run) : (setRun k r s).unread = s.unread := rfl
@[simp] theorem setRun_lastQueue (k : Nat) (r : Run) : (setRun k r s).lastQueue = s.lastQueue := rfl
@[simp] theorem setRun_encError (k : Nat) (r : Run) : (setRun k r s).encError = s.encError := rfl
@[simp] theorem setRun_weirTurn (k : Nat) (r : Run) : (setRun k r s).weirTurn = s.weirTurn := rfl
@[simp] theorem setRun_sendTurn (k : Nat) (r : Run) : (setRun k r s).sendTurn = s.sendTurn := rfl
@[simp] theorem setRun_stale (k : Nat) (r : Run) : (setRun k r s).stale = s.stale := rfl
@[simp] theorem setRun_turns (k : Nat) (r : Run) : (setRun k r s).turns = s.turns := rfl
@[simp] theorem setRun_unmapped (k : Nat) (r : Run) : (setRun k r s).unmapped = s.unmapped := rfl
@[simp] theorem setRun_badLines (k : Nat) (r : Run) : (setRun k r s).badLines = s.badLines := rfl

/-! ## modGang -/

@[simp] theorem modGang_clock (g : Nat) (f : Gang → Gang) : (modGang g f s).clock = s.clock := rfl
@[simp] theorem modGang_power (g : Nat) (f : Gang → Gang) : (modGang g f s).power = s.power := rfl
@[simp] theorem modGang_powerCap (g : Nat) (f : Gang → Gang) : (modGang g f s).powerCap = s.powerCap := rfl
@[simp] theorem modGang_withheld (g : Nat) (f : Gang → Gang) : (modGang g f s).withheld = s.withheld := rfl
@[simp] theorem modGang_rateLimited (g : Nat) (f : Gang → Gang) : (modGang g f s).rateLimited = s.rateLimited := rfl
@[simp] theorem modGang_idleSince (g : Nat) (f : Gang → Gang) : (modGang g f s).idleSince = s.idleSince := rfl
@[simp] theorem modGang_packageNo (g : Nat) (f : Gang → Gang) : (modGang g f s).packageNo = s.packageNo := rfl
@[simp] theorem modGang_routes (g : Nat) (f : Gang → Gang) : (modGang g f s).routes = s.routes := rfl
@[simp] theorem modGang_segDir (g : Nat) (f : Gang → Gang) : (modGang g f s).segDir = s.segDir := rfl
@[simp] theorem modGang_savePool (g : Nat) (f : Gang → Gang) : (modGang g f s).savePool = s.savePool := rfl
@[simp] theorem modGang_poolUsed (g : Nat) (f : Gang → Gang) : (modGang g f s).poolUsed = s.poolUsed := rfl
@[simp] theorem modGang_counters (g : Nat) (f : Gang → Gang) : (modGang g f s).counters = s.counters := rfl
@[simp] theorem modGang_marks (g : Nat) (f : Gang → Gang) : (modGang g f s).marks = s.marks := rfl
@[simp] theorem modGang_drainInterval (g : Nat) (f : Gang → Gang) : (modGang g f s).drainInterval = s.drainInterval := rfl
@[simp] theorem modGang_mailLog (g : Nat) (f : Gang → Gang) : (modGang g f s).mailLog = s.mailLog := rfl
@[simp] theorem modGang_mailReply (g : Nat) (f : Gang → Gang) : (modGang g f s).mailReply = s.mailReply := rfl
@[simp] theorem modGang_coresOut (g : Nat) (f : Gang → Gang) : (modGang g f s).coresOut = s.coresOut := rfl
@[simp] theorem modGang_scanning (g : Nat) (f : Gang → Gang) : (modGang g f s).scanning = s.scanning := rfl
@[simp] theorem modGang_patch (g : Nat) (f : Gang → Gang) : (modGang g f s).patch = s.patch := rfl
@[simp] theorem modGang_msix (g : Nat) (f : Gang → Gang) : (modGang g f s).msix = s.msix := rfl
@[simp] theorem modGang_dev (g : Nat) (f : Gang → Gang) : (modGang g f s).dev = s.dev := rfl
@[simp] theorem modGang_host (g : Nat) (f : Gang → Gang) : (modGang g f s).host = s.host := rfl
@[simp] theorem modGang_vault (g : Nat) (f : Gang → Gang) : (modGang g f s).vault = s.vault := rfl
@[simp] theorem modGang_scr (g : Nat) (f : Gang → Gang) : (modGang g f s).scr = s.scr := rfl
@[simp] theorem modGang_scrFull (g : Nat) (f : Gang → Gang) : (modGang g f s).scrFull = s.scrFull := rfl
@[simp] theorem modGang_badDev (g : Nat) (f : Gang → Gang) : (modGang g f s).badDev = s.badDev := rfl
@[simp] theorem modGang_badVault (g : Nat) (f : Gang → Gang) : (modGang g f s).badVault = s.badVault := rfl
@[simp] theorem modGang_launchLines (g : Nat) (f : Gang → Gang) : (modGang g f s).launchLines = s.launchLines := rfl
@[simp] theorem modGang_handles (g : Nat) (f : Gang → Gang) : (modGang g f s).handles = s.handles := rfl
@[simp] theorem modGang_coreTlb (g : Nat) (f : Gang → Gang) : (modGang g f s).coreTlb = s.coreTlb := rfl
@[simp] theorem modGang_dieTlb (g : Nat) (f : Gang → Gang) : (modGang g f s).dieTlb = s.dieTlb := rfl
@[simp] theorem modGang_l1 (g : Nat) (f : Gang → Gang) : (modGang g f s).l1 = s.l1 := rfl
@[simp] theorem modGang_icache (g : Nat) (f : Gang → Gang) : (modGang g f s).icache = s.icache := rfl
@[simp] theorem modGang_fetches (g : Nat) (f : Gang → Gang) : (modGang g f s).fetches = s.fetches := rfl
@[simp] theorem modGang_fqBase (g : Nat) (f : Gang → Gang) : (modGang g f s).fqBase = s.fqBase := rfl
@[simp] theorem modGang_fqProd (g : Nat) (f : Gang → Gang) : (modGang g f s).fqProd = s.fqProd := rfl
@[simp] theorem modGang_fqCons (g : Nat) (f : Gang → Gang) : (modGang g f s).fqCons = s.fqCons := rfl
@[simp] theorem modGang_fqArmed (g : Nat) (f : Gang → Gang) : (modGang g f s).fqArmed = s.fqArmed := rfl
@[simp] theorem modGang_faultWaits (g : Nat) (f : Gang → Gang) : (modGang g f s).faultWaits = s.faultWaits := rfl
@[simp] theorem modGang_nextKey (g : Nat) (f : Gang → Gang) : (modGang g f s).nextKey = s.nextKey := rfl
@[simp] theorem modGang_eddy (g : Nat) (f : Gang → Gang) : (modGang g f s).eddy = s.eddy := rfl
@[simp] theorem modGang_latch (g : Nat) (f : Gang → Gang) : (modGang g f s).latch = s.latch := rfl
@[simp] theorem modGang_hook (g : Nat) (f : Gang → Gang) : (modGang g f s).hook = s.hook := rfl
@[simp] theorem modGang_taken (g : Nat) (f : Gang → Gang) : (modGang g f s).taken = s.taken := rfl
@[simp] theorem modGang_cmds (g : Nat) (f : Gang → Gang) : (modGang g f s).cmds = s.cmds := rfl
@[simp] theorem modGang_nextCmd (g : Nat) (f : Gang → Gang) : (modGang g f s).nextCmd = s.nextCmd := rfl
@[simp] theorem modGang_hookStore (g : Nat) (f : Gang → Gang) : (modGang g f s).hookStore = s.hookStore := rfl
@[simp] theorem modGang_captures (g : Nat) (f : Gang → Gang) : (modGang g f s).captures = s.captures := rfl
@[simp] theorem modGang_encSlots (g : Nat) (f : Gang → Gang) : (modGang g f s).encSlots = s.encSlots := rfl
@[simp] theorem modGang_encFault (g : Nat) (f : Gang → Gang) : (modGang g f s).encFault = s.encFault := rfl
@[simp] theorem modGang_launches (g : Nat) (f : Gang → Gang) : (modGang g f s).launches = s.launches := rfl
@[simp] theorem modGang_gangs (g : Nat) (f : Gang → Gang) : (modGang g f s).gangs = adjust g f s.gangs := rfl
@[simp] theorem modGang_nextGang (g : Nat) (f : Gang → Gang) : (modGang g f s).nextGang = s.nextGang := rfl
@[simp] theorem modGang_warps (g : Nat) (f : Gang → Gang) : (modGang g f s).warps = s.warps := rfl
@[simp] theorem modGang_parts (g : Nat) (f : Gang → Gang) : (modGang g f s).parts = s.parts := rfl
@[simp] theorem modGang_copies (g : Nat) (f : Gang → Gang) : (modGang g f s).copies = s.copies := rfl
@[simp] theorem modGang_nextCopy (g : Nat) (f : Gang → Gang) : (modGang g f s).nextCopy = s.nextCopy := rfl
@[simp] theorem modGang_saved (g : Nat) (f : Gang → Gang) : (modGang g f s).saved = s.saved := rfl
@[simp] theorem modGang_savedLoose (g : Nat) (f : Gang → Gang) : (modGang g f s).savedLoose = s.savedLoose := rfl
@[simp] theorem modGang_queues (g : Nat) (f : Gang → Gang) : (modGang g f s).queues = s.queues := rfl
@[simp] theorem modGang_entering (g : Nat) (f : Gang → Gang) : (modGang g f s).entering = s.entering := rfl
@[simp] theorem modGang_riskSince (g : Nat) (f : Gang → Gang) : (modGang g f s).riskSince = s.riskSince := rfl
@[simp] theorem modGang_reservedFor (g : Nat) (f : Gang → Gang) : (modGang g f s).reservedFor = s.reservedFor := rfl
@[simp] theorem modGang_weirs (g : Nat) (f : Gang → Gang) : (modGang g f s).weirs = s.weirs := rfl
@[simp] theorem modGang_rills (g : Nat) (f : Gang → Gang) : (modGang g f s).rills = s.rills := rfl
@[simp] theorem modGang_pkts (g : Nat) (f : Gang → Gang) : (modGang g f s).pkts = s.pkts := rfl
@[simp] theorem modGang_nextPkt (g : Nat) (f : Gang → Gang) : (modGang g f s).nextPkt = s.nextPkt := rfl
@[simp] theorem modGang_outbox (g : Nat) (f : Gang → Gang) : (modGang g f s).outbox = s.outbox := rfl
@[simp] theorem modGang_colls (g : Nat) (f : Gang → Gang) : (modGang g f s).colls = s.colls := rfl
@[simp] theorem modGang_agenda (g : Nat) (f : Gang → Gang) : (modGang g f s).agenda = s.agenda := rfl
@[simp] theorem modGang_focus (g : Nat) (f : Gang → Gang) : (modGang g f s).focus = s.focus := rfl
@[simp] theorem modGang_free (g : Nat) (f : Gang → Gang) : (modGang g f s).free = s.free := rfl
@[simp] theorem modGang_drainedAt (g : Nat) (f : Gang → Gang) : (modGang g f s).drainedAt = s.drainedAt := rfl
@[simp] theorem modGang_badScr (g : Nat) (f : Gang → Gang) : (modGang g f s).badScr = s.badScr := rfl
@[simp] theorem modGang_badHost (g : Nat) (f : Gang → Gang) : (modGang g f s).badHost = s.badHost := rfl
@[simp] theorem modGang_scrNow (g : Nat) (f : Gang → Gang) : (modGang g f s).scrNow = s.scrNow := rfl
@[simp] theorem modGang_buffer (g : Nat) (f : Gang → Gang) : (modGang g f s).buffer = s.buffer := rfl
@[simp] theorem modGang_lag (g : Nat) (f : Gang → Gang) : (modGang g f s).lag = s.lag := rfl
@[simp] theorem modGang_portHeld (g : Nat) (f : Gang → Gang) : (modGang g f s).portHeld = s.portHeld := rfl
@[simp] theorem modGang_unread (g : Nat) (f : Gang → Gang) : (modGang g f s).unread = s.unread := rfl
@[simp] theorem modGang_lastQueue (g : Nat) (f : Gang → Gang) : (modGang g f s).lastQueue = s.lastQueue := rfl
@[simp] theorem modGang_encError (g : Nat) (f : Gang → Gang) : (modGang g f s).encError = s.encError := rfl
@[simp] theorem modGang_weirTurn (g : Nat) (f : Gang → Gang) : (modGang g f s).weirTurn = s.weirTurn := rfl
@[simp] theorem modGang_sendTurn (g : Nat) (f : Gang → Gang) : (modGang g f s).sendTurn = s.sendTurn := rfl
@[simp] theorem modGang_stale (g : Nat) (f : Gang → Gang) : (modGang g f s).stale = s.stale := rfl
@[simp] theorem modGang_turns (g : Nat) (f : Gang → Gang) : (modGang g f s).turns = s.turns := rfl
@[simp] theorem modGang_unmapped (g : Nat) (f : Gang → Gang) : (modGang g f s).unmapped = s.unmapped := rfl
@[simp] theorem modGang_badLines (g : Nat) (f : Gang → Gang) : (modGang g f s).badLines = s.badLines := rfl

/-! ## modLaunch -/

@[simp] theorem modLaunch_clock (l : Nat) (f : Launch → Launch) : (modLaunch l f s).clock = s.clock := rfl
@[simp] theorem modLaunch_power (l : Nat) (f : Launch → Launch) : (modLaunch l f s).power = s.power := rfl
@[simp] theorem modLaunch_powerCap (l : Nat) (f : Launch → Launch) : (modLaunch l f s).powerCap = s.powerCap := rfl
@[simp] theorem modLaunch_withheld (l : Nat) (f : Launch → Launch) : (modLaunch l f s).withheld = s.withheld := rfl
@[simp] theorem modLaunch_rateLimited (l : Nat) (f : Launch → Launch) : (modLaunch l f s).rateLimited = s.rateLimited := rfl
@[simp] theorem modLaunch_idleSince (l : Nat) (f : Launch → Launch) : (modLaunch l f s).idleSince = s.idleSince := rfl
@[simp] theorem modLaunch_packageNo (l : Nat) (f : Launch → Launch) : (modLaunch l f s).packageNo = s.packageNo := rfl
@[simp] theorem modLaunch_routes (l : Nat) (f : Launch → Launch) : (modLaunch l f s).routes = s.routes := rfl
@[simp] theorem modLaunch_segDir (l : Nat) (f : Launch → Launch) : (modLaunch l f s).segDir = s.segDir := rfl
@[simp] theorem modLaunch_savePool (l : Nat) (f : Launch → Launch) : (modLaunch l f s).savePool = s.savePool := rfl
@[simp] theorem modLaunch_poolUsed (l : Nat) (f : Launch → Launch) : (modLaunch l f s).poolUsed = s.poolUsed := rfl
@[simp] theorem modLaunch_counters (l : Nat) (f : Launch → Launch) : (modLaunch l f s).counters = s.counters := rfl
@[simp] theorem modLaunch_marks (l : Nat) (f : Launch → Launch) : (modLaunch l f s).marks = s.marks := rfl
@[simp] theorem modLaunch_drainInterval (l : Nat) (f : Launch → Launch) : (modLaunch l f s).drainInterval = s.drainInterval := rfl
@[simp] theorem modLaunch_mailLog (l : Nat) (f : Launch → Launch) : (modLaunch l f s).mailLog = s.mailLog := rfl
@[simp] theorem modLaunch_mailReply (l : Nat) (f : Launch → Launch) : (modLaunch l f s).mailReply = s.mailReply := rfl
@[simp] theorem modLaunch_coresOut (l : Nat) (f : Launch → Launch) : (modLaunch l f s).coresOut = s.coresOut := rfl
@[simp] theorem modLaunch_scanning (l : Nat) (f : Launch → Launch) : (modLaunch l f s).scanning = s.scanning := rfl
@[simp] theorem modLaunch_patch (l : Nat) (f : Launch → Launch) : (modLaunch l f s).patch = s.patch := rfl
@[simp] theorem modLaunch_msix (l : Nat) (f : Launch → Launch) : (modLaunch l f s).msix = s.msix := rfl
@[simp] theorem modLaunch_dev (l : Nat) (f : Launch → Launch) : (modLaunch l f s).dev = s.dev := rfl
@[simp] theorem modLaunch_host (l : Nat) (f : Launch → Launch) : (modLaunch l f s).host = s.host := rfl
@[simp] theorem modLaunch_vault (l : Nat) (f : Launch → Launch) : (modLaunch l f s).vault = s.vault := rfl
@[simp] theorem modLaunch_scr (l : Nat) (f : Launch → Launch) : (modLaunch l f s).scr = s.scr := rfl
@[simp] theorem modLaunch_scrFull (l : Nat) (f : Launch → Launch) : (modLaunch l f s).scrFull = s.scrFull := rfl
@[simp] theorem modLaunch_badDev (l : Nat) (f : Launch → Launch) : (modLaunch l f s).badDev = s.badDev := rfl
@[simp] theorem modLaunch_badVault (l : Nat) (f : Launch → Launch) : (modLaunch l f s).badVault = s.badVault := rfl
@[simp] theorem modLaunch_launchLines (l : Nat) (f : Launch → Launch) : (modLaunch l f s).launchLines = s.launchLines := rfl
@[simp] theorem modLaunch_handles (l : Nat) (f : Launch → Launch) : (modLaunch l f s).handles = s.handles := rfl
@[simp] theorem modLaunch_coreTlb (l : Nat) (f : Launch → Launch) : (modLaunch l f s).coreTlb = s.coreTlb := rfl
@[simp] theorem modLaunch_dieTlb (l : Nat) (f : Launch → Launch) : (modLaunch l f s).dieTlb = s.dieTlb := rfl
@[simp] theorem modLaunch_l1 (l : Nat) (f : Launch → Launch) : (modLaunch l f s).l1 = s.l1 := rfl
@[simp] theorem modLaunch_icache (l : Nat) (f : Launch → Launch) : (modLaunch l f s).icache = s.icache := rfl
@[simp] theorem modLaunch_fetches (l : Nat) (f : Launch → Launch) : (modLaunch l f s).fetches = s.fetches := rfl
@[simp] theorem modLaunch_fqBase (l : Nat) (f : Launch → Launch) : (modLaunch l f s).fqBase = s.fqBase := rfl
@[simp] theorem modLaunch_fqProd (l : Nat) (f : Launch → Launch) : (modLaunch l f s).fqProd = s.fqProd := rfl
@[simp] theorem modLaunch_fqCons (l : Nat) (f : Launch → Launch) : (modLaunch l f s).fqCons = s.fqCons := rfl
@[simp] theorem modLaunch_fqArmed (l : Nat) (f : Launch → Launch) : (modLaunch l f s).fqArmed = s.fqArmed := rfl
@[simp] theorem modLaunch_faultWaits (l : Nat) (f : Launch → Launch) : (modLaunch l f s).faultWaits = s.faultWaits := rfl
@[simp] theorem modLaunch_nextKey (l : Nat) (f : Launch → Launch) : (modLaunch l f s).nextKey = s.nextKey := rfl
@[simp] theorem modLaunch_eddy (l : Nat) (f : Launch → Launch) : (modLaunch l f s).eddy = s.eddy := rfl
@[simp] theorem modLaunch_latch (l : Nat) (f : Launch → Launch) : (modLaunch l f s).latch = s.latch := rfl
@[simp] theorem modLaunch_hook (l : Nat) (f : Launch → Launch) : (modLaunch l f s).hook = s.hook := rfl
@[simp] theorem modLaunch_taken (l : Nat) (f : Launch → Launch) : (modLaunch l f s).taken = s.taken := rfl
@[simp] theorem modLaunch_cmds (l : Nat) (f : Launch → Launch) : (modLaunch l f s).cmds = s.cmds := rfl
@[simp] theorem modLaunch_nextCmd (l : Nat) (f : Launch → Launch) : (modLaunch l f s).nextCmd = s.nextCmd := rfl
@[simp] theorem modLaunch_hookStore (l : Nat) (f : Launch → Launch) : (modLaunch l f s).hookStore = s.hookStore := rfl
@[simp] theorem modLaunch_captures (l : Nat) (f : Launch → Launch) : (modLaunch l f s).captures = s.captures := rfl
@[simp] theorem modLaunch_encSlots (l : Nat) (f : Launch → Launch) : (modLaunch l f s).encSlots = s.encSlots := rfl
@[simp] theorem modLaunch_encFault (l : Nat) (f : Launch → Launch) : (modLaunch l f s).encFault = s.encFault := rfl
@[simp] theorem modLaunch_launches (l : Nat) (f : Launch → Launch) : (modLaunch l f s).launches = adjust l f s.launches := rfl
@[simp] theorem modLaunch_gangs (l : Nat) (f : Launch → Launch) : (modLaunch l f s).gangs = s.gangs := rfl
@[simp] theorem modLaunch_nextGang (l : Nat) (f : Launch → Launch) : (modLaunch l f s).nextGang = s.nextGang := rfl
@[simp] theorem modLaunch_warps (l : Nat) (f : Launch → Launch) : (modLaunch l f s).warps = s.warps := rfl
@[simp] theorem modLaunch_parts (l : Nat) (f : Launch → Launch) : (modLaunch l f s).parts = s.parts := rfl
@[simp] theorem modLaunch_copies (l : Nat) (f : Launch → Launch) : (modLaunch l f s).copies = s.copies := rfl
@[simp] theorem modLaunch_nextCopy (l : Nat) (f : Launch → Launch) : (modLaunch l f s).nextCopy = s.nextCopy := rfl
@[simp] theorem modLaunch_saved (l : Nat) (f : Launch → Launch) : (modLaunch l f s).saved = s.saved := rfl
@[simp] theorem modLaunch_savedLoose (l : Nat) (f : Launch → Launch) : (modLaunch l f s).savedLoose = s.savedLoose := rfl
@[simp] theorem modLaunch_queues (l : Nat) (f : Launch → Launch) : (modLaunch l f s).queues = s.queues := rfl
@[simp] theorem modLaunch_entering (l : Nat) (f : Launch → Launch) : (modLaunch l f s).entering = s.entering := rfl
@[simp] theorem modLaunch_riskSince (l : Nat) (f : Launch → Launch) : (modLaunch l f s).riskSince = s.riskSince := rfl
@[simp] theorem modLaunch_reservedFor (l : Nat) (f : Launch → Launch) : (modLaunch l f s).reservedFor = s.reservedFor := rfl
@[simp] theorem modLaunch_weirs (l : Nat) (f : Launch → Launch) : (modLaunch l f s).weirs = s.weirs := rfl
@[simp] theorem modLaunch_rills (l : Nat) (f : Launch → Launch) : (modLaunch l f s).rills = s.rills := rfl
@[simp] theorem modLaunch_pkts (l : Nat) (f : Launch → Launch) : (modLaunch l f s).pkts = s.pkts := rfl
@[simp] theorem modLaunch_nextPkt (l : Nat) (f : Launch → Launch) : (modLaunch l f s).nextPkt = s.nextPkt := rfl
@[simp] theorem modLaunch_outbox (l : Nat) (f : Launch → Launch) : (modLaunch l f s).outbox = s.outbox := rfl
@[simp] theorem modLaunch_colls (l : Nat) (f : Launch → Launch) : (modLaunch l f s).colls = s.colls := rfl
@[simp] theorem modLaunch_agenda (l : Nat) (f : Launch → Launch) : (modLaunch l f s).agenda = s.agenda := rfl
@[simp] theorem modLaunch_focus (l : Nat) (f : Launch → Launch) : (modLaunch l f s).focus = s.focus := rfl
@[simp] theorem modLaunch_free (l : Nat) (f : Launch → Launch) : (modLaunch l f s).free = s.free := rfl
@[simp] theorem modLaunch_drainedAt (l : Nat) (f : Launch → Launch) : (modLaunch l f s).drainedAt = s.drainedAt := rfl
@[simp] theorem modLaunch_badScr (l : Nat) (f : Launch → Launch) : (modLaunch l f s).badScr = s.badScr := rfl
@[simp] theorem modLaunch_badHost (l : Nat) (f : Launch → Launch) : (modLaunch l f s).badHost = s.badHost := rfl
@[simp] theorem modLaunch_scrNow (l : Nat) (f : Launch → Launch) : (modLaunch l f s).scrNow = s.scrNow := rfl
@[simp] theorem modLaunch_buffer (l : Nat) (f : Launch → Launch) : (modLaunch l f s).buffer = s.buffer := rfl
@[simp] theorem modLaunch_lag (l : Nat) (f : Launch → Launch) : (modLaunch l f s).lag = s.lag := rfl
@[simp] theorem modLaunch_portHeld (l : Nat) (f : Launch → Launch) : (modLaunch l f s).portHeld = s.portHeld := rfl
@[simp] theorem modLaunch_unread (l : Nat) (f : Launch → Launch) : (modLaunch l f s).unread = s.unread := rfl
@[simp] theorem modLaunch_lastQueue (l : Nat) (f : Launch → Launch) : (modLaunch l f s).lastQueue = s.lastQueue := rfl
@[simp] theorem modLaunch_encError (l : Nat) (f : Launch → Launch) : (modLaunch l f s).encError = s.encError := rfl
@[simp] theorem modLaunch_weirTurn (l : Nat) (f : Launch → Launch) : (modLaunch l f s).weirTurn = s.weirTurn := rfl
@[simp] theorem modLaunch_sendTurn (l : Nat) (f : Launch → Launch) : (modLaunch l f s).sendTurn = s.sendTurn := rfl
@[simp] theorem modLaunch_stale (l : Nat) (f : Launch → Launch) : (modLaunch l f s).stale = s.stale := rfl
@[simp] theorem modLaunch_turns (l : Nat) (f : Launch → Launch) : (modLaunch l f s).turns = s.turns := rfl
@[simp] theorem modLaunch_unmapped (l : Nat) (f : Launch → Launch) : (modLaunch l f s).unmapped = s.unmapped := rfl
@[simp] theorem modLaunch_badLines (l : Nat) (f : Launch → Launch) : (modLaunch l f s).badLines = s.badLines := rfl

/-! ## modPart -/

@[simp] theorem modPart_clock (p : Nat) (f : Part → Part) : (modPart p f s).clock = s.clock := rfl
@[simp] theorem modPart_power (p : Nat) (f : Part → Part) : (modPart p f s).power = s.power := rfl
@[simp] theorem modPart_powerCap (p : Nat) (f : Part → Part) : (modPart p f s).powerCap = s.powerCap := rfl
@[simp] theorem modPart_withheld (p : Nat) (f : Part → Part) : (modPart p f s).withheld = s.withheld := rfl
@[simp] theorem modPart_rateLimited (p : Nat) (f : Part → Part) : (modPart p f s).rateLimited = s.rateLimited := rfl
@[simp] theorem modPart_idleSince (p : Nat) (f : Part → Part) : (modPart p f s).idleSince = s.idleSince := rfl
@[simp] theorem modPart_packageNo (p : Nat) (f : Part → Part) : (modPart p f s).packageNo = s.packageNo := rfl
@[simp] theorem modPart_routes (p : Nat) (f : Part → Part) : (modPart p f s).routes = s.routes := rfl
@[simp] theorem modPart_segDir (p : Nat) (f : Part → Part) : (modPart p f s).segDir = s.segDir := rfl
@[simp] theorem modPart_savePool (p : Nat) (f : Part → Part) : (modPart p f s).savePool = s.savePool := rfl
@[simp] theorem modPart_poolUsed (p : Nat) (f : Part → Part) : (modPart p f s).poolUsed = s.poolUsed := rfl
@[simp] theorem modPart_counters (p : Nat) (f : Part → Part) : (modPart p f s).counters = s.counters := rfl
@[simp] theorem modPart_marks (p : Nat) (f : Part → Part) : (modPart p f s).marks = s.marks := rfl
@[simp] theorem modPart_drainInterval (p : Nat) (f : Part → Part) : (modPart p f s).drainInterval = s.drainInterval := rfl
@[simp] theorem modPart_mailLog (p : Nat) (f : Part → Part) : (modPart p f s).mailLog = s.mailLog := rfl
@[simp] theorem modPart_mailReply (p : Nat) (f : Part → Part) : (modPart p f s).mailReply = s.mailReply := rfl
@[simp] theorem modPart_coresOut (p : Nat) (f : Part → Part) : (modPart p f s).coresOut = s.coresOut := rfl
@[simp] theorem modPart_scanning (p : Nat) (f : Part → Part) : (modPart p f s).scanning = s.scanning := rfl
@[simp] theorem modPart_patch (p : Nat) (f : Part → Part) : (modPart p f s).patch = s.patch := rfl
@[simp] theorem modPart_msix (p : Nat) (f : Part → Part) : (modPart p f s).msix = s.msix := rfl
@[simp] theorem modPart_dev (p : Nat) (f : Part → Part) : (modPart p f s).dev = s.dev := rfl
@[simp] theorem modPart_host (p : Nat) (f : Part → Part) : (modPart p f s).host = s.host := rfl
@[simp] theorem modPart_vault (p : Nat) (f : Part → Part) : (modPart p f s).vault = s.vault := rfl
@[simp] theorem modPart_scr (p : Nat) (f : Part → Part) : (modPart p f s).scr = s.scr := rfl
@[simp] theorem modPart_scrFull (p : Nat) (f : Part → Part) : (modPart p f s).scrFull = s.scrFull := rfl
@[simp] theorem modPart_badDev (p : Nat) (f : Part → Part) : (modPart p f s).badDev = s.badDev := rfl
@[simp] theorem modPart_badVault (p : Nat) (f : Part → Part) : (modPart p f s).badVault = s.badVault := rfl
@[simp] theorem modPart_launchLines (p : Nat) (f : Part → Part) : (modPart p f s).launchLines = s.launchLines := rfl
@[simp] theorem modPart_handles (p : Nat) (f : Part → Part) : (modPart p f s).handles = s.handles := rfl
@[simp] theorem modPart_coreTlb (p : Nat) (f : Part → Part) : (modPart p f s).coreTlb = s.coreTlb := rfl
@[simp] theorem modPart_dieTlb (p : Nat) (f : Part → Part) : (modPart p f s).dieTlb = s.dieTlb := rfl
@[simp] theorem modPart_l1 (p : Nat) (f : Part → Part) : (modPart p f s).l1 = s.l1 := rfl
@[simp] theorem modPart_icache (p : Nat) (f : Part → Part) : (modPart p f s).icache = s.icache := rfl
@[simp] theorem modPart_fetches (p : Nat) (f : Part → Part) : (modPart p f s).fetches = s.fetches := rfl
@[simp] theorem modPart_fqBase (p : Nat) (f : Part → Part) : (modPart p f s).fqBase = s.fqBase := rfl
@[simp] theorem modPart_fqProd (p : Nat) (f : Part → Part) : (modPart p f s).fqProd = s.fqProd := rfl
@[simp] theorem modPart_fqCons (p : Nat) (f : Part → Part) : (modPart p f s).fqCons = s.fqCons := rfl
@[simp] theorem modPart_fqArmed (p : Nat) (f : Part → Part) : (modPart p f s).fqArmed = s.fqArmed := rfl
@[simp] theorem modPart_faultWaits (p : Nat) (f : Part → Part) : (modPart p f s).faultWaits = s.faultWaits := rfl
@[simp] theorem modPart_nextKey (p : Nat) (f : Part → Part) : (modPart p f s).nextKey = s.nextKey := rfl
@[simp] theorem modPart_eddy (p : Nat) (f : Part → Part) : (modPart p f s).eddy = s.eddy := rfl
@[simp] theorem modPart_latch (p : Nat) (f : Part → Part) : (modPart p f s).latch = s.latch := rfl
@[simp] theorem modPart_hook (p : Nat) (f : Part → Part) : (modPart p f s).hook = s.hook := rfl
@[simp] theorem modPart_taken (p : Nat) (f : Part → Part) : (modPart p f s).taken = s.taken := rfl
@[simp] theorem modPart_cmds (p : Nat) (f : Part → Part) : (modPart p f s).cmds = s.cmds := rfl
@[simp] theorem modPart_nextCmd (p : Nat) (f : Part → Part) : (modPart p f s).nextCmd = s.nextCmd := rfl
@[simp] theorem modPart_hookStore (p : Nat) (f : Part → Part) : (modPart p f s).hookStore = s.hookStore := rfl
@[simp] theorem modPart_captures (p : Nat) (f : Part → Part) : (modPart p f s).captures = s.captures := rfl
@[simp] theorem modPart_encSlots (p : Nat) (f : Part → Part) : (modPart p f s).encSlots = s.encSlots := rfl
@[simp] theorem modPart_encFault (p : Nat) (f : Part → Part) : (modPart p f s).encFault = s.encFault := rfl
@[simp] theorem modPart_launches (p : Nat) (f : Part → Part) : (modPart p f s).launches = s.launches := rfl
@[simp] theorem modPart_gangs (p : Nat) (f : Part → Part) : (modPart p f s).gangs = s.gangs := rfl
@[simp] theorem modPart_nextGang (p : Nat) (f : Part → Part) : (modPart p f s).nextGang = s.nextGang := rfl
@[simp] theorem modPart_warps (p : Nat) (f : Part → Part) : (modPart p f s).warps = s.warps := rfl
@[simp] theorem modPart_parts (p : Nat) (f : Part → Part) : (modPart p f s).parts = put p (f (lookupD p {} s.parts)) s.parts := rfl
@[simp] theorem modPart_copies (p : Nat) (f : Part → Part) : (modPart p f s).copies = s.copies := rfl
@[simp] theorem modPart_nextCopy (p : Nat) (f : Part → Part) : (modPart p f s).nextCopy = s.nextCopy := rfl
@[simp] theorem modPart_saved (p : Nat) (f : Part → Part) : (modPart p f s).saved = s.saved := rfl
@[simp] theorem modPart_savedLoose (p : Nat) (f : Part → Part) : (modPart p f s).savedLoose = s.savedLoose := rfl
@[simp] theorem modPart_queues (p : Nat) (f : Part → Part) : (modPart p f s).queues = s.queues := rfl
@[simp] theorem modPart_entering (p : Nat) (f : Part → Part) : (modPart p f s).entering = s.entering := rfl
@[simp] theorem modPart_riskSince (p : Nat) (f : Part → Part) : (modPart p f s).riskSince = s.riskSince := rfl
@[simp] theorem modPart_reservedFor (p : Nat) (f : Part → Part) : (modPart p f s).reservedFor = s.reservedFor := rfl
@[simp] theorem modPart_weirs (p : Nat) (f : Part → Part) : (modPart p f s).weirs = s.weirs := rfl
@[simp] theorem modPart_rills (p : Nat) (f : Part → Part) : (modPart p f s).rills = s.rills := rfl
@[simp] theorem modPart_pkts (p : Nat) (f : Part → Part) : (modPart p f s).pkts = s.pkts := rfl
@[simp] theorem modPart_nextPkt (p : Nat) (f : Part → Part) : (modPart p f s).nextPkt = s.nextPkt := rfl
@[simp] theorem modPart_outbox (p : Nat) (f : Part → Part) : (modPart p f s).outbox = s.outbox := rfl
@[simp] theorem modPart_colls (p : Nat) (f : Part → Part) : (modPart p f s).colls = s.colls := rfl
@[simp] theorem modPart_agenda (p : Nat) (f : Part → Part) : (modPart p f s).agenda = s.agenda := rfl
@[simp] theorem modPart_focus (p : Nat) (f : Part → Part) : (modPart p f s).focus = s.focus := rfl
@[simp] theorem modPart_free (p : Nat) (f : Part → Part) : (modPart p f s).free = s.free := rfl
@[simp] theorem modPart_drainedAt (p : Nat) (f : Part → Part) : (modPart p f s).drainedAt = s.drainedAt := rfl
@[simp] theorem modPart_badScr (p : Nat) (f : Part → Part) : (modPart p f s).badScr = s.badScr := rfl
@[simp] theorem modPart_badHost (p : Nat) (f : Part → Part) : (modPart p f s).badHost = s.badHost := rfl
@[simp] theorem modPart_scrNow (p : Nat) (f : Part → Part) : (modPart p f s).scrNow = s.scrNow := rfl
@[simp] theorem modPart_buffer (p : Nat) (f : Part → Part) : (modPart p f s).buffer = s.buffer := rfl
@[simp] theorem modPart_lag (p : Nat) (f : Part → Part) : (modPart p f s).lag = s.lag := rfl
@[simp] theorem modPart_portHeld (p : Nat) (f : Part → Part) : (modPart p f s).portHeld = s.portHeld := rfl
@[simp] theorem modPart_unread (p : Nat) (f : Part → Part) : (modPart p f s).unread = s.unread := rfl
@[simp] theorem modPart_lastQueue (p : Nat) (f : Part → Part) : (modPart p f s).lastQueue = s.lastQueue := rfl
@[simp] theorem modPart_encError (p : Nat) (f : Part → Part) : (modPart p f s).encError = s.encError := rfl
@[simp] theorem modPart_weirTurn (p : Nat) (f : Part → Part) : (modPart p f s).weirTurn = s.weirTurn := rfl
@[simp] theorem modPart_sendTurn (p : Nat) (f : Part → Part) : (modPart p f s).sendTurn = s.sendTurn := rfl
@[simp] theorem modPart_stale (p : Nat) (f : Part → Part) : (modPart p f s).stale = s.stale := rfl
@[simp] theorem modPart_turns (p : Nat) (f : Part → Part) : (modPart p f s).turns = s.turns := rfl
@[simp] theorem modPart_unmapped (p : Nat) (f : Part → Part) : (modPart p f s).unmapped = s.unmapped := rfl
@[simp] theorem modPart_badLines (p : Nat) (f : Part → Part) : (modPart p f s).badLines = s.badLines := rfl

/-! ## modWeir -/

@[simp] theorem modWeir_clock (c : Nat) (f : WeirCtx → WeirCtx) : (modWeir c f s).clock = s.clock := rfl
@[simp] theorem modWeir_power (c : Nat) (f : WeirCtx → WeirCtx) : (modWeir c f s).power = s.power := rfl
@[simp] theorem modWeir_powerCap (c : Nat) (f : WeirCtx → WeirCtx) : (modWeir c f s).powerCap = s.powerCap := rfl
@[simp] theorem modWeir_withheld (c : Nat) (f : WeirCtx → WeirCtx) : (modWeir c f s).withheld = s.withheld := rfl
@[simp] theorem modWeir_rateLimited (c : Nat) (f : WeirCtx → WeirCtx) : (modWeir c f s).rateLimited = s.rateLimited := rfl
@[simp] theorem modWeir_idleSince (c : Nat) (f : WeirCtx → WeirCtx) : (modWeir c f s).idleSince = s.idleSince := rfl
@[simp] theorem modWeir_packageNo (c : Nat) (f : WeirCtx → WeirCtx) : (modWeir c f s).packageNo = s.packageNo := rfl
@[simp] theorem modWeir_routes (c : Nat) (f : WeirCtx → WeirCtx) : (modWeir c f s).routes = s.routes := rfl
@[simp] theorem modWeir_segDir (c : Nat) (f : WeirCtx → WeirCtx) : (modWeir c f s).segDir = s.segDir := rfl
@[simp] theorem modWeir_savePool (c : Nat) (f : WeirCtx → WeirCtx) : (modWeir c f s).savePool = s.savePool := rfl
@[simp] theorem modWeir_poolUsed (c : Nat) (f : WeirCtx → WeirCtx) : (modWeir c f s).poolUsed = s.poolUsed := rfl
@[simp] theorem modWeir_counters (c : Nat) (f : WeirCtx → WeirCtx) : (modWeir c f s).counters = s.counters := rfl
@[simp] theorem modWeir_marks (c : Nat) (f : WeirCtx → WeirCtx) : (modWeir c f s).marks = s.marks := rfl
@[simp] theorem modWeir_drainInterval (c : Nat) (f : WeirCtx → WeirCtx) : (modWeir c f s).drainInterval = s.drainInterval := rfl
@[simp] theorem modWeir_mailLog (c : Nat) (f : WeirCtx → WeirCtx) : (modWeir c f s).mailLog = s.mailLog := rfl
@[simp] theorem modWeir_mailReply (c : Nat) (f : WeirCtx → WeirCtx) : (modWeir c f s).mailReply = s.mailReply := rfl
@[simp] theorem modWeir_coresOut (c : Nat) (f : WeirCtx → WeirCtx) : (modWeir c f s).coresOut = s.coresOut := rfl
@[simp] theorem modWeir_scanning (c : Nat) (f : WeirCtx → WeirCtx) : (modWeir c f s).scanning = s.scanning := rfl
@[simp] theorem modWeir_patch (c : Nat) (f : WeirCtx → WeirCtx) : (modWeir c f s).patch = s.patch := rfl
@[simp] theorem modWeir_msix (c : Nat) (f : WeirCtx → WeirCtx) : (modWeir c f s).msix = s.msix := rfl
@[simp] theorem modWeir_dev (c : Nat) (f : WeirCtx → WeirCtx) : (modWeir c f s).dev = s.dev := rfl
@[simp] theorem modWeir_host (c : Nat) (f : WeirCtx → WeirCtx) : (modWeir c f s).host = s.host := rfl
@[simp] theorem modWeir_vault (c : Nat) (f : WeirCtx → WeirCtx) : (modWeir c f s).vault = s.vault := rfl
@[simp] theorem modWeir_scr (c : Nat) (f : WeirCtx → WeirCtx) : (modWeir c f s).scr = s.scr := rfl
@[simp] theorem modWeir_scrFull (c : Nat) (f : WeirCtx → WeirCtx) : (modWeir c f s).scrFull = s.scrFull := rfl
@[simp] theorem modWeir_badDev (c : Nat) (f : WeirCtx → WeirCtx) : (modWeir c f s).badDev = s.badDev := rfl
@[simp] theorem modWeir_badVault (c : Nat) (f : WeirCtx → WeirCtx) : (modWeir c f s).badVault = s.badVault := rfl
@[simp] theorem modWeir_launchLines (c : Nat) (f : WeirCtx → WeirCtx) : (modWeir c f s).launchLines = s.launchLines := rfl
@[simp] theorem modWeir_handles (c : Nat) (f : WeirCtx → WeirCtx) : (modWeir c f s).handles = s.handles := rfl
@[simp] theorem modWeir_coreTlb (c : Nat) (f : WeirCtx → WeirCtx) : (modWeir c f s).coreTlb = s.coreTlb := rfl
@[simp] theorem modWeir_dieTlb (c : Nat) (f : WeirCtx → WeirCtx) : (modWeir c f s).dieTlb = s.dieTlb := rfl
@[simp] theorem modWeir_l1 (c : Nat) (f : WeirCtx → WeirCtx) : (modWeir c f s).l1 = s.l1 := rfl
@[simp] theorem modWeir_icache (c : Nat) (f : WeirCtx → WeirCtx) : (modWeir c f s).icache = s.icache := rfl
@[simp] theorem modWeir_fetches (c : Nat) (f : WeirCtx → WeirCtx) : (modWeir c f s).fetches = s.fetches := rfl
@[simp] theorem modWeir_fqBase (c : Nat) (f : WeirCtx → WeirCtx) : (modWeir c f s).fqBase = s.fqBase := rfl
@[simp] theorem modWeir_fqProd (c : Nat) (f : WeirCtx → WeirCtx) : (modWeir c f s).fqProd = s.fqProd := rfl
@[simp] theorem modWeir_fqCons (c : Nat) (f : WeirCtx → WeirCtx) : (modWeir c f s).fqCons = s.fqCons := rfl
@[simp] theorem modWeir_fqArmed (c : Nat) (f : WeirCtx → WeirCtx) : (modWeir c f s).fqArmed = s.fqArmed := rfl
@[simp] theorem modWeir_faultWaits (c : Nat) (f : WeirCtx → WeirCtx) : (modWeir c f s).faultWaits = s.faultWaits := rfl
@[simp] theorem modWeir_nextKey (c : Nat) (f : WeirCtx → WeirCtx) : (modWeir c f s).nextKey = s.nextKey := rfl
@[simp] theorem modWeir_eddy (c : Nat) (f : WeirCtx → WeirCtx) : (modWeir c f s).eddy = s.eddy := rfl
@[simp] theorem modWeir_latch (c : Nat) (f : WeirCtx → WeirCtx) : (modWeir c f s).latch = s.latch := rfl
@[simp] theorem modWeir_hook (c : Nat) (f : WeirCtx → WeirCtx) : (modWeir c f s).hook = s.hook := rfl
@[simp] theorem modWeir_taken (c : Nat) (f : WeirCtx → WeirCtx) : (modWeir c f s).taken = s.taken := rfl
@[simp] theorem modWeir_cmds (c : Nat) (f : WeirCtx → WeirCtx) : (modWeir c f s).cmds = s.cmds := rfl
@[simp] theorem modWeir_nextCmd (c : Nat) (f : WeirCtx → WeirCtx) : (modWeir c f s).nextCmd = s.nextCmd := rfl
@[simp] theorem modWeir_hookStore (c : Nat) (f : WeirCtx → WeirCtx) : (modWeir c f s).hookStore = s.hookStore := rfl
@[simp] theorem modWeir_captures (c : Nat) (f : WeirCtx → WeirCtx) : (modWeir c f s).captures = s.captures := rfl
@[simp] theorem modWeir_encSlots (c : Nat) (f : WeirCtx → WeirCtx) : (modWeir c f s).encSlots = s.encSlots := rfl
@[simp] theorem modWeir_encFault (c : Nat) (f : WeirCtx → WeirCtx) : (modWeir c f s).encFault = s.encFault := rfl
@[simp] theorem modWeir_launches (c : Nat) (f : WeirCtx → WeirCtx) : (modWeir c f s).launches = s.launches := rfl
@[simp] theorem modWeir_gangs (c : Nat) (f : WeirCtx → WeirCtx) : (modWeir c f s).gangs = s.gangs := rfl
@[simp] theorem modWeir_nextGang (c : Nat) (f : WeirCtx → WeirCtx) : (modWeir c f s).nextGang = s.nextGang := rfl
@[simp] theorem modWeir_warps (c : Nat) (f : WeirCtx → WeirCtx) : (modWeir c f s).warps = s.warps := rfl
@[simp] theorem modWeir_parts (c : Nat) (f : WeirCtx → WeirCtx) : (modWeir c f s).parts = s.parts := rfl
@[simp] theorem modWeir_copies (c : Nat) (f : WeirCtx → WeirCtx) : (modWeir c f s).copies = s.copies := rfl
@[simp] theorem modWeir_nextCopy (c : Nat) (f : WeirCtx → WeirCtx) : (modWeir c f s).nextCopy = s.nextCopy := rfl
@[simp] theorem modWeir_saved (c : Nat) (f : WeirCtx → WeirCtx) : (modWeir c f s).saved = s.saved := rfl
@[simp] theorem modWeir_savedLoose (c : Nat) (f : WeirCtx → WeirCtx) : (modWeir c f s).savedLoose = s.savedLoose := rfl
@[simp] theorem modWeir_queues (c : Nat) (f : WeirCtx → WeirCtx) : (modWeir c f s).queues = s.queues := rfl
@[simp] theorem modWeir_entering (c : Nat) (f : WeirCtx → WeirCtx) : (modWeir c f s).entering = s.entering := rfl
@[simp] theorem modWeir_riskSince (c : Nat) (f : WeirCtx → WeirCtx) : (modWeir c f s).riskSince = s.riskSince := rfl
@[simp] theorem modWeir_reservedFor (c : Nat) (f : WeirCtx → WeirCtx) : (modWeir c f s).reservedFor = s.reservedFor := rfl
@[simp] theorem modWeir_weirs (c : Nat) (f : WeirCtx → WeirCtx) : (modWeir c f s).weirs = put c (f (weirOf s c)) s.weirs := rfl
@[simp] theorem modWeir_rills (c : Nat) (f : WeirCtx → WeirCtx) : (modWeir c f s).rills = s.rills := rfl
@[simp] theorem modWeir_pkts (c : Nat) (f : WeirCtx → WeirCtx) : (modWeir c f s).pkts = s.pkts := rfl
@[simp] theorem modWeir_nextPkt (c : Nat) (f : WeirCtx → WeirCtx) : (modWeir c f s).nextPkt = s.nextPkt := rfl
@[simp] theorem modWeir_outbox (c : Nat) (f : WeirCtx → WeirCtx) : (modWeir c f s).outbox = s.outbox := rfl
@[simp] theorem modWeir_colls (c : Nat) (f : WeirCtx → WeirCtx) : (modWeir c f s).colls = s.colls := rfl
@[simp] theorem modWeir_agenda (c : Nat) (f : WeirCtx → WeirCtx) : (modWeir c f s).agenda = s.agenda := rfl
@[simp] theorem modWeir_focus (c : Nat) (f : WeirCtx → WeirCtx) : (modWeir c f s).focus = s.focus := rfl
@[simp] theorem modWeir_free (c : Nat) (f : WeirCtx → WeirCtx) : (modWeir c f s).free = s.free := rfl
@[simp] theorem modWeir_drainedAt (c : Nat) (f : WeirCtx → WeirCtx) : (modWeir c f s).drainedAt = s.drainedAt := rfl
@[simp] theorem modWeir_badScr (c : Nat) (f : WeirCtx → WeirCtx) : (modWeir c f s).badScr = s.badScr := rfl
@[simp] theorem modWeir_badHost (c : Nat) (f : WeirCtx → WeirCtx) : (modWeir c f s).badHost = s.badHost := rfl
@[simp] theorem modWeir_scrNow (c : Nat) (f : WeirCtx → WeirCtx) : (modWeir c f s).scrNow = s.scrNow := rfl
@[simp] theorem modWeir_buffer (c : Nat) (f : WeirCtx → WeirCtx) : (modWeir c f s).buffer = s.buffer := rfl
@[simp] theorem modWeir_lag (c : Nat) (f : WeirCtx → WeirCtx) : (modWeir c f s).lag = s.lag := rfl
@[simp] theorem modWeir_portHeld (c : Nat) (f : WeirCtx → WeirCtx) : (modWeir c f s).portHeld = s.portHeld := rfl
@[simp] theorem modWeir_unread (c : Nat) (f : WeirCtx → WeirCtx) : (modWeir c f s).unread = s.unread := rfl
@[simp] theorem modWeir_lastQueue (c : Nat) (f : WeirCtx → WeirCtx) : (modWeir c f s).lastQueue = s.lastQueue := rfl
@[simp] theorem modWeir_encError (c : Nat) (f : WeirCtx → WeirCtx) : (modWeir c f s).encError = s.encError := rfl
@[simp] theorem modWeir_weirTurn (c : Nat) (f : WeirCtx → WeirCtx) : (modWeir c f s).weirTurn = s.weirTurn := rfl
@[simp] theorem modWeir_sendTurn (c : Nat) (f : WeirCtx → WeirCtx) : (modWeir c f s).sendTurn = s.sendTurn := rfl
@[simp] theorem modWeir_stale (c : Nat) (f : WeirCtx → WeirCtx) : (modWeir c f s).stale = s.stale := rfl
@[simp] theorem modWeir_turns (c : Nat) (f : WeirCtx → WeirCtx) : (modWeir c f s).turns = s.turns := rfl
@[simp] theorem modWeir_unmapped (c : Nat) (f : WeirCtx → WeirCtx) : (modWeir c f s).unmapped = s.unmapped := rfl
@[simp] theorem modWeir_badLines (c : Nat) (f : WeirCtx → WeirCtx) : (modWeir c f s).badLines = s.badLines := rfl

/-! ## modRill -/

@[simp] theorem modRill_clock (r : Nat) (f : Rill → Rill) : (modRill r f s).clock = s.clock := rfl
@[simp] theorem modRill_power (r : Nat) (f : Rill → Rill) : (modRill r f s).power = s.power := rfl
@[simp] theorem modRill_powerCap (r : Nat) (f : Rill → Rill) : (modRill r f s).powerCap = s.powerCap := rfl
@[simp] theorem modRill_withheld (r : Nat) (f : Rill → Rill) : (modRill r f s).withheld = s.withheld := rfl
@[simp] theorem modRill_rateLimited (r : Nat) (f : Rill → Rill) : (modRill r f s).rateLimited = s.rateLimited := rfl
@[simp] theorem modRill_idleSince (r : Nat) (f : Rill → Rill) : (modRill r f s).idleSince = s.idleSince := rfl
@[simp] theorem modRill_packageNo (r : Nat) (f : Rill → Rill) : (modRill r f s).packageNo = s.packageNo := rfl
@[simp] theorem modRill_routes (r : Nat) (f : Rill → Rill) : (modRill r f s).routes = s.routes := rfl
@[simp] theorem modRill_segDir (r : Nat) (f : Rill → Rill) : (modRill r f s).segDir = s.segDir := rfl
@[simp] theorem modRill_savePool (r : Nat) (f : Rill → Rill) : (modRill r f s).savePool = s.savePool := rfl
@[simp] theorem modRill_poolUsed (r : Nat) (f : Rill → Rill) : (modRill r f s).poolUsed = s.poolUsed := rfl
@[simp] theorem modRill_counters (r : Nat) (f : Rill → Rill) : (modRill r f s).counters = s.counters := rfl
@[simp] theorem modRill_marks (r : Nat) (f : Rill → Rill) : (modRill r f s).marks = s.marks := rfl
@[simp] theorem modRill_drainInterval (r : Nat) (f : Rill → Rill) : (modRill r f s).drainInterval = s.drainInterval := rfl
@[simp] theorem modRill_drainedAt (r : Nat) (f : Rill → Rill) : (modRill r f s).drainedAt = s.drainedAt := rfl
@[simp] theorem modRill_mailLog (r : Nat) (f : Rill → Rill) : (modRill r f s).mailLog = s.mailLog := rfl
@[simp] theorem modRill_mailReply (r : Nat) (f : Rill → Rill) : (modRill r f s).mailReply = s.mailReply := rfl
@[simp] theorem modRill_coresOut (r : Nat) (f : Rill → Rill) : (modRill r f s).coresOut = s.coresOut := rfl
@[simp] theorem modRill_scanning (r : Nat) (f : Rill → Rill) : (modRill r f s).scanning = s.scanning := rfl
@[simp] theorem modRill_patch (r : Nat) (f : Rill → Rill) : (modRill r f s).patch = s.patch := rfl
@[simp] theorem modRill_msix (r : Nat) (f : Rill → Rill) : (modRill r f s).msix = s.msix := rfl
@[simp] theorem modRill_dev (r : Nat) (f : Rill → Rill) : (modRill r f s).dev = s.dev := rfl
@[simp] theorem modRill_host (r : Nat) (f : Rill → Rill) : (modRill r f s).host = s.host := rfl
@[simp] theorem modRill_vault (r : Nat) (f : Rill → Rill) : (modRill r f s).vault = s.vault := rfl
@[simp] theorem modRill_scr (r : Nat) (f : Rill → Rill) : (modRill r f s).scr = s.scr := rfl
@[simp] theorem modRill_scrFull (r : Nat) (f : Rill → Rill) : (modRill r f s).scrFull = s.scrFull := rfl
@[simp] theorem modRill_badDev (r : Nat) (f : Rill → Rill) : (modRill r f s).badDev = s.badDev := rfl
@[simp] theorem modRill_badVault (r : Nat) (f : Rill → Rill) : (modRill r f s).badVault = s.badVault := rfl
@[simp] theorem modRill_badScr (r : Nat) (f : Rill → Rill) : (modRill r f s).badScr = s.badScr := rfl
@[simp] theorem modRill_badHost (r : Nat) (f : Rill → Rill) : (modRill r f s).badHost = s.badHost := rfl
@[simp] theorem modRill_scrNow (r : Nat) (f : Rill → Rill) : (modRill r f s).scrNow = s.scrNow := rfl
@[simp] theorem modRill_buffer (r : Nat) (f : Rill → Rill) : (modRill r f s).buffer = s.buffer := rfl
@[simp] theorem modRill_lag (r : Nat) (f : Rill → Rill) : (modRill r f s).lag = s.lag := rfl
@[simp] theorem modRill_launchLines (r : Nat) (f : Rill → Rill) : (modRill r f s).launchLines = s.launchLines := rfl
@[simp] theorem modRill_handles (r : Nat) (f : Rill → Rill) : (modRill r f s).handles = s.handles := rfl
@[simp] theorem modRill_coreTlb (r : Nat) (f : Rill → Rill) : (modRill r f s).coreTlb = s.coreTlb := rfl
@[simp] theorem modRill_dieTlb (r : Nat) (f : Rill → Rill) : (modRill r f s).dieTlb = s.dieTlb := rfl
@[simp] theorem modRill_l1 (r : Nat) (f : Rill → Rill) : (modRill r f s).l1 = s.l1 := rfl
@[simp] theorem modRill_icache (r : Nat) (f : Rill → Rill) : (modRill r f s).icache = s.icache := rfl
@[simp] theorem modRill_fetches (r : Nat) (f : Rill → Rill) : (modRill r f s).fetches = s.fetches := rfl
@[simp] theorem modRill_fqBase (r : Nat) (f : Rill → Rill) : (modRill r f s).fqBase = s.fqBase := rfl
@[simp] theorem modRill_fqProd (r : Nat) (f : Rill → Rill) : (modRill r f s).fqProd = s.fqProd := rfl
@[simp] theorem modRill_fqCons (r : Nat) (f : Rill → Rill) : (modRill r f s).fqCons = s.fqCons := rfl
@[simp] theorem modRill_fqArmed (r : Nat) (f : Rill → Rill) : (modRill r f s).fqArmed = s.fqArmed := rfl
@[simp] theorem modRill_faultWaits (r : Nat) (f : Rill → Rill) : (modRill r f s).faultWaits = s.faultWaits := rfl
@[simp] theorem modRill_nextKey (r : Nat) (f : Rill → Rill) : (modRill r f s).nextKey = s.nextKey := rfl
@[simp] theorem modRill_eddy (r : Nat) (f : Rill → Rill) : (modRill r f s).eddy = s.eddy := rfl
@[simp] theorem modRill_latch (r : Nat) (f : Rill → Rill) : (modRill r f s).latch = s.latch := rfl
@[simp] theorem modRill_portHeld (r : Nat) (f : Rill → Rill) : (modRill r f s).portHeld = s.portHeld := rfl
@[simp] theorem modRill_unread (r : Nat) (f : Rill → Rill) : (modRill r f s).unread = s.unread := rfl
@[simp] theorem modRill_lastQueue (r : Nat) (f : Rill → Rill) : (modRill r f s).lastQueue = s.lastQueue := rfl
@[simp] theorem modRill_hook (r : Nat) (f : Rill → Rill) : (modRill r f s).hook = s.hook := rfl
@[simp] theorem modRill_taken (r : Nat) (f : Rill → Rill) : (modRill r f s).taken = s.taken := rfl
@[simp] theorem modRill_cmds (r : Nat) (f : Rill → Rill) : (modRill r f s).cmds = s.cmds := rfl
@[simp] theorem modRill_nextCmd (r : Nat) (f : Rill → Rill) : (modRill r f s).nextCmd = s.nextCmd := rfl
@[simp] theorem modRill_hookStore (r : Nat) (f : Rill → Rill) : (modRill r f s).hookStore = s.hookStore := rfl
@[simp] theorem modRill_captures (r : Nat) (f : Rill → Rill) : (modRill r f s).captures = s.captures := rfl
@[simp] theorem modRill_encSlots (r : Nat) (f : Rill → Rill) : (modRill r f s).encSlots = s.encSlots := rfl
@[simp] theorem modRill_encFault (r : Nat) (f : Rill → Rill) : (modRill r f s).encFault = s.encFault := rfl
@[simp] theorem modRill_encError (r : Nat) (f : Rill → Rill) : (modRill r f s).encError = s.encError := rfl
@[simp] theorem modRill_launches (r : Nat) (f : Rill → Rill) : (modRill r f s).launches = s.launches := rfl
@[simp] theorem modRill_gangs (r : Nat) (f : Rill → Rill) : (modRill r f s).gangs = s.gangs := rfl
@[simp] theorem modRill_nextGang (r : Nat) (f : Rill → Rill) : (modRill r f s).nextGang = s.nextGang := rfl
@[simp] theorem modRill_warps (r : Nat) (f : Rill → Rill) : (modRill r f s).warps = s.warps := rfl
@[simp] theorem modRill_parts (r : Nat) (f : Rill → Rill) : (modRill r f s).parts = s.parts := rfl
@[simp] theorem modRill_copies (r : Nat) (f : Rill → Rill) : (modRill r f s).copies = s.copies := rfl
@[simp] theorem modRill_nextCopy (r : Nat) (f : Rill → Rill) : (modRill r f s).nextCopy = s.nextCopy := rfl
@[simp] theorem modRill_saved (r : Nat) (f : Rill → Rill) : (modRill r f s).saved = s.saved := rfl
@[simp] theorem modRill_savedLoose (r : Nat) (f : Rill → Rill) : (modRill r f s).savedLoose = s.savedLoose := rfl
@[simp] theorem modRill_queues (r : Nat) (f : Rill → Rill) : (modRill r f s).queues = s.queues := rfl
@[simp] theorem modRill_entering (r : Nat) (f : Rill → Rill) : (modRill r f s).entering = s.entering := rfl
@[simp] theorem modRill_riskSince (r : Nat) (f : Rill → Rill) : (modRill r f s).riskSince = s.riskSince := rfl
@[simp] theorem modRill_reservedFor (r : Nat) (f : Rill → Rill) : (modRill r f s).reservedFor = s.reservedFor := rfl
@[simp] theorem modRill_weirs (r : Nat) (f : Rill → Rill) : (modRill r f s).weirs = s.weirs := rfl
@[simp] theorem modRill_weirTurn (r : Nat) (f : Rill → Rill) : (modRill r f s).weirTurn = s.weirTurn := rfl
@[simp] theorem modRill_sendTurn (r : Nat) (f : Rill → Rill) : (modRill r f s).sendTurn = s.sendTurn := rfl
@[simp] theorem modRill_pkts (r : Nat) (f : Rill → Rill) : (modRill r f s).pkts = s.pkts := rfl
@[simp] theorem modRill_nextPkt (r : Nat) (f : Rill → Rill) : (modRill r f s).nextPkt = s.nextPkt := rfl
@[simp] theorem modRill_outbox (r : Nat) (f : Rill → Rill) : (modRill r f s).outbox = s.outbox := rfl
@[simp] theorem modRill_colls (r : Nat) (f : Rill → Rill) : (modRill r f s).colls = s.colls := rfl
@[simp] theorem modRill_agenda (r : Nat) (f : Rill → Rill) : (modRill r f s).agenda = s.agenda := rfl
@[simp] theorem modRill_focus (r : Nat) (f : Rill → Rill) : (modRill r f s).focus = s.focus := rfl
@[simp] theorem modRill_free (r : Nat) (f : Rill → Rill) : (modRill r f s).free = s.free := rfl
@[simp] theorem modRill_stale (r : Nat) (f : Rill → Rill) : (modRill r f s).stale = s.stale := rfl
@[simp] theorem modRill_turns (r : Nat) (f : Rill → Rill) : (modRill r f s).turns = s.turns := rfl
@[simp] theorem modRill_unmapped (r : Nat) (f : Rill → Rill) : (modRill r f s).unmapped = s.unmapped := rfl
@[simp] theorem modRill_badLines (r : Nat) (f : Rill → Rill) : (modRill r f s).badLines = s.badLines := rfl

/-! ## modSlot -/

@[simp] theorem modSlot_clock (k : Nat) (f : EncSlot → EncSlot) : (modSlot k f s).clock = s.clock := rfl
@[simp] theorem modSlot_power (k : Nat) (f : EncSlot → EncSlot) : (modSlot k f s).power = s.power := rfl
@[simp] theorem modSlot_powerCap (k : Nat) (f : EncSlot → EncSlot) : (modSlot k f s).powerCap = s.powerCap := rfl
@[simp] theorem modSlot_withheld (k : Nat) (f : EncSlot → EncSlot) : (modSlot k f s).withheld = s.withheld := rfl
@[simp] theorem modSlot_rateLimited (k : Nat) (f : EncSlot → EncSlot) : (modSlot k f s).rateLimited = s.rateLimited := rfl
@[simp] theorem modSlot_idleSince (k : Nat) (f : EncSlot → EncSlot) : (modSlot k f s).idleSince = s.idleSince := rfl
@[simp] theorem modSlot_packageNo (k : Nat) (f : EncSlot → EncSlot) : (modSlot k f s).packageNo = s.packageNo := rfl
@[simp] theorem modSlot_routes (k : Nat) (f : EncSlot → EncSlot) : (modSlot k f s).routes = s.routes := rfl
@[simp] theorem modSlot_segDir (k : Nat) (f : EncSlot → EncSlot) : (modSlot k f s).segDir = s.segDir := rfl
@[simp] theorem modSlot_savePool (k : Nat) (f : EncSlot → EncSlot) : (modSlot k f s).savePool = s.savePool := rfl
@[simp] theorem modSlot_poolUsed (k : Nat) (f : EncSlot → EncSlot) : (modSlot k f s).poolUsed = s.poolUsed := rfl
@[simp] theorem modSlot_counters (k : Nat) (f : EncSlot → EncSlot) : (modSlot k f s).counters = s.counters := rfl
@[simp] theorem modSlot_marks (k : Nat) (f : EncSlot → EncSlot) : (modSlot k f s).marks = s.marks := rfl
@[simp] theorem modSlot_drainInterval (k : Nat) (f : EncSlot → EncSlot) : (modSlot k f s).drainInterval = s.drainInterval := rfl
@[simp] theorem modSlot_drainedAt (k : Nat) (f : EncSlot → EncSlot) : (modSlot k f s).drainedAt = s.drainedAt := rfl
@[simp] theorem modSlot_mailLog (k : Nat) (f : EncSlot → EncSlot) : (modSlot k f s).mailLog = s.mailLog := rfl
@[simp] theorem modSlot_mailReply (k : Nat) (f : EncSlot → EncSlot) : (modSlot k f s).mailReply = s.mailReply := rfl
@[simp] theorem modSlot_coresOut (k : Nat) (f : EncSlot → EncSlot) : (modSlot k f s).coresOut = s.coresOut := rfl
@[simp] theorem modSlot_scanning (k : Nat) (f : EncSlot → EncSlot) : (modSlot k f s).scanning = s.scanning := rfl
@[simp] theorem modSlot_patch (k : Nat) (f : EncSlot → EncSlot) : (modSlot k f s).patch = s.patch := rfl
@[simp] theorem modSlot_msix (k : Nat) (f : EncSlot → EncSlot) : (modSlot k f s).msix = s.msix := rfl
@[simp] theorem modSlot_dev (k : Nat) (f : EncSlot → EncSlot) : (modSlot k f s).dev = s.dev := rfl
@[simp] theorem modSlot_host (k : Nat) (f : EncSlot → EncSlot) : (modSlot k f s).host = s.host := rfl
@[simp] theorem modSlot_vault (k : Nat) (f : EncSlot → EncSlot) : (modSlot k f s).vault = s.vault := rfl
@[simp] theorem modSlot_scr (k : Nat) (f : EncSlot → EncSlot) : (modSlot k f s).scr = s.scr := rfl
@[simp] theorem modSlot_scrFull (k : Nat) (f : EncSlot → EncSlot) : (modSlot k f s).scrFull = s.scrFull := rfl
@[simp] theorem modSlot_badDev (k : Nat) (f : EncSlot → EncSlot) : (modSlot k f s).badDev = s.badDev := rfl
@[simp] theorem modSlot_badVault (k : Nat) (f : EncSlot → EncSlot) : (modSlot k f s).badVault = s.badVault := rfl
@[simp] theorem modSlot_badScr (k : Nat) (f : EncSlot → EncSlot) : (modSlot k f s).badScr = s.badScr := rfl
@[simp] theorem modSlot_badHost (k : Nat) (f : EncSlot → EncSlot) : (modSlot k f s).badHost = s.badHost := rfl
@[simp] theorem modSlot_scrNow (k : Nat) (f : EncSlot → EncSlot) : (modSlot k f s).scrNow = s.scrNow := rfl
@[simp] theorem modSlot_buffer (k : Nat) (f : EncSlot → EncSlot) : (modSlot k f s).buffer = s.buffer := rfl
@[simp] theorem modSlot_lag (k : Nat) (f : EncSlot → EncSlot) : (modSlot k f s).lag = s.lag := rfl
@[simp] theorem modSlot_launchLines (k : Nat) (f : EncSlot → EncSlot) : (modSlot k f s).launchLines = s.launchLines := rfl
@[simp] theorem modSlot_handles (k : Nat) (f : EncSlot → EncSlot) : (modSlot k f s).handles = s.handles := rfl
@[simp] theorem modSlot_coreTlb (k : Nat) (f : EncSlot → EncSlot) : (modSlot k f s).coreTlb = s.coreTlb := rfl
@[simp] theorem modSlot_dieTlb (k : Nat) (f : EncSlot → EncSlot) : (modSlot k f s).dieTlb = s.dieTlb := rfl
@[simp] theorem modSlot_l1 (k : Nat) (f : EncSlot → EncSlot) : (modSlot k f s).l1 = s.l1 := rfl
@[simp] theorem modSlot_icache (k : Nat) (f : EncSlot → EncSlot) : (modSlot k f s).icache = s.icache := rfl
@[simp] theorem modSlot_fetches (k : Nat) (f : EncSlot → EncSlot) : (modSlot k f s).fetches = s.fetches := rfl
@[simp] theorem modSlot_fqBase (k : Nat) (f : EncSlot → EncSlot) : (modSlot k f s).fqBase = s.fqBase := rfl
@[simp] theorem modSlot_fqProd (k : Nat) (f : EncSlot → EncSlot) : (modSlot k f s).fqProd = s.fqProd := rfl
@[simp] theorem modSlot_fqCons (k : Nat) (f : EncSlot → EncSlot) : (modSlot k f s).fqCons = s.fqCons := rfl
@[simp] theorem modSlot_fqArmed (k : Nat) (f : EncSlot → EncSlot) : (modSlot k f s).fqArmed = s.fqArmed := rfl
@[simp] theorem modSlot_faultWaits (k : Nat) (f : EncSlot → EncSlot) : (modSlot k f s).faultWaits = s.faultWaits := rfl
@[simp] theorem modSlot_nextKey (k : Nat) (f : EncSlot → EncSlot) : (modSlot k f s).nextKey = s.nextKey := rfl
@[simp] theorem modSlot_eddy (k : Nat) (f : EncSlot → EncSlot) : (modSlot k f s).eddy = s.eddy := rfl
@[simp] theorem modSlot_latch (k : Nat) (f : EncSlot → EncSlot) : (modSlot k f s).latch = s.latch := rfl
@[simp] theorem modSlot_portHeld (k : Nat) (f : EncSlot → EncSlot) : (modSlot k f s).portHeld = s.portHeld := rfl
@[simp] theorem modSlot_unread (k : Nat) (f : EncSlot → EncSlot) : (modSlot k f s).unread = s.unread := rfl
@[simp] theorem modSlot_lastQueue (k : Nat) (f : EncSlot → EncSlot) : (modSlot k f s).lastQueue = s.lastQueue := rfl
@[simp] theorem modSlot_hook (k : Nat) (f : EncSlot → EncSlot) : (modSlot k f s).hook = s.hook := rfl
@[simp] theorem modSlot_taken (k : Nat) (f : EncSlot → EncSlot) : (modSlot k f s).taken = s.taken := rfl
@[simp] theorem modSlot_cmds (k : Nat) (f : EncSlot → EncSlot) : (modSlot k f s).cmds = s.cmds := rfl
@[simp] theorem modSlot_nextCmd (k : Nat) (f : EncSlot → EncSlot) : (modSlot k f s).nextCmd = s.nextCmd := rfl
@[simp] theorem modSlot_hookStore (k : Nat) (f : EncSlot → EncSlot) : (modSlot k f s).hookStore = s.hookStore := rfl
@[simp] theorem modSlot_captures (k : Nat) (f : EncSlot → EncSlot) : (modSlot k f s).captures = s.captures := rfl
@[simp] theorem modSlot_encFault (k : Nat) (f : EncSlot → EncSlot) : (modSlot k f s).encFault = s.encFault := rfl
@[simp] theorem modSlot_encError (k : Nat) (f : EncSlot → EncSlot) : (modSlot k f s).encError = s.encError := rfl
@[simp] theorem modSlot_launches (k : Nat) (f : EncSlot → EncSlot) : (modSlot k f s).launches = s.launches := rfl
@[simp] theorem modSlot_gangs (k : Nat) (f : EncSlot → EncSlot) : (modSlot k f s).gangs = s.gangs := rfl
@[simp] theorem modSlot_nextGang (k : Nat) (f : EncSlot → EncSlot) : (modSlot k f s).nextGang = s.nextGang := rfl
@[simp] theorem modSlot_warps (k : Nat) (f : EncSlot → EncSlot) : (modSlot k f s).warps = s.warps := rfl
@[simp] theorem modSlot_parts (k : Nat) (f : EncSlot → EncSlot) : (modSlot k f s).parts = s.parts := rfl
@[simp] theorem modSlot_copies (k : Nat) (f : EncSlot → EncSlot) : (modSlot k f s).copies = s.copies := rfl
@[simp] theorem modSlot_nextCopy (k : Nat) (f : EncSlot → EncSlot) : (modSlot k f s).nextCopy = s.nextCopy := rfl
@[simp] theorem modSlot_saved (k : Nat) (f : EncSlot → EncSlot) : (modSlot k f s).saved = s.saved := rfl
@[simp] theorem modSlot_savedLoose (k : Nat) (f : EncSlot → EncSlot) : (modSlot k f s).savedLoose = s.savedLoose := rfl
@[simp] theorem modSlot_queues (k : Nat) (f : EncSlot → EncSlot) : (modSlot k f s).queues = s.queues := rfl
@[simp] theorem modSlot_entering (k : Nat) (f : EncSlot → EncSlot) : (modSlot k f s).entering = s.entering := rfl
@[simp] theorem modSlot_riskSince (k : Nat) (f : EncSlot → EncSlot) : (modSlot k f s).riskSince = s.riskSince := rfl
@[simp] theorem modSlot_reservedFor (k : Nat) (f : EncSlot → EncSlot) : (modSlot k f s).reservedFor = s.reservedFor := rfl
@[simp] theorem modSlot_weirs (k : Nat) (f : EncSlot → EncSlot) : (modSlot k f s).weirs = s.weirs := rfl
@[simp] theorem modSlot_rills (k : Nat) (f : EncSlot → EncSlot) : (modSlot k f s).rills = s.rills := rfl
@[simp] theorem modSlot_weirTurn (k : Nat) (f : EncSlot → EncSlot) : (modSlot k f s).weirTurn = s.weirTurn := rfl
@[simp] theorem modSlot_sendTurn (k : Nat) (f : EncSlot → EncSlot) : (modSlot k f s).sendTurn = s.sendTurn := rfl
@[simp] theorem modSlot_pkts (k : Nat) (f : EncSlot → EncSlot) : (modSlot k f s).pkts = s.pkts := rfl
@[simp] theorem modSlot_nextPkt (k : Nat) (f : EncSlot → EncSlot) : (modSlot k f s).nextPkt = s.nextPkt := rfl
@[simp] theorem modSlot_outbox (k : Nat) (f : EncSlot → EncSlot) : (modSlot k f s).outbox = s.outbox := rfl
@[simp] theorem modSlot_colls (k : Nat) (f : EncSlot → EncSlot) : (modSlot k f s).colls = s.colls := rfl
@[simp] theorem modSlot_agenda (k : Nat) (f : EncSlot → EncSlot) : (modSlot k f s).agenda = s.agenda := rfl
@[simp] theorem modSlot_focus (k : Nat) (f : EncSlot → EncSlot) : (modSlot k f s).focus = s.focus := rfl
@[simp] theorem modSlot_free (k : Nat) (f : EncSlot → EncSlot) : (modSlot k f s).free = s.free := rfl
@[simp] theorem modSlot_stale (k : Nat) (f : EncSlot → EncSlot) : (modSlot k f s).stale = s.stale := rfl
@[simp] theorem modSlot_turns (k : Nat) (f : EncSlot → EncSlot) : (modSlot k f s).turns = s.turns := rfl
@[simp] theorem modSlot_unmapped (k : Nat) (f : EncSlot → EncSlot) : (modSlot k f s).unmapped = s.unmapped := rfl
@[simp] theorem modSlot_badLines (k : Nat) (f : EncSlot → EncSlot) : (modSlot k f s).badLines = s.badLines := rfl

end Sys2Proof.Laws
end

