-- ==== Sys2Proof/Tests/Slice0.lean ====
section
/-! SUPPORT. The model's own tests: ill-formed terms refused, words written out from the spec decoded, the spec's worked
examples in one step each, and for every statement with hypotheses a state that meets them. -/

namespace Sys2Proof.Tests

open Sys2Proof Sys2Proof.Machine Sys2Proof.Laws

set_option Elab.async false

/-! ## Ill-formed terms (R82 to R102, R222 to R224, R318, R322, R323) -/

theorem test_wf_add : (Instr.iadd { d := 3, a := 1, b := 2, ty := 0 }).wf = true := by decide +kernel
theorem test_wf_guard_code : (Instr.iadd { gk := 13 }).wf = false := by decide +kernel
theorem test_wf_extension_beyond_length : (Instr.iadd { ext := 1 }).wf = false := by decide +kernel
theorem test_wf_type_code : (Instr.iadd { ty := 13 }).wf = false := by decide +kernel
theorem test_wf_sub_operation : (Instr.icmp { sop := 6 }).wf = false := by decide +kernel
theorem test_wf_rounding_code : (Instr.fadd { ty := 4, rm := 5 }).wf = false := by decide +kernel
theorem test_wf_saturate : (Instr.and { sat := true }).wf = false := by decide +kernel
theorem test_wf_pair_alignment : (Instr.iadd { d := 3, a := 2, b := 4, ty := 2 }).wf = false := by decide +kernel
theorem test_wf_uniform_source : (Instr.iadd { d := 0xC0, a := 1, b := 2 }).wf = false := by decide +kernel
theorem test_wf_row_of_another : (Instr.matchAll { sop := 0 }).wf = false := by decide +kernel
theorem test_wf_weir_reserved : (Instr.weirHalt { cn := 1 }).wf = false := by decide +kernel
theorem test_wf_weir_target : (Instr.weirJmp { imm := 2048 }).wf = false := by decide +kernel
theorem test_wf_hook_header : (Instr.hookStp 1 40 8).wf = false := by decide +kernel
theorem test_wf_hook_field_end : (Instr.hookLdp 0 511 2).wf = false := by decide +kernel
theorem test_wf_hook_word_number : (Instr.hookStq 1 4).wf = false := by decide +kernel
theorem test_wf_hook_count : (Instr.hookRep 17 1).wf = false := by decide +kernel
theorem test_wf_packet_of_another : (Instr.launch 2).wf = false := by decide +kernel

/-! ## Words from the spec's encodings -/

/-- R105's `FMUL.F32 v3, v1, v2`, R85's immediate, R133's saturating conversion, R368's `TRET.SUB`. -/
theorem test_decode_simt :
    decodeTableWord 64 0x00040002010342F1 = some (.fmul { d := 3, a := 1, b := 2, ty := 4 }) ∧
    decodeTableWord 64 0x084A0000030454F1 = some (.cvt { d := 4, a := 3, ty := 10, sop := 4, sat := true }) ∧
    decodeTableWord 64 0x00100000000009F5 = some (.tret { sop := 1, mark := true }) := by decide +kernel
/-- The slots of R248's table. -/
theorem test_decode_weir :
    decodeWeir 0x0000000400020008 = some (.weirMovi { wd := 2, imm := 4 }) ∧
    decodeWeir 0x0000000043000018 = some (.weirWaitf { wa := 3, wb := 4 }) ∧
    decodeWeir 0x0000000001000020 = some (.xmit { wa := 1 }) := by decide +kernel
/-- The words of R323's example. -/
theorem test_decode_hook : [0x00400000, 0x00000434, 0x00002C0C, 0x0000000E, 0x00001412, 0x00000022, 0x00000895, 0x0105B881].map decodeHook =
    [some (.hookLdp 0 0 8), some (.hookMovi 3 1), some (.hookSkipeq 0 3 1), some .hookAccept, some (.hookLdq 1 5),
     some (.hookLdq 2 0), some (.hookAdd 1 1 2), some (.hookStp 1 366 32)] := by decide +kernel
/-- R323: the example loads, and does not with `off` 40 in word 7. -/
theorem test_hook_image :
    hookFails [0x00400000, 0x00000434, 0x00002C0C, 0x0000000E, 0x00001412, 0x00000022, 0x00000895, 0x0105B881, 0x0000000E] = none ∧
    hookFails [0x00400000, 0x00000434, 0x00002C0C, 0x0000000E, 0x00001412, 0x00000022, 0x00000895, 0x0100A081, 0x0000000E] ≠ none := by
  decide +kernel
/-- Encoding gives the words back. -/
theorem test_encode : encode (.fmul { d := 3, a := 1, b := 2, ty := 4 }) = some (64, 0x00040002010342F1) ∧
    encode (.weirWaitf { wa := 3, wb := 4 }) = some (64, 0x0000000043000018) ∧
    encode (.hookStp 1 366 32) = some (32, 0x0105B881) := by decide +kernel

/-! ## One instruction issued on a small state -/

/-- A warp with a word in hand, on core 0, with one gang and one launch, its registers and the state set as wanted. -/
def emit (x : BitVec 128) (f : Warp → Warp := id) (g : State → State := id) : State :=
  g { State.reset with
    launches := [(0, { queue := 0, pkt := 0, asn := 0, root := 0, rpld := false, hdr := placeHdr, args := [], arrival := 0, order := 0 })],
    gangs := [(0, { launch := 0, index := some 0, core := 0, hdrAt := 0x10000, hdr := placeHdr, warps := 1, cls := 0,
                    barriers := [(0, { expect := 1 })], tags := [(0, .free)] })],
    warps := [(0, f (placeWarp x))], focus := .warp 0 }

/-- The warp's run after one step. -/
def ran (s : State) : Option Run :=
  match s.focus with
  | .warp k => (match step { s with agenda := [.warp k] } with | .next t => (lookup k t.warps).bind (fun w => w.run) | _ => none)
  | _ => none

/-- What a run's instructions gave a location last. -/
def gave (s : State) (loc : Loc) : Option W32 := (ran s).bind (fun r => r.latest loc)

/-- Registers of a warp by number and lane. -/
def vregs (l : List ((Nat × Nat) × Nat)) (w : Warp) : Warp :=
  l.foldl (fun w x => archWrite w (.v x.1.1 x.1.2, BitVec.ofNat 32 x.2)) w

/-- R150's worked example: `(k1) SSINT.UI32 k2, k3, v4, v5, s10, s11`. -/
def ssint : State := emit 0x0000CBCA0001030504026412
  (fun w => vregs (([2, 5, 7, 9, 12, 15, 20, 31].mapIdx (fun i x => ((4, i), x))) ++
                   ([3, 5, 9, 10, 15, 16, 18, 19].mapIdx (fun i x => ((5, i), x)))) { w with k := [(1, 0xFF)] })
theorem test_ssint_counts : gave ssint (.s 10) = some 6 ∧ gave ssint (.s 11) = some 8 := by decide +kernel
theorem test_ssint_masks :
    (List.range 9).map (fun i => gave ssint (.k 2 i)) = [some 0, some 1, some 0, some 1, some 0, some 1, some 0, some 0, none] ∧
    (List.range 9).map (fun i => gave ssint (.k 3 i)) = [some 0, some 1, some 1, some 0, some 1, some 0, some 0, some 0, none] := by
  decide +kernel

/-- R138's worked example: `PPE.F32 v3, v1, pp0`. -/
def ppe (x : Nat) : State := emit 0x0004000001035CF1 (fun w => vregs [((1, 0), x)] { w with
  pp := [(2, 0x3F800000), (5, 0x3F800000), (6, 0x3F800000), (7, 0x40000000), (10, 0x40000000), (11, 0x40400000), (14, 0x3F000000)] ++
    (List.range 61).map (fun j => (5 * (j + 3), 0x7F800000)) })
theorem test_ppe_segments : [0xC0400000, 0x3FC00000, 0x40000000].map (fun x => gave (ppe x) (.v 3 0)) =
    [some 0xC0400000, some 0x40000000, some 0x40400000] := by decide +kernel
theorem test_ppe_overflow : gave (ppe 0x7149F2CA) (.v 3 0) = some 0x7F800000 ∧
    (ran (ppe 0x7149F2CA)).map (fun r => r.flags &&& 0x14) = some (flagOF ||| flagNX) := by decide +kernel
theorem test_ppe_infinity : gave (ppe 0x7F800000) (.v 3 0) = some 0x7FC00000 ∧
    (ran (ppe 0x7F800000)).map (fun r => r.flags) = some flagNV := by decide +kernel

/-- R368's `FMUL.F32 v3, v1, v2` of infinity and zero in lane 2, its flag raised; substituted, neither (R61, R126). -/
def fmul (f : Warp → Warp) : State := emit 0x00040002010342F1 (fun w => f (vregs [((1, 2), 0x7F800000)] w))
theorem test_fmul_invalid : gave (fmul id) (.v 3 2) = some 0x7FC00000 ∧ (ran (fmul id)).map (fun r => r.flags) = some flagNV := by
  decide +kernel
theorem test_fmul_substituted :
    gave (fmul (fun w => { w with subAt := 0x10040, subst := [{ off := 0, lane := 2, val := 7 }] })) (.v 3 2) = some 7 ∧
    (ran (fmul (fun w => { w with subAt := 0x10040, subst := [{ off := 0, lane := 2, val := 7 }] }))).map (fun r => r.flags) = some 0 := by
  decide +kernel

/-- R119: an IADD without SAT wraps, with SAT clamps. -/
theorem test_iadd_wraps : gave (emit 0x00000002010320F1 (vregs [((1, 0), 0x7FFFFFFF), ((2, 0), 1)])) (.v 3 0) = some 0x80000000 := by
  decide +kernel
theorem test_iadd_saturates : gave (emit 0x08000002010320F1 (vregs [((1, 0), 0x7FFFFFFF), ((2, 0), 1)])) (.v 3 0) = some 0x7FFFFFFF := by
  decide +kernel
/-- R123: 7 divided by 0, and the most negative number by −1. -/
theorem test_idiv_corners : gave (emit 0x0000000201032DF1 (vregs [((1, 0), 7)])) (.v 3 0) = some 0xFFFFFFFF ∧
    gave (emit 0x0000000201032DF1 (vregs [((1, 0), 0x80000000), ((2, 0), 0xFFFFFFFF)])) (.v 3 0) = some 0x80000000 := by decide +kernel
theorem test_irem_sign : gave (emit 0x0000000201032EF1 (vregs [((1, 0), 0xFFFFFFF9), ((2, 0), 3)])) (.v 3 0) = some 0xFFFFFFFF := by
  decide +kernel
/-- R125: BPICK's three control words. -/
theorem test_bpick : [0x00010203, 0x07060504, 0x10100100].map (bpickOf 0xA1A2A3A4 0xB1B2B3B4) =
    [0xB4B3B2B1, 0xA1A2A3A4, 0x0000B3B4] := by decide +kernel
/-- R125: TERN's tables. -/
theorem test_tern : ternOf 0xE8 3 0b011 0b101 0b110 = 0b111 ∧ ternOf 0x96 3 0b011 0b101 0b110 = 0b000 ∧
    ternOf 0xD8 3 0b011 0b101 0b110 = 0b101 := by decide +kernel
/-- R263: a backward branch, its extension negative, leaves its lanes at the target. -/
theorem test_branch_target : normLpc (wrap 64 ((0x10040 : Int) + 8 + sx 32 0xFFFFFFF8)) = 0x10040 ∧ normLpc 0x1005C = 0x10060 := by
  decide +kernel

/-- A state holding a hook machine at the seventh word of R323's example. -/
def hookState : State :=
  let h : HookVM := { queue := 0, ix := 0, words := [0x0105B881], pkt := 1, h := [0, 5014, 0, 0, 0, 0, 0, 0] }
  { State.reset with agenda := [.hook], hook := some h }
/-- `STP 366, 32, h1` writes the packet's deadline. -/
theorem test_hook_stores :
    (match step hookState with
     | .next t => t.hook.map (fun h => (fld h.pkt 366 32, h.pc, h.steps))
     | _ => none) = some (5014, 1, 1) := by decide +kernel

/-- A Running weir context at slot 8 with w2 = 4. -/
def loopState : State :=
  let x : WeirCtx := { state := .running, pc := 8, w := [(2, 4)], slots := List.replicate 8 0 ++ [0x0000000400020006] }
  { State.reset with agenda := [.weir 0], weirs := [(0, x)] }
/-- R248: `LOOP w2, next` takes w2 from 4 to 3 and jumps to slot 4. -/
theorem test_weir_loop :
    (match step loopState with
     | .next t => some ((weirOf t 0).pc, (weirOf t 0).reg 2)
     | _ => none) = some (4, 3) := by decide +kernel

/-- Queue 0 enabled, with a segment and a ring of 16 entries. -/
def queueState : State :=
  let e : EddyEntry := { qcb := setFld (setFld 0 126 2 1) 104 4 4, dirty := false }
  { State.reset with segDir := some 0, dev := [(0, 1)], eddy := [(0, e)] }
/-- R309: a doorbell that would overrun its ring puts the queue into error 0x0041 (R307, R314). -/
theorem test_doorbell_overrun :
    (match execDoorbellRing 0 17 queueState with
     | .next t => (lookup 0 t.eddy).map (fun e => (fld e.qcb 126 2, fld e.qcb 256 16))
     | _ => none) = some (2, 0x41) := by decide +kernel

/-! ## States that meet the hypotheses of the statements: instructions that issue -/

/-- The context an instruction of the small state sees. -/
def seen (op : Nat) (x : Word) (f : Warp → Warp := id) : Ctx := ctxOf 0 (f (placeWarp 0)) (placeRun 0) op x

/-- Issues: everywhere in the families that ask no more (integers, logic, floats, moves, masks, NOP, PREF, terminals). -/
theorem witness_issues (x : BitVec 128) : (emit x).Issues 0 (placeWarp x) (placeRun x) := ⟨rfl, rfl, rfl, rfl⟩
/-- The same with the registers a test sets. -/
theorem witness_issues_registers : (emit 0 (vregs [((1, 0), 8)])).Issues 0 (vregs [((1, 0), 8)] (placeWarp 0)) (placeRun 0) :=
  ⟨rfl, by decide +kernel, by decide +kernel, by decide +kernel⟩
/-- CompareDivideAddress, ExchangeBetweenLanes, ReduceAndScan, FloatCompare: sub-operations at both ends of their ranges. -/
theorem witness_sub_operations : ∃ x y z u v : Word, x.sop.toNat = 0 ∧ y.sop.toNat = 5 ∧ z.sop.toNat = 3 ∧ u.sop.toNat = 2 ∧
    v.sop.toNat = 7 := ⟨{}, { sop := 5 }, { sop := 3 }, { sop := 2 }, { sop := 7 }, by decide⟩
/-- ExchangeBetweenLanes: four destinations that differ, two of them `s`. -/
theorem witness_ssint_destinations : let x : Word := { d := 2, c := 3, ext := 0xCBCA }
    x.d ≠ x.c ∧ (regOf (BitVec.ofNat 8 x.ext.toNat)).isS = true ∧ (regOf (BitVec.ofNat 8 (x.ext.toNat / 256))).isS = true ∧
    BitVec.ofNat 8 x.ext.toNat ≠ BitVec.ofNat 8 (x.ext.toNat / 256) := by decide +kernel
/-- LogicAndShift, BitOperations: the narrowest pattern, and a field that begins in it. -/
theorem witness_bits : (0 : Nat) < 1 ∧ 1 < 2 ^ 1 ∧ 0 < 1 ∧ 1 < 2 ^ 1 ∧ 255 < 256 ∧ (1 : Nat) ≠ 0 := by decide
/-- MovesAndSpecialRegisters: each writable register, an immediate, an `s` destination. -/
theorem witness_moves : ∃ x y z u v : Word, x.d = 0x09 ∧ y.d = 0x0A ∧ z.d = 0x11 ∧ u.i = true ∧ (regOf v.d).isS = true :=
  ⟨{ d := 0x09 }, { d := 0x0A }, { d := 0x11 }, { i := true }, { d := 0xC0 }, rfl, rfl, rfl, rfl, by decide +kernel⟩
/-- SpecialRegisterValues: the last gang of a grid of 2 × 2 × 2, a loose warp, the last core, a clock already read. -/
def gridState : State :=
  let l : Launch := { queue := 0, pkt := setFld (setFld (setFld 0 309 16 2) 325 16 2) 341 16 2, asn := 0, root := 0, rpld := false,
                      hdr := placeHdr, args := [], arrival := 0, order := 0 }
  let g : Gang := { launch := 0, index := some 7, core := 0, hdrAt := 0x10000, hdr := placeHdr, warps := 1, cls := 0 }
  { State.reset with clock := 9, launches := [(0, l)], gangs := [(0, g)], warps := [(0, placeWarp 0)], focus := .warp 0 }
theorem witness_special_registers :
    (∃ g, gangOf gridState (placeWarp 0) = some g ∧ g.task = none ∧ g.index = some 7) ∧
    fld (launchOf gridState (placeWarp 0)).pkt 309 16 = 2 ∧ fld (launchOf gridState (placeWarp 0)).pkt 325 16 = 2 ∧
    1 < 2 ∧ 7 = 1 + 2 * (1 + 2 * 1) ∧ (seen 0x68 {}).wp.gang.isSome = true ∧
    (seen 0x68 {} (fun w => { w with gang := none })).wp.gang = none ∧
    (seen 0x68 {}).key / 64 < 64 ∧ (seen 0x68 {} (fun w => { w with clockRead := 9 })).wp.clockRead ≤ gridState.clock :=
  ⟨⟨_, rfl, rfl, rfl⟩, by decide +kernel⟩
/-- RoundingModes, CanonicalNaN. -/
theorem witness_rounding : (0 : Nat) < 1 ∧ 3 < 4 ∧ fp32 ∈ [fp32, fp64, fp16, bf16, e4m3, e5m2, e2m1] ∧ fp64 ∈ [fp32, fp64] := by
  decide +kernel

/-- Scratchpad and vault addresses by lane: the last word of the 8,192 bytes, the first beyond them, a misaligned one. -/
def edges : Warp → Warp := vregs [((1, 0), 8188), ((1, 1), 8192), ((4, 0), 2)]
/-- LocalLoads, LocalStores, MisalignedAccess: aligned in every lane; in a lane not; within and beyond the declared scratchpad. -/
theorem witness_aligned : let c := seen 0x72 { d := 3, a := 1, i := true, sop := 4 } edges
    (∀ l ∈ c.act, c.memAddr false l % sizeBytes 4 = 0) ∧ c.act = List.range 32 ∧
    decide (c.memAddr false 0 + 4 ≤ (scratchOf (emit 0 edges) 0 c.wp).2) = true ∧
    decide (c.memAddr false 1 + 4 ≤ (scratchOf (emit 0 edges) 0 c.wp).2) = false := by decide +kernel
theorem witness_misaligned : let c := seen 0x72 { d := 3, a := 4, i := true, sop := 4 } edges
    let g := seen 0x70 { d := 3, a := 4, i := true, sop := 4 } edges
    let h := seen 0x78 { a := 4, i := true } edges
    (∃ l ∈ c.act, c.memAddr false l % sizeBytes 4 ≠ 0) ∧ (∃ l ∈ g.act, g.memAddr true l % sizeBytes 4 ≠ 0) ∧
    ∃ l ∈ h.act, h.memAddr false l % 128 ≠ 0 := by decide +kernel
theorem witness_lines_aligned : let c := seen 0x78 { a := 1, i := true }
    ∀ l ∈ c.act, c.memAddr false l % 128 = 0 := by decide +kernel

/-- A page of the launch's space in the caches: 2 MiB and 32 KiB at 0, readable, writable, dirty; CACHE 0. -/
def mapped (s : State) : State :=
  let e : TlbEntry := { asn := 0, base := 0, size := 32768, entry := 0x8037, level := 0, ea := 0x1000 }
  { s with coreTlb := [(0, e)], dieTlb := [(0, e)] }
/-- GlobalLoadStore: all lanes translate; an access from L1, one that misses it, one of a page that bypasses it. -/
theorem witness_global : let c := seen 0x70 { d := 3, a := 1, i := true, sop := 4 }
    let s := emit 0 id mapped
    let walk := fun (write : Bool) => translateLanes c write .L (c.act.map (fun l => (l, c.memAddr true l))) s
    (∀ l ∈ c.act, c.memAddr true l % 4 = 0) ∧ (walk false).1.2 = [] ∧ (walk true).1.2 = [] ∧ c.loaders = c.act := by
  decide +kernel
theorem witness_l1_access :
    let held : State := { State.reset with l1 := [((0, 0, 1), List.replicate 128 7)] }
    lookup (0, 0, 128 / 128) held.l1 = some (List.replicate 128 7) ∧ lookup (0, 0, 128 / 128) State.reset.l1 = none ∧
    0x8080 % 128 = 128 % 128 ∧ 128 % 128 + 128 ≤ 128 ∧ isPoisoned State.reset (.dev (0x8080 - 0x8080 % 128)) 128 = false := by
  decide +kernel

/-! ### Tensors -/

/-- An entry of 8 × 1 UI8 elements at 0, and an image entry of 4 × 4 FP32 texels. -/
def plainEntry : TEntry := BitVec.ofNat 512 (2 ^ 126 + 7 * 2 ^ 128 + 0x800 * 2 ^ 238)
def imageEntry : TEntry := BitVec.ofNat 512 (2 ^ 126 + 4 * 2 ^ 58 + 1 * 2 ^ 62 + 3 * 2 ^ 128 + 3 * 2 ^ 146 + 2 ^ 188 + 1 * 2 ^ 256 + 0x800 * 2 ^ 238)
/-- The launch holding an entry in place 0, with its header's samplers declared. -/
def entered (e : TEntry) (s : State) : State :=
  mapped { s with launches := s.launches.map (fun y => (y.1, { y.2 with tensors := [(0, e)] })) }
theorem witness_tensor_entries : tnUsable plainEntry = true ∧ tnUsable imageEntry = true ∧ tnImg imageEntry = true ∧
    tnImg plainEntry = false ∧ tnUsable emptyTensor = false := by decide +kernel
/-- TensorLoadStore: every lane reads within the geometry; every lane outside it. -/
theorem witness_tensor_lanes :
    let c := seen 0x7B { d := 3, a := 1, ty := 0 }
    let far := seen 0x7B { d := 3, a := 1, ty := 0 } (vregs ((List.range 32).map (fun l => ((1, l), 8))))
    let s := emit 0 id (entered plainEntry)
    let e := (launchOf s c.wp).tensor 0
    c.act ≠ [] ∧ tnUsable e = true ∧ (ldtLanes c (userOf c s .L) e c.loaders s).1.2.1 = [] ∧
    (sttLanes c (userOf c s .L) e c.act s).1.2.1 = [] ∧ (∀ l ∈ c.act, tnInside e (c.coords l) = true) ∧
    ∀ l ∈ far.act, tnInside e (far.coords l) = false := by decide +kernel
/-- Samplers, TensorTable: bounds kept and bounds refused (above one another), an image read clean, each refusal. -/
theorem witness_tensor_table :
    let c := seen 0x98 { a := 1 }
    let s := emit 0 id (entered plainEntry)
    c.act ≠ [] ∧ c.a 2 0 % 64 = 0 ∧
    (match (tensorRead (userOf c s .L) false (c.a 2 0) 64 s).1 with
     | .ok v => !v.2 && !(tnValid (BitVec.ofNat 512 v.1) && tnMalformed (BitVec.ofNat 512 v.1))
     | .error _ => false) = true ∧
    badBounds 0 1 1 = false ∧ badBounds 0 2 1 = true ∧
    tnUsable ((launchOf (emit 0) c.wp).tensor 0) = false := by decide +kernel
theorem witness_samplers :
    let smp : Warp → Warp := fun w => { w with hdr := setFld placeHdr 219 1 1 }
    let c := seen 0xD0 { d := 3, a := 1, b := 2 } smp
    let s := emit 0 smp (entered imageEntry)
    c.act ≠ [] ∧ hdrSmp c.wp.hdr = true ∧ (tnUsable ((launchOf s c.wp).tensor 0) && tnImg ((launchOf s c.wp).tensor 0)) = true ∧
    hdrSmp (seen 0xD0 {}).wp.hdr = false ∧
    (tnUsable ((launchOf (emit 0 smp) c.wp).tensor 0) && tnImg ((launchOf (emit 0 smp) c.wp).tensor 0)) = false := by decide +kernel

/-! ### Issues of the rest -/

/-- LaneControl: a gang's warp; a loose warp without join counters; a section open and not. -/
theorem witness_lane_control : (seen 0x05 {}).wp.gang ≠ none ∧
    (∀ l ∈ (seen 0x05 {} (fun w => { w with gang := none })).act,
      ((seen 0x05 {} (fun w => { w with gang := none })).wp.lane l).join = 0) ∧
    (seen 0x17 {}).wp.serial = none ∧ (seen 0x17 {}).act ≠ [] ∧
    (seen 0x17 {} (fun w => { w with serial := some (0, 0) })).wp.serial ≠ none := by decide +kernel
/-- CommitAccessesIssue: addresses aligned to 64 in every active lane, with and without lanes left out for their 0. -/
theorem witness_commit_accesses :
    let f := vregs ((List.range 32).map (fun l => ((1, l), 64 * l)))
    let c := seen 0xC0 { d := 3, a := 1, b := 4, ty := 0 } f
    (∀ l ∈ c.act, c.a 2 l % 64 = 0) ∧ (∀ l ∈ c.act, decide (c.a 2 l = 0) = false → c.a 2 l % 8 = 0) ∧
    c.a 2 0 = 0 ∧ c.a 2 1 = 64 ∧ c.dScalar = false ∧ (0 : Nat) = ({ } : Word).mx.toNat := by decide +kernel
/-- CopiesIssue: aligned addresses and a count of 4,096; a loose warp. -/
theorem witness_copies_issue :
    let c := seen 0x90 { a := 1, b := 2, c := 5 } (vregs ((List.range 32).map (fun l => ((5, l), 4096))))
    c.wp.gang ≠ none ∧ c.act ≠ [] ∧ c.reg 1 2 0 % 128 = 0 ∧ c.reg 2 2 0 % 128 = 0 ∧ c.reg 5 1 0 ≤ 4096 ∧ c.reg 5 1 0 = 4096 ∧
    (seen 0x90 {} (fun w => { w with gang := none })).wp.gang = none := by decide +kernel
/-- Tags: the mask of all 64 declared tags, the mask 0 that TWANY refuses, a table whose tags do not repeat. -/
theorem witness_tags_issue :
    let c := seen 0x93 { b := 6 } (vregs ((List.range 32).flatMap (fun l => [((6, l), 0xFFFFFFFF), ((7, l), 0xFFFFFFFF)])))
    c.wp.gang ≠ none ∧ (c.b 2 3 0) = 2 ^ 64 - 1 ∧ c.b 2 3 0 < 2 ^ hdrTags c.wp.hdr ∧ (seen 0x93 { b := 6 }).b 2 3 0 = 0 ∧
    (seen 0x93 {}).act ≠ [] ∧ ∀ g ∈ (emit 0).gangs, (g.2.tags.map (fun z => z.1)).Nodup := by decide +kernel
/-- Barriers: barrier 15 of 16 with a count of 1,024; a count of 1,025; a loose warp. -/
theorem witness_barriers_issue :
    let f := fun (n : Nat) => vregs ((List.range 32).map (fun l => ((1, l), n)))
    let c := seen 0xB3 { b := 1, c := 15 } (f 1024)
    c.wp.gang ≠ none ∧ 15 < hdrBars c.wp.hdr ∧ c.b 1 1 0 = 1024 ∧ (seen 0xB3 { b := 1, c := 15 } (f 1025)).b 1 1 0 = 1025 ∧
    (seen 0xB0 {} (fun w => { w with gang := none })).wp.gang = none ∧ c.act ≠ [] := by decide +kernel
/-- RegionBind: no lane active; a clean image of an invalid region; a malformed one (VALID with LO above HI's place). -/
def noLane : Warp → Warp := fun w => { w with run := some { placeRun 0 with lanes := 0 } }
theorem witness_no_lane : (ctxOf 0 (placeWarp 0) { placeRun 0 with lanes := 0 } 0xB9 {}).act = [] := by decide +kernel
theorem witness_region :
    let c := seen 0xB9 { a := 1, c := 0 }
    let s := emit 0 id mapped
    let bad : State := { s with dev := (List.range 32).map (fun i => (0x8000 + i, 0xFF)) }
    let got := fun (s : State) => match (tensorRead (userOf c s .L) false (c.a 2 0) 32 s).1 with
      | .ok v => some (v.1, v.2)
      | .error _ => none
    c.act ≠ [] ∧ c.a 2 0 % 32 = 0 ∧ (got s) = some (0, false) ∧ rgValid 0 = false ∧
    (got bad) = some (2 ^ 256 - 1, false) ∧ rgValid (BitVec.allOnes 256) = true ∧ regionMalformed [] (BitVec.allOnes 256) = true := by
  decide +kernel
/-- PolynomialTables: a table's pages translated for both; a misaligned address. -/
theorem witness_polynomial_tables :
    let c := seen 0x5D { a := 1 }
    let s := emit 0 id mapped
    c.act ≠ [] ∧ wrap 64 ((c.a 2 0 : Int) + sx 32 0) % 4 = 0 ∧ (translatePieces c false .L 4 0 1280 s).1.2 = [] ∧
    (translatePieces c true .L 4 0 1280 s).1.2 = [] ∧
    (loadPieces c.core 0 4 (translatePieces c false .L 4 0 1280 s).1.1 (translatePieces c false .L 4 0 1280 s).2).1.2 = false ∧
    wrap 64 ((c.a 2 0 : Int) + sx 32 2) % 4 ≠ 0 := by decide +kernel
/-- MatrixInstructions: the last row and bank owned, one beyond; an entry the unit takes, of 128 × 1 UI8. -/
def matrixEntry : TEntry := BitVec.ofNat 512 (2 ^ 126 + 127 * 2 ^ 128 + 9 * 2 ^ 58 + 0x800 * 2 ^ 238)
theorem witness_matrix_issue :
    let x : Word := { d := 127, a := 1, ext := 0, sop := 3 }
    let c := seen 0xA1 x
    let s := emit 0 id (entered matrixEntry)
    c.wp.gang ≠ none ∧ 127 + (0 % 128 + 1) ≤ hdrRows c.wp.hdr ∧ 3 < hdrBanks c.wp.hdr ∧ ¬ 128 + (0 % 128 + 1) ≤ hdrRows c.wp.hdr ∧
    tnUsable ((launchOf s c.wp).tensor 0) = true ∧ tnFmt ((launchOf s c.wp).tensor 0) = 9 ∧ c.origin.getD 0 0 % 128 = 0 ∧
    x.sx = false ∧ tnVault ((launchOf s c.wp).tensor 0) = false ∧ tnAuto ((launchOf s c.wp).tensor 0) = false := by decide +kernel

/-! ## States that meet the hypotheses: the end of a run -/

/-- A warp whose run of one NOP has issued whole. -/
def ended (f : Run → Run := id) : Warp := { placeWarp 0 with run := some (f { placeRun 0 with index := 1 }) }
def marked (f : Run → Run := id) : State := emit 0 (fun _ => ended f)
/-- CommitOfRun. -/
theorem witness_at_marker : marked.AtMarker 0 ended { placeRun 0 with index := 1 } :=
  { here := rfl, flight := rfl, issued := by decide +kernel, clean := by decide +kernel, calm := by decide +kernel,
    lanes := by decide +kernel, alive := fun l h => by rw [← Option.some.inj h] }
/-- CommitOfTerminal: a YIELD of every lane. -/
def yielding (r : Run) : Run := { r with term := some { op := 0x06, w := {}, off := 0, lanes := List.range 32 } }
theorem witness_terminal : (marked yielding).AtMarker 0 (ended yielding) (yielding { placeRun 0 with index := 1 }) ∧
    dirtyOp 0x06 = false ∧ 0x06 ∉ [0x90, 0x91, 0x92] ∧
    (let r := yielding { placeRun 0 with index := 1 }
     let p : Pending := { op := 0x06, w := {}, off := 0, lanes := List.range 32 }
     r.term = some p ∧ r.held = [] ∧ markerWaits { key := 0, run := r, p := p, after := r.after } (marked yielding) = false ∧
     markerCause { key := 0, run := r, p := p, after := r.after } (marked yielding) = none) :=
  ⟨{ here := rfl, flight := rfl, issued := by decide +kernel, clean := by decide +kernel, calm := by decide +kernel,
     lanes := by decide +kernel, alive := fun l h => by rw [← Option.some.inj h] }, by decide +kernel⟩
/-- StoresAtCommit: two stores that overlap. -/
def storing (r : Run) : Run := { r with held := [.bytes (.dev 0) 0 true [1, 2], .bytes (.dev 1) 1 true [3]] }
theorem witness_stores : (marked storing).AtMarker 0 (ended storing) (storing { placeRun 0 with index := 1 }) ∧
    (marked storing).memWf = true ∧ (storing { placeRun 0 with index := 1 }).term = none ∧
    ∀ h ∈ (storing { placeRun 0 with index := 1 }).held, ∃ p va l1 data, h = .bytes p va l1 data :=
  ⟨{ here := rfl, flight := rfl, issued := by decide +kernel, clean := by decide +kernel, calm := by decide +kernel,
     lanes := by decide +kernel, alive := fun l h => by rw [← Option.some.inj h] }, by decide +kernel, rfl, by
    intro h m
    simp only [storing, List.mem_cons, List.not_mem_nil, or_false] at m
    obtain rfl | rfl := m <;> exact ⟨_, _, _, _, rfl⟩⟩
/-- TrapEntry: a trapped run with a handler declared, inside the handler, and without one; a cause waiting after a commit;
two causes of one offset. -/
def trapped (r : Run) : Run :=
  { r with causes := [{ off := 0, code := 6, detail := 0x70, lanes := 1, tdst := 0 }, { off := 0, code := 1, detail := 4, lanes := 2, tdst := 0 }] }
def saved0 : TrapSave := { lanes := List.replicate 32 (0x10040, .ready), runLanes := BitVec.allOnes 32, after := 0x10048, post := false }
theorem witness_trap :
    let w := ended trapped
    let r := trapped { placeRun 0 with index := 1 }
    lookup 0 (marked trapped).warps = some w ∧ w.run = some r ∧ r.words.length ≤ r.index ∧ r.ue = none ∧ r.mismatch = none ∧
    r.term = none ∧ r.causes ≠ [] ∧ firstCause r.causes = some { off := 0, code := 1, detail := 4, lanes := 2, tdst := 0 } ∧
    fatalFault r.faults = none ∧ w.handler = none ∧ hdrTraph w.hdr ≠ 0 ∧ hdrTraph (setFld placeHdr 96 32 0) = 0 ∧
    ({ w with handler := some saved0 } : Warp).handler ≠ none ∧
    ∀ y ∈ (marked trapped).launches, y.2.kill = none := by decide +kernel
theorem witness_post_trap :
    let c : Cause := { off := 0, code := 2, detail := 0, lanes := 1, tdst := 0 }
    let w : Warp := { placeWarp 0 with run := none, post := [(0x10040, c)] }
    lookup 0 (emit 0 (fun _ => w)).warps = some w ∧ w.run = none ∧ w.handler = none ∧ w.post = [(0x10040, c)] ∧
    hdrTraph w.hdr ≠ 0 := by decide +kernel

/-- An instruction at the end of its run, in given lanes. -/
def atEnd (op : Nat) (x : Word) (lanes : List Nat) : Fin :=
  { key := 0, run := placeRun 0, p := { op := op, w := x, off := 0, lanes := lanes }, after := 0x10048 }
/-- TrapReturn: in the handler, each form. -/
theorem witness_trap_return :
    let w : Warp := { placeWarp 0 with handler := some saved0, tpc := 0x10040, tmask := 1 }
    lookup 0 (emit 0 (fun _ => w)).warps = some w ∧ w.handler = some saved0 ∧ saved0.post = false ∧ saved0.writes = [] ∧
    w.lanes.length = 32 ∧ saved0.lanes.length = 32 ∧ (atEnd 0x09 { sop := 1 } [0]).p.lanes ≠ [] ∧
    (saved0.lanes[0]?.getD default).1 = w.tpc.toNat ∧ ({ sop := 2 } : Word).sop = 2 ∧ ({ sop := 1 } : Word).sop = 1 ∧
    ({} : Word).sop ≠ 1 := by decide +kernel
/-- SubstitutedLanes: lane 2 of an IADD and of an FADD recorded. -/
theorem witness_substituted :
    let f : Warp → Warp := fun w => { w with subAt := 0x10040, subst := [{ off := 0, lane := 2, val := 7 }] }
    let x : Word := { d := 3, a := 1, b := 2 }
    let y : Word := { d := 3, a := 1, b := 2, ty := 4 }
    (emit 0 f).focus = .warp 0 ∧ lookup 0 (emit 0 f).warps = some (f (placeWarp 0)) ∧ (f (placeWarp 0)).run = some (placeRun 0) ∧
    regOf x.d = .v 3 ∧ 3 < hdrRegs (placeWarp 0).hdr ∧ legalWord 0x20 x = true ∧ legalWord 0x40 y = true ∧
    regsOf x.ty.toNat = 1 ∧ regsOf y.ty.toNat = 1 ∧
    ((f (placeWarp 0)).substFor 0x10040 0).filter (fun z => (seen 0x20 x f).full.contains z.1) = [(2, 7)] := by decide +kernel
/-- Branches, LaneControl: the warp of a terminal instruction; no section, no handler; every lane with a count. -/
theorem witness_ends : lookup 0 (emit 0).warps = some (placeWarp 0) ∧ (atEnd 0x05 {} (List.range 32)).p.lanes.Nodup ∧
    (atEnd 0x05 {} (List.range 32)).p.place = [] ∧ (placeWarp 0).handler = none ∧ (placeWarp 0).serial = none ∧
    (atEnd 0x06 {} [0]).p.lanes ≠ [] ∧ ((List.range 32).map (fun l => (l, (5 : BitVec 128)))).map (fun y => y.1) = List.range 32 ∧
    (atEnd 0x17 {} [0, 1]).p.lanes = 0 :: [1] ∧ normLpc 0x1005C = 0x10060 := by decide +kernel

/-- An access at commit: every lane at one address of device memory. -/
def onPlace (op : Nat) (x : Word) (lanes : List Nat) (p : Place) (v : BitVec 128 := 5) : Fin :=
  { key := 0, run := placeRun 0, after := 0x10048,
    p := { op := op, w := x, off := 0, lanes := lanes, addr := lanes.map (fun l => (l, 0x100)), place := lanes.map (fun l => (l, p)),
           b := lanes.map (fun l => (l, v)), c := lanes.map (fun l => (l, 9)) } }
/-- AtomicAtCommit, CountersAtCommit: lanes at one address; the last sub-operation and type; the floating .ADD. -/
theorem witness_atomic :
    let x : Word := { d := 4, sop := 9, ty := 3 }
    let f := onPlace 0x80 x [0, 31] (.dev 0x100)
    lookup 0 (emit 0).warps = some (placeWarp 0) ∧ (emit 0).memWf = true ∧ f.p.lanes ≠ [] ∧ f.p.lanes.Nodup ∧
    (∀ l ∈ f.p.lanes, l < 32) ∧ f.p.addr = f.p.lanes.map (fun l => (l, 0x100)) ∧
    (∀ l ∈ f.p.lanes, lookup l f.p.place = some (.dev 0x100)) ∧ f.p.op ∈ [0x80, 0x82, 0x83, 0x84] ∧ x.ty.toNat < 4 ∧
    x.sop.toNat ≤ 9 := by decide +kernel
theorem witness_float_atomic :
    let x : Word := { d := 4, ty := 7 }
    let f := onPlace 0x81 x [0, 31] (.scr 0)
    f.p.lanes = 0 :: [31] ∧ f.p.lanes.Nodup ∧ (∀ l ∈ f.p.lanes, lookup l f.p.place = some (.scr 0)) ∧ x.sop = 0 ∧
    x.ty.toNat ∈ [4, 5, 6, 7] := by decide +kernel
theorem witness_counters :
    let f := onPlace 0xB5 { mx := 1 } [3, 7] (.host 0x100)
    f.p.lanes ≠ [] ∧ f.p.lanes.Nodup ∧ f.p.addr = f.p.lanes.map (fun l => (l, 0x100)) ∧
    (∀ l ∈ f.p.lanes, lookup l f.p.place = some (.host 0x100)) ∧ f.p.w.mx ≠ 0 ∧ ({ sop := 1 } : Word).sop ≠ 0 := by decide +kernel
/-- FlagWaits: one lane; a flag at its comparand and one below it. -/
theorem witness_flag_waits :
    let f := onPlace 0xB4 { sop := 3, mx := 1 } [31] (.dev 0x100)
    lookup 0 (emit 0).warps = some (placeWarp 0) ∧ f.p.lanes = [31] ∧ 31 < 32 ∧ (placeWarp 0).lanes.length = 32 ∧
    f.p.place = [(31, .dev 0x100)] ∧ f.p.addr = [(31, 0x100)] ∧ f.p.w.sop.toNat < 8 ∧
    read64 { emit 0 with dev := [(0x100, 5)] } (.dev 0x100) = 5 ∧ read64 (emit 0) (.dev 0x100) = 0 := by decide +kernel
/-- CopiesStart: the gang's only warp supplies the slice; another gang of two warps waits for the other; no lines, one line. -/
theorem witness_copies :
    let f := fun (l : List (Nat × Nat)) => { atEnd 0x90 { ext := 0 } [0] with p := { (atEnd 0x90 { ext := 0 } [0]).p with addr := l } }
    lookup 0 (emit 0).warps = some (placeWarp 0) ∧ (placeWarp 0).gang = some 0 ∧
    (∃ y, lookup 0 (emit 0).gangs = some y ∧ lookup 0 y.tags = some .free ∧ y.warps - y.exitedWarps.length ≤ 1) ∧
    (∀ y : Gang, y.warps = 2 → y.exitedWarps = [] → 1 < y.warps - y.exitedWarps.length) ∧
    (f []).p.addr = [] ∧ (f [(0, 0x8000)]).p.addr ≠ [] :=
  ⟨rfl, rfl, ⟨_, rfl, rfl, by decide⟩, fun y h h' => by rw [h, h']; decide, rfl, by decide⟩
/-- Tags: the mask of one tag; ready, free; the mask 0 of TWALL. -/
theorem witness_tags :
    let f : Fin := { atEnd 0x93 {} [0] with p := { (atEnd 0x93 {} [0]).p with b := [(0, BitVec.setWidth 128 (1 : BitVec 64))] } }
    f.p.lanes ≠ [] ∧ lookup 0 f.p.b = some (BitVec.setWidth 128 (1 : BitVec 64)) ∧ (placeWarp 0).gang = some 0 ∧
    (∃ y, lookup 0 (emit 0).gangs = some y ∧ (y.tags.map (fun z => z.1)).Nodup ∧
      ∀ n, decide (lookup n y.tags = some TagState.ready) = true → n < 64) ∧ (placeWarp 0).lanes.length = 32 := by
  refine ⟨by decide, rfl, rfl, ⟨_, rfl, by decide, ?_⟩, by decide⟩
  intro n h
  by_cases h0 : n = 0
  · omega
  · simp [lookup, h0] at h
/-- Barriers: a barrier with no arrival, and one just below the count's field. -/
theorem witness_barriers :
    lookup 0 (emit 0).warps = some (placeWarp 0) ∧ (placeWarp 0).gang = some 0 ∧
    (∃ y b, lookup 0 (emit 0).gangs = some y ∧ lookup 0 y.barriers = some b ∧ b.count < 2047) ∧
    ({ expect := 1, count := 2046 } : Barrier).count < 2047 ∧ 0 ∈ ({ expect := 1, marks := [0] } : Barrier).marks :=
  ⟨rfl, rfl, ⟨_, _, rfl, rfl, by decide⟩, by decide, by decide⟩
/-- RegionBind: an image at commit, in two halves. -/
theorem witness_rbind :
    let img : BitVec 256 := 1 + 3 * 2
    let f : Fin := { atEnd 0xB9 {} [0] with
      p := { (atEnd 0xB9 {} [0]).p with b := [(0, BitVec.setWidth 128 img), (1, BitVec.setWidth 128 (img >>> 128))] } }
    f.p.op = 0xB9 ∧ f.p.lanes ≠ [] ∧ lookup 0 (emit 0).warps = some (placeWarp 0) ∧ (lookup 0 (emit 0).launches).isSome = true := by
  decide +kernel
/-- MatrixInstructions, MatrixStatus, SquaredSumsMultiply: a warp of a gang; nothing outstanding, one outstanding; a block with its CB. -/
theorem witness_matrix :
    lookup 0 (emit 0).warps = some (placeWarp 0) ∧ (placeWarp 0).gang = some 0 ∧ (atEnd 0xA4 {} [0]).p.lanes ≠ [] ∧
    ((lookupD 0 {} (emit 0).parts).queue.filter (fun o => o.warp = 0 ∧ o.gang = 0)).length = 0 ∧
    (let b : BankSeg := { ints := [3, -4], exp := 0, scale := (0, false, 1, 0), cb := 25, nan := false, outside := false }
     [1, 2].length = b.ints.length ∧ b.cb = ((b.ints.map (fun n => n * n)).sum).toNat) := by decide +kernel

/-! ## States that meet the hypotheses: weirs, hooks, commands -/

/-- A Running context whose first connection is valid and whose descriptor 0 names 32 bytes at 0. -/
def chunk0 : BitVec 256 := setFld 0 160 25 32
def postable : WeirCtx := { state := .running, tpls := [chunk0], d := [(0, chunk0)], conns := [2 ^ 18, 2 ^ 18 + 1] }
def weirState (x : WeirCtx) : State := mapped { State.reset with weirs := [(0, x)], focus := .weir 0 }
/-- WeirRegisters, WeirFlags: nothing posted, one posted; the flag's page mapped for both; a template named; a misaligned address. -/
theorem witness_weir :
    let s := weirState postable
    let sp : Space := { asn := 0, root := 0, rpld := false, rhnd := 0 }
    s.focus = .weir 0 ∧ lookupD 0 {} s.weirs = postable ∧ postable.state = .running ∧ postable.ops = [] ∧ postable.starter = none ∧
    ({ postable with ops := [{ id := 0, kind := .recv, cn := 0 }] } : WeirCtx).ops ≠ [] ∧ postable.tpls[0]? = some chunk0 ∧
    (∀ write, (match (translate (.die 0) sp 0 write false .W s).1 with
      | .ok p => decide (p = (.dev 0x8000, 0)) | .error _ => false) = true) ∧
    isPoisoned (translate (.die 0) sp 0 true false .W s).2 (.dev 0x8000) 8 = false ∧ s.memWf = true ∧
    fld (postable.conns.getD 0 0) 18 1 = 1 ∧ (4 : Nat) % 8 ≠ 0 := by decide +kernel
/-- WeirPosts: a chunk described for a load and for a store, its page translated; a seventh operation on the connection; a
remote address in each space; a connection that is not valid. -/
theorem witness_weir_posts :
    let s := weirState postable
    let ch := chunkOf postable chunk0 0
    fld chunk0 160 25 ≠ 0 ∧ fld chunk0 0 64 % 32 = 0 ∧ fld chunk0 192 64 % 32 = 0 ∧ fld chunk0 141 1 = 0 ∧
    (match (chunkPlaces 0 ch true s).1 with | .ok l => decide (l = [(0, 32, .dev 0x8000)]) | .error _ => false) = true ∧
    postable.ops.length < 16 ∧
    ((List.replicate 7 ({ id := 0, kind := .recv, cn := 0 } : WOp)).filter (fun o => o.conns.contains 0)).length < 8 ∧
    (∀ cn < 2, fld (postable.conns.getD cn 0) 18 1 = 1) ∧ fld (postable.conns.getD 2 0) 18 1 ≠ 1 ∧
    fld (0x60 : W64) 57 6 = 0 ∧ fld (2 ^ 63 + 0x20 : W64) 30 33 = 0 := by decide +kernel
/-- HookWords: a hook machine with its registers; each queue word; a count that is not 0. -/
theorem witness_hook :
    let h : HookVM := { queue := 0, ix := 0, words := [], pkt := 0 }
    let s : State := { State.reset with hook := some h, focus := .hook }
    s.focus = .hook ∧ s.hook = some h ∧ h.h.length = 8 ∧ h.hw.length = 4 ∧ (3 : BitVec 3).toNat < 4 ∧ (31 : BitVec 5) ≠ 0 ∧
    (64 : BitVec 7).toNat ≤ 64 := by decide +kernel

/-- A packet from its fields. -/
def fields (l : List (Nat × Nat × Nat)) : BitVec 512 := l.foldl (fun p f => setFld p f.1 f.2.1 f.2.2) 0
/-- The command processor holding a packet of a privileged queue, its space mapped. -/
def holding (p : BitVec 512) (g : State → State := id) : State :=
  let e : EddyEntry := { qcb := setFld (setFld 0 64 1 1) 120 3 7, dirty := false }
  g (mapped { State.reset with eddy := [(0, e)], taken := some (0, 0, p), focus := .command })
theorem witness_holds (p : BitVec 512) : (holding p).Holds 0 0 p := ⟨rfl, rfl⟩
/-- A packet keeps a layout if its bits, looked at one by one, do. -/
theorem keeps {p : BitVec 512} {g : Bool} {l : List (Nat × Nat)}
    (h : (∀ i < 426, 64 ≤ i → p.getLsbD i = true → l.any (fun f => decide (f.1 ≤ i ∧ i < f.1 + f.2)) = true) ∧
      (∀ i < 20, p.getLsbD (12 + i) = false) ∧ (g || !p.getLsbD 11) = true) : PacketKeeps p g l := by
  obtain ⟨fieldsOnly, reserved, record⟩ := h
  refine ⟨fun i lo hi b => by simpa using fieldsOnly i hi lo b, fun i lo hi => ?_, fun e => by simpa [e] using record⟩
  have := reserved (i - 12) (by omega)
  rwa [Nat.add_sub_cancel' lo] at this
/-- CommandChecks: a layout kept and one broken by its lowest and highest bit; a queue with no privilege. -/
theorem witness_layout : PacketKeeps (fields [(64, 14, 1), (128, 57, 32768)]) false [(64, 14), (128, 57), (192, 32)] ∧
    ¬ PacketKeeps (fields [(78, 1, 1)]) false [(64, 14), (128, 57), (192, 32)] ∧
    ¬ PacketKeeps (fields [(425, 1, 1)]) false [(64, 14), (128, 57), (192, 32)] ∧
    fld (qcbOf State.reset 0) 64 1 = 0 ∧ fld (qcbOf (holding 0) 0) 64 1 = 1 :=
  ⟨keeps (by decide +kernel),
   fun h => absurd (h.1 78 (by decide) (by decide) (by decide +kernel)) (by decide +kernel),
   fun h => absurd (h.1 425 (by decide) (by decide) (by decide +kernel)) (by decide +kernel), by decide +kernel⟩
/-- LaunchAccepted: a launch of one warp, its header and image at 0; a backwater too small and one that fits; a class above
the queue's. -/
def launchPkt : BitVec 512 := fields [(304, 5, 8), (309, 16, 1), (325, 16, 1), (341, 16, 1), (357, 6, 1), (363, 3, 7)]
def withHeader (s : State) : State := { s with dev := Mem.setBytes s.dev 0x8000 (leBytes 64 placeHdr.toNat) }
theorem witness_launch :
    let s0 : State := { holding launchPkt withHeader with taken := none }
    let b := qcbOf s0 0
    PacketKeeps launchPkt true [(64, 50), (124, 302)] ∧ fld launchPkt 309 16 = 1 ∧ fld launchPkt 357 6 = 1 ∧
    4096 * fld launchPkt 259 45 + 64 * 2 ^ fld launchPkt 304 5 ≤ 2 ^ 57 ∧ fld (fields [(304, 5, 7)]) 304 5 = 7 ∧
    fld launchPkt 363 3 ≤ fld b 120 3 ∧ fld (qcbOf State.reset 0) 120 3 < fld launchPkt 363 3 ∧
    (match launchRead (qAsn b) (qRoot b) (128 * fld launchPkt 64 50) 64 s0 with
     | (.ok h, s1) => decide (leBits 512 h = placeHdr) && (match launchRead 0 0 0 0 s1 with | (.ok i, _) => i.isEmpty | _ => false)
     | _ => false) = true ∧
    hdrMalformed placeHdr = false ∧ hdrMalformed 0 = true ∧ regionsMalformed (imageRegions launchPkt []) = false ∧
    placeable placeHdr 1 = true ∧ placeable (setFld placeHdr 160 5 8) 32 = true ∧ placeable placeHdr 32 = false :=
  ⟨keeps (by decide +kernel), by decide +kernel⟩
/-- CommandEffects, by command: COPY of one line, in global space and with a vault side whose handle stands; FILL the same. -/
theorem witness_copy :
    let p := fields [(192, 24, 1)]
    let v := fields [(121, 2, 1), (192, 24, 1), (216, 12, 5)]
    PacketKeeps p false [(64, 59), (128, 59), (192, 24), (216, 12)] ∧ PacketKeeps v false [(64, 59), (128, 59), (192, 24), (216, 12)] ∧
    PacketKeeps (fields [(128, 24, 1), (192, 64, 7)]) false [(64, 59), (128, 24), (152, 12), (192, 64)] ∧
    1 ≤ fld p 192 24 ∧ fld v 216 12 ≠ 0 ∧
    (lookup 5 (holding v (fun s => { s with handles := [(5, { asn := 0, extents := [] })] })).handles).map (fun x => x.asn) = some 0 :=
  ⟨keeps (by decide +kernel), keeps (by decide +kernel), keeps (by decide +kernel), by decide +kernel⟩
/-- SIGNAL and WAIT on a flag at 8; MAP of its own space. -/
theorem witness_signal :
    let p := fields [(64, 57, 8), (121, 1, 1), (128, 64, 9)]
    let s0 : State := { holding p with taken := none }
    PacketKeeps p false [(64, 58), (128, 64)] ∧ PacketKeeps p false [(64, 59), (128, 64), (192, 32)] ∧ fld p 121 2 = 1 ∧
    (∀ write, (match (cpPlaces 0 (qRoot (qcbOf s0 0)) 8 8 write s0).1 with
      | .ok l => decide (l = [(8, .dev 0x8008, 0)]) | .error _ => false) = true) ∧
    isPoisoned (cpPlaces 0 (qRoot (qcbOf s0 0)) 8 8 true s0).2 (.dev 0x8008) 8 = false :=
  ⟨keeps (by decide +kernel),
   keeps (by decide +kernel), by decide +kernel⟩
/-- PIN of one extent, free and taken; of one out of range; UNPIN of no handle and of one. -/
theorem witness_pin :
    let p := fields [(64, 12, 5), (88, 7, 1)]
    let list := fun (e : Nat) => holding p (fun s => { s with dev := Mem.setBytes s.dev 0x8000 (leBytes 8 e) })
    let read := fun (e : Nat) => match (cpRead 0 (qRoot (qcbOf (list e) 0)) 0 8 { list e with taken := none }).1 with
      | .ok l => some (leNat l) | .error _ => none
    PacketKeeps p false [(64, 31), (128, 57)] ∧ PacketKeeps (fields [(64, 12, 5)]) false [(64, 12)] ∧ fld p 64 12 ≠ 0 ∧ fld p 88 7 = 1 ∧
    read (1 * 2 ^ 15 + 95 * 2 ^ 8) = some (1 * 2 ^ 15 + 95 * 2 ^ 8) ∧ read (2 * 2 ^ 15 + 95 * 2 ^ 8) = some (2 * 2 ^ 15 + 95 * 2 ^ 8) ∧
    (list 1).memWf = true ∧ lookup 5 (list 1).handles = none :=
  ⟨keeps (by decide +kernel), keeps (by decide +kernel), by decide +kernel⟩
/-- TASKQ and PREEMPT: the launch of the tag, held and not; no launch of it. -/
def tagged : State → State := fun s => { s with
  launches := [(3, { queue := 0, pkt := fields [(32, 32, 6)], asn := 0, root := 0, rpld := false, hdr := placeHdr, args := [], arrival := 0, order := 0 })] }
theorem witness_tagged :
    let p := fields [(128, 32, 6)]
    let q := fields [(96, 32, 6)]
    PacketKeeps p false [(64, 51), (128, 32)] ∧ PacketKeeps q false [(64, 22), (96, 32)] ∧ fld q 64 20 = 0 ∧
    ((tagged (holding p)).launches.find? (fun y => y.2.queue = 0 && decide (fld y.2.pkt 32 32 = 6) && y.2.kill.isNone)).map
      (fun y => y.1) = some 3 ∧
    (∀ y ∈ (tagged (holding p)).launches, y.2.queue = 0 → fld y.2.pkt 32 32 = 7 → y.2.kill ≠ none) ∧
    (match (cpPlaces 0 (qRoot (qcbOf (holding p) 0)) 0 64 true (tagged (holding p))).1 with
      | .ok l => !l.any (fun y => isPoisoned (holding p) y.2.1 y.1) && !l.isEmpty | .error _ => false) = true :=
  ⟨keeps (by decide +kernel),
   keeps (by decide +kernel), by decide +kernel⟩
/-- HOOKLD of no words, of one that loads, of one that does not. -/
theorem witness_hookld :
    let p := fields [(148, 8, 1)]
    let s := fun (x : Nat) => holding p (fun s => { s with dev := Mem.setBytes s.dev 0x8000 (leBytes 4 x) })
    PacketKeeps (fields []) false [(64, 57), (128, 28), (256, 128)] ∧ PacketKeeps p false [(64, 57), (128, 28), (256, 128)] ∧
    (match (cpRead 0 (qRoot (qcbOf (s 0xE) 0)) 0 4 (s 0xE)).1 with | .ok l => decide (leNat l = 0xE) | .error _ => false) = true ∧
    hookFails [0xE] = none ∧ hookFails [0x1E] = some 0 :=
  ⟨keeps (by decide +kernel),
   keeps (by decide +kernel), by decide +kernel⟩
/-- The queries' answer and CAPTURE's head are written where the page is mapped; CKPT with nothing saved and with a Running
context; SCANT. -/
theorem witness_answers :
    let s := holding (fields [(64, 4, 4)])
    PacketKeeps (fields [(64, 4, 4)]) false [(64, 38), (128, 57), (192, 64)] ∧
    PacketKeeps (fields [(76, 52, 4096)]) false [(64, 1), (76, 52)] ∧ PacketKeeps (fields [(64, 8, 255)]) false [(64, 8)] ∧
    PacketKeeps (fields [(84, 2, 1), (192, 32, 1)]) false [(64, 22), (128, 57), (192, 32)] ∧
    (cpWrite 0 (qRoot (qcbOf s 0)) 0 (leBytes 8 5) s).1.isNone = true ∧ s.saved = [] ∧ s.savedLoose = [] ∧
    (∀ y ∈ s.weirs, y.2.state ∉ [WeirState.running, .waiting, .faulted, .stopped]) ∧
    (∃ y ∈ (weirState postable).weirs, y.2.state ∈ [WeirState.running, .waiting, .faulted, .stopped]) :=
  ⟨keeps (by decide +kernel), keeps (by decide +kernel), keeps (by decide +kernel), keeps (by decide +kernel), by decide +kernel⟩
/-- CommandsOfEngines: an image of one slot that loads, a header that does not; a table of one member, of the same member
twice; a frame for a free slot and for one another session holds. -/
def imageHdr : BitVec 512 := BitVec.ofNat 512 (0x57520960 + 2 ^ 32 + 2 ^ 48)
theorem witness_loadseq :
    let p := fields [(128, 4, 15), (132, 2, 3)]
    let s := holding p (fun s => { s with dev := Mem.setBytes s.dev 0x8000 (leBytes 64 imageHdr.toNat) })
    let c : CmdCtx := { q := 0, ix := 0, p := p, b := qcbOf s 0 }
    PacketKeeps p false [(64, 57), (128, 6)] ∧ (lookupD 63 {} s.weirs).state ∉ [WeirState.running, .waiting, .faulted, .stopped] ∧
    (lookupD 0 {} (weirState postable).weirs).state ∈ [WeirState.running, .waiting, .faulted, .stopped] ∧
    imgHeaderBad 0 = true ∧ imgHeaderBad imageHdr = false ∧
    (match cpRead 0 (qRoot (qcbOf s 0)) 0 64 s with
     | (.ok h, t) => decide (leBits 512 h = imageHdr) && (match cpRead 0 (qRoot (qcbOf s 0)) 0 (imgEnd imageHdr) t with
        | (.ok i, u) => (loadImage u c imageHdr i).isSome | _ => false)
     | _ => false) = true :=
  ⟨keeps (by decide +kernel), by decide +kernel⟩
theorem witness_coll :
    let p := fields [(128, 16, 2)]
    let s := holding p (fun s => { s with dev := Mem.setBytes s.dev 0x8000 (leBytes 16 0 ++ leBytes 16 0x10000) })
    let twice := holding p
    let who := fun (s : State) => match (cpRead 0 (qRoot (qcbOf s 0)) 0 32 s).1 with
      | .ok t => (leNat (t.take 16) % 2 ^ 18, leNat (t.drop 16) % 2 ^ 18) | .error _ => (9, 9)
    PacketKeeps p false [(64, 57), (128, 48), (192, 64)] ∧ 1 ≤ fld p 128 16 ∧ who s = (0, 0x10000) ∧ who twice = (0, 0) :=
  ⟨keeps (by decide +kernel), by decide +kernel⟩
theorem witness_encframe :
    PacketKeeps (fields [(64, 3, 7), (67, 2, 3)]) false [(64, 7), (78, 50), (128, 57), (192, 64), (256, 57), (320, 64)] ∧
    (holderOf State.reset 31).isNone = true ∧
    holderOf { State.reset with encSlots := [(31, { desc := 0, asn := 0 })] } 31 = some (31, { desc := 0, asn := 0 }) ∧
    holderOf { State.reset with encSlots := [(28, { desc := 0, asn := 0, whole := true })] } 31 =
      some (28, { desc := 0, asn := 0, whole := true }) :=
  ⟨keeps (by decide +kernel), by decide +kernel⟩

/-! ## States that meet the hypotheses: queues, the mailbox, events -/

/-- QueueRegisters: a queue without a segment, one whose block is not cached, one cached and enabled with its ring full and
one more, one disabled, one dirty and one clean, a block in memory that a latched ring waits for; a hook at its budget. -/
def blockState (b : BitVec 512) : State :=
  { State.reset with segDir := some 0, dev := Mem.setBytes [(0, 1), (1, 0x20)] 0x2000 (leBytes 64 b.toNat) }
def withBlock (e : EddyEntry) (s : State) : State := { s with eddy := [(0, e)] }
theorem witness_queues :
    let on := setFld (setFld 0 126 2 1) 104 4 4
    let e : EddyEntry := { qcb := on, dirty := true }
    segEntry State.reset 0 = none ∧ (blockState 0).portHeld = [] ∧ (2 ^ 63 : BitVec 64).getLsbD 63 = true ∧ segEntry (blockState 0) 0 ≠ none ∧
    (16 : BitVec 64).getLsbD 63 = false ∧ lookup 0 (blockState 0).eddy = none ∧
    lookup 0 (withBlock e (blockState 0)).eddy = some e ∧ fld e.qcb 126 2 = 1 ∧ fld (0 : BitVec 512) 126 2 ≠ 1 ∧
    (16 + 2 ^ 32 - fld on 160 32) % 2 ^ 32 ≤ 2 ^ fld on 104 4 ∧ ¬ (17 + 2 ^ 32 - fld on 160 32) % 2 ^ 32 ≤ 2 ^ fld on 104 4 ∧
    lookup 0 (withBlock e (blockState 0)).latch = none ∧
    lookup 0 ({ blockState 0 with latch := [(0, 16)] } : State).latch = some 16 ∧ (blockState 0).memWf = true ∧
    ¬ (63 : Nat) ≥ 64 ∧ (64 : Nat) ≤ 64 := by decide +kernel
/-- The block lies where the directory's entry says; one whose QST is 1, or whose reserved bits are not 0; the latch full;
the port holding a write; a queue whose block left the cache with work. -/
theorem witness_block_in_memory :
    let on := setFld (setFld 0 126 2 1) 104 4 4
    qcbInMemory (blockState on) 0 = some on ∧ qcbInMemory (blockState 1) 0 = none ∧ (blockState on).portHeld = [] ∧
    ({ blockState on with portHeld := [(7, 1)] } : State).portHeld ≠ [] ∧
    ((List.range 1024).map (fun n => (n + 1, (0 : W64)))).length = 1024 ∧
    0 ∈ ({ blockState on with unread := [0] } : State).unread ∧ segEntry { blockState on with dev := [(0, 3)] } 0 = none := by
  decide +kernel
/-- Mailbox: nothing placed; each command's limits at their ends. -/
def faulted0 : FaultWait :=
  { key := 5, ix := some 0, image := 0, asn := 0, page := 0, kind := 0, wr := false, rpl := true, who := [.warp 0] }
theorem witness_mailbox :
    let s := State.reset
    (s.gangs = [] ∧ s.warps = []) ∧ ¬ ((emit 0).gangs = [] ∧ (emit 0).warps = []) ∧ 4095 < 4096 ∧ ¬ 4096 < 4096 ∧
    (4095 + [(1 : BitVec 16)].length ≤ 4096) ∧ 131072 % 131072 = 0 ∧ 131072 < 0xC000000000 ∧ 2 ^ 20 % 2 ^ 20 = 0 ∧
    (4 < 5 ∧ 1 ≤ 1 ∧ 65535 < 65536 ∧ 1 ≤ 65000 ∧ 65000 ≤ 65000) ∧ (1200 ≤ 1200 ∧ 1200 ≤ 3000) ∧ ¬ (1200 ≤ 1199) ∧
    s.faultWaits = [] ∧ 131072 + 131072 ≤ 0xC000000000 := by decide +kernel
theorem witness_fqcons :
    let s : State := { emit 0 (fun w => { w with faultWait := [5] }) with faultWaits := [faulted0], fqBase := some 0, fqProd := 1 }
    s.faultWaits = [faulted0] ∧ faulted0.ix = some s.fqCons.toNat ∧ s.fqBase = some 0 ∧ 1 ≤ (s.fqProd - s.fqCons).toNat ∧
    (s.fqProd - s.fqCons).toNat < (BitVec.setWidth 32 (2 : BitVec 64) - s.fqCons).toNat ∧
    (lookup 0 s.warps).map (fun w => w.faultWait) = some [faulted0.key] := by decide +kernel

/-- A gang's warp whose lane 0 is in a state, the others Exited or as given. -/
def parked (st : LaneState) (rest : LaneState := .exited) : Warp :=
  { placeWarp 0 with run := none, lanes := { lpc := 0x10040, state := st } :: List.replicate 31 { lpc := 0x10040, state := rest } }
/-- WarpEvents: a sleep that is just over and one that is not, a met tag wait, a flag wait with its value and without, a
join met and not. -/
theorem witness_wakes :
    let s := emit 0 (fun _ => parked (.parked (.sleep 0)))
    let due := fun (st : LaneState) => match st with | .parked (.sleep t) => decide (t ≤ dieClock s 0) | _ => false
    lookup 0 s.warps = some (parked (.parked (.sleep 0))) ∧ (parked (.parked (.sleep 0))).handler = none ∧
    (parked (.parked (.sleep 0))).lanes.length = 32 ∧ due ((parked (.parked (.sleep 0))).lane 0).state = true ∧
    due (.parked (.sleep 1)) = false ∧ ((parked (.parked (.tag 0 true))).lane 0).state = .parked (.tag 0 true) ∧
    ((parked (.parked (.flag (.dev 0) 0 0 7 (some 3) 0 0 (some 7)))).lane 0).state =
      .parked (.flag (.dev 0) 0 0 7 (some 3) 0 0 (some 7)) ∧ regOf (BitVec.ofNat 8 3) = .v 3 ∧
    (∀ i < 32, i ≠ 0 → ((parked (.parked (.join none 0 0 0 true))).lane i).state = .exited) ∧
    (∀ i < 32, i ≠ 0 → ((parked (.parked (.sleep 0))).lane i).state = .exited) := by decide +kernel
theorem witness_join : let w := { parked (.parked (.join none 4 5 0 true)) with gang := none }
    w.gang = none ∧ w.serial = none ∧ w.joinSince = none ∧ (w.lane 0).state = .parked (.join none 4 5 0 true) ∧ w.k = [] := by
  decide +kernel
/-- A line of code in the core's cache: one FMUL that carries the marker. FetchedRun, WarpEvents. -/
def fetchable : State :=
  let w : Warp := { placeWarp 0 with run := none }
  emit 0 (fun _ => w) (fun s => { s with icache := [((0, 0, 0x200), List.replicate 64 0 ++ leBytes 8 0x00040002010342F5 ++ List.replicate 56 0)] })
theorem witness_fetched :
    let w : Warp := { placeWarp 0 with run := none }
    (match fetchRun fetchable 0 w with | .ready l => decide (l.map (fun y => y.1) = [0]) | _ => false) = true ∧
    (issuers fetchable 0).any (fun y => y.2.2.missed) = false ∧
    ((chooseWarp (lookupD 0 {} fetchable.parts).counts (issuers fetchable 0)).map (fun y => y.1)) = some 0 ∧
    (fetchable.warps.filter (fun y => y.1 / 16 = 0 ∧ y.2.run.isSome)).length < 2 := by decide +kernel
/-- Two runs in flight on a partition; a walk asked for a space in use and not; a line asked for and not, with one waiting. -/
theorem witness_fetches :
    let two : State := { emit 0 with warps := [(0, placeWarp 0), (1, placeWarp 0)] }
    let s := emit 0 (fun w => { w with run := none }) (fun s => mapped { s with fetches := [(0, 0, 0x200)] })
    let s1 : State := { s with fetches := s.fetches.filter (fun y => y ≠ (0, 0, 0x200)) }
    2 ≤ (two.warps.filter (fun y => y.1 / 16 = 0 ∧ y.2.run.isSome)).length ∧
    (issuers two 0).any (fun y => y.2.2.missed) = false ∧
    walkWanted s 0 { asn := 0, root := 0, va := 128 * 0x200, write := false, fetch := true } = true ∧
    walkWanted s 0 { asn := 0, root := 0, va := 128 * 0x200, write := true, fetch := false } = false ∧
    (0, 0, 0x201) ∉ s.fetches ∧ (0, 0, 0x200) ∈ s.fetches ∧ (fillWaiters s1 0 0 0x200).length = 1 := by decide +kernel
theorem witness_fill :
    let e : TlbEntry := { asn := 0, base := 0x10000, size := 32768, entry := 0x803F, level := 0, ea := 0 }
    let s := emit 0 (fun w => { w with run := none }) (fun s => { s with dieTlb := [(0, e)] })
    let t := translate (.die 0) { asn := 0, root := 0, rpld := false, rhnd := 0 } (128 * 0x200) false true .L s
    (match t.1 with | .ok p => decide (p = (.dev 0x8000, 0)) | .error _ => false) = true ∧
    isPoisoned t.2 (.dev 0x8000) 128 = false := by decide +kernel
/-- Of two warps of one class the one Ready for longer is chosen, and of two classes the higher. -/
theorem witness_choice :
    let a : Warp := { placeWarp 0 with run := none }
    let b : Warp := { a with readySince := 1 }
    (chooseWarp [] [(0, b, .illegal 0), (1, a, .illegal 0)]).map (fun y => y.1) = some 1 ∧
    (chooseWarp [] [(0, a, .illegal 0), (1, { b with cls := 7 }, .illegal 0)]).map (fun y => y.1) = some 1 ∧
    (∀ c < 8, lookupD c 0 ([] : List (Nat × Nat)) < 64) := by decide +kernel

/-- WarpEvents: of two Ready warps the one of the higher class keeps its slot where slots are withheld, and the first slot is
one of them; a warp of each class with no slot withheld. -/
theorem witness_withheld :
    let a : Warp := { placeWarp 0 with run := none }
    let l : List (Nat × Warp × Fetched) := [(0, a, .illegal 0), (1, { a with cls := 7 }, .illegal 0)]
    let s : State := { State.reset with withheld := 15 }
    s.clock % 16 < s.withheld ∧ (slotWarps s l).map (fun y => y.1) = [1] ∧ State.reset.withheld ≤ State.reset.clock % 16 ∧
    (slotWarps State.reset l).map (fun y => y.1) = [0, 1] := by decide +kernel

/-- GangEvents: a barrier with its only arrival and with none; a shadow being written; a gang stalled on it and not. -/
def barred (n : Nat) : State :=
  emit 0 (fun _ => parked (.parked (.barrier 0 false))) (fun s => { s with
    clock := 1, gangs := s.gangs.map (fun g => (g.1, { g.2 with barriers := [(0, { expect := 1, count := n })] })) })
theorem witness_gang :
    let first := fun (s : State) (f : Gang → Barrier → Bool) =>
      (lookup 0 s.gangs).any (fun x => (lookup 0 x.barriers).any (fun y => f x y))
    first (barred 1) (fun x y => decide (y.expect ≤ y.count ∧ y.touched < (barred 1).clock) && !x.rolling && !hdrRb x.hdr && x.shadow.isNone) = true ∧
    gangWarps 0 (barred 1) ≠ [] ∧ first (barred 0) (fun x y => decide (y.count < y.expect) && gangStalled (barred 0) 0 x) = true ∧
    (lookup 0 (emit 0).gangs).any (fun x => !gangStalled (emit 0) 0 x) = true ∧
    ({ warps := [], barriers := [], scrBytes := [], scrFull := [] } : Shadow).writing = true := by decide +kernel
/-- A copy of one line from a mapped page to scratchpad; one landed whole; a COPY's. -/
def copying (l : List (Nat × Nat)) (o : CopyOwner) : Copy :=
  { owner := o, core := 0, asn := 0, root := 0, rhnd := 0, fromSp := 0, toSp := 2, lines := l }
theorem witness_copy_events :
    let s : State := emit 0 id (fun s => mapped { s with copies := [(3, copying [(0, 128)] (.gang 0 0))] })
    let c := copying [(0, 128)] (.gang 0 0)
    lookup 3 s.copies = some c ∧ c.dead = false ∧ c.stopped = none ∧ c.fill = none ∧ c.lines[0]? = some (0, 128) ∧
    s.memWf = true ∧ s.buffer = [] ∧ Path.C ∉ s.lag ∧ s.scrNow = [] ∧ isPoisoned s (.dev 0x8000) 128 = false ∧ c.lines.length = 1 ∧
    (lookup 0 s.gangs).isSome = true ∧ 1 < (copying [(0, 128), (128, 256)] (.command 1)).lines.length ∧
    (match (copyPlace c c.fromSp 0 false s).1 with | .ok p => decide (p = .dev 0x8000) | .error _ => false) = true ∧
    (match (copyPlace c c.toSp 128 true (copyPlace c c.fromSp 0 false s).2).1 with | .ok p => decide (p = .scr 128) | .error _ => false) = true ∧
    (copying [] (.gang 0 0)).lines = [] ∧ (copying [] (.command 1)).ended = none := by decide +kernel
/-- A load of a bank done whole at a queue's head, its gang and warp there, its warp ended; an empty queue. -/
theorem witness_matrix_complete :
    let b : Bank := { key := none, fmt := 9, depth := 128, segs := [] }
    let op : MatOp := { op := 0xA0, w := {}, warp := 0, gang := 0, runAddr := 0, off := 0, lanes := 0, entryNo := 0, entry := 0, origin := [],
                        doneUnits := 128, bank := some b }
    let s : State := { emit 0 with parts := [(0, { queue := [op] })] }
    (lookupD 0 {} s.parts).queue = [op] ∧ op.dead = false ∧ op.stopped = none ∧ matUnits op ≤ op.doneUnits ∧ op.bank = some b ∧
    (lookup op.gang s.gangs).any (fun x => !hdrPair x.hdr) = true ∧ (lookup op.warp s.warps).map (fun w => w.gang) = some (some op.gang) ∧
    lookup op.warp { s with warps := [] }.warps = none ∧ (lookupD 1 {} s.parts).queue = [] := by decide +kernel
/-- A launch with nothing left, one with a gang, one killed; a gang that ends; a launch that waits for a context. -/
def bareLaunch : Launch :=
  { queue := 0, pkt := 0, asn := 0, root := 0, rpld := false, hdr := placeHdr, args := [], arrival := 0, order := 0 }
theorem witness_launch_events :
    let s : State := { State.reset with launches := [(0, bareLaunch), (1, { bareLaunch with kill := some (0x21, 0, 0) })] }
    lookup 0 s.launches = some bareLaunch ∧ launchDone s 0 bareLaunch = true ∧
    launchDone { s with launches := [(0, { bareLaunch with ringLen := 1 })] } 0 { bareLaunch with ringLen := 1 } = false ∧
    bareLaunch.kill = none ∧ lookup 1 s.launches = some { bareLaunch with kill := some (0x21, 0, 0) } := by decide +kernel
theorem witness_gang_end :
    let x : Gang := { launch := 0, index := some 0, core := 0, hdrAt := 0, hdr := placeHdr, warps := 1, cls := 0, state := .ending, smaskUnion := 1 }
    let s : State := { State.reset with launches := [(0, bareLaunch)], gangs := [(0, x)] }
    lookup 0 s.gangs = some x ∧ x.state = .ending ∧ gangWarps 0 s = [] ∧ copiesOf s 0 = false ∧ matrixOf s 0 = false ∧
    x.rolling = false ∧ x.task = none ∧ pkGrec bareLaunch.pkt = false ∧ bareLaunch.kill = none := by decide +kernel
theorem witness_context_take :
    let c : Cmd := { queue := 0, ix := 0, pkt := launchPkt, asn := 0, root := 0, rpld := false, work := .launching placeHdr [], since := 0, order := 0 }
    let s := mapped { State.reset with cmds := [(4, { c with pkt := setFld launchPkt 363 3 5 })] }
    (waitingLaunch s).isSome = true ∧ s.launches.length < 1024 ∧ waitingLaunch State.reset = none ∧
    (match (launchRead 0 0 (64 * fld c.pkt 124 51) (fld c.pkt 175 17) s).1 with | .ok l => l.isEmpty | .error _ => false) = true ∧
    fld (setFld launchPkt 363 3 5) 363 3 < 6 := by decide +kernel

/-! ## States that meet the hypotheses: scheduling, the fabric, the package -/

/-- SchedulingEvents: a record on its way into queue 3; a queue whose 256 clocks have passed; one empty. -/
def rec0 : BitVec 256 := setFld 0 32 32 64
def gathered (recs : List (BitVec 256)) : State :=
  { State.reset with clock := 256, launches := [(0, bareLaunch)],
                     queues := [((0, 3), { entry := 64, launch := 0, recs := recs, first := 0 })] }
theorem witness_gathering :
    let e : Entering := { launch := 0, core := 0, queue := some 3, image := rec0 }
    let s : State := { gathered [rec0] with entering := [e] }
    State.reset.entering.find? (fun e => e.core = 0) = none ∧ s.entering.find? (fun e => e.core = 0) = some e ∧ e.queue = some 3 ∧
    lookup (0, 3) (gathered [rec0]).queues = some { entry := 64, launch := 0, recs := [rec0], first := 0 } ∧
    lookup 0 (gathered [rec0]).launches = some bareLaunch ∧ fld bareLaunch.pkt 410 16 = 0 ∧ 0 + 256 ≤ (gathered [rec0]).clock ∧
    queueCount (gathered [rec0]) 0 3 = 1 ∧ (looseContext (gathered [rec0]) 0 0).isSome = true ∧
    ({ entry := 64, launch := 0, recs := [], first := 0 } : GQueue).due = false := by decide +kernel
/-- A ring of one record in a mapped backwater, on a core with reserves; without them; a ready hold with its record. -/
def ringed : State :=
  let l : Launch := { bareLaunch with pkt := setFld 0 304 5 8, ringLen := 1, reserves := [(0, [(15, 4000)])], holds := [] }
  mapped { State.reset with launches := [(0, l)], dev := Mem.setBytes [] 0x8000 (leBytes 32 rec0.toNat) }
theorem witness_ring :
    (lookup 0 ringed.launches).any (fun x => hasReserves x 0 && !hasReserves x 1 && decide (x.ringLen ≠ 0 ∧ x.holds = [])) = true ∧
    ringed.queues = [] ∧ ringed.warps = [] ∧ (looseContext ringed 0 0).isSome = true ∧
    (ringTake 0 0 0 32 0 ringed).1 = some [rec0] := by decide +kernel
theorem witness_ready_hold :
    let h : Hold := { slot := 0, place := none, ready := true }
    let l : Launch := { bareLaunch with pkt := setFld 0 304 5 8, holds := [h] }
    let s := mapped { State.reset with launches := [(0, l)], dev := Mem.setBytes [] (0x8000 - 8192) [] }
    let t : State := { s with coreTlb := s.coreTlb, dev := [] }
    l.holds.find? (fun h => h.slot = 0 && h.ready) = some h ∧ l.holds.find? (fun h => h.slot = 1 && h.ready) = none ∧
    (bwRead 0 0 (2 ^ 8 + 0) t).1 = some 0 ∧ hasReserves l 0 = false ∧ ringFree (bwRead 0 0 (2 ^ 8 + 0) t).2 0 = 256 := by
  decide +kernel
/-- A loose warp blocked in a join for 512 clocks, and for 511. -/
theorem witness_conversion :
    let w : Warp := { parked (.parked (.join none 4 5 0 false)) with gang := none, joinSince := some 0 }
    let s : State := { emit 0 (fun _ => w) with clock := 512 }
    lookup 0 s.warps = some w ∧ w.gang = none ∧ w.joinSince = some 0 ∧ w.handler = none ∧ (lookup w.launch s.launches).isSome = true ∧
    0 + 512 ≤ s.clock ∧ w.joinBlocked = true ∧ 511 < 0 + 512 ∧ contextWanted { s with clock := 511 } 0 = false := by decide +kernel
/-- Spawn exhaustion: every hold slot taken, a record in the ring and no reserve that could run it; and not. -/
theorem witness_exhaustion :
    let l : Launch := { bareLaunch with pkt := setFld 0 304 5 8, ringLen := 1,
                                        holds := (List.range 256).map (fun i => { slot := i, place := none, ready := false }) }
    0 < l.ringLen ∧ 2 ^ fld l.pkt 304 5 ≤ l.holds.length ∧ l.reserves = [] ∧ ¬ 0 < bareLaunch.ringLen ∧ bareLaunch.holds = [] := by
  decide +kernel
/-- Placements held by a checkpoint; a launch of one gang that the dispatcher of die 0 places on some core. -/
def freshItem : Item := { launch := 0, cls := 7, deadline := 0, order := 0, work := .fresh 0 }
def waiting1 : State :=
  { State.reset with launches := [(0, { bareLaunch with pkt := launchPkt })] }
theorem pickCore_some (s : State) (l : List Nat) (h : l ≠ []) : ∃ c, pickCore s l = some c := by
  have : 0 < l.length := List.length_pos_iff.mpr h
  exact ⟨_, List.getElem?_eq_getElem (Nat.lt_of_lt_of_le (Nat.mod_lt _ (by omega)) (by omega))⟩
theorem witness_placement :
    placementsHeld { State.reset with power := .d3hot } = true ∧ placementsHeld waiting1 = false ∧
    beforePlacement waiting1 = waiting1 ∧ sharedOrder waiting1 = [freshItem] ∧
    waiting1.riskSince = [] ∧ (lookup 0 waiting1.launches).map (fun l => l.cls) = some 7 := by decide +kernel
theorem witness_placed : ∃ l, lookup 0 waiting1.launches = some l ∧
    ∃ c, coreFor waiting1 0 freshItem l l.hdr (fld l.pkt 357 6) (fld l.pkt 398 12) false = some c :=
  ⟨_, rfl, pickCore_some _ _ (by decide +kernel)⟩
/-- A gang saved whole, that some core takes back; nothing saved. -/
def savedGang : Saved :=
  let x : Gang := { launch := 0, index := some 0, core := 0, hdrAt := 0, hdr := placeHdr, warps := 1, cls := 0, state := .switchedOut }
  { gang := x, warps := [], scrBytes := [], scrFull := [], rows := [], banks := [], queues := [], copies := [] }
def savedState : State := { State.reset with launches := [(0, bareLaunch)], saved := [(9, savedGang)] }
theorem witness_saved :
    placementsHeld savedState = false ∧ freeReserves savedState = savedState ∧ savedState.savedLoose = [] ∧
    lookup 9 savedState.saved = some savedGang ∧ (∀ y ∈ savedState.saved, y.1 = 9 → y.2 = savedGang) ∧
    lookup 9 savedState.gangs = none := by decide +kernel
def savedItem : Item := { launch := 0, cls := 0, deadline := 0, order := 0, work := .saved 9 }
theorem witness_first_saved : ∃ c, coreFor savedState 0 savedItem bareLaunch savedGang.gang.hdr savedGang.gang.warps
      (fld bareLaunch.pkt 398 12) true = some c ∧
    sharedOrder savedState = [savedItem] ∧ beforePlacement savedState = savedState ∧ savedGang.bad = false := by
  obtain ⟨c, hc⟩ : ∃ c, coreFor savedState 0 savedItem bareLaunch savedGang.gang.hdr savedGang.gang.warps (fld bareLaunch.pkt 398 12) true = some c :=
    pickCore_some _ _ (by decide +kernel)
  exact ⟨c, hc, by decide +kernel⟩
/-- A class-7 launch at risk: every core is out of service but core 0, which holds a gang of class 0 with all four banks. -/
def risky : State :=
  let x : Gang := { launch := 1, index := some 0, core := 0, hdrAt := 0, hdr := placeHdr, warps := 1, cls := 0 }
  { State.reset with clock := 16384, launches := [(0, { bareLaunch with pkt := launchPkt }), (1, bareLaunch)], gangs := [(5, x)],
                     coresOut := (List.range 256).filter (fun c => c ≠ 0), riskSince := [(0, 0)], savePool := some (0, 2 ^ 20) }
theorem witness_at_risk :
    placementsHeld risky = false ∧ noteRisk risky = risky ∧ sharedOrder risky = [freshItem] ∧
    atRisk risky 0 { bareLaunch with pkt := launchPkt } = true ∧ risky.reservedFor = [] ∧
    (riskHeads risky).map (fun y => (y.1, y.2.2.2)) = [(freshItem, (1, false))] ∧
    ((riskChoice risky 0 0 { bareLaunch with pkt := launchPkt } placeHdr 1 false).map (fun y => (y.1, y.2.map (fun g => g.1)))) = some (0, [5]) ∧
    (risky.gangs.map (fun g => switchBytes risky g.2)).sum ≤ poolRoom risky := by decide +kernel
/-- A held launch's gang with room in the pool and without; a rolling gang with a clean shadow. -/
theorem witness_switch :
    let s : State := { emit 0 with launches := [(0, { bareLaunch with held := true })], savePool := some (0, 2 ^ 20) }
    (lookup 0 s.gangs).any (fun x => decide (x.state = .placed ∧ x.rolling = false ∧ switchBytes s x ≤ poolRoom s ∧
      poolRoom { s with savePool := none } < switchBytes { s with savePool := none } x)) = true ∧ gangWarps 0 s ≠ [] ∧
    ({ bareLaunch with held := true } : Launch).kill = none ∧ bareLaunch.held = false := by decide +kernel
theorem witness_rollback :
    let sh : Shadow := { warps := [], barriers := [], scrBytes := [], scrFull := [], writing := false }
    let x : Gang := { launch := 0, index := some 0, core := 0, hdrAt := 0, hdr := placeHdr, warps := 1, cls := 0, rolling := true, shadow := some sh }
    let s : State := { State.reset with gangs := [(0, x)] }
    lookup 0 s.gangs = some x ∧ x.rolling = true ∧ x.shadow = some sh ∧ sh.clean = true ∧ gangWarps 0 s = [] ∧ sh.warps = [] := by
  decide +kernel

/-- Messages: a packet from context 1 of rill 2 of package 4, on connection 0 of context 3 of rill 0. -/
def pkt0 (kind : Nat) : Pkt :=
  { kind := kind, dpkg := 0, drill := 0, dctx := 3, spkg := 4, srill := 2, sctx := 1, mlen := 32, data := List.replicate 32 7 }
def conn0 : BitVec 64 := BitVec.ofNat 64 (4 + 2 * 2 ^ 12 + 2 ^ 16 + 2 ^ 18)
def reached (p : Pkt) (f : WeirCtx → WeirCtx := id) : State :=
  mapped { State.reset with pkts := [(8, p)], weirs := [(3, f { state := .running, conns := [conn0] })] }
theorem witness_messages :
    let p := pkt0 1
    let s := reached p
    let x := lookupD 3 {} s.weirs
    lookup 8 s.pkts = some p ∧ p.dpkg = s.packageNo ∧ p.dctx < 4 ∧ x.state ≠ .empty ∧ x.state ≠ .failed ∧
    fld (x.conns.getD 0 0) 18 1 = 1 ∧ (fld (x.conns.getD 0 0) 0 12, fld (x.conns.getD 0 0) 12 4, fld (x.conns.getD 0 0) 16 2) = (p.spkg, p.srill, p.sctx) ∧
    x.msgs = [] ∧ x.held = [] ∧ p.mseq < 65536 ∧ lookupD 0 0 x.inSeq = p.mseq ∧ p.off = 0 ∧ p.data.length = p.mlen ∧
    p.spkg ≠ s.packageNo ∧ ({ p with data := List.replicate 33 7 } : Pkt).mlen < 0 + 33 ∧ s.memWf = true ∧
    (lookupD 3 {} (reached p (fun x => { x with state := .empty })).weirs).state = .empty := by decide +kernel
/-- A receive, and an RGET, posted on it for 32 bytes whose places are known; a chunk of another size. -/
theorem witness_message_operations :
    let o : WOp := { id := 0, kind := .recv, cn := 0, chunk := plainChunk false 0 32, begun := true, places := [(0, 32, .dev 0x8000)] }
    let g : WOp := { o with kind := .rget 0 }
    o.kind = .recv ∧ o.cn = 0 ∧ o.received = false ∧ o.stopped = none ∧ o.begun = true ∧ o.chunk.tid = none ∧ o.chunk.size = 32 ∧
    g.kind = .rget 0 ∧ g.seq = (pkt0 4).mseq ∧ (pkt0 4).off + (pkt0 4).data.length ≤ (pkt0 4).mlen ∧
    repeats g.got (pkt0 4).off (pkt0 4).data.length = false ∧ (plainChunk false 0 64).size ≠ (pkt0 1).mlen := by decide +kernel
/-- PUT, GETQ and ATM: their chunk's page mapped; a packet of this package for the first and the last. -/
theorem witness_remote :
    let s := reached { pkt0 2 with spkg := 0 }
    (∀ write, (match (chunkPlaces 3 (plainChunk false 0 32) write s).1 with | .ok l => decide (l = [(0, 32, .dev 0x8000)]) | .error _ => false) = true) ∧
    (match (chunkPlaces 3 (plainChunk false 0 8) true s).1 with | .ok l => decide (l = [(0, 8, .dev 0x8000)]) | .error _ => false) = true ∧
    isPoisoned (chunkPlaces 3 (plainChunk false 0 8) true s).2 (.dev 0x8000) 8 = false ∧
    ({ pkt0 5 with data := [], mlen := 8 } : Pkt).addr.toNat % 8 = 0 ∧ ({ pkt0 2 with spkg := 0 } : Pkt).spkg = s.packageNo ∧
    (lookupD 3 {} (reached (pkt0 12) (fun x => { x with kept := [{ pkt0 1 with dpkg := 4, drill := 2, dctx := 1 }] })).weirs).kept =
      [{ pkt0 1 with dpkg := 4, drill := 2, dctx := 1 }] ∧ ({ pkt0 1 with dpkg := 9 } : Pkt).dpkg ≠ s.packageNo := by decide +kernel
/-- FabricEvents: a rill untrained, up with a resend to make, up at its sixteenth; a context's operation whole, one with
another before it; waits of each kind; a slot beyond the program. -/
theorem witness_fabric :
    let o : WOp := { id := 1, kind := .recv, cn := 0, received := true }
    let e : WOp := { id := 0, kind := .recv, cn := 0 }
    (lookupD 15 {} State.reset.rills).state = .untrained ∧
    ({ state := .up, resends := 15, queued := [pkt0 1] } : Rill).resends < 16 ∧ 16 ≤ ({ state := .up, resends := 16 } : Rill).resends ∧
    WOp.complete o = true ∧ WOp.receives o = true ∧ (∃ p ∈ [e, o], WOp.receives p = true ∧ p.cn = o.cn ∧ p.id < o.id) ∧
    (¬ ∃ p ∈ [o], WOp.receives p = true ∧ p.cn = o.cn ∧ p.id < o.id) ∧ [e, o].find? (fun p => p.id = o.id) = some o ∧
    ({ state := .waiting, wait := some (.op 1), ops := [o] } : WeirCtx).wait = some (.op o.id) ∧
    ({ state := .waiting, wait := some (.flag (.dev 0) 0 0 0 true) } : WeirCtx).state = .waiting ∧
    ({ state := .running, slots := [0], pc := 1 } : WeirCtx).slots.length ≤ 1 := by decide +kernel
/-- START for a Loaded context of the tag, and of another; DONE and FAIL of a collective of one member and of two; its
timeout, once and twice. -/
theorem witness_collectives :
    let p : Pkt := { kind := 8, dpkg := 0, drill := 0, dctx := 3, spkg := 0, srill := 0, sctx := 0, addr := 9 }
    let x : WeirCtx := { state := .loaded, tag := 9, initW := List.replicate 16 0 }
    let k : Coll := { cmd := 0, tag := 9, members := [(0, 0, 3, 0)], since := 0, timeout := 1000 }
    let d : Pkt := { kind := 9, dpkg := 0, drill := 0, dctx := 0, spkg := 0, srill := 0, sctx := 3 }
    x.state = .loaded ∧ x.tag = p.addr ∧ ¬ ({ x with tag := 8 } : WeirCtx).tag = p.addr ∧ p.spkg = 0 ∧ k.members[0]? = some (0, 0, 3, 0) ∧
    (0, 0, 3) = (d.spkg, d.srill, d.sctx) ∧ k.aborted = false ∧ k.answered = [] ∧ k.doneBy = [] ∧ k.members.length = 1 ∧
    1 < ({ k with members := [(0, 0, 3, 0), (0, 0, 2, 0)] } : Coll).members.length ∧ k.timeout ≠ 0 ∧ 999 < k.since + k.timeout ∧
    k.since + k.timeout ≤ 1000 ∧ k.answered.length < k.members.length ∧ k.since + 2 * k.timeout ≤ 2000 := by decide +kernel
theorem witness_one_member (k : Coll) (h : k.members = [(0, 0, 3, 0)]) : ∀ (j : Nat) (m : Nat × Nat × Nat × BitVec 64), k.members[j]? = some m →
    (m.1, m.2.1, m.2.2.1) = (0, 0, 3) → j = 0 := by
  intro j m hj _
  rw [h] at hj
  cases j with
  | zero => rfl
  | succ n => simp at hj

/-- EncodeFrames: a frame with a descriptor of 128 bytes on slot 0, its flag's page mapped; read, uncorrectable, unread. The
length of the bitstream is an open value: the witness of a frame that ends within its buffer supposes one of no bytes. -/
def encoding (read : Option FrameRead) : State :=
  let c : Cmd := { queue := 0, ix := 0, pkt := setFld 0 256 57 64, asn := 0, root := 0, rpld := false, work := .encoding 0, since := 0, order := 0 }
  let x : EncSlot := { desc := 0, asn := 0, image := some (List.replicate 128 0), frames := [{ cmd := 4, read := read }] }
  mapped { State.reset with cmds := [(4, c)], encSlots := [(0, x)] }
def encSpace : Space := { asn := 0, root := 0, rpld := false, rhnd := 0 }
theorem witness_encode :
    (lookup 0 (encoding none).encSlots).map (fun x => (x.image, x.frames, x.stopped)) =
      some (some (List.replicate 128 0), [{ cmd := 4 }], none) ∧ (lookup 4 (encoding none).cmds).isSome = true ∧ 0 ∉ (encoding none).encFault ∧ (encoding none).memWf = true ∧
    (match (encPlaces 0 encSpace 0 8 false (encoding none)).1 with | .ok l => decide (leNat (gatherBytes (encoding none) l) = 0) | .error _ => false) = true ∧
    (match (readRows 0 encSpace false (frameRows (descTensor (List.replicate 128 0))) (encoding none)).1 with
      | .ok b => !b.2 | .error _ => false) = true ∧
    (∀ n ∈ [3, 1], (match (placesOf 0 encSpace [(0, 32), (64, 8)] { encoding (some .uncorrectable) with free := n }).1 with
      | .ok l => decide (l = [[(32, .dev 0x8000, 0)], [(8, .dev 0x8040, 0)]]) | .error _ => false) = true) := by decide +kernel
theorem witness_encode_within (h : Config.bitstream 0 true (List.replicate 128 0) [] = []) :
    (Config.bitstream 0 true (List.replicate 128 0) []).length ≤ descBufSize (List.replicate 128 0) ∧
    (match (placesOf 0 encSpace [(0, 0), (0, 32), (64, 8)] { encoding (some (.samples [])) with free := 3 }).1 with
      | .ok l => decide (l = [[], [(32, .dev 0x8000, 0)], [(8, .dev 0x8040, 0)]]) | .error _ => false) = true := by
  rw [h]; decide +kernel

/-- PackageEvents: a WAIT met, late and not; a checkpoint to write and one whose header in host memory is this package's; a
scan under way; an idle package; a host write within device memory. -/
theorem witness_package :
    let c : Cmd := { queue := 0, ix := 0, pkt := setFld 0 192 32 1, asn := 0, root := 0, rpld := false, work := .waiting (.dev 0) 0 0 true, since := 0, order := 0 }
    let s : State := { State.reset with clock := 1000, cmds := [(4, { c with work := .scanning 3 true })] }
    c.work = .waiting (.dev 0) 0 0 true ∧ fld c.pkt 192 32 ≠ 0 ∧ c.since + 1000 * fld c.pkt 192 32 ≤ s.clock ∧ 999 < c.since + 1000 * 1 ∧
    (s.cmds.find? (fun y => y.2.work = .scanning 3 true)).isSome = true ∧ s.memWf = true ∧
    State.reset.power = .d0active ∧ State.reset.gangs = [] ∧ 0xC000000000 - 8 + (List.replicate 8 (1 : Byte)).length ≤ 0xC000000000 ∧
    (List.replicate 128 (1 : Byte)).length = 128 ∧ State.reset.cmds = [] := by decide +kernel
theorem witness_checkpoint :
    let ours := leBytes 4 Config.romVersion.toNat ++ leBytes 32 Config.fuseConfig.toNat
    let m : Mem := Mem.setBytes [] 4096 ours
    m.wf = true ∧ Mem.bytes m 4096 36 = ours := by
  intro ours m
  have : ours.length = 36 := rfl
  exact ⟨wf_setBytes _ _ rfl, this ▸ bytes_setBytes_self rfl 4096 ours⟩

/-- RoundTrip: a well-formed instruction of each language, with its word. -/
theorem witness_round_trip :
    (Instr.fmul { d := 3, a := 1, b := 2, ty := 4 }).wf = true ∧ (Instr.weirMovi { wd := 2, imm := 4 }).wf = true ∧
    (Instr.hookStp 1 366 32).wf = true ∧ (Instr.fmul { d := 3, a := 1, b := 2, ty := 4 }).simt?.isSome = true ∧
    (Instr.weirMovi { wd := 2, imm := 4 }).weir?.isSome = true ∧ (Instr.hookStp 1 366 32).hook?.isSome = true ∧
    (Instr.launch 1).packet?.isSome = true ∧ (Instr.launch 1).wf = true := by decide +kernel
/-- StepRunsDecoded: a hook, a warp in a run, a warp at its marker, a context, a packet, an event, each next in the order; and
with nothing ordered, a hook and a packet on an active package with a gang. -/
theorem witness_step :
    let s : State := { emit 0x00040002010342F1 with agenda := [.warp 0] }
    let w : Warp := { placeWarp 0 with run := some { placeRun 0 with index := 1 } }
    (∃ w r, lookup 0 s.warps = some w ∧ w.run = some r ∧ r.words[r.index]? = some (0, 0x00040002010342F1)) ∧
    (decodeSimt 0x00040002010342F1).isSome = true ∧ w.run.map (fun r => r.words[r.index]?) = some none ∧
    hookState.agenda = [.hook] ∧ (hookState.hook.map (fun h => (decide (h.steps < 64), h.words[h.pc]?))) = some (true, some 0x0105B881) ∧
    loopState.agenda = [.weir 0] ∧ ((lookup 0 loopState.weirs).map (fun x => (x.state, x.wdbg, x.slots[x.pc]?))) =
      some (.running, 0, some 0x0000000400020006) ∧ (holding 0).taken = some (0, 0, 0) ∧
    (emit 0).agenda = [] ∧ (emit 0).power = .d0active ∧ (emit 0).gangs ≠ [] ∧ (emit 0).hook = none :=
  ⟨⟨_, _, rfl, rfl, rfl⟩, by decide +kernel⟩
/-- Translation: three tables and a leaf at 0x1000, 0x8000, 0x10000 and 0x18000, of every kind of leaf. -/
def tables (leaf : BitVec 64) : State :=
  let cells := ((leBytes 8 leaf.toNat).mapIdx (fun i b => (0x18000 + i, b))).filter (fun c => c.2 ≠ 0)
  { State.reset with dev := [(0x1000, 1), (0x1001, 0x80), (0x8000, 1), (0x8002, 1), (0x10000, 1), (0x10001, 0x80), (0x10002, 1)] ++ cells }
def tableAt (n : Nat) : Nat := [0x18000, 0x10000, 0x8000, 0x1000].getD n 0
def tableEntry (leaf : BitVec 64) (n : Nat) : BitVec 64 := [leaf, 0x18001, 0x10001, 0x8001].getD n 0
/-- A page that may be read, written and fetched; not valid; refusing; read only; of the host; beyond device memory; with
RPW 1. -/
def leaves : List (BitVec 64) := [0x2000F, 0, 1, 3, 0x2008F, 0x800000000003, 0x43]
theorem witness_tables : leaves.all (fun leaf => (tables leaf).memWf) = true ∧
    leaves.all (fun leaf => (List.range 4).all (fun n => decide (read64 (tables leaf) (.dev (tableAt n)) = tableEntry leaf n))) = true ∧
    (∀ n < 4, tableAt n + 8 ≤ 0xC000000000) ∧
    (∀ n < 4, ∀ m < 4, m ≠ n → tableAt n + 8 ≤ tableAt m ∨ tableAt m + 8 ≤ tableAt n) ∧
    (∀ n < 4, 0 < n → (tableEntry 0 n).getLsbD 0 = true ∧ fld (tableEntry 0 n) 1 3 = 0 ∧ fld (tableEntry 0 n) 5 10 = 0 ∧
      fld (tableEntry 0 n) 52 12 = 0 ∧ fld (tableEntry 0 n) 15 37 * 32768 < 0xC000000000) := by decide +kernel
theorem witness_translation :
    tableAt 3 = 0x1000 + 8 * (0 / 2 ^ 51 % 64) ∧ tableAt 2 = fld (tableEntry 0 3) 15 37 * 32768 + 0 ∧
    tableAt 1 = fld (tableEntry 0 2) 15 37 * 32768 + 0 ∧ tableAt 0 = fld (tableEntry 0 1) 15 37 * 32768 + 0 ∧
    2 ^ 57 - 1 < 2 ^ 57 ∧ 2 ^ 57 ≤ 2 ^ 57 ∧
    leaves.all (fun e => decide (fld e 52 12 = 0 ∧ fld e 10 5 = 0 ∧ fld e 8 2 ≠ 3)) = true := by decide +kernel
theorem witness_leaf_bits :
    leaves.map (fun e => [0, 1, 2, 3, 7, 6].map (fun i => e.getLsbD i)) =
      [[true, true, true, true, false, false], [false, false, false, false, false, false], [true, false, false, false, false, false],
       [true, true, false, false, false, false], [true, true, true, true, true, false], [true, true, false, false, false, false],
       [true, true, false, false, false, true]] ∧
    leaves.map (fun e => decide (0xC000000000 ≤ fld e 15 37 * 32768)) = [false, false, false, false, false, true, false] := by
  decide +kernel
/-- NothingBeforeCommit: a store that issues, and its state in canonical form. -/
theorem witness_nothing_before_commit :
    (Instr.sts { a := 1, c := 2, sop := 4, i := true }).simt?.isSome = true ∧ (emit 0).memWf = true ∧
    (match exec (.sts { a := 1, c := 2, sop := 4, i := true }) (emit 0) with | .next _ => true | _ => false) = true := by decide +kernel

/-! ## States that meet the hypotheses: errors, waiting writes, rarer forms -/

/-- MarkerFaults, TrapEntry: a run at its marker with an error, a mismatch, a fatal fault, a page-table error, a replayable
one met fifteen times before; a clean written shadow, the last rollback it allows, one dirty. -/
def faultOf (kind : Nat) (rpl : Bool) : AccFault :=
  { va := 0x8000, kind := kind, level := 0, wr := false, rpl := rpl, eaddr := 0, path := .L }
def faulted (f : Run → Run) : State :=
  { marked f with fqBase := some 0 }
theorem witness_marker_ends (f : Run → Run) (h : (f { placeRun 0 with index := 1 }).words.length ≤ (f { placeRun 0 with index := 1 }).index)
    (hr : (f { placeRun 0 with index := 1 }).reads = []) :
    (faulted f).Ends 0 (ended f) (f { placeRun 0 with index := 1 }) :=
  { here := rfl, flight := rfl, issued := h, answered := hr, alive := fun l h => by rw [← Option.some.inj h] }
theorem witness_marker_faults :
    let r : Run := { placeRun 0 with index := 1 }
    let sh : Shadow := { warps := [], barriers := [], scrBytes := [], scrFull := [], writing := false, clean := true, tries := 2 }
    let one := fun (k : Nat) (p : Bool) => { r with faults := [faultOf k p] }
    let s := faulted id
    r.words.length ≤ r.index ∧ ({ r with ue := some 3 } : Run).ue = some 3 ∧ ({ r with mismatch := some 31 } : Run).mismatch = some 31 ∧
    s.memWf = true ∧ s.buffer = [] ∧ s.faultWaits = [] ∧ s.fqBase = some 0 ∧ (s.fqProd - s.fqCons).toNat < 4096 ∧
    fatalFault ((one 1 false).faultsAt 0 s) = some (faultOf 1 false) ∧ fatalFault ((one 6 false).faultsAt 0 s) = some (faultOf 6 false) ∧
    (one 0 true).faultsAt 0 s = [faultOf 0 true] ∧ (one 0 true).causesAt 0 ended s = [] ∧ fatalFault ((one 0 true).faultsAt 0 s) = none ∧
    lookupD (r.addr, 1) 0 [((r.addr, 1), 15)] + 1 = 16 ∧ sh.clean = true ∧ sh.writing = false ∧ sh.tries < 3 ∧
    r.ending 0 = none ∧ ({ bareLaunch with kill := some (1, 2, 3) } : Launch).kill ≠ none := by decide +kernel
theorem witness_passes (r : Run) (h : r.term = none) (s : State) : r.passes 0 s := by
  intro _ _ f hf
  simp [Run.ending, h] at hf
/-- CommitOfTerminal: a terminal that dirties the interval, with a gang; one whose queue is full waits. -/
theorem witness_dirty : dirtyOp 0x80 = true ∧ dirtyOp 0xA1 = true ∧ (placeWarp 0).gang = some 0 ∧
    (let f := atEnd 0xA4 {} [0]
     let op : MatOp := { op := 0xA4, w := {}, warp := 0, gang := 0, runAddr := 0, off := 0, lanes := 0, entryNo := 0, entry := 0, origin := [] }
     markerWaits f { emit 0 with parts := [(0, { queue := List.replicate 16 op })] } = true ∧ markerWaits f (emit 0) = false) := by
  decide +kernel
/-- MemoryKeepsForm: the state after reset has the form, and its step goes on. -/
theorem witness_keeps_form : State.reset.memWf = true ∧ (match step State.reset with | .next _ => true | _ => false) = true := by
  decide +kernel

/-- BoundedResults, ExactRounding, ExactConversion: operands of each kind, both zeros, an integer power, the last integer codes. -/
theorem witness_operands :
    fp32.decode 0x3F800000 = .num false (2 ^ 23) (-23) ∧ fp32.decode 0 = .num false 0 (-149) ∧ fp32.decode 0x80000000 = .num true 0 (-149) ∧
    fp32.decode 0xBF800000 = .num true (2 ^ 23) (-23) ∧ fp32.decode 0x7F800000 = .inf false ∧ fp32.decode 0xFF800000 = .inf true ∧
    fp32.decode 0x7F800001 = .nan true ∧ fp32.decode 0x7FC00000 = .nan false ∧ fp64.decode 1 = .num false 1 (-1074) ∧
    fp32 ∈ [fp32, fp64] ∧ bf16 ∈ [fp32, fp64, fp16, bf16] ∧ (3 : Nat) < 4 ∧ isFloat 12 = true ∧ isFloat 13 = false ∧
    intVal 0 0 = 0 ∧ (fmtOf 10).kind ≠ .ieee ∧ 0x3F800000 < 2 ^ fp32.width ∧
    fp32.mul 0 false 0x7F800000 0x3F800000 = (fp32.sign false + fp32.infBits, 0) := by decide +kernel

/-- SpawnsAtCommit: lanes of a loose warp with one counter; a task record queued and not; a successor's last count. -/
theorem witness_spawns :
    let w : Warp := { placeWarp 0 with gang := none }
    let s := emit 0 (fun _ => w)
    let f := onPlace 0xC0 { ext := 64 } [0, 31] (.dev 0x100)
    let t := onPlace 0xC5 { sop := 1 } [3] (.dev 0x100)
    lookup f.key s.warps = some w ∧ (lookup w.launch s.launches).isSome = true ∧ f.p.lanes ≠ [] ∧ f.p.lanes.Nodup ∧
    (∀ i ∈ f.p.lanes, i < 32 ∧ lookup i f.p.addr = some 0x100 ∧ lookup i f.p.place = some (.dev 0x100)) ∧
    (f.p.addr.map (fun y => y.1)).Nodup ∧ f.p.addr.map (fun y => y.1) = f.p.lanes ∧ w.lanes.length = 32 ∧ s.memWf = true ∧
    s.buffer = [] ∧ w.serial = none ∧ t.p.lanes = [3] ∧ t.p.addr = [(3, 0x100)] ∧ t.p.place = [(3, .dev 0x100)] ∧
    read64 { s with dev := [(0x100, 1), (0x109, 2)] } (.dev 0x100) = 1 ∧ read64 { s with dev := [(0x100, 1), (0x109, 2)] } (.dev 0x108) ≠ 0 ∧
    (read64 s (.dev 0x100)).getLsbD 0 = false ∧ read64 s (.dev 0x100) ≠ 1 := by decide +kernel
/-- CommitAccessesIssue: the vault and the scratchpad forms, aligned in every lane. -/
theorem witness_local_atomics :
    let f := vregs ((List.range 32).map (fun l => ((1, l), 16 * l)))
    (∀ l ∈ (seen 0x80 { d := 3, a := 1, mx := 1 } f).act, wrap 32 (((seen 0x80 { d := 3, a := 1, mx := 1 } f).a 1 l : Int) + sx 20 0) % 16 = 0) ∧
    ({ mx := 2 } : Word).mx ≠ 0 := by decide +kernel
/-- Fences, Barriers, StoresAtCommit, AtomicAtCommit: one write waiting; a BARX of the clock from a higher context and from a
lower one; a path that does not lag, a clock without other operations. -/
theorem witness_waiting :
    let b : Buffered := { path := .L, unit := 0, place := .dev 0, data := [1] }
    let s : State := { emit 0 with buffer := [b] }
    s.buffer = [b] ∧ s.memWf = true ∧ (emit 0).buffer = [] ∧ Path.L ∉ (emit 0).lag ∧ (emit 0).scrNow = [] ∧
    ({ expect := 1, barx := some (0, 5) } : Barrier).barx = some ((emit 0).clock, 5) ∧ 0 < 5 ∧
    ({ expect := 1 } : Barrier).barx ≠ some ((emit 0).clock, 5) ∧ (∀ b ∈ (emit 0).buffer, overlaps (.dev 0) 8 b.place b.data.length = false) := by
  decide +kernel
/-- WeirRegisters, WeirFlags: a context that a collective of this package started; a flag with an error. -/
theorem witness_started :
    ({ postable with starter := some (0, 0, 3) } : WeirCtx).starter = some (0, 0, 3) ∧ (weirState postable).packageNo = 0 ∧
    isPoisoned { weirState postable with badDev := [0x8000 / 32] } (.dev 0x8000) 8 = true ∧ (weirState postable).buffer = [] := by
  decide +kernel
/-- StepRunsDecoded: a weir's turn taken in this clock and not; a context whose turn has come. -/
theorem witness_weir_turn :
    weirDue loopState 0 = true ∧ weirDue { loopState with weirTurn := [(0, (0, 0))] } 0 = false ∧
    lookup (0 / 4) ({ loopState with weirTurn := [(0, (0, 0))] } : State).weirTurn = some (0, loopState.clock) ∧
    (lookupD 1 {} loopState.weirs).state ≠ .running ∧
    ({ emit 0 with buffer := [{ path := .L, unit := 0, place := .dev 0, data := [1] }] } : State).buffer ≠ [] := by decide +kernel

/-- Messages: a receive and an RGET not begun, their chunk's places found as they begin; a packet its header gives back. -/
theorem witness_not_begun :
    let o : WOp := { id := 0, kind := .recv, cn := 0, chunk := plainChunk false 0 32 }
    let x : WeirCtx := { state := .running, conns := [conn0], ops := [o] }
    let s := reached (pkt0 1) (fun _ => x)
    (match (beginOp 3 o true s).1 with | some l => decide (l = [(0, 32, .dev 0x8000)]) | none => false) = true ∧
    (match (beginOp 3 { o with begun := true, places := [(0, 32, .dev 0x8000)] } true s).1 with
      | some l => decide (l = [(0, 32, .dev 0x8000)]) | none => false) = true ∧
    chunkBroken (beginOp 3 o true s).2 [(0, 32, .dev 0x8000)] 0 32 = false ∧ Path.W ∉ s.lag ∧
    (match parsePkt (pkt0 1).header (pkt0 1).data with | some q => decide (q = pkt0 1) | none => false) = true := by decide +kernel
/-- SchedulingEvents: a rolling gang of one warp, its shadow with that warp, and its places all different. -/
theorem witness_rolling :
    let w : Warp := { placeWarp 0 with run := none }
    let sh : Shadow := { warps := [(0, w)], barriers := [], scrBytes := [], scrFull := [], writing := false }
    let s := emit 0 (fun _ => w) (fun s => { s with gangs := s.gangs.map (fun g => (g.1, { g.2 with rolling := true, shadow := some sh })) })
    (lookup 0 s.gangs).map (fun x => (x.rolling, x.shadow)) = some (true, some sh) ∧ gangWarps 0 s = [(0, w)] ∧ sh.clean = true ∧ sh.bad = false ∧
    (∀ y ∈ sh.warps, ∀ l ∈ y.2.lanes, l.loads = []) ∧ (∀ y ∈ gangWarps 0 s, y.2.run = none) ∧ ({ sh with bad := true } : Shadow).bad = true := by decide +kernel
/-- PackageEvents: two scans of one core and of two; a host range with no error; a checkpoint of memories in their ranges. -/
theorem witness_scans :
    let c : Cmd := { queue := 0, ix := 0, pkt := 0, asn := 0, root := 0, rpld := false, work := .scanning 3 true, since := 0, order := 0 }
    let s : State := { State.reset with cmds := [(4, c), (5, { c with work := .scanning 2 false })] }
    let two : State := { s with cmds := [(4, c), (5, { c with work := .scanning 3 false })] }
    s.cmds.find? (fun y => y.2.work = .scanning 3 true) = some (4, c) ∧
    (∀ y ∈ s.cmds, y.1 ≠ 4 → ∀ b, y.2.work ≠ .scanning 3 b) ∧
    two.cmds.find? (fun y => y.2.work = .scanning 3 true) = some (4, c) ∧ (5, { c with work := .scanning 3 false }) ∈ two.cmds ∧
    s.badHost = [] ∧ s.badDev = [] ∧ s.badVault = [] ∧ (∀ y ∈ s.dev, y.1 < 0xC000000000) ∧ State.reset.drainInterval ≠ 0 := by decide +kernel
/-- EncodeFrames: a frame with no scale array, read without an error; a slot with another frame behind. -/
theorem witness_scales :
    let e := descTensor (List.replicate 128 0)
    (match (readScales 0 encSpace e (scaleSpots e) (encoding none)).1 with | .ok g => !g.2 | .error _ => false) = true ∧
    0 ∉ (encoding none).encError ∧ isFloat (tnFmt e) = false ∧ ([{ cmd := 5 }] : List EncFrame) ≠ [] := by decide +kernel

/-! ## States that meet the hypotheses: what lags, what an error reaches, the matrix unit's queue -/

/-- Messages: bytes that repeat bytes performed, of a message that is not whole; a GETR of another length than its RGET; a
message of this package and of another. -/
theorem witness_repeats :
    let g : RcvMsg := { cn := 0, seq := 0, kind := 1, mlen := 32, asp := false, addr := 0, arg := 0, got := [(0, 16)] }
    let x : WeirCtx := { state := .running, conns := [conn0], msgs := [g] }
    lookupD 3 {} (reached (pkt0 1) (fun _ => x)).weirs = x ∧ g.cn = 0 ∧ g.seq = (pkt0 1).mseq ∧ g.kind = (pkt0 1).kind ∧ g.mlen = (pkt0 1).mlen ∧
    (pkt0 1).off + (pkt0 1).data.length ≤ (pkt0 1).mlen ∧ repeats g.got (pkt0 1).off (pkt0 1).data.length = true ∧
    (plainChunk false 0 64).size ≠ (pkt0 4).mlen ∧ (pkt0 2).spkg ≠ (reached (pkt0 2)).packageNo ∧ (reached (pkt0 2)).buffer = [] := by
  decide +kernel
/-- FabricEvents: a packet queued and never sent; a weir waiting on a flag with an error, its pages all mapped. -/
theorem witness_unsent :
    let x : Rill := { state := .up, queued := [{ pkt0 1 with spkg := 4 }] }
    let s : State := { State.reset with rills := [(2, x)], agenda := [.deliver 2 false], badDev := [0] }
    lookupD 2 {} s.rills = x ∧ takeQueued false x.replay = none ∧ (takeQueued false x.queued).map (fun y => y.2) = some [] ∧
    (pkt0 1).spkg ≠ s.packageNo ∧ isPoisoned s (.dev 0) 8 = true ∧ s.unmapped = [] := by decide +kernel
/-- EncodeFrames: path E lags, the frame begun and not, its report written and its flag to come. -/
theorem witness_lagging_frame :
    let s : State := { encoding none with lag := [.E] }
    Path.E ∈ s.lag ∧ ({ cmd := 4 } : EncFrame).started = false ∧ ({ cmd := 4, started := true } : EncFrame).started = true ∧
    ({ cmd := 4, read := some .uncorrectable, wrote := some (0, 3, 9) } : EncFrame).wrote = some (0, 3, 9) ∧ Path.E ∉ (encoding none).lag ∧
    (match (encPlaces 0 encSpace 64 8 true s).1 with | .ok l => decide (l = [(8, .dev 0x8040, 0)]) | .error _ => false) = true := by
  decide +kernel
/-- PackageEvents: a WAIT whose word holds an error; a package in D3cold, and out of it. -/
theorem witness_cold :
    let c : Cmd := { queue := 0, ix := 0, pkt := 0, asn := 0, root := 0, rpld := false, work := .waiting (.dev 0) 0 0 false, since := 0, order := 0 }
    let s : State := { State.reset with cmds := [(4, c)], badDev := [0] }
    lookup 4 s.cmds = some c ∧ isPoisoned s (.dev 0) 8 = true ∧ isPoisoned s (.dev 32) 8 = false ∧ s.unmapped = [] ∧
    ({ State.reset with power := .d3cold } : State).power = .d3cold ∧ State.reset.power ≠ .d3cold := by decide +kernel
/-- LaneControl: a SERE of the current lane with another lane of the section parked, and with none left. -/
theorem witness_section :
    let w : Warp := { placeWarp 0 with serial := some (6, 0), lanes := (placeWarp 0).lanes.mapIdx (fun i l => if i = 1 then { l with state := .parked .serial } else
      if i = 2 then { l with state := .exited } else l) }
    w.serial = some (6, 0) ∧ (atEnd 0x18 {} [0]).p.op = 0x18 ∧ 0 ∈ (atEnd 0x18 {} [0]).p.lanes ∧ w.counts = true ∧ (w.lane 1).state = .parked .serial ∧
    (List.range 32).filter (fun i => (6 : BitVec 32).getLsbD i && decide ((w.lane i).state ≠ .exited)) = [1] ∧
    (List.range 32).filter (fun i => (4 : BitVec 32).getLsbD i && decide ((w.lane i).state ≠ .exited)) = [] := by decide +kernel
/-- HeldEffects: an entry of the launch, an element of a byte and of half one, lines no other operation of the clock is on, the
words of a whole table, a TUFC of two lanes. -/
theorem witness_held :
    let s : State := emit 0 id (entered plainEntry)
    let e : ElemWrite := { place := .dev 0x8000, va := 0, size := 1, nib := 2, bits := 5, l1 := false }
    (lookup 0 s.launches).map (fun l => l.tensor 0) = some plainEntry ∧ s.scrNow = [] ∧ s.scr.wf = true ∧ s.memWf = true ∧
    e.nib ≠ 0 ∧ ({ e with nib := 0 } : ElemWrite).nib = 0 ∧ s.buffer = [] ∧ Path.L ∉ s.lag ∧ (List.replicate 320 (7 : W32)).length ≤ 320 ∧
    (lookup 0 s.warps).map (fun w => w.launch) = some 0 ∧ (atEnd 0x9B { sop := 3 } [0, 1]).p.lanes ≠ [] := by decide +kernel
/-- StoresAtCommit: a run that holds a store and ends in a terminal instruction, in a handler and outside. -/
theorem witness_stores_terminal :
    let p : Pending := { op := 0x06, w := {}, off := 0, lanes := List.range 32 }
    let r : Run := { placeRun 0 with index := 1, held := [.bytes (.dev 0) 0 true [1]], term := some p }
    let w : Warp := { placeWarp 0 with run := some r }
    let f : Fin := { key := 0, run := r, p := p, after := r.after }
    let s := emit 0 (fun _ => w)
    markerWaits f s = false ∧ markerCause f s = none ∧ markerFaults f s = [] ∧ w.handler = none ∧ p.op ≠ 0x09 ∧
    ({ w with handler := some saved0 } : Warp).handler ≠ none ∧ p.op ∉ [0x07, 0x08] ∧ r.held ≠ [] := by decide +kernel
/-- SpecialRegisterValues: a task's gang reads its own tile. -/
theorem witness_task_tile :
    let t : BitVec 512 := setFld (setFld 0 64 16 3) 80 16 4
    let s : State := { gridState with gangs := gridState.gangs.map (fun g => (g.1, { g.2 with index := none, task := some t })) }
    (gangOf s (placeWarp 0)).map (fun g => (g.task, g.index)) = some (some t, none) ∧ fld t 64 16 = 3 ∧ fld t 80 16 = 4 := by decide +kernel
/-- MarkerFaults: an uncorrectable page-table entry met first, and behind another error; a run that mismatched before; a run of
the same address and other lanes. -/
theorem witness_first_error :
    let r : Run := { placeRun 0 with index := 1, faults := [faultOf 6 false], ue := some 3, errAt := 1 }
    (r.faults.take r.errAt).find? (fun (x : AccFault) => x.kind = 6 ∧ x.rpl = false) = some (faultOf 6 false) ∧
    (({ r with errAt := 0 } : Run).faults.take 0).find? (fun (x : AccFault) => x.kind = 6 ∧ x.rpl = false) = none ∧
    (r.addr, r.lanes) ∈ ({ placeWarp 0 with mismatched := [(r.addr, r.lanes)] } : Warp).mismatched ∧
    (r.addr, r.lanes) ∉ ({ placeWarp 0 with mismatched := [(r.addr, 1)] } : Warp).mismatched := by decide +kernel
/-- WarpEvents, FetchedRun: a lane that may issue in this clock, and one released in it; a flag wait on a word with an error. -/
theorem witness_due :
    let w : Warp := { placeWarp 0 with run := none, lanes := { lpc := 0x10040, state := .ready, due := 1 } :: List.replicate 31 { lpc := 0x10048, state := .ready } }
    w.issueAddr 0 = some 0x10048 ∧ w.issueAddr 1 = some 0x10040 ∧
    (let s := emit 0 (fun _ => parked (.parked (.flag (.dev 0) 0 0 7 none 0 0 none))) (fun s => { s with badDev := [0] })
     isPoisoned s (.dev 0) 8 = true ∧ s.unmapped = [] ∧ (lookup 0 s.gangs).map (fun x => x.shadow) = some none) := by decide +kernel
/-- QueueRegisters: a cached block with an error, enabled and already in error. -/
theorem witness_bad_block :
    let e : EddyEntry := { qcb := setFld 0 126 2 1, dirty := false, bad := true }
    lookup 0 (withBlock e (blockState 0)).eddy = some e ∧ e.bad = true ∧ fld e.qcb 126 2 ≠ 2 ∧ fld (setFld (0 : BitVec 512) 126 2 2) 126 2 = 2 ∧
    segEntry (withBlock e (blockState 0)) 0 ≠ none ∧ (withBlock e (blockState 0)).portHeld = [] := by decide +kernel
/-- MatrixInstructions: a gang in paired mode, and one not. -/
theorem witness_paired :
    (lookup 0 (emit 0).gangs).map (fun x => hdrPair x.hdr) = some false ∧ (List.range 512).any (fun i => hdrPair (setFld placeHdr i 1 1)) = true := by
  decide +kernel
/-- NothingBeforeCommit: a store that issues while a write to the vault waits. -/
theorem witness_issue_with_a_write :
    let s := emit 0 id (fun s => { s with buffer := [{ path := .C, unit := 0, place := .vault 8, data := [1] }] })
    (match exec (.sts { a := 1, c := 2, sop := 4, i := true }) s with | .next _ => true | _ => false) = true ∧
    s.buffer.any (fun b => overlaps (.vault 8) 1 b.place b.data.length) = true := by decide +kernel
/-- SchedulingEvents: a task at the head of the shared order, well formed and not, a core for it; a gang that has drained, that
has not, and one with an error in what is saved. -/
def taskRec : BitVec 512 := setFld (setFld (setFld 3 16 6 2) 192 64 128) 320 64 64
def tasked (r : BitVec 512) : State :=
  let l : Launch := { bareLaunch with pkt := setFld launchPkt 309 16 0, tasks := [(0x1000, .dev 0x8100)] }
  mapped { State.reset with launches := [(0, l)], dev := (Mem.setBytes [] 0x8080 (leBytes 64 placeHdr.toNat)).setBytes 0x8100 (leBytes 64 r.toNat) }
theorem witness_task :
    let s := tasked taskRec
    placementsHeld s = false ∧ beforePlacement s = s ∧ (sharedOrder s).map (fun i => i.work) = [.task 0x1000 (.dev 0x8100) taskRec] ∧
    (lookup 0 s.launches).map (fun l => (taskMalformed l 0x1000 taskRec, taskMalformed l 0x1008 taskRec, l.kill)) = some (false, true, none) ∧
    (lookup 0 s.launches).map (fun l => (taskHeader 0 l (fld taskRec 192 64) s).1) = some (some placeHdr) ∧ hdrMalformed placeHdr = false ∧
    (sharedOrder s).map (fun i => (lookup 0 s.launches).map (fun l => (fitCores s 0 i l placeHdr 2 false).isEmpty)) = [some false] := by decide +kernel
theorem witness_task_core (s : State) (i : Item) (l : Launch) (rhnd : Nat) :
    preferCores s rhnd (fitCores s 0 i l placeHdr 2 false) ≠ [] → ∃ c, coreFor s 0 i l placeHdr 2 rhnd false = some c :=
  pickCore_some s _
def switching (f : Warp → Warp := id) : State :=
  emit 0 (fun w => f { w with run := none, stopping := true }) (fun s => { s with
    launches := s.launches.map (fun l => (l.1, { l.2 with held := true })), gangs := s.gangs.map (fun g => (g.1, { g.2 with state := .switching })) })
theorem witness_save :
    let bad := switching (fun w => { w with badRegs := [.v 1 0] })
    let runs := switching (fun w => { w with run := some (placeRun 0) })
    let look := fun (s : State) (f : State → Nat → Gang → Bool) => (lookup 0 s.gangs).map (fun x => f s 0 x)
    gangWarps 0 (switching) ≠ [] ∧ look switching drained = some true ∧ look switching badSave = some false ∧ look bad badSave = some true ∧
    look bad drained = some true ∧ look runs drained = some false ∧ lookup 0 switching.saved = none ∧ switching.buffer = [] ∧ switching.memWf = true := by
  decide +kernel
/-- QueuedProducts: a row of one live column, its operand's row fetched, its bank without an error; sums that are exact; finite,
infinite and zero scales; a column that the operand has and one beyond it. -/
def unitOp (op : Nat) (x : Word) : MatOp :=
  { op := op, w := x, warp := 0, gang := 0, runAddr := 0, off := 0, lanes := 1, entryNo := 0, entry := matrixEntry, origin := [0, 0, 0, 0] }
def unitBank : Bank :=
  { fmt := 9, depth := 32, segs := [(0, [{ ints := List.replicate 32 2, exp := 0, scale := (0, false, 1, 0), cb := 128, nan := false, outside := false }])] }
def unitState (op : MatOp) : State :=
  emit 0 id (fun s => mapped { s with parts := [(0, { queue := [op], banks := [(0, unitBank)], rows := [(0, {})] })] })
theorem witness_products :
    let s := unitState (unitOp 0xA1 {})
    (lookupD 0 {} s.parts).queue = [unitOp 0xA1 {}] ∧ lookup 0 (lookupD 0 {} s.parts).banks = some unitBank ∧ unitBank.bad = false ∧
    unitBank.segs ≠ [] ∧ operandLive matrixEntry [0, 0, 0, 0] false 0 = true ∧ operandLive matrixEntry [0, 0, 0, 0] false 1 = false ∧
    (match fetchRow 0 (unitOp 0xA1 {}) unitBank 0 true s with | ((bs, none), _) => decide (bs.length = 1) | _ => false) = true ∧
    (∀ k ∈ unitBank.segs.flatMap (fun c => c.2), (k.cb : ℤ) = (k.ints.map (fun n => n * n)).sum) ∧
    (FVal.num false 1 0).isNum = true ∧ (FVal.inf true).isNum = false ∧ (FVal.inf true).isNaN = false ∧ (unitBank.segs.map (fun c => c.1)).Nodup := by
  decide +kernel
/-- QueuedProducts: a load at its first column, its blocks fetched; one that a kept bank of its key serves. -/
theorem witness_loads :
    let op := unitOp 0xA0 {}
    let s := unitState op
    let u := matUser s 0 op
    (match fetchBlocks u.1 u.2.1 op.entryNo u.2.2 op.entry op.origin op.w.sx 0 [] (blocksOf 9 128) s with
      | ((bl, none), _) => decide (bl.length = 4) | _ => false) = true ∧ op.fetched = [] ∧ op.elems = [] ∧ op.begun = false ∧
    (let held : State := { s with launches := s.launches.map (fun l => (l.1, { l.2 with pkt := setFld l.2.pkt 398 12 7 })) }
     match keepKey (matUser held 0 op).1 op with
     | some kk => decide (([{ unitBank with key := some kk }] : List Bank).find? (fun b => b.key = some kk) = some { unitBank with key := some kk })
     | none => false) = true := by decide +kernel
/-- QueuedDrains: an entry that is marked and lies within, its place mapped; a poisoned row; rows and a bank to clear; a
correction that differs. -/
theorem witness_drains :
    let op := unitOp 0xA2 {}
    let s := unitState op
    let e : TEntry := BitVec.ofNat 512 (2 ^ 126 + 127 * 2 ^ 128 + 4 * 2 ^ 58 + 0x800 * 2 ^ 238)
    let o : MatOp := { op with entry := e }
    let row : AccRow := { vals := [(0, 0x3FF0000000000000)], written := [0] }
    0 ∈ row.written ∧ 1 ∉ row.written ∧ tnWithin e (drainIx o 0 0) = true ∧ tnAuto e = false ∧ isFloat (tnFmt e) = true ∧
    (match tensorPlace (matUser s 0 o).1 (tnVault e) (elemAddr e (drainIx o 0 0)) true s with
     | (.ok p, t) => decide (p.1 = .dev 0x8000) && (match readScale (matUser s 0 o).1 e (drainIx o 0 0) t with | (.ok (_, b), _) => !b | _ => false)
     | _ => false) = true ∧ s.memWf = true ∧ s.buffer = [] ∧ Path.M ∉ s.lag ∧ ({ row with poison := true } : AccRow).poison = true ∧
    (lookup 0 s.gangs).bind (fun y => (lookup y.launch s.launches).map (fun l => l.kill)) = some none ∧
    (let b : BankSeg := { ints := [3], exp := 0, scale := (0, false, 1, 0), cb := 8, nan := false, outside := false }
     b.cb ≠ (b.ints.map (fun n => (n * n).toNat)).sum) ∧ lanesOf (unitOp 0xA4 {}).lanes ≠ [] ∧
    (lookup 0 s.warps).map (fun w => w.gang) = some (some 0) := by decide +kernel

end Sys2Proof.Tests
end

/-!
# Integer arithmetic (R118 to R123)

How the SIMT integer instructions settle: an effect written lane by lane answers `Results` with those values
(`results_of_perLane`, `results_of_perLaneK`), and an integer operand lies in its type's range, so that the only quotient out of
range is one too large (`intDivRem_eq`).
-/

namespace Sys2Proof.Laws

open Sys2Proof.Machine

/-! ## Effects written lane by lane -/

section LaneByLane

variable {i : Instr} {op : Nat} {x : Word} {f : Ctx → Eff}

/-- The values `v'` need only agree with the effect's where the word in hand is the instruction's own. -/
theorem results_of_perLane {n : Ctx → Nat} {v v' : Ctx → Nat → Nat} (hi : ∀ s, exec i s = simtP op x f s)
    (hf : ∀ c, f c = c.perLane (n c) (v c)) (hv : ∀ c : Ctx, c.w = x → ∀ l, v c l = v' c l) :
    Results i op x (fun c => toD c (n c) (v' c)) :=
  results_of_writes hi hf fun c hc loc =>
    (lastWrite_dst c (n c) c.act (v c) loc).trans (by rw [toD, funext (hv c hc)])

/-- The mask form of `results_of_perLane` (R268): the destination is the word's mask register. -/
theorem results_of_perLaneK {v v' : Ctx → Nat → Bool} (hi : ∀ s, exec i s = simtP op x f s)
    (hf : ∀ c, f c = c.perLaneK (v c)) (hv : ∀ c : Ctx, c.w = x → ∀ l, v c l = v' c l) :
    Results i op x (fun c => toK c x.d (v' c)) :=
  results_of_writes hi hf fun c hc loc =>
    (lastWrite_mask c.w.d c.act (v c) loc).trans (by rw [toK, hc, funext (hv c hc)])

/-- An exact integer of the instruction's type, narrowed once at the end (R119). -/
theorem results_of_intResult {g g' : Ctx → Nat → Int} (hi : ∀ s, exec i s = simtP op x f s)
    (hf : ∀ c, f c = c.intResult (g c)) (hg : ∀ c l, g c l = g' c l) :
    Results i op x (fun c => toD c (regsOf c.ty) (fun l => narrow c.ty x.sat (g' c l))) :=
  results_of_perLane hi hf fun c hc l => by rw [hc, hg]

end LaneByLane

/-! ## The range of an integer operand (R63) -/

theorem intWidth_pos (ty : Nat) : 0 < intWidth ty := by
  unfold intWidth
  split_ifs <;> decide

/-- A two's-complement reading of `n` bits lies in [−2^(n−1), 2^(n−1)). -/
theorem sx_range {n : Nat} (hn : 0 < n) (x : Nat) : -(2 ^ (n - 1) : Int) ≤ sx n x ∧ sx n x < 2 ^ (n - 1) := by
  have hlt : (x % 2 ^ n : Int) < 2 ^ n := Int.emod_lt_of_pos _ (by positivity)
  have hge : (0 : Int) ≤ x % 2 ^ n := Int.emod_nonneg _ (by positivity)
  have hpow : (2 ^ n : Int) = 2 * 2 ^ (n - 1) := by rw [← pow_succ', Nat.sub_add_cancel hn]
  unfold sx sextInt
  split_ifs with h
  · have : (x % 2 ^ n : Int) < 2 ^ (n - 1) := by exact_mod_cast h
    omega
  · have : (2 ^ (n - 1) : Int) ≤ x % 2 ^ n := by exact_mod_cast Nat.le_of_not_lt h
    omega

theorem intVal_range (ty x : Nat) : intMin ty ≤ intVal ty x ∧ intVal ty x ≤ intMax ty := by
  unfold intMin intMax intVal
  split_ifs
  · have := sx_range (intWidth_pos ty) x
    omega
  · have : ((x % 2 ^ intWidth ty : Nat) : Int) < 2 ^ intWidth ty := by
      exact_mod_cast Nat.mod_lt x (by positivity)
    omega

/-! ## Truncating division (R123) -/

/-- Truncation keeps a quotient of two values of a type at or above the type's minimum: in a signed type its magnitude is at
most the dividend's, in an unsigned type it is no less than 0. -/
theorem intMin_le_tdiv {ty : Nat} {a b : Int} (ha : intMin ty ≤ a ∧ a ≤ intMax ty) (hb : intMin ty ≤ b) :
    intMin ty ≤ a.tdiv b := by
  have hmag : (a.tdiv b).natAbs ≤ a.natAbs := Int.natAbs_tdiv_le_natAbs a b
  unfold intMin intMax at *
  split_ifs at * with hs
  · omega
  · exact Int.tdiv_nonneg ha.1 hb

/-- R123 as the spec writes it: a quotient out of range on either side takes the fixed result, and the remainder is a − q × b. -/
theorem intDivRem_eq {ty : Nat} {a b : Int} (sat : Bool) (ha : intMin ty ≤ a ∧ a ≤ intMax ty) (hb : intMin ty ≤ b) :
    intDivRem ty sat a b =
      if b = 0 then (2 ^ intWidth ty - 1, a)
      else if a.tdiv b < intMin ty ∨ intMax ty < a.tdiv b then (if sat then intMax ty else intMin ty, 0)
      else (a.tdiv b, a - a.tdiv b * b) := by
  have hlow : ¬ a.tdiv b < intMin ty := not_lt.2 (intMin_le_tdiv ha hb)
  rw [intDivRem, Int.tmod_def, Int.mul_comm b]
  simp only [hlow, false_or]

/-- The operands of an instruction are in range, so its division is R123's. -/
theorem intDivRem_operands (c : Ctx) (l : Nat) (sat : Bool) :
    intDivRem c.ty sat (c.intA l) (c.intB l) =
      if c.intB l = 0 then (2 ^ intWidth c.ty - 1, c.intA l)
      else if (c.intA l).tdiv (c.intB l) < intMin c.ty ∨ intMax c.ty < (c.intA l).tdiv (c.intB l) then
        (if sat then intMax c.ty else intMin c.ty, 0)
      else ((c.intA l).tdiv (c.intB l), c.intA l - (c.intA l).tdiv (c.intB l) * c.intB l) :=
  intDivRem_eq sat (intVal_range _ _) (intVal_range _ _).1

/-! ## Comparison (R122) -/

/-- The model's condition is entry `cc` of R122's table. -/
theorem intCond_eq_getD {cc : Nat} (h : cc < 6) (a b : Int) :
    intCond cc a b =
      [decide (a = b), decide (a ≠ b), decide (a < b), decide (a ≤ b), decide (a > b), decide (a ≥ b)].getD cc false := by
  interval_cases cc <;> rfl

/-! ## Magnitude (R119) -/

theorem natAbs_eq_ite (a : Int) : (a.natAbs : Int) = if a < 0 then -a else a := by
  split_ifs <;> omega

/-! ## The obligations -/

/-- Settles O1: each instruction's effect is its exact integer narrowed once, so only the spelling of minimum, maximum,
magnitude and negation differs. -/
theorem integerArithmetic : Obligations.IntegerArithmetic := by
  unfold Obligations.IntegerArithmetic
  intro x narrowed int
  refine ⟨?iadd, ?isub, ?imul, ?imad, ?imin, ?imax, ?iabs, ?ineg, ?imulh, ?imadw⟩
  case iadd | isub | imul | imad => exact results_of_intResult (fun _ => rfl) (fun _ => rfl) fun _ _ => rfl
  case imin => exact results_of_intResult (fun _ => rfl) (fun _ => rfl) fun _ _ => min_def _ _
  case imax => exact results_of_intResult (fun _ => rfl) (fun _ => rfl) fun _ _ => max_def _ _
  case iabs => exact results_of_intResult (fun _ => rfl) (fun _ => rfl) fun _ _ => natAbs_eq_ite _
  case ineg => exact results_of_intResult (fun _ => rfl) (fun _ => rfl) fun _ _ => (zero_sub _).symm
  case imulh => exact results_of_intResult (fun _ => rfl) (fun _ => rfl) fun _ _ => rfl
  case imadw => exact results_of_perLane (fun _ => rfl) (fun _ => rfl) fun c hc l => by rw [hc]; rfl

/-- Settles O2: the operands lie in their type's range, so truncation leaves no quotient below the minimum. -/
theorem compareDivideAddress : Obligations.CompareDivideAddress := by
  unfold Obligations.CompareDivideAddress
  intro x
  refine ⟨?lea, ?icmp, ?idiv, ?irem⟩
  case lea => exact results_of_perLane (fun _ => rfl) (fun _ => rfl) fun c hc l => by rw [hc]
  case icmp =>
    intro cc hcc hsop
    refine results_of_perLaneK (fun _ => rfl) (fun _ => rfl) fun c hc l => ?_
    rw [show c.sop = cc by rw [Ctx.sop, hc, hsop]]
    exact intCond_eq_getD hcc _ _
  case idiv => exact results_of_perLane (fun _ => rfl) (fun _ => rfl) fun c hc l => by rw [hc, intDivRem_operands]
  case irem => exact results_of_perLane (fun _ => rfl) (fun _ => rfl) fun c hc l => by rw [hc, intDivRem_operands]

end Sys2Proof.Laws
